-- ==== Sys2Proof/Word.lean ====
section
/-! DEFINITION. Word: the widths the manual treats as bits (R1, R173). -/

namespace Sys2Proof

/-- One octet of a zone frame, an image, a chain exchange or a port block (R173). -/
abbrev Octet := BitVec 8

/-- Sixteen bits: a check, a counter, a generation, a stamp, the event flags, a zone mask. -/
abbrev Half := BitVec 16

/-- A value of the local millisecond counter, which wraps after 4,294,967,295 (R1). -/
abbrev Tick := BitVec 32

end Sys2Proof
end

