-- ==== Sys2Proof/Syntax.lean ====
section
/-! DEFINITION. Syntax: the commands of the block, one constructor for each row of spec/opcode_table.json.
The table gives the rows no fields; an operand carries what the outside world brings to the step (log entry 23). -/

namespace Sys2Proof

/-- The three causes of a FULL RESET (R159). -/
inductive ResetCause
  | powerOn | resetLine | brownOut
  deriving DecidableEq, Repr

/-- The four threshold crossings that move the voltage band (R157). -/
inductive Crossing
  | below20V0 | below18V0 | above19V0 | above20V5
  deriving DecidableEq, Repr

/-- Level of a sense line (R79). -/
inductive LineLevel
  | low | high
  deriving DecidableEq, Repr

/-- Level of the supply-source line: asserted is EMERGENCY (R158). -/
inductive SourceLevel
  | mains | emergency
  deriving DecidableEq, Repr

/-- What ends a frame short (R17). -/
inductive ShortCause
  | badStop | badStartOctet | silence
  deriving DecidableEq, Repr

/-- The commands. `args` of a local-port command are the octets of its block after the command code (Table 12-7). -/
inductive Instr
  /-- FULL_RESET (R159). -/
  | fullReset (cause : ResetCause)
  /-- RESET_RELEASE (R159): the voltage and the source sample at that moment. -/
  | resetRelease (millivolts : Nat) (source : SourceLevel)
  /-- IMAGE_LOAD_DONE (R160): the octets read from the configuration memory. -/
  | imageLoadDone (image : List Octet)
  /-- JOIN_TIMER (R163). -/
  | joinTimer
  /-- VOLTAGE_CROSSING (R157); `begun` is how many octets of a frame in SENDING have begun, the start octet among them (R32). -/
  | voltageCrossing (crossing : Crossing) (begun : Nat)
  /-- SOURCE_LINE_ACCEPT (R158). -/
  | sourceLineAccept
  /-- DAY_WRAP (R4). -/
  | dayWrap
  /-- COMPARATOR_MATCH (R49). -/
  | comparatorMatch
  /-- SOURCE_HOLD (R7): the station of the record. -/
  | sourceHold (station : Nat)
  /-- TIME_MARK (R9): the frame at the head of the TIME queue. -/
  | timeMark
  /-- MARK_TIMER (R11). -/
  | markTimer
  /-- FRAME_HEADER (R18): the five header octets. -/
  | frameHeader (kind source dest seq len : Octet)
  /-- FRAME_END_SHORT (R17). -/
  | frameEndShort (cause : ShortCause)
  /-- FRAME_RECEIVED (R21): the payload and the two check octets as received. -/
  | frameReceived (payload : List Octet) (checkHigh checkLow : Octet)
  /-- TRANSMIT_BEGIN (R28): the idle time of the line, in bit times. -/
  | transmitBegin (idle : Nat)
  /-- COLLISION (R29). -/
  | collision
  /-- JAM_END (R30). -/
  | jamEnd
  /-- BACKOFF_END (R30). -/
  | backoffEnd
  /-- TRANSMIT_COMPLETE (R31). -/
  | transmitComplete
  /-- ABORTED_TAIL_END (R32). -/
  | abortedTailEnd
  /-- PROGRAMME_ITEM (R40): the frame at the head of the PROGRAMME queue. -/
  | programmeItem
  /-- PROGRAMME_SUMMARY (R59): the frame at the head of the PROGRAMME queue. -/
  | programmeSummary
  /-- ITEM_REQUEST (R65): the frame at the head of the PROGRAMME queue. -/
  | itemRequest
  /-- SUMMARY_TIMER (R58). -/
  | summaryTimer
  /-- EARLY_SUMMARY (R60). -/
  | earlySummary
  /-- REQUEST_TIMER (R64): the publisher of the record. -/
  | requestTimer (publisher : Nat)
  /-- ANSWER_HOLD (R66). -/
  | answerHold
  /-- PUBLISH_ITEM (R70). -/
  | publishItem (args : List Octet)
  /-- WITHDRAW_ITEM (R71). -/
  | withdrawItem (args : List Octet)
  /-- PRESENCE_TIMER (R77): the index of the neighbour entry. -/
  | presenceTimer (index : Nat)
  /-- SENSE_LINE_ACCEPT (R80). -/
  | senseLineAccept (line : Fin 8)
  /-- SEGMENT_STATE (R82): the frame at the head of the ROUTE queue. -/
  | segmentState
  /-- DECLARE_SEGMENT (R83). -/
  | declareSegment (args : List Octet)
  /-- ROUTE_ADVERT (R92): the frame at the head of the ROUTE queue. -/
  | routeAdvert
  /-- ADVERT_TIMER (R97). -/
  | advertTimer
  /-- TRIGGERED_ADVERT (R98). -/
  | triggeredAdvert
  /-- QUERY_ROUTE (R102). -/
  | queryRoute (args : List Octet)
  /-- MUSTER_ORDER (R110): the frame at the head of the MUSTER queue. -/
  | musterOrder
  /-- STAND_DOWN_TIMER (R114). -/
  | standDownTimer
  /-- ECHO_TIMER (R115). -/
  | echoTimer
  /-- JOIN_PROMPT_ECHO (R116). -/
  | joinPromptEcho
  /-- ISSUE_ORDER (R117). -/
  | issueOrder (args : List Octet)
  /-- SWEEP_REFRESH_TIMER (R122). -/
  | sweepRefreshTimer
  /-- CABIN_REPORT (R124): the frame at the head of the MUSTER queue. -/
  | cabinReport
  /-- READ_ROLL (R125). -/
  | readRoll (args : List Octet)
  /-- POLL_DUE (R131): whether BUSY reads asserted at this moment. -/
  | pollDue (busy : Bool)
  /-- BUSY_RELEASE_START (R129). -/
  | busyReleaseStart
  /-- CHAIN_STALL (R129). -/
  | chainStall
  /-- TRANSACTION_END (R128): the octets read on DATA, the reply check last. -/
  | transactionEnd (reply : List Octet)
  /-- CHAIN_TIMEOUT (R130). -/
  | chainTimeout
  /-- CHAIN_RESET_PULSE_END (R127). -/
  | chainResetPulseEnd
  /-- LINE_TEST_START (R138). -/
  | lineTestStart
  /-- LINE_TEST_END (R140): whether BUSY is still asserted, whether DATA driven low reads high, whether DATA driven high reads low. -/
  | lineTestEnd (busy lowReadsHigh highReadsLow : Bool)
  /-- TEST_CHAIN (R139). -/
  | testChain (args : List Octet)
  /-- DRIVE_TIMER (R151): the chain position. -/
  | driveTimer (position : Nat)
  /-- READ_PLATE (R143). -/
  | readPlate (args : List Octet)
  /-- READ_VIEW (R168). -/
  | readView (args : List Octet)
  /-- READ_ITEM (R55). -/
  | readItem (args : List Octet)
  /-- READ_ROUTE (R168). -/
  | readRoute (args : List Octet)
  /-- READ_EVENTS (R171). -/
  | readEvents (args : List Octet)
  /-- SET_EVENT_MASK (R171). -/
  | setEventMask (args : List Octet)
  /-- READ_COUNTERS (R170). -/
  | readCounters (args : List Octet)
  /-- CLEAR_COUNTERS (R170). -/
  | clearCounters (args : List Octet)
  /-- SET_TIME (R13). -/
  | setTime (args : List Octet)
  /-- RESTART (R165). -/
  | restart (args : List Octet)
  /-- UNKNOWN_COMMAND (R167): the whole block. -/
  | unknownCommand (block : List Octet)
  /-- COMMAND_OVERRUN (R166): the whole block. -/
  | commandOverrun (block : List Octet)
  /-- RESPONSE_READ (R166). -/
  | responseRead
  /-- ATTENTION_PACING (R172). -/
  | attentionPacing
  /-- START_OCTET (R17): the idle time before it in bit times, its value, and whether its stop bit is good. -/
  | startOctet (idle : Nat) (octet : Octet) (goodStop : Bool)
  /-- FOLLOWED_FRAME_END (R19). -/
  | followedFrameEnd
  /-- SENSE_LINE_CHANGE (R79): the line and the level sampled. -/
  | senseLineChange (line : Fin 8) (level : LineLevel)
  /-- SOURCE_LINE_CHANGE (R158): the level sampled. -/
  | sourceLineChange (level : SourceLevel)
  deriving DecidableEq, Repr

end Sys2Proof
end

