-- ==== Sys2Proof/Decode.lean ====
section
/-! DEFINITION. Decode: the commands that words spell. No row of spec/opcode_table.json gives bits, so no word spells a command (log entry 31). -/

namespace Sys2Proof

/-- The command that the word `w` of `nbits` bits spells by the table's bits: the table gives bits to no row. -/
def decodeTableWord (_nbits _w : Nat) : Option Instr := none

end Sys2Proof
end

