-- ==== Sys2Proof/Config.lean ====
section
/-! DEFINITION. Config: the free values of the model and the fixed durations the manual gives, in milliseconds. -/

namespace Sys2Proof

/-- The node's pseudo-random sequence (0.11): the manual gives no generator and says that any value of the stated range may occur on any draw.
The `n`-th draw is this constant applied to `n`; nothing constrains it (log entry 3). -/
opaque Config.freeDraw : Nat → Nat

/-- Mark timer of a TIME SOURCE node (R11). -/
def Config.markInterval : Nat := 20000
/-- Source hold of a time-source record (R7). -/
def Config.sourceHold : Nat := 60000
/-- Step threshold of an applied mark (R10). -/
def Config.stepThreshold : Nat := 2000
/-- Request timer of a catch-up (R62). -/
def Config.requestTime : Nat := 4000
/-- Shortest time between two advert offers (R98). -/
def Config.triggerSpacing : Nat := 1000
/-- Stand-down period (R113). -/
def Config.standDownTime : Nat := 120000
/-- Sweep refresh interval (R122). -/
def Config.sweepRefreshTime : Nat := 30000
/-- Drive timer of a refresh (R150). -/
def Config.driveTime : Nat := 4000
/-- Limit of a BUSY wait on the plate chain (R129, R130, R138). -/
def Config.busyLimit : Nat := 20
/-- Length of a reset pulse on the plate chain (R127). -/
def Config.pulseTime : Nat := 1
/-- Join window (R163). -/
def Config.joinTime : Nat := 8000
/-- Samples after which a line filter takes a level (R79, R158). -/
def Config.filterRun : Nat := 20

end Sys2Proof
end

