-- ==== Sys2Proof/Machine/State.lean ====
section
/-! DEFINITION. State: every piece of state the manual gives the node, block by block (Table 0-1), as plain data, and State.reset. -/

namespace Sys2Proof.Machine

/-- A running timer: it has expired when the local counter has advanced from `start` by `len`, modulo 2^32 (R1). -/
structure Timer where
  start : Tick
  len : Nat
  deriving DecidableEq, Repr

/-! ### Timebase (Section 1) -/

/-- Ship time as four cascaded fields (Table 1-1). -/
structure ShipTime where
  day : Nat
  minute : Nat
  second : Nat
  ms : Nat
  deriving DecidableEq, Repr

/-- A record of the time-source list (Table 1-2). -/
structure SourceRecord where
  station : Nat
  lastHeard : ShipTime
  heardAt : Tick
  deriving DecidableEq, Repr

/-- State of the Timebase (Table 1-1). -/
structure Timebase where
  now : Tick
  isSet : Bool
  ship : ShipTime
  sources : List SourceRecord
  pendingShift : Int
  markTimer : Option Timer
  deriving DecidableEq, Repr

/-! ### Zone Bus Controller (Section 2) -/

/-- Frame kinds 1..8 (Table 2-3). -/
inductive FrameKind
  | programmeItem | programmeSummary | itemRequest | routeAdvert | segmentState | musterOrder | cabinReport | timeMark
  deriving DecidableEq, Repr

/-- Medium access classes (Table 2-3). -/
inductive FrameClass
  | urgent | route | routine
  deriving DecidableEq, Repr

/-- A received frame as a slot holds it: header fields, payload and capture (R21). -/
structure RxFrame where
  kind : FrameKind
  source : Nat
  dest : Nat
  seq : Octet
  payload : List Octet
  capture : Tick
  deriving DecidableEq, Repr

/-- The header of a frame being assembled (R18). -/
structure FrameHead where
  kind : FrameKind
  source : Nat
  dest : Nat
  seq : Octet
  len : Nat
  deriving DecidableEq, Repr

/-- Receiver state (Table 2-1): HUNT, FRAME with its capture and, once it has arrived, its header, or FOLLOW with the stated payload length. -/
inductive Receiver
  | hunt
  | frame (capture : Tick) (head : Option FrameHead)
  | follow (len : Nat)
  deriving DecidableEq, Repr

/-- What a SEGMENT STATE notes of a CLEAR entry it carries (R84). -/
structure ClearNote where
  segment : Nat
  issue : Octet
  deriving DecidableEq, Repr

/-- A frame offered and accepted. `answer` says that it is the active answer's outstanding frame (R68, R69; log entry 27). -/
structure TxFrame where
  kind : FrameKind
  dest : Nat
  seq : Octet
  payload : List Octet
  notes : List ClearNote
  answer : Bool
  deriving DecidableEq, Repr

/-- Transmitter states with a frame in the buffer (Table 2-6).
`backoff` holds the slots drawn; `held` holds them while a backoff runs out during the hold (R33);
`sending` holds the octets of the frame as they go on the line, and whether its tail is aborted (R32). -/
inductive TxPhase
  | waiting (spread : Nat)
  | sending (wire : List Octet) (aborted : Bool)
  | jamming
  | backoff (slots : Nat)
  | held (backoff : Option Nat)
  deriving DecidableEq, Repr

/-- The transmit buffer when it is not EMPTY: `capture` is that of the latest start bit (R2), `condemned` marks a frame
the muster purge leaves to finish on the line (R34). -/
structure TxBuffer where
  frame : TxFrame
  attempts : Nat
  phase : TxPhase
  capture : Option Tick
  condemned : Bool
  deriving DecidableEq, Repr

/-- State of the Zone Bus Controller (Table 2-1), but for its counters. -/
structure ZoneBus where
  receiver : Receiver
  timeQ : List RxFrame
  programmeQ : List RxFrame
  routeQ : List RxFrame
  musterQ : List RxFrame
  queue : List TxFrame
  buffer : Option TxBuffer
  nextSeq : Octet
  deriving DecidableEq, Repr

/-! ### Programme Store (Section 3) -/

/-- Status of an item (Table 3-2). -/
inductive ItemStatus
  | scheduled | cancelled
  deriving DecidableEq, Repr

/-- Category of an item (Table 3-2). -/
inductive Category
  | showing | dining | activity | talk | service | drill
  deriving DecidableEq, Repr

/-- Phase of an entry (Table 3-2). -/
inductive Phase
  | pending | onNow
  deriving DecidableEq, Repr

/-- The fields of an item body (Table 3-2). -/
structure ItemBody where
  publisher : Nat
  item : Nat
  revision : Nat
  status : ItemStatus
  category : Category
  day : Nat
  start : Nat
  duration : Nat
  venue : Nat
  titleKey : Nat
  deck : Option Nat
  deriving DecidableEq, Repr

/-- A programme entry: an item body and its phase. -/
structure Entry where
  body : ItemBody
  phase : Phase
  deriving DecidableEq, Repr

/-- The composed view (Table 3-4). -/
structure View where
  onNow : List Nat
  next : List Nat
  venues : List (Option Nat × Option Nat)
  generation : Half
  deriving DecidableEq, Repr

/-- State of the Programme Store (Table 3-1); `comparator` is `none` when IDLE. -/
structure Store where
  table : List Entry
  generation : Half
  comparator : Option Nat
  view : View
  deriving DecidableEq, Repr

/-- Outcomes of an application, in the order of Table 3-3. -/
inductive StoreOutcome
  | bad | refusedPublisher | stale | replaced | past | inserted | insertedEvicting | refusedFull
  deriving DecidableEq, Repr

/-! ### Programme Exchange Engine (Section 4) -/

/-- A publisher record (Table 4-2). -/
structure PubRecord where
  station : Nat
  highWater : Nat
  settled : Nat
  waiting : Bool
  reqSeq : Option Octet
  attempts : Nat
  timer : Option Timer
  deriving DecidableEq, Repr

/-- An answer queue entry (Table 4-3). -/
structure AnswerEntry where
  requester : Nat
  publisher : Nat
  after : Nat
  seq : Octet
  deriving DecidableEq, Repr

/-- Phase of the active answer (Table 4-3). -/
inductive AnswerPhase
  | hold (timer : Timer)
  | walk
  deriving DecidableEq, Repr

/-- The active answer (Table 4-3). `outstanding` says whether an offered answer frame has yet to be reported,
`closing` whether that frame is the close (R69). -/
structure ActiveAnswer where
  entry : AnswerEntry
  phase : AnswerPhase
  lastSent : Nat
  outstanding : Bool
  closing : Bool
  deriving DecidableEq, Repr

/-- State of the Programme Exchange Engine (Table 4-1), but for its counter. -/
structure Exchange where
  records : List PubRecord
  summaryTimer : Option Timer
  early : Option Timer
  answers : List AnswerEntry
  active : Option ActiveAnswer
  deriving DecidableEq, Repr

/-! ### Neighbour and Segment Monitor (Section 5) -/

/-- Kind of a segment (Table 5-2). -/
inductive SegKind
  | corridor | stair | lift | fireClosure | watertightClosure
  deriving DecidableEq, Repr

/-- Path side of a neighbour entry (Table 5-2). -/
inductive PathSide
  | none | a | b
  deriving DecidableEq, Repr

/-- Presence of a neighbour (Table 5-2). -/
inductive Presence
  | unknown | up | down
  deriving DecidableEq, Repr

/-- Closure state (Table 5-3). -/
inductive Closure
  | opened | closed | unknown
  deriving DecidableEq, Repr

/-- The configured fields of a neighbour entry (Table 5-2). -/
structure NeighbourConfig where
  station : Nat
  segment : Nat
  cost : Nat
  kind : SegKind
  bearing : Nat
  side : PathSide
  sense : Option (Fin 8 × LineLevel)
  deriving DecidableEq, Repr

/-- A neighbour entry with its segment record (Tables 5-2 and 5-3). -/
structure Neighbour where
  fixed : NeighbourConfig
  presence : Presence
  presenceTimer : Option Timer
  closure : Closure
  remote : Bool
  blocked : Bool
  passable : Bool
  deriving DecidableEq, Repr

/-- A sense-line filter (R79); it runs while it has a candidate (log entry 36).
`sampled`: the sample of the coming millisecond has been taken by a command (the model's own field, log entry 35). -/
structure Filter where
  accepted : Option LineLevel
  candidate : Option LineLevel
  run : Nat
  sampled : Bool
  deriving DecidableEq, Repr

/-- A declared list entry (Table 5-4). -/
structure Declared where
  segment : Nat
  blocked : Bool
  issue : Octet
  deriving DecidableEq, Repr

/-- State of the Neighbour and Segment Monitor (Table 5-1). -/
structure Monitor where
  neighbours : List Neighbour
  filters : Vector Filter 8
  declared : List Declared
  deriving DecidableEq, Repr

/-! ### Route Engine and Path Light Unit (Section 6) -/

/-- Class of a destination (Table 6-2). -/
inductive DestClass
  | muster | venue | service
  deriving DecidableEq, Repr

/-- Standing of a route (Table 6-3). -/
inductive RouteState
  | isLocal | valid | unreachable
  deriving DecidableEq, Repr

/-- A route entry (Table 6-3). -/
structure RouteEntry where
  code : Nat
  cls : DestClass
  state : RouteState
  distance : Nat
  nextHop : Option Nat
  changed : Bool
  deriving DecidableEq, Repr

/-- State of the Route Engine (Table 6-1), but for its counter. -/
structure RouteEngine where
  table : List RouteEntry
  advertTimer : Option Timer
  trigger : Option Timer
  lastOffer : Option Tick
  deriving DecidableEq, Repr

/-- State of a path-light output (Table 6-1). -/
inductive Lamp
  | off | steady | flash
  deriving DecidableEq, Repr

/-- State of the Path Light Unit (Table 6-1). -/
structure PathLights where
  a : Lamp
  b : Lamp
  deriving DecidableEq, Repr

/-! ### Muster Controller (Section 7) -/

/-- Muster levels (Table 7-2). -/
inductive Level
  | normal | standby | muster | standDown
  deriving DecidableEq, Repr

/-- Issue time: ship time to the second (Table 7-4). -/
structure IssueTime where
  day : Nat
  minute : Nat
  second : Nat
  deriving DecidableEq, Repr

/-- A pair of a closed code and its alternate (Table 7-4). -/
structure Redirect where
  closed : Nat
  alternate : Nat
  deriving DecidableEq, Repr

/-- An order as a frame or a command carries it (7.2), without the echo flag. -/
structure Order where
  authority : Nat
  serial : Nat
  level : Level
  drill : Bool
  zones : Half
  issue : Option IssueTime
  redirects : List Redirect
  deriving DecidableEq, Repr

/-- The current order record (Table 7-4). -/
structure OrderRecord where
  authority : Option Nat
  serial : Nat
  level : Level
  drill : Bool
  zones : Half
  issue : Option IssueTime
  redirects : List Redirect
  lapsed : Bool
  deriving DecidableEq, Repr

/-- Health as a cabin report carries it (R121). -/
inductive CabinHealth
  | unknown | ok | failed
  deriving DecidableEq, Repr

/-- A pending cabin report (R121). -/
structure CabinEntry where
  position : Nat
  cabin : Nat
  swept : Bool
  health : CabinHealth
  dnd : Bool
  mur : Bool
  deriving DecidableEq, Repr

/-- A sweep roll entry (Table 7-6). -/
structure RollEntry where
  cabin : Nat
  swept : Bool
  dnd : Bool
  mur : Bool
  health : CabinHealth
  station : Nat
  received : Option IssueTime
  deriving DecidableEq, Repr

/-- State of the Muster Controller (Table 7-1), but for its counters and the sweep states, which the plate records hold.
`builderWaits` is set by a refused offer until a report joins the list (R123). -/
structure MusterControl where
  authorities : List Nat
  record : OrderRecord
  highestSeen : Nat
  standDown : Option Timer
  echoTimer : Option Timer
  joinEcho : Option Timer
  pendingReports : List CabinEntry
  reportOutstanding : Bool
  builderWaits : Bool
  sweepRefresh : Option Timer
  roll : List RollEntry
  deriving DecidableEq, Repr

/-! ### Plate Chain Controller (Section 8) -/

/-- What a chain transaction writes or reads (Table 8-3, R149). -/
inductive ChainOp
  | poll | ident | musterBlock | status | drive
  deriving DecidableEq, Repr

/-- Phase of a transaction (R128). -/
inductive ChainPhase
  | start | select | data | finish
  deriving DecidableEq, Repr

/-- The transaction on the chain: `startedAt` is the entry to START, `phaseAt` the entry to the present phase. -/
structure Transaction where
  position : Nat
  op : ChainOp
  phase : ChainPhase
  startedAt : Tick
  phaseAt : Tick
  deriving DecidableEq, Repr

/-- Engine state (Table 8-4); in TEST, `wait` is the wait for BUSY once the reset pulse has ended (R138). -/
inductive Engine
  | idle
  | transaction (t : Transaction)
  | test (wait : Option Timer)
  deriving DecidableEq, Repr

/-- Service state of the chain (Table 8-1). -/
inductive Service
  | untested | inService | outOfService
  deriving DecidableEq, Repr

/-- Last chain result (Table 8-1). -/
inductive ChainResult
  | none | ok | dataStuckLow | dataStuckHigh | busyStuck
  deriving DecidableEq, Repr

/-- State of the Plate Chain Controller that is not a plate's (Table 8-1), with the CHAIN RESET line it drives. -/
structure ChainControl where
  engine : Engine
  service : Service
  lastResult : ChainResult
  testPending : Bool
  chainReset : Bool
  pulse : Option Timer
  deriving DecidableEq, Repr

/-! ### Refresh Scheduler (Section 9) -/

/-- Health of a plate (Table 8-1). -/
inductive Health
  | unknown | responding | notResponding
  deriving DecidableEq, Repr

/-- Press state of a plate's button (Table 8-1). -/
inductive Press
  | released
  | pressed (count : Nat)
  | latched
  deriving DecidableEq, Repr

/-- Drive status of a plate (Table 8-1). -/
inductive DriveStatus
  | idle | driving | done
  deriving DecidableEq, Repr

/-- Layout of a content (Table 9-3). -/
inductive Layout
  | normal | muster | standDown | outOfService
  deriving DecidableEq, Repr

/-- Sweep mark of a content (Table 9-3). -/
inductive SweepMark
  | none | notSwept | swept
  deriving DecidableEq, Repr

/-- A content (Table 9-3). -/
structure Content where
  layout : Layout
  code : Nat
  drill : Bool
  mark : SweepMark
  dnd : Bool
  mur : Bool
  deriving DecidableEq, Repr

/-- Refresh state of a plate (Table 9-2). -/
inductive RefreshState
  | idle | queued | load | drive
  deriving DecidableEq, Repr

/-- A plate: its chain state (Table 8-1) and its plate record (Table 9-2). Its place in the list is its chain position. -/
structure Plate where
  cabin : Nat
  assigned : Nat
  health : Health
  failureRun : Nat
  pollDue : Option Timer
  switchDnd : Bool
  switchMur : Bool
  press : Press
  driveStatus : Option DriveStatus
  dnd : Bool
  mur : Bool
  swept : Bool
  target : Content
  targetStamp : Half
  shown : Option (Content × Half)
  refresh : RefreshState
  partialCount : Nat
  deriving DecidableEq, Repr

/-- A refresh in flight (Table 9-1): in DRIVE when `driveTimer` runs, else in LOAD with `next` its next transaction. -/
structure Refresh where
  position : Nat
  content : Content
  stamp : Half
  full : Bool
  next : ChainOp
  driveTimer : Option Timer
  cancelled : Bool
  pressNoted : Bool
  deriving DecidableEq, Repr

/-- State of the Refresh Scheduler (Table 9-1): `queue` holds the queued positions in join order. -/
structure Scheduler where
  plates : List Plate
  queue : List Nat
  flight : List Refresh
  deriving DecidableEq, Repr

/-! ### Supply Monitor and start-up sequencer (Section 10) -/

/-- Voltage band (Table 10-1). -/
inductive Band
  | ok | warn | critical
  deriving DecidableEq, Repr

/-- Supply state (Table 10-1). -/
inductive SupplyState
  | mains | emergency | low | critical
  deriving DecidableEq, Repr

/-- State of the Supply Monitor (Table 10-1); `sampled` as in `Filter` (log entry 35). -/
structure Supply where
  band : Band
  accepted : SourceLevel
  candidate : SourceLevel
  run : Nat
  sampled : Bool
  deriving DecidableEq, Repr

/-- Node states (Table 10-5). -/
inductive NodeState
  | reset | loading | chainTest | joining | run | fault
  deriving DecidableEq, Repr

/-- Load result (Table 10-1). -/
inductive LoadResult
  | none | valid | badCheck | badVersion | badContent
  deriving DecidableEq, Repr

/-- A destination of the zone destination list (Table 6-2). -/
structure Destination where
  code : Nat
  cls : DestClass
  isLocal : Bool
  deriving DecidableEq, Repr

/-- The roles of the configuration (Table 0-2). -/
structure Roles where
  publisher : Bool
  authority : Bool
  timeSource : Bool
  console : Bool
  plates : Bool
  deriving DecidableEq, Repr

/-- A configured plate: cabin number and assigned muster code (Table 10-2). -/
structure PlateConfig where
  cabin : Nat
  assigned : Nat
  deriving DecidableEq, Repr

/-- The contents of a valid image (Table 10-2). -/
structure Configuration where
  station : Nat
  zone : Nat
  deck : Nat
  roles : Roles
  authorities : List Nat
  neighbours : List NeighbourConfig
  destinations : List Destination
  venues : List Nat
  pathCode : Nat
  chase : Nat
  plates : List PlateConfig
  pacing : Nat
  deriving DecidableEq, Repr

/-- State of the start-up sequencer and the Configuration Loader (Table 10-1).
`firstFailed` is 0 for none, else the number of the check of Table 10-4; `seed` is what the pseudo-random sequence was seeded from (R160). -/
structure Sequencer where
  state : NodeState
  joinTimer : Option Timer
  loadResult : LoadResult
  firstFailed : Nat
  config : Option Configuration
  seed : Option Nat
  deriving DecidableEq, Repr

/-! ### Local Port, Event Unit and counters (Section 11) -/

/-- Port state (Table 11-1). -/
inductive PortState
  | idle | busy | ready
  deriving DecidableEq, Repr

/-- State of the Local Port (Table 11-1). -/
structure LocalPort where
  state : PortState
  command : List Octet
  response : List Octet
  overrun : Bool
  deriving DecidableEq, Repr

/-- The sixteen event flags, in the order in which they are reported (Table 11-5, R175). -/
inductive Event
  | level | orderFault | time | programme | catchUpFailed | neighbour | segment | route
  | plate | sweep | roll | rollFull | stationClash | supply | transmitLoss | chainFault
  deriving DecidableEq, Repr

/-- State of the Event Unit (Table 11-1); bit n of `flags` and `enables` stands for the n-th flag (R175). -/
structure EventUnit where
  flags : Half
  enables : Half
  attention : Bool
  lastAssert : Option Tick
  deriving DecidableEq, Repr

/-- The twenty-two counters, in the order in which they are reported (Table 11-4). -/
structure Counters where
  framesSent : Half
  framesReceived : Half
  checkErrors : Half
  framingErrors : Half
  overruns : Half
  shed : Half
  collisions : Half
  discards : Half
  queueRefusals : Half
  aborted : Half
  staleItems : Half
  badItems : Half
  evictedItems : Half
  refusedItems : Half
  answersSuppressed : Half
  unknownDestinations : Half
  ordersRefused : Half
  ordersStale : Half
  orderConflicts : Half
  rollRefusals : Half
  chainTimeouts : Half
  ignoredPresses : Half
  deriving DecidableEq, Repr

/-- The levels of the input lines as last read (0.3; log entry 4). -/
structure Pins where
  sense : Vector LineLevel 8
  source : SourceLevel
  busy : Bool
  deriving DecidableEq, Repr

/-! ### The whole -/

/-- The machine. `free` counts the free values drawn (log entry 3), `pending` holds the commands waiting. -/
structure State where
  time : Timebase
  bus : ZoneBus
  store : Store
  exch : Exchange
  mon : Monitor
  route : RouteEngine
  lights : PathLights
  muster : MusterControl
  chain : ChainControl
  sched : Scheduler
  supply : Supply
  node : Sequencer
  port : LocalPort
  events : EventUnit
  counters : Counters
  pins : Pins
  free : Nat
  pending : List Instr
  deriving DecidableEq, Repr

/-- No command of this block ends in a fault: the node state FAULT (R164) is a state of the machine, not an end of it. -/
inductive Fault
  /-- Raised by no command; the type keeps one name so that claims can say that it never occurs. Safe: nothing answers with it. -/
  | none
  deriving DecidableEq, Repr

/-- Why a command has no meaning. -/
inductive Refusal
  /-- Raised by an arm of `exec` whose command has no meaning in the model yet; no arm does. Safe: the model stops where the node goes on. -/
  | notModelled (mnemonic : String)
  deriving DecidableEq, Repr

/-- Timebase after FULL RESET (R15). -/
def Timebase.reset : Timebase :=
  { now := 0, isSet := false, ship := ⟨0, 0, 0, 0⟩, sources := [], pendingShift := 0, markTimer := none }

/-- Zone Bus Controller after either reset (R36). -/
def ZoneBus.reset : ZoneBus :=
  { receiver := .hunt, timeQ := [], programmeQ := [], routeQ := [], musterQ := [], queue := [], buffer := none, nextSeq := 0 }

/-- Programme Store after either reset (R56); with no configuration there is no own venue. -/
def Store.reset : Store :=
  { table := [], generation := 0, comparator := none, view := { onNow := [], next := [], venues := [], generation := 0 } }

/-- Programme Exchange Engine after either reset (R74). -/
def Exchange.reset : Exchange :=
  { records := [], summaryTimer := none, early := none, answers := [], active := none }

/-- Neighbour and Segment Monitor after either reset (R89). R89 gives a stopped filter its accepted level and run count alone:
its candidate is held absent (log entry 36), and no sample is taken for a coming millisecond (log entry 35). -/
def Monitor.reset : Monitor :=
  { neighbours := [], filters := Vector.replicate 8 ⟨none, none, 0, false⟩, declared := [] }

/-- Route Engine after either reset (R107). -/
def RouteEngine.reset : RouteEngine :=
  { table := [], advertTimer := none, trigger := none, lastOffer := none }

/-- The order record after either reset (R109, R126). -/
def OrderRecord.reset : OrderRecord :=
  { authority := none, serial := 0, level := .normal, drill := false, zones := 0, issue := none, redirects := [], lapsed := false }

/-- Muster Controller after either reset (R126). -/
def MusterControl.reset : MusterControl :=
  { authorities := [], record := .reset, highestSeen := 0, standDown := none, echoTimer := none, joinEcho := none,
    pendingReports := [], reportOutstanding := false, builderWaits := false, sweepRefresh := none, roll := [] }

/-- Plate Chain Controller after either reset (R142): CHAIN RESET is asserted. -/
def ChainControl.reset : ChainControl :=
  { engine := .idle, service := .untested, lastResult := .none, testPending := false, chainReset := true, pulse := none }

/-- Supply Monitor in RESET: the manual takes band and source on leaving RESET (R157, R158); until then the values of log entries 5 and 35. -/
def Supply.reset : Supply :=
  { band := .ok, accepted := .mains, candidate := .mains, run := 0, sampled := false }

/-- Start-up sequencer after either reset (R165). -/
def Sequencer.reset : Sequencer :=
  { state := .reset, joinTimer := none, loadResult := .none, firstFailed := 0, config := none, seed := none }

/-- Local Port after FULL RESET (R165, R166). -/
def LocalPort.reset : LocalPort :=
  { state := .idle, command := [], response := [], overrun := false }

/-- Event Unit after FULL RESET (R171, R172): all flags clear, all enables set. -/
def EventUnit.reset : EventUnit :=
  { flags := 0, enables := 0xFFFF, attention := false, lastAssert := none }

/-- All 22 counters at 0 (R170). -/
def Counters.zero : Counters :=
  { framesSent := 0, framesReceived := 0, checkErrors := 0, framingErrors := 0, overruns := 0, shed := 0, collisions := 0,
    discards := 0, queueRefusals := 0, aborted := 0, staleItems := 0, badItems := 0, evictedItems := 0, refusedItems := 0,
    answersSuppressed := 0, unknownDestinations := 0, ordersRefused := 0, ordersStale := 0, orderConflicts := 0,
    rollRefusals := 0, chainTimeouts := 0, ignoredPresses := 0 }

/-- Input levels before the outside world has set them (log entry 4). -/
def Pins.reset : Pins :=
  { sense := Vector.replicate 8 .low, source := .mains, busy := false }

/-- The machine right after FULL RESET (R159, R165). -/
def State.reset : State :=
  { time := .reset, bus := .reset, store := .reset, exch := .reset, mon := .reset, route := .reset,
    lights := ⟨.off, .off⟩, muster := .reset, chain := .reset, sched := ⟨[], [], []⟩, supply := .reset,
    node := .reset, port := .reset, events := .reset, counters := .zero, pins := .reset, free := 0, pending := [] }

/-! ### One update for each block: a meaning changes a block through its update alone. -/

/-- Change the `time` part alone. -/
def State.modTime (s : State) (f : Timebase → Timebase) : State := { s with time := f s.time }

/-- Change the `bus` part alone. -/
def State.modBus (s : State) (f : ZoneBus → ZoneBus) : State := { s with bus := f s.bus }

/-- Change the `store` part alone. -/
def State.modStore (s : State) (f : Store → Store) : State := { s with store := f s.store }

/-- Change the `exch` part alone. -/
def State.modExch (s : State) (f : Exchange → Exchange) : State := { s with exch := f s.exch }

/-- Change the `mon` part alone. -/
def State.modMon (s : State) (f : Monitor → Monitor) : State := { s with mon := f s.mon }

/-- Change the `route` part alone. -/
def State.modRoute (s : State) (f : RouteEngine → RouteEngine) : State := { s with route := f s.route }

/-- Change the `lights` part alone. -/
def State.modLights (s : State) (f : PathLights → PathLights) : State := { s with lights := f s.lights }

/-- Change the `muster` part alone. -/
def State.modMuster (s : State) (f : MusterControl → MusterControl) : State := { s with muster := f s.muster }

/-- Change the `chain` part alone. -/
def State.modChain (s : State) (f : ChainControl → ChainControl) : State := { s with chain := f s.chain }

/-- Change the `sched` part alone. -/
def State.modSched (s : State) (f : Scheduler → Scheduler) : State := { s with sched := f s.sched }

/-- Change the `supply` part alone. -/
def State.modSupply (s : State) (f : Supply → Supply) : State := { s with supply := f s.supply }

/-- Change the `node` part alone. -/
def State.modNode (s : State) (f : Sequencer → Sequencer) : State := { s with node := f s.node }

/-- Change the `port` part alone. -/
def State.modPort (s : State) (f : LocalPort → LocalPort) : State := { s with port := f s.port }

/-- Change the `events` part alone. -/
def State.modEvents (s : State) (f : EventUnit → EventUnit) : State := { s with events := f s.events }

/-- Change the `counters` part alone. -/
def State.modCounters (s : State) (f : Counters → Counters) : State := { s with counters := f s.counters }

/-- Change the `pins` part alone. -/
def State.modPins (s : State) (f : Pins → Pins) : State := { s with pins := f s.pins }

/-- Change the `free` part alone. -/
def State.modFree (s : State) (f : Nat → Nat) : State := { s with free := f s.free }

/-- Change the `pending` part alone. -/
def State.modPending (s : State) (f : List Instr → List Instr) : State := { s with pending := f s.pending }

end Sys2Proof.Machine
end

