-- ==== Sys2Proof/Machine/Flags.lean ====
section
/-! DEFINITION. Flags: event flags, the attention line and the saturating counters (R170 to R172, 0.8). -/

namespace Sys2Proof.Machine

/-- The bit that carries an event flag: left column of Table 11-5 first, then its right (R175). -/
def Event.bit : Event → Nat
  | .level => 0 | .orderFault => 1 | .time => 2 | .programme => 3
  | .catchUpFailed => 4 | .neighbour => 5 | .segment => 6 | .route => 7
  | .plate => 8 | .sweep => 9 | .roll => 10 | .rollFull => 11
  | .stationClash => 12 | .supply => 13 | .transmitLoss => 14 | .chainFault => 15

/-- The flag word with the one flag set. -/
def Event.mask (e : Event) : Half := (1 : Half) <<< e.bit

/-- Set an event flag; a flag set while set stays set (R171). -/
def setEvent (e : Event) (s : State) : State :=
  s.modEvents fun u => { u with flags := u.flags ||| e.mask }

/-- Set an event flag when the condition holds. -/
def setEventIf (c : Bool) (e : Event) (s : State) : State := if c then setEvent e s else s

/-- Whether an event flag is set. -/
def eventSet (e : Event) (s : State) : Bool := decide (s.events.flags &&& e.mask ≠ 0)

/-- A counter raised by one; it stops at 65535 (0.8). -/
def raised (c : Half) : Half := if c = 0xFFFF then c else c + 1

/-- The attention pacing: the configured one, 0 until a valid image is loaded (R172). -/
def pacing (s : State) : Nat :=
  match s.node.config with
  | some c => c.pacing
  | none => 0

/-- Whether a flag is set whose enable is set (R172). -/
def enabledFlag (s : State) : Bool := decide (s.events.flags &&& s.events.enables ≠ 0)

/-- Whether the pacing lets the line be asserted now: no assertion since the last reset, or the pacing has passed (R172). -/
def pacingPassed (s : State) : Bool :=
  match s.events.lastAssert with
  | none => true
  | some t => decide (pacing s ≤ (s.time.now - t).toNat)

/-- Bring the attention line to what R172 gives: released while nothing enabled is set, asserted when the pacing allows.
In RESET the line stays released; flags kept by a RESTART assert it as soon as the node leaves RESET. -/
def settleAttention (s : State) : State :=
  if s.node.state = .reset then s
  else if !enabledFlag s then s.modEvents fun u => { u with attention := false }
  else if s.events.attention then s
  else if pacingPassed s then s.modEvents fun u => { u with attention := true, lastAssert := some s.time.now }
  else s

/-- The counters in the order in which they are reported (Table 11-4). -/
def Counters.list (c : Counters) : List Half :=
  [c.framesSent, c.framesReceived, c.checkErrors, c.framingErrors, c.overruns, c.shed, c.collisions, c.discards,
   c.queueRefusals, c.aborted, c.staleItems, c.badItems, c.evictedItems, c.refusedItems, c.answersSuppressed,
   c.unknownDestinations, c.ordersRefused, c.ordersStale, c.orderConflicts, c.rollRefusals, c.chainTimeouts,
   c.ignoredPresses]

end Sys2Proof.Machine
end

