-- ==== Sys2Proof/Machine/Operands.lean ====
section
/-! DEFINITION. Operands: octet coding, checks, and every layout of Section 12 (R173 to R175). -/

namespace Sys2Proof.Machine

/-! ### Octets (R173) -/

/-- A number as one octet. -/
def o8 (n : Nat) : Octet := BitVec.ofNat 8 n

/-- A number as two octets, least significant first. -/
def le16 (n : Nat) : List Octet := [o8 n, o8 (n / 256)]

/-- Two octets, least significant first, as a number. -/
def rd16 (lo hi : Octet) : Nat := lo.toNat + 256 * hi.toNat

/-- Sixteen bits as two octets, least significant first. -/
def half16 (h : Half) : List Octet := le16 h.toNat

/-- Two octets, least significant first, as sixteen bits. -/
def rdHalf (lo hi : Octet) : Half := BitVec.ofNat 16 (rd16 lo hi)

/-- A truth value as bit 0 of a number. -/
def b1 (b : Bool) : Nat := if b then 1 else 0

/-- One shift of the check register: a 1 leaving the top combines it with 1021h. -/
def crcShift (r : Half) : Half := if r.msb then (r <<< 1) ^^^ 0x1021 else r <<< 1

/-- One octet taken into the check register, most significant bit first. -/
def crcOctet (r : Half) (o : Octet) : Half :=
  crcShift (crcShift (crcShift (crcShift (crcShift (crcShift (crcShift (crcShift
    (r ^^^ (o.zeroExtend 16 <<< 8)))))))))

/-- The check of R173 over the octets in order, from FFFFh, with no final inversion. -/
def check16 (l : List Octet) : Half := l.foldl crcOctet 0xFFFF

/-- The first octet of a check on the line. -/
def checkHigh (c : Half) : Octet := (c >>> 8).truncate 8

/-- The second octet of a check on the line. -/
def checkLow (c : Half) : Octet := c.truncate 8

/-- Cut the list into pieces of `size` octets, `n` of them. -/
def pieces (size : Nat) : Nat → List Octet → List (List Octet)
  | 0, _ => []
  | n + 1, l => l.take size :: pieces size n (l.drop size)

/-- Octet `i` of the list; octets beyond its end read as FFh. -/
def octetAt (l : List Octet) (i : Nat) : Octet := l.getD i 0xFF

/-- Two octets from place `i` as a number. -/
def rd16At (l : List Octet) (i : Nat) : Nat := rd16 (octetAt l i) (octetAt l (i + 1))

/-- An optional one-octet field: FFh when absent (R173). -/
def opt8 : Option Nat → Octet
  | some n => o8 n
  | none => 0xFF

/-! ### Ship time (R173) -/

/-- A ship time in six octets. -/
def ShipTime.octets (t : ShipTime) : List Octet := o8 t.day :: le16 t.minute ++ [o8 t.second] ++ le16 t.ms

/-- Six octets read as a ship time; the fields may be out of range. -/
def readShipTime (l : List Octet) : ShipTime :=
  { day := (octetAt l 0).toNat, minute := rd16At l 1, second := (octetAt l 3).toNat, ms := rd16At l 4 }

/-- The fields lie in the ranges of Table 1-1. -/
def ShipTime.inRange (t : ShipTime) : Bool := decide (t.day ≤ 255 ∧ t.minute ≤ 1439 ∧ t.second ≤ 59 ∧ t.ms ≤ 999)

/-- An issue time in four octets. -/
def IssueTime.octets (t : IssueTime) : List Octet := o8 t.day :: le16 t.minute ++ [o8 t.second]

/-- An optional issue time: FFh throughout when absent (Table 12-8). -/
def issueOctets : Option IssueTime → List Octet
  | some t => t.octets
  | none => [0xFF, 0xFF, 0xFF, 0xFF]

/-- A shift octet in two's complement (R173). -/
def shiftOctet (n : Int) : Octet := BitVec.ofInt 8 n

/-! ### Zone frames (Tables 12-1 to 12-4) -/

/-- The code of a frame kind (Table 2-3). -/
def FrameKind.code : FrameKind → Nat
  | .programmeItem => 1 | .programmeSummary => 2 | .itemRequest => 3 | .routeAdvert => 4
  | .segmentState => 5 | .musterOrder => 6 | .cabinReport => 7 | .timeMark => 8

/-- The frame kind of a code (Table 2-3). -/
def kindOf : Nat → Option FrameKind
  | 1 => some .programmeItem | 2 => some .programmeSummary | 3 => some .itemRequest | 4 => some .routeAdvert
  | 5 => some .segmentState | 6 => some .musterOrder | 7 => some .cabinReport | 8 => some .timeMark
  | _ => none

/-- The header octets of a frame (Table 12-1). -/
def headerOctets (kind : FrameKind) (source dest : Nat) (seq : Octet) (len : Nat) : List Octet :=
  [o8 kind.code, o8 source, o8 dest, seq, o8 len]

/-- A whole frame as it goes on the line (Table 12-1). -/
def frameOctets (source : Nat) (f : TxFrame) : List Octet :=
  let covered := headerOctets f.kind source f.dest f.seq f.payload.length ++ f.payload
  0xC5 :: covered ++ [checkHigh (check16 covered), checkLow (check16 covered)]

/-- Octets of a payload not yet begun become FFh filler (R32); `at` is the place of the first in the frame. -/
def fillFrom (begun : Nat) : Nat → List Octet → List Octet
  | _, [] => []
  | i, o :: l => (if i < begun then o else 0xFF) :: fillFrom begun (i + 1) l

/-- The frame with an aborted tail (R32): `begun` octets stand as they are, later payload octets are FFh,
check octets not begun are the complement of the check formed over header and payload as sent. -/
def abortedOctets (begun : Nat) (wire : List Octet) : List Octet :=
  let n := wire.length
  let header := (wire.drop 1).take 5
  let payload := fillFrom begun 6 ((wire.drop 6).take (n - 8))
  let c := check16 (header ++ payload)
  let high := if n - 2 < begun then octetAt wire (n - 2) else ~~~ checkHigh c
  let low := if n - 1 < begun then octetAt wire (n - 1) else ~~~ checkLow c
  wire.take 1 ++ header ++ payload ++ [high, low]

/-- The code of a category (Table 12-3). -/
def Category.code : Category → Nat
  | .showing => 0 | .dining => 1 | .activity => 2 | .talk => 3 | .service => 4 | .drill => 5

/-- The category of a code (Table 12-3). -/
def categoryOf : Nat → Option Category
  | 0 => some .showing | 1 => some .dining | 2 => some .activity | 3 => some .talk | 4 => some .service
  | 5 => some .drill | _ => none

/-- The code of a status (Table 12-3). -/
def ItemStatus.code : ItemStatus → Nat
  | .scheduled => 0 | .cancelled => 1

/-- The status of a code (Table 12-3). -/
def statusOf : Nat → Option ItemStatus
  | 0 => some .scheduled | 1 => some .cancelled | _ => none

/-- An item body in sixteen octets (Table 12-3). -/
def ItemBody.octets (b : ItemBody) : List Octet :=
  o8 b.publisher :: le16 b.item ++ le16 b.revision ++ [o8 (b.category.code + 16 * b.status.code), o8 b.day]
    ++ le16 b.start ++ le16 b.duration ++ le16 b.venue ++ le16 b.titleKey ++ [o8 (b.deck.getD 0)]

/-- The fields every item body must hold in range, once status and category are known (R40). -/
def ItemBody.inRange (b : ItemBody) : Bool :=
  decide (1 ≤ b.publisher ∧ b.publisher ≤ 127 ∧ 1 ≤ b.item ∧ b.item ≤ 4095 ∧ b.revision ≠ 0 ∧ b.start ≤ 1439
    ∧ 1 ≤ b.duration ∧ b.duration ≤ 720 ∧ b.venue ≤ 1023)
  && (match b.deck with
      | none => true
      | some d => decide (1 ≤ d ∧ d ≤ 20))

/-- Sixteen octets read as an item body and validated (R40, Table 12-3): `none` is a bad body. -/
def readBody (l : List Octet) : Option ItemBody :=
  let sc := (octetAt l 5).toNat
  match statusOf (sc / 16), categoryOf (sc % 16) with
  | some status, some category =>
    let deck := (octetAt l 15).toNat
    let b : ItemBody :=
      { publisher := (octetAt l 0).toNat, item := rd16At l 1, revision := rd16At l 3, status, category,
        day := (octetAt l 6).toNat, start := rd16At l 7, duration := rd16At l 9, venue := rd16At l 11,
        titleKey := rd16At l 13, deck := if deck = 0 then none else some deck }
    if b.inRange then some b else none
  | _, _ => none

/-- A reply part (Table 12-3). -/
structure ReplyPart where
  requester : Nat
  seq : Octet
  final : Bool
  through : Nat
  deriving DecidableEq, Repr

/-- A reply part in five octets; the final octet of a close is sent as 1. -/
def ReplyPart.octets (r : ReplyPart) : List Octet := [o8 r.requester, r.seq, o8 (b1 r.final)] ++ le16 r.through

/-- Five octets read as a reply part: any final octet but 0 is read as set. -/
def readReply (l : List Octet) : ReplyPart :=
  { requester := (octetAt l 0).toNat, seq := octetAt l 1, final := decide (octetAt l 2 ≠ 0), through := rd16At l 3 }

/-- The parts of a PROGRAMME ITEM payload (Table 12-2). -/
structure ItemParts where
  body : Option (List Octet)
  reply : Option ReplyPart
  deriving DecidableEq, Repr

/-- The parts a PROGRAMME ITEM payload declares, or `none` when its length disagrees with its presence octet (R40). -/
def readItemParts (l : List Octet) : Option ItemParts :=
  match l with
  | [] => none
  | p :: rest =>
    let hasBody := p.getLsbD 0
    let hasReply := p.getLsbD 1
    if rest.length = (if hasBody then 16 else 0) + (if hasReply then 5 else 0) then
      some { body := if hasBody then some (rest.take 16) else none,
             reply := if hasReply then some (readReply (if hasBody then rest.drop 16 else rest)) else none }
    else none

/-- A PROGRAMME ITEM payload from its parts. -/
def itemPayload (body : Option ItemBody) (reply : Option ReplyPart) : List Octet :=
  o8 (b1 body.isSome + 2 * b1 reply.isSome)
    :: (match body with | some b => b.octets | none => [])
    ++ (match reply with | some r => r.octets | none => [])

/-- A pair of a PROGRAMME SUMMARY: publisher and high-water. -/
def readPairs (l : List Octet) : Option (List (Nat × Nat)) :=
  if l.length % 3 = 0 ∧ l.length / 3 ≤ 8 then
    some ((pieces 3 (l.length / 3) l).map fun p => ((octetAt p 0).toNat, rd16At p 1))
  else none

/-- An entry of a ROUTE ADVERT as carried (Table 12-4). -/
structure AdvertEntry where
  code : Nat
  distance : Nat
  via : Nat
  deriving DecidableEq, Repr

/-- The flags and entries of a ROUTE ADVERT, or `none` when the payload length is wrong (R92). -/
def readAdvert (l : List Octet) : Option (Bool × List AdvertEntry) :=
  match l with
  | [] => none
  | f :: rest =>
    if rest.length % 3 = 0 ∧ rest.length / 3 ≤ 16 then
      some (f.getLsbD 0, (pieces 3 (rest.length / 3) rest).map fun p =>
        { code := rd16At p 0 % 1024, distance := rd16At p 0 / 1024, via := (octetAt p 2).toNat })
    else none

/-- One entry of a ROUTE ADVERT in three octets. -/
def AdvertEntry.octets (e : AdvertEntry) : List Octet := le16 (e.code + 1024 * e.distance) ++ [o8 e.via]

/-- The code of a closure state (Table 12-4). -/
def Closure.code : Closure → Nat
  | .opened => 0 | .closed => 1 | .unknown => 2

/-- The closure state of a code (Table 12-4). -/
def closureOf : Nat → Option Closure
  | 0 => some .opened | 1 => some .closed | 2 => some .unknown | _ => none

/-- An entry of a SEGMENT STATE as carried (Table 12-4); `closure` is `none` for a code that is not a value. -/
structure SegmentEntry where
  segment : Nat
  closure : Option Closure
  blocked : Bool
  isDeclared : Bool
  deriving DecidableEq, Repr

/-- The entries of a SEGMENT STATE, or `none` when the payload is to be discarded whole (R82). -/
def readSegments (l : List Octet) : Option (List SegmentEntry) :=
  if l.length % 3 = 0 ∧ 1 ≤ l.length / 3 ∧ l.length / 3 ≤ 6 then
    some ((pieces 3 (l.length / 3) l).map fun p =>
      { segment := rd16At p 0, closure := closureOf ((octetAt p 2).toNat % 4),
        blocked := (octetAt p 2).getLsbD 2, isDeclared := (octetAt p 2).getLsbD 3 })
  else none

/-- A SENSED entry of a SEGMENT STATE: block state CLEAR (R81). -/
def sensedOctets (segment : Nat) (c : Closure) : List Octet := le16 segment ++ [o8 c.code]

/-- A DECLARED entry of a SEGMENT STATE: closure state OPEN (R81). -/
def declaredOctets (segment : Nat) (blocked : Bool) : List Octet := le16 segment ++ [o8 (4 * b1 blocked + 8)]

/-- The code of a level (Table 12-4). -/
def Level.code : Level → Nat
  | .normal => 0 | .standby => 1 | .muster => 2 | .standDown => 3

/-- The level of a code (Table 12-4). -/
def levelOf : Nat → Option Level
  | 0 => some .normal | 1 => some .standby | 2 => some .muster | 3 => some .standDown | _ => none

/-- Redirect pairs of four octets each. -/
def readRedirects (n : Nat) (l : List Octet) : List Redirect :=
  (pieces 4 n l).map fun p => { closed := rd16At p 0, alternate := rd16At p 2 }

/-- A redirect pair in four octets. -/
def Redirect.octets (r : Redirect) : List Octet := le16 r.closed ++ le16 r.alternate

/-- A MUSTER ORDER payload read as an order, or `none` when its length does not match its parts, its redirect count is over 4
or its level is not one of the four (R110). -/
def readOrder (l : List Octet) : Option Order :=
  let lv := octetAt l 3
  let hasIssue := lv.getLsbD 5
  let count := (octetAt l 4).toNat
  if 7 ≤ l.length ∧ count ≤ 4 ∧ l.length = 7 + (if hasIssue then 4 else 0) + 4 * count then
    match levelOf (lv.toNat % 8) with
    | none => none
    | some level =>
      let rest := l.drop 7
      some { authority := (octetAt l 0).toNat, serial := rd16At l 1, level, drill := lv.getLsbD 3,
             zones := rdHalf (octetAt l 5) (octetAt l 6),
             issue := if hasIssue then
                 some { day := (octetAt rest 0).toNat, minute := rd16At rest 1, second := (octetAt rest 3).toNat }
               else none,
             redirects := readRedirects count (if hasIssue then rest.drop 4 else rest) }
  else none

/-- A MUSTER ORDER payload from an order and its echo flag (Tables 12-2 and 12-4). -/
def orderPayload (o : Order) (echo : Bool) : List Octet :=
  o8 o.authority :: le16 o.serial
    ++ [o8 (o.level.code + 8 * b1 o.drill + 16 * b1 echo + 32 * b1 o.issue.isSome), o8 o.redirects.length]
    ++ half16 o.zones ++ (match o.issue with | some t => t.octets | none => [])
    ++ (o.redirects.map Redirect.octets).flatten

/-- The code of a cabin's health (Table 12-4). -/
def CabinHealth.code : CabinHealth → Nat
  | .unknown => 0 | .ok => 1 | .failed => 2

/-- The health of a code (Table 12-4). -/
def cabinHealthOf : Nat → Option CabinHealth
  | 0 => some .unknown | 1 => some .ok | 2 => some .failed | _ => none

/-- The cabin state octet (Table 12-4). -/
def cabinStateOctet (swept : Bool) (h : CabinHealth) (dnd mur : Bool) : Octet :=
  o8 (b1 swept + 2 * h.code + 8 * b1 dnd + 16 * b1 mur)

/-- A cabin of a CABIN REPORT as carried; `health` is `none` for a code that is not a value. -/
structure CabinRecord where
  cabin : Nat
  swept : Bool
  health : Option CabinHealth
  dnd : Bool
  mur : Bool
  deriving DecidableEq, Repr

/-- The entries of a CABIN REPORT, or `none` when the payload is to be discarded whole (R124). -/
def readCabins (l : List Octet) : Option (List CabinRecord) :=
  if l.length % 3 = 0 ∧ 1 ≤ l.length / 3 ∧ l.length / 3 ≤ 6 then
    some ((pieces 3 (l.length / 3) l).map fun p =>
      let o := octetAt p 2
      { cabin := rd16At p 0, swept := o.getLsbD 0, health := cabinHealthOf (o.toNat / 2 % 4),
        dnd := o.getLsbD 3, mur := o.getLsbD 4 })
  else none

/-- A CABIN REPORT payload (Table 12-2). -/
def cabinPayload (l : List CabinEntry) : List Octet :=
  (l.map fun e => le16 e.cabin ++ [cabinStateOctet e.swept e.health e.dnd e.mur]).flatten

/-- The fields of a TIME MARK payload: ship time, shift, source time state SET (R9). -/
structure Mark where
  ship : ShipTime
  shift : Int
  deriving DecidableEq, Repr

/-- A TIME MARK payload read and checked: `none` is a mark that is ignored (R9). -/
def readMark (l : List Octet) : Option Mark :=
  let t := readShipTime l
  let shift := (octetAt l 6).toInt
  if l.length = 8 ∧ t.inRange ∧ -120 ≤ shift ∧ shift ≤ 120 ∧ octetAt l 7 = 1 then some { ship := t, shift } else none

/-- The payload of a mark: its time fields are filled in at the start bit (R12), the source time state is SET. -/
def markPayload (t : ShipTime) (shift : Octet) : List Octet := t.octets ++ [shift, 1]

/-! ### Plate chain (Table 12-5) -/

/-- The field code of a SELECT (12.3). -/
def ChainOp.field : ChainOp → Nat
  | .poll => 1 | .ident | .musterBlock | .status => 2 | .drive => 3

/-- The SELECT octet (12.3). -/
def selectOctet (position : Nat) (op : ChainOp) : Octet := o8 (position + 16 * op.field)

/-- The code of a layout (Table 12-5). -/
def Layout.code : Layout → Nat
  | .normal => 0 | .muster => 1 | .standDown => 2 | .outOfService => 3

/-- The code of a sweep mark (Table 12-5). -/
def SweepMark.code : SweepMark → Nat
  | .none => 0 | .notSwept => 1 | .swept => 2

/-- The occupancy bits of a content, a switch reading or a record (Tables 12-5 and 12-8). -/
def occupancyOctet (dnd mur : Bool) : Octet := o8 (b1 dnd + 2 * b1 mur)

/-- The DATA octets a write clocks out; a poll writes none (Table 12-5). -/
def writeOctets (op : ChainOp) (cabin : Nat) (c : Content) (full : Bool) : List Octet :=
  match op with
  | .poll => []
  | .ident => [1, o8 c.layout.code] ++ le16 cabin
  | .musterBlock => 2 :: le16 c.code ++ [o8 (b1 c.drill)]
  | .status => [3, o8 c.mark.code, occupancyOctet c.dnd c.mur]
  | .drive => [if full then 1 else 2]

/-- The drive status of a code; 3 is a bad reply (Table 12-5). -/
def driveStatusOf : Nat → Option DriveStatus
  | 0 => some .idle | 1 => some .driving | 2 => some .done | _ => none

/-- The readings of a poll (R134). -/
structure Readings where
  button : Bool
  dnd : Bool
  mur : Bool
  drive : DriveStatus
  deriving DecidableEq, Repr

/-- A reply read wholly at the idle level of DATA (R128). -/
def idleReply (l : List Octet) : Bool := l.all (· == 0xFF)

/-- The reply to a poll: the readings when the check agrees and the drive status is a value, else a bad reply (R128). -/
def readPoll (reply : List Octet) : Option Readings :=
  match reply with
  | [o, high, low] =>
    let c := check16 [o]
    if idleReply reply ∨ high ≠ checkHigh c ∨ low ≠ checkLow c then none
    else match driveStatusOf (o.toNat / 16 % 4) with
      | none => none
      | some drive => some { button := o.getLsbD 0, dnd := o.getLsbD 1, mur := o.getLsbD 2, drive }
  | _ => none

/-- Whether the reply to a write is sound: the check over the octets written agrees, and it is not the idle level (R128). -/
def writeReplyOk (written reply : List Octet) : Bool :=
  match reply with
  | [high, low] => !idleReply reply && decide (high = checkHigh (check16 written) ∧ low = checkLow (check16 written))
  | _ => false

/-! ### Local port (R175) -/

/-- Status of a response (R175). -/
inductive Status
  | done | notReady | notPermitted | invalid | full | exhausted | busy | stale
  deriving DecidableEq, Repr

/-- The status code in octet 0 of a response (R175). -/
def Status.code : Status → Octet
  | .done => 0 | .notReady => 1 | .notPermitted => 2 | .invalid => 3
  | .full => 4 | .exhausted => 5 | .busy => 6 | .stale => 7

/-- A response: a status and its data. -/
def respond (st : Status) (data : List Octet) : List Octet := st.code :: data

/-- What a read of the response block returns: octets beyond the data read 00h, and all do but in READY (R166, R175). -/
def LocalPort.read (p : LocalPort) : List Octet :=
  if p.state = .ready then (p.response ++ List.replicate 64 0).take 64 else List.replicate 64 0

/-- The least number of argument octets each command code needs (Table 12-7); `none` for an unknown code. -/
def argsNeeded : Nat → Option Nat
  | 0x01 => some 1 | 0x02 => some 3 | 0x03 => some 1 | 0x04 => some 2 | 0x05 => some 1 | 0x06 => some 2
  | 0x07 => some 2 | 0x08 => some 2 | 0x09 => some 0 | 0x0A => some 0 | 0x0B => some 7 | 0x0C => some 13
  | 0x0D => some 2 | 0x0E => some 4 | 0x0F => some 3 | 0x10 => some 0 | 0x11 => some 0
  | _ => none

/-- An item body from the thirteen octets of PUBLISH ITEM: octets 1-2 and 5-15 of the body (Table 12-7). -/
def publishOctets (station revision : Nat) (args : List Octet) : List Octet :=
  o8 station :: args.take 2 ++ le16 revision ++ (args.drop 2).take 11

/-- The octets ISSUE ORDER needs: four, and four for each pair its count declares while that is at most 4 (Table 12-7). A block whose count is
over 4 needs four octets and meets its owner's checks, the model's choice (log entry 48). -/
def issueArgsShort (args : List Octet) : Bool :=
  let count := (octetAt args 1).toNat
  decide (args.length < 4 ∨ (count ≤ 4 ∧ args.length < 4 + 4 * count))

/-! ### Configuration image (R174, Table 12-6) -/

/-- The parts of an image as read, each list preceded by its count. -/
structure RawImage where
  version : Octet
  station : Nat
  zone : Nat
  deck : Nat
  roles : Octet
  authorities : List Octet
  neighbours : List (List Octet)
  destinations : List (List Octet)
  venues : List Nat
  pathCode : Nat
  chase : Nat
  plates : List (List Octet)
  pacing : Nat
  agrees : Bool
  deriving DecidableEq, Repr

/-- A count and the `size`-octet entries it counts, with what follows; `none` when they pass the end. -/
def takeList (size : Nat) (l : List Octet) : Option (List (List Octet) × List Octet) :=
  match l with
  | [] => none
  | c :: rest =>
    if c.toNat * size ≤ rest.length then some (pieces size c.toNat rest, rest.drop (c.toNat * size)) else none

/-- The first 256 octets of the configuration memory; one that does not answer reads FFh (R160, R174). -/
def imageOctets (image : List Octet) : List Octet := (image ++ List.replicate 256 0xFF).take 256

/-- The image cut into its parts, with whether its check agrees; `none` when the counts place the check beyond octet 255 (R174). -/
def readImage (l : List Octet) : Option RawImage := do
  let (auths, r1) ← takeList 1 (l.drop 5)
  let (neighs, r2) ← takeList 8 r1
  let (dests, r3) ← takeList 3 r2
  let (venues, r4) ← takeList 2 r3
  let (plates, r5) ← takeList 4 (r4.drop 4)
  if r4.length < 4 ∨ r5.length < 4 then none
  else
    let c := check16 (l.take (l.length - r5.length + 2))
    some { version := octetAt l 0, station := (octetAt l 1).toNat, zone := (octetAt l 2).toNat,
           deck := (octetAt l 3).toNat, roles := octetAt l 4, authorities := auths.flatten, neighbours := neighs,
           destinations := dests, venues := venues.map fun v => rd16At v 0, pathCode := rd16At r4 0,
           chase := rd16At r4 2, plates := plates, pacing := rd16At r5 0,
           agrees := decide (octetAt r5 2 = checkHigh c ∧ octetAt r5 3 = checkLow c) }

/-- The segment kind of a code (Table 12-6). -/
def segKindOf : Nat → Option SegKind
  | 0 => some .corridor | 1 => some .stair | 2 => some .lift | 3 => some .fireClosure
  | 4 => some .watertightClosure | _ => none

/-- The code of a segment kind (Table 12-6). -/
def SegKind.code : SegKind → Nat
  | .corridor => 0 | .stair => 1 | .lift => 2 | .fireClosure => 3 | .watertightClosure => 4

/-- The path side of a code (Table 12-6). -/
def pathSideOf : Nat → Option PathSide
  | 0 => some .none | 1 => some .a | 2 => some .b | _ => none

/-- The code of a path side (Table 12-6). -/
def PathSide.code : PathSide → Nat
  | .none => 0 | .a => 1 | .b => 2

/-- The sense-line octet: FFh none, else a line of 0..7 and its closed level; `none` for a line over 7 (Table 12-6). -/
def senseOf (o : Octet) : Option (Option (Fin 8 × LineLevel)) :=
  if o = 0xFF then some none
  else if h : o.toNat % 16 < 8 then some (some (⟨o.toNat % 16, h⟩, if o.getLsbD 7 then .high else .low))
  else none

/-- A neighbour entry of the image, with the range checks of check 3 of Table 10-4. -/
def readNeighbour (own : Nat) (p : List Octet) : Option NeighbourConfig := do
  let kind ← segKindOf (octetAt p 4).toNat
  let side ← pathSideOf (octetAt p 6).toNat
  let sense ← senseOf (octetAt p 7)
  let n : NeighbourConfig :=
    { station := (octetAt p 0).toNat, segment := rd16At p 1, cost := (octetAt p 3).toNat, kind,
      bearing := (octetAt p 5).toNat, side, sense }
  if 1 ≤ n.station ∧ n.station ≤ 127 ∧ n.station ≠ own ∧ 1 ≤ n.segment ∧ n.segment ≤ 1023 ∧ 1 ≤ n.cost ∧ n.cost ≤ 15
      ∧ n.bearing ≤ 7 then some n else none

/-- The destination class of a code (Table 12-6). -/
def destClassOf : Nat → Option DestClass
  | 0 => some .muster | 1 => some .venue | 2 => some .service | _ => none

/-- The code of a destination class (Table 12-6). -/
def DestClass.code : DestClass → Nat
  | .muster => 0 | .venue => 1 | .service => 2

/-- A destination of the image, with the range checks of check 5 of Table 10-4. -/
def readDestination (p : List Octet) : Option Destination := do
  let o := octetAt p 2
  let cls ← destClassOf (o.toNat % 4)
  let code := rd16At p 0
  if 1 ≤ code ∧ code ≤ 1023 then some { code, cls, isLocal := o.getLsbD 7 } else none

/-- The roles octet (Table 12-6). -/
def readRoles (o : Octet) : Roles :=
  { publisher := o.getLsbD 0, authority := o.getLsbD 1, timeSource := o.getLsbD 2, console := o.getLsbD 3,
    plates := o.getLsbD 4 }

/-- The roles as an octet (Table 12-6). -/
def Roles.octet (r : Roles) : Octet :=
  o8 (b1 r.publisher + 2 * b1 r.authority + 4 * b1 r.timeSource + 8 * b1 r.console + 16 * b1 r.plates)

/-- The class of a code as the route table holds it: that of its first appearance (R90, R161). -/
def classOf (ds : List Destination) (code : Nat) : Option DestClass := (ds.find? (·.code = code)).map (·.cls)

/-- Put the contents to the checks of Table 10-4 in order: the configuration, or the number of the first check that fails (R161). -/
def judgeContents (r : RawImage) : Except Nat Configuration :=
  let roles := readRoles r.roles
  let auths := r.authorities.map BitVec.toNat
  if r.station < 1 ∨ 127 < r.station ∨ 15 < r.zone ∨ r.deck < 1 ∨ 20 < r.deck then .error 1
  else if auths.length < 1 ∨ 4 < auths.length ∨ auths.any (fun a => a < 1 ∨ 127 < a) then .error 2
  else if 6 < r.neighbours.length then .error 3
  else match r.neighbours.mapM (readNeighbour r.station) with
  | none => .error 3
  | some ns =>
    if ¬ (ns.map (·.segment)).Nodup then .error 4
    else if r.destinations.length < 1 ∨ 16 < r.destinations.length then .error 5
    else match r.destinations.mapM readDestination with
    | none => .error 5
    | some ds =>
      if 4 < r.venues.length ∨ r.venues.any (fun v => v < 1 ∨ 1023 < v) then .error 6
      else if 1023 < r.pathCode ∨ 999 < r.chase then .error 7
      else
        let plates := r.plates.map fun p => (⟨rd16At p 0, rd16At p 2⟩ : PlateConfig)
        if 12 < plates.length ∨ (plates.length > 0 ∧ roles.plates = false)
            ∨ plates.any (fun p => p.cabin < 1 ∨ 9999 < p.cabin) then .error 8
        else if plates.any (fun p => classOf ds p.assigned ≠ some .muster) then .error 9
        else if 1000 < r.pacing then .error 10
        else .ok { station := r.station, zone := r.zone, deck := r.deck, roles, authorities := auths,
                   neighbours := ns, destinations := ds, venues := r.venues, pathCode := r.pathCode,
                   chase := r.chase, plates, pacing := r.pacing }

end Sys2Proof.Machine
end

