-- ==== Sys2Proof/Machine/Ops.lean ====
section
/-! DEFINITION. Ops: the operations every block shares: timers, draws, configuration and level, the transmit queue and buffer,
and the answer process that a frame's outcome moves on. -/

namespace Sys2Proof.Machine

/-! ### Timers and draws -/

/-- A timer started now (R1). -/
def startTimer (s : State) (len : Nat) : Option Timer := some { start := s.time.now, len }

/-- The timer has expired: the counter has advanced from its start by its length, modulo 2^32 (R1). -/
def Timer.expired (t : Timer) (now : Tick) : Bool := decide (t.len ≤ (now - t.start).toNat)

/-- The timer runs and has expired. -/
def timerDue (t : Option Timer) (s : State) : Bool :=
  match t with
  | some t => t.expired s.time.now
  | none => false

/-- The value the next draw from `lo..hi` gives: any value of the range (0.11; log entry 3). -/
def drawValue (lo hi : Nat) (s : State) : Nat := lo + Config.freeDraw s.free % (hi - lo + 1)

/-- One draw has been taken. -/
def drawn (s : State) : State := s.modFree (· + 1)

/-! ### Line filters (R79, R158) -/

/-- One sample of a line against a filter's candidate and run count: equal, the count rises up to 20;
else the sample is the candidate with run count 1 (R79). -/
def filterStep {α : Type} [DecidableEq α] (sample candidate : α) (run : Nat) : α × Nat :=
  if sample = candidate then (candidate, if run < Config.filterRun then run + 1 else run) else (sample, 1)

/-! ### Configuration, node state and level -/

/-- The node's own station number; an unconfigured node has none (R160). -/
def ownStation (s : State) : Option Nat := s.node.config.map (·.station)

/-- The roles held; an unconfigured node holds none (R160). -/
def roles (s : State) : Roles :=
  match s.node.config with
  | some c => c.roles
  | none => ⟨false, false, false, false, false⟩

/-- JOINING or RUN: the node states in which the receiver and transmitter work (R35). -/
def participates (s : State) : Bool := s.node.state = .joining || s.node.state = .run

/-- A FAULT reached from LOADING: no image has been found valid (R160, R167). -/
def unloadedFault (s : State) : Bool := s.node.state = .fault && s.node.config.isNone

/-- The muster level: it always equals the record's level (R109). -/
def level (s : State) : Level := s.muster.record.level

/-- NORMAL or STANDBY: the levels at which the programme exchange runs (R58, R59, R65). -/
def Level.calm : Level → Bool
  | .normal | .standby => true
  | .muster | .standDown => false

/-- STANDBY or MUSTER: the levels of the short presence timeout and the short advert interval (R77, R97). -/
def Level.alert : Level → Bool
  | .standby | .muster => true
  | .normal | .standDown => false

/-- The supply state the band and the accepted source give (R158). -/
def supplyOf (band : Band) (source : SourceLevel) : SupplyState :=
  match band, source with
  | .critical, _ => .critical
  | .warn, _ => .low
  | .ok, .emergency => .emergency
  | .ok, .mains => .mains

/-- The supply state (R158). -/
def supplyState (s : State) : SupplyState := supplyOf s.supply.band s.supply.accepted

/-! ### The transmit queue (R24 to R27) -/

/-- The class of a kind (Table 2-3). -/
def FrameKind.cls : FrameKind → FrameClass
  | .segmentState | .musterOrder | .cabinReport => .urgent
  | .routeAdvert | .timeMark => .route
  | .programmeItem | .programmeSummary | .itemRequest => .routine

/-- Classes in order: URGENT above ROUTE above ROUTINE (R25). -/
def FrameClass.rank : FrameClass → Nat
  | .urgent => 2 | .route => 1 | .routine => 0

/-- The rank of a kind's class. -/
def FrameKind.rank (k : FrameKind) : Nat := k.cls.rank

/-- The class gap in bit times (R28). -/
def FrameClass.gap : FrameClass → Nat
  | .urgent => 12 | .route => 20 | .routine => 28

/-- The single-instance kinds (R25). -/
def FrameKind.single : FrameKind → Bool
  | .routeAdvert | .programmeSummary | .musterOrder | .timeMark => true
  | .programmeItem | .itemRequest | .segmentState | .cabinReport => false

/-- The kinds the muster purge removes (R34). -/
def FrameKind.programme : FrameKind → Bool
  | .programmeItem | .programmeSummary | .itemRequest => true
  | .routeAdvert | .segmentState | .musterOrder | .cabinReport | .timeMark => false

/-- A frame as its owner offers it. -/
structure Offer where
  kind : FrameKind
  dest : Nat
  payload : List Octet
  notes : List ClearNote
  answer : Bool
  deriving DecidableEq, Repr

/-- The answer to an offer (Table 2-5). -/
inductive OfferAnswer
  | accepted (seq : Octet) (evicted : Option TxFrame)
  | refusedFull
  | refusedState
  deriving DecidableEq, Repr

/-- Place a frame after the last of its own class, or else after the last of any higher class (R25). -/
def placeFrame (f : TxFrame) : List TxFrame → List TxFrame
  | [] => [f]
  | g :: q => if f.kind.rank ≤ g.kind.rank then g :: placeFrame f q else f :: g :: q

/-- Replace the queued frame of the same kind in place: contents, destination and sequence (R25). -/
def replaceFrame (f : TxFrame) : List TxFrame → List TxFrame
  | [] => []
  | g :: q => if g.kind = f.kind then f :: q else g :: replaceFrame f q

/-- Whether a frame of the kind is queued. -/
def queued (k : FrameKind) (q : List TxFrame) : Bool := q.any (·.kind = k)

/-- Whether the queue has room for a frame of the kind (R26). -/
def hasRoom (k : FrameKind) (q : List TxFrame) : Bool :=
  decide (q.length < 8) || (k.single && queued k q) || q.any (·.kind.rank < k.rank)

/-- Enter WAITING with a fresh spread of 0..7 (R28). -/
def waitingPhase (s : State) : TxPhase := .waiting (drawValue 0 7 s)

/-- A TIME MARK takes its shift field as it enters the buffer (R12, R27). -/
def loadShift (shift : Int) (f : TxFrame) : TxFrame :=
  if f.kind = .timeMark then { f with payload := f.payload.set 6 (shiftOctet shift) } else f

/-- With the buffer EMPTY, the head of the queue moves into it and enters WAITING, in JOINING or RUN and not while CRITICAL (R27). -/
def fillBuffer (s : State) : State :=
  match s.bus.buffer, s.bus.queue with
  | none, f :: q =>
    if participates s && !decide (supplyState s = .critical) then
      drawn (s.modBus fun b => { b with
        queue := q,
        buffer := some { frame := loadShift s.time.pendingShift f, attempts := 0, phase := waitingPhase s,
                         capture := none, condemned := false } })
    else s
  | _, _ => s

/-- Count a queue refusal and set TRANSMIT LOSS (R26). -/
def countRefusal (s : State) : State :=
  setEvent .transmitLoss (s.modCounters fun c => { c with queueRefusals := raised c.queueRefusals })

/-- The queue takes the accepted offer, which consumes the next sequence (R24); then R27. -/
def acceptOffer (queue : List TxFrame) (s : State) : State :=
  fillBuffer (s.modBus fun b => { b with queue := queue, nextSeq := b.nextSeq + 1 })

/-- The frame an offer makes, under the next sequence (R24). -/
def Offer.frame (o : Offer) (s : State) : TxFrame :=
  { kind := o.kind, dest := o.dest, seq := s.bus.nextSeq, payload := o.payload, notes := o.notes, answer := o.answer }

/-- An offer to the transmit queue, decided by R34, R35, R25 and R26.
The owner of an evicted frame is told by `offer` once the offer is placed (log entry 10). -/
def offerBase (o : Offer) (s : State) : State × OfferAnswer :=
  let q := s.bus.queue
  if !participates s || (decide (level s = .muster) && o.kind.programme) then (s, .refusedState)
  else if o.kind.single && queued o.kind q then
    (acceptOffer (replaceFrame (o.frame s) q) s, .accepted s.bus.nextSeq none)
  else if q.length < 8 then (acceptOffer (placeFrame (o.frame s) q) s, .accepted s.bus.nextSeq none)
  else match q.getLast? with
    | some g =>
      if g.kind.rank < o.kind.rank then
        (acceptOffer (placeFrame (o.frame s) q.dropLast) (countRefusal s), .accepted s.bus.nextSeq (some g))
      else (countRefusal s, .refusedFull)
    | none => (countRefusal s, .refusedFull)

/-! ### The answer process (R66 to R69) -/

/-- The smallest revision of the publisher above `last` in the programme table (R68); of two entries with that revision the first in
table order, the model's choice (log entry 39). -/
def nextToSend (publisher last : Nat) (table : List Entry) : Option ItemBody :=
  table.foldl (fun best e =>
    if e.body.publisher = publisher ∧ last < e.body.revision then
      match best with
      | some b => if e.body.revision < b.revision then some e.body else best
      | none => some e.body
    else best) none

/-- The high-water of a publisher; 0 where it has no record. -/
def highWaterOf (p : Nat) (s : State) : Nat :=
  match s.exch.records.find? (·.station = p) with
  | some r => r.highWater
  | none => 0

/-- The active answer ends (R69). -/
def endAnswer (s : State) : State := s.modExch fun x => { x with active := none }

/-- The active answer is dropped, whichever its phase. A frame of it left in the send path is no answer's frame any more,
so that its report is ignored (R69, R72, R74). -/
def dropAnswer (s : State) : State :=
  let loose (f : TxFrame) : TxFrame := { f with answer := false }
  endAnswer (s.modBus fun b => { b with
    queue := b.queue.map loose, buffer := b.buffer.map fun u => { u with frame := loose u.frame } })

/-- The active answer in WALK offers its next frame, or else the close; a refusal ends it (R68, R69). -/
def answerOffer (a : ActiveAnswer) (s : State) : State :=
  let reply (final : Bool) (through : Nat) : ReplyPart :=
    { requester := a.entry.requester, seq := a.entry.seq, final, through }
  match nextToSend a.entry.publisher a.lastSent s.store.table with
  | some b =>
    match offerBase ⟨.programmeItem, 255, itemPayload (some b) (some (reply false 0)), [], true⟩ s with
    | (s, .accepted ..) => s.modExch fun x => { x with
        active := some { a with phase := .walk, lastSent := b.revision, outstanding := true, closing := false } }
    | (s, _) => endAnswer s
  | none =>
    match offerBase ⟨.programmeItem, 255, itemPayload none (some (reply true (highWaterOf a.entry.publisher s))), [], true⟩ s with
    | (s, .accepted ..) => s.modExch fun x => { x with
        active := some { a with phase := .walk, outstanding := true, closing := true } }
    | (s, _) => endAnswer s

/-- A frame has been reported complete, evicted, discarded or aborted: if it is the active answer's outstanding frame
the close ends the answer and any other frame is followed by the next (R68, R69). -/
def answerReported (f : TxFrame) (s : State) : State :=
  match s.exch.active with
  | some a =>
    if f.answer && a.outstanding then
      if a.closing then endAnswer s else answerOffer { a with outstanding := false } s
    else s
  | none => s

/-- An offer with its consequences: placed, and the owner of an evicted frame told (R26). Of the frames that can be evicted
only an answer frame moves its owner on. -/
def offer (o : Offer) (s : State) : State × OfferAnswer :=
  match offerBase o s with
  | (s, .accepted seq (some f)) => (answerReported f s, .accepted seq (some f))
  | r => r

/-- An offer whose answer its owner does not use. -/
def offer' (o : Offer) (s : State) : State := (offer o s).1

/-- The first pending answer becomes active in HOLD, with a hold of 0..400 ms, when R66 allows it. -/
def settleAnswers (s : State) : State :=
  match s.exch.active, s.exch.answers with
  | none, e :: rest =>
    if s.node.state = .run ∧ (level s).calm then
      drawn (s.modExch fun x => { x with
        answers := rest,
        active := some { entry := e, phase := .hold ⟨s.time.now, drawValue 0 400 s⟩, lastSent := e.after,
                         outstanding := false, closing := false } })
    else s
  | _, _ => s

/-! ### Frames taken from the owner queues -/

/-- The capacity of the receive pool (R23). -/
def poolSize : Nat := 24

/-- Frames held on the four owner queues. -/
def heldSlots (b : ZoneBus) : Nat := b.timeQ.length + b.programmeQ.length + b.routeQ.length + b.musterQ.length

/-- The free count of the receive pool (R23). -/
def freeSlots (s : State) : Nat := poolSize - heldSlots s.bus

/-- Update the item of a list at a place. -/
def modAt {α : Type} (f : α → α) : Nat → List α → List α
  | _, [] => []
  | 0, x :: l => f x :: l
  | n + 1, x :: l => x :: modAt f n l

end Sys2Proof.Machine
end

