-- ==== Sys2Proof/Machine/Store.lean ====
section
/-! DEFINITION. Store: the programme table against time, its application of item bodies, the comparator and the view (Section 3). -/

namespace Sys2Proof.Machine

/-! ### Ship minute numbers and classes (R39) -/

/-- Ship minute numbers in a cycle of 256 days. -/
def minuteCycle : Nat := 368640

/-- The ship minute number (1.2). -/
def ShipTime.minuteNumber (t : ShipTime) : Nat := t.day * 1440 + t.minute

/-- The start number of an item (3.1). -/
def ItemBody.startNo (b : ItemBody) : Nat := b.day * 1440 + b.start

/-- The end number of an item (3.1). -/
def ItemBody.endNo (b : ItemBody) : Nat := b.startNo + b.duration

/-- The offset of a minute number from the present one, modulo the cycle (R39). -/
def offsetOf (now m : Nat) : Nat := (m % minuteCycle + minuteCycle - now % minuteCycle) % minuteCycle

/-- The minute number lies at or before now (R39). -/
def atOrBefore (now m : Nat) : Bool := decide (offsetOf now m = 0 ∨ 184320 ≤ offsetOf now m)

/-- How an entry stands against time (R39). -/
inductive EntryClass
  | ended | running | future
  deriving DecidableEq, Repr

/-- The class of an item at a minute number (R39). -/
def classify (now : Nat) (b : ItemBody) : EntryClass :=
  if atOrBefore now b.endNo then .ended else if atOrBefore now b.startNo then .running else .future

/-- The present ship minute number. -/
def nowMinute (s : State) : Nat := s.time.ship.minuteNumber

/-! ### Table order (R38) -/

/-- The sort key comes before: cruise day, start minute, publisher, item (3.1). -/
def ItemBody.before (a b : ItemBody) : Bool :=
  decide (a.day < b.day ∨ (a.day = b.day ∧ (a.start < b.start ∨ (a.start = b.start ∧
    (a.publisher < b.publisher ∨ (a.publisher = b.publisher ∧ a.item < b.item))))))

/-- The identity of an item: publisher and item number. -/
def ItemBody.key (b : ItemBody) : Nat × Nat := (b.publisher, b.item)

/-- Insert an entry at the place its sort key gives it (R38). -/
def insertEntry (e : Entry) : List Entry → List Entry
  | [] => [e]
  | f :: l => if e.body.before f.body then e :: f :: l else f :: insertEntry e l

/-- The table without the entry of an identity. -/
def removeEntry (key : Nat × Nat) (l : List Entry) : List Entry := l.filter (·.body.key ≠ key)

/-! ### The view (R51 to R54) -/

/-- The entry qualifies for the node's deck (R52). -/
def qualifies (deck : Option Nat) (b : ItemBody) : Bool :=
  match b.deck with
  | none => true
  | some d => decide (some d = deck) || decide (b.category = .drill)

/-- Positions of the entries that satisfy `p`, in table order. -/
def positions (p : Entry → Bool) (table : List Entry) : List Nat :=
  (table.zipIdx.filter fun e => p e.1).map (·.2)

/-- The view of a table for a deck and own venues (R51 to R53). -/
def viewOf (deck : Option Nat) (venues : List Nat) (table : List Entry) (generation : Half) : View :=
  { onNow := (positions (·.phase = .onNow) table).take 4,
    next := (positions (fun e => e.phase = .pending && qualifies deck e.body) table).take 6,
    venues := venues.map fun v =>
      ((positions (fun e => e.phase = .onNow && e.body.venue = v) table).head?,
       (positions (fun e => e.phase = .pending && e.body.venue = v) table).head?),
    generation }

/-- The view the present table and configuration give. -/
def composedView (s : State) : View :=
  viewOf (s.node.config.map (·.deck)) (match s.node.config with | some c => c.venues | none => []) s.store.table
    s.store.generation

/-- A position together with the item it names. -/
abbrev Named := Nat × Option (Nat × Nat)

/-- What a view shows: its positions with the items they name, part by part (R54). -/
structure Shown where
  onNow : List Named
  next : List Named
  venues : List (Option Named × Option Named)
  deriving DecidableEq, Repr

/-- The items a view's positions name in a table. -/
def shownBy (table : List Entry) (v : View) : Shown :=
  let named (i : Nat) : Named := (i, table[i]?.map (·.body.key))
  { onNow := v.onNow.map named, next := v.next.map named,
    venues := v.venues.map fun p => (p.1.map named, p.2.map named) }

/-- The item is named somewhere in the view. -/
def Shown.names (v : Shown) (key : Nat × Nat) : Bool :=
  let hit (n : Named) : Bool := n.2 = some key
  v.onNow.any hit || v.next.any hit || v.venues.any fun p => p.1.any hit || p.2.any hit

/-- What the view shows at present. -/
def shownNow (s : State) : Shown := shownBy s.store.table s.store.view

/-- Recompose the view; PROGRAMME is set when what it shows differs from `before`, or when a replaced entry is named in it (R54; log entry 21). -/
def recompose (before : Shown) (replaced : Option (Nat × Nat)) (s : State) : State :=
  let s := s.modStore fun t => { t with view := composedView s }
  let after := shownNow s
  setEventIf (decide (after ≠ before) || (match replaced with | some k => after.names k | none => false)) .programme s

/-! ### The comparator and re-phasing (R48 to R50) -/

/-- The boundaries an entry gives: its start while PENDING, and its end (R48). -/
def boundariesOf (e : Entry) : List Nat :=
  (if e.phase = .pending then [e.body.startNo % minuteCycle] else []) ++ [e.body.endNo % minuteCycle]

/-- The candidate with the smallest offset (R48). -/
def nearest (now : Nat) : List Nat → Option Nat
  | [] => none
  | m :: l =>
    match nearest now l with
    | none => some m
    | some n => if offsetOf now n < offsetOf now m then some n else some m

/-- The boundary to watch: none while UNSET or with an empty table (R48). -/
def boundary (s : State) : Option Nat :=
  if s.time.isSet then nearest (nowMinute s) (s.store.table.map boundariesOf).flatten else none

/-- Hold the boundary in the comparator. -/
def armComparator (s : State) : State := s.modStore fun t => { t with comparator := boundary s }

/-- The comparator is ARMED with a boundary at or before now (R49). -/
def matchDue (s : State) : Bool :=
  s.time.isSet && (match s.store.comparator with | some m => atOrBefore (nowMinute s) m | none => false)

/-- An entry re-phased: an ended one leaves, a running one is ON NOW; at a STEP a future one is PENDING, at a match it keeps its phase (R49, R50). -/
def rephaseEntry (step : Bool) (now : Nat) (e : Entry) : Option Entry :=
  match classify now e.body with
  | .ended => none
  | .running => some { e with phase := .onNow }
  | .future => some (if step then { e with phase := .pending } else e)

/-- The whole table re-phased against a minute number. -/
def rephased (step : Bool) (now : Nat) (table : List Entry) : List Entry := table.filterMap (rephaseEntry step now)

/-- The table takes new contents under the next generation (R46). -/
def changeTable (table : List Entry) (s : State) : State :=
  s.modStore fun t => { t with table := table, generation := t.generation + 1 }

/-- The match of R49: the changes are one change of the table; with none the comparator is reloaded all the same. -/
def takeMatch (before : Shown) (s : State) : State :=
  let table := rephased false (nowMinute s) s.store.table
  if table = s.store.table then armComparator s
  else recompose before none (armComparator (changeTable table s))

/-- Reload the comparator; a boundary already at or before now is matched at once (R48). -/
def reloadComparator (before : Shown) (s : State) : State :=
  let s := armComparator s
  if matchDue s then takeMatch before s else s

/-- A change of the table: the generation rises, the comparator is reloaded, the view recomposed (R46). -/
def commitTable (table : List Entry) (replaced : Option (Nat × Nat)) (s : State) : State :=
  let before := shownNow s
  recompose before replaced (reloadComparator before (changeTable table s))

/-- The re-phasing at a STEP notice (R50). -/
def stepRephase (s : State) : State :=
  let table := rephased true (nowMinute s) s.store.table
  if s.time.isSet = false ∨ table = s.store.table then reloadComparator (shownNow s) s else commitTable table none s

/-! ### Applying an item body (R40 to R44) -/

/-- A publisher record as it begins (R57). -/
def newRecord (station : Nat) : PubRecord :=
  { station, highWater := 0, settled := 0, waiting := false, reqSeq := none, attempts := 0, timer := none }

/-- The record of a publisher. -/
def recordOf (p : Nat) (s : State) : Option PubRecord := s.exch.records.find? (·.station = p)

/-- Insert a record in ascending order of station (R57). -/
def insertRecord (r : PubRecord) : List PubRecord → List PubRecord
  | [] => [r]
  | q :: l => if r.station < q.station then r :: q :: l else q :: insertRecord r l

/-- Make a record for a publisher that has none, while the table holds fewer than 8 (R57). -/
def ensureRecord (p : Nat) (s : State) : State :=
  if (recordOf p s).isNone ∧ s.exch.records.length < 8 then
    s.modExch fun x => { x with records := insertRecord (newRecord p) x.records }
  else s

/-- Update the record of a publisher. -/
def modRecord (p : Nat) (f : PubRecord → PubRecord) (s : State) : State :=
  s.modExch fun x => { x with records := x.records.map fun r => if r.station = p then f r else r }

/-- Raise a record's high-water: it takes the greater value (R57). -/
def raiseHighWater (p revision : Nat) (s : State) : State :=
  modRecord p (fun r => { r with highWater := max r.highWater revision }) s

/-- The phase a new or replaced entry takes: from its class while SET, PENDING while UNSET (R42, R43). -/
def phaseFor (s : State) (b : ItemBody) : Phase :=
  if s.time.isSet && decide (classify (nowMinute s) b = .running) then .onNow else .pending

/-- The item has ended at the present time; while UNSET none has (R39). -/
def hasEnded (s : State) (b : ItemBody) : Bool := s.time.isSet && decide (classify (nowMinute s) b = .ended)

/-- Count an application's outcome (Table 3-3). -/
def countOutcome (o : StoreOutcome) (s : State) : State :=
  match o with
  | .bad => s.modCounters fun c => { c with badItems := raised c.badItems }
  | .refusedPublisher | .refusedFull => s.modCounters fun c => { c with refusedItems := raised c.refusedItems }
  | .stale => s.modCounters fun c => { c with staleItems := raised c.staleItems }
  | .insertedEvicting => s.modCounters fun c => { c with evictedItems := raised c.evictedItems }
  | .replaced | .past | .inserted => s

/-- The capacity of the programme table (R38). -/
def tableSize : Nat := 192

/-- A body of an identity the table holds (R42). -/
def applyHeld (b : ItemBody) (e : Entry) (s : State) : State × StoreOutcome :=
  if b.revision ≤ e.body.revision then (countOutcome .stale s, .stale)
  else
    let rest := removeEntry b.key s.store.table
    let table := if hasEnded s b then rest else insertEntry { body := b, phase := phaseFor s b } rest
    (commitTable table (some b.key) s, .replaced)

/-- A body of an identity new to the table (R43, R44). R45 has the table the same whichever of two revisions of one item is taken first; where the
higher, taken first, is PAST or REFUSED and so leaves no entry, the lower then finds the item new: R43 and R44 are followed as they stand, the
model's choice (log entry 49). -/
def applyNew (b : ItemBody) (s : State) : State × StoreOutcome :=
  let entry : Entry := { body := b, phase := phaseFor s b }
  if hasEnded s b then (s, .past)
  else if s.store.table.length < tableSize then (commitTable (insertEntry entry s.store.table) none s, .inserted)
  else match s.store.table.getLast? with
    | some last =>
      if b.before last.body then
        (commitTable (insertEntry entry s.store.table.dropLast) none (countOutcome .insertedEvicting s), .insertedEvicting)
      else (countOutcome .refusedFull s, .refusedFull)
    | none => (countOutcome .refusedFull s, .refusedFull)

/-- The application of one valid body: publisher record, high-water, then the table (R41 to R44). -/
def applyBody (b : ItemBody) (s : State) : State × StoreOutcome :=
  let s := ensureRecord b.publisher s
  match recordOf b.publisher s with
  | none => (countOutcome .refusedPublisher s, .refusedPublisher)
  | some _ =>
    let s := raiseHighWater b.publisher b.revision s
    match s.store.table.find? (·.body.key = b.key) with
    | some e => applyHeld b e s
    | none => applyNew b s

/-! ### COMPARATOR_MATCH -/

/-- COMPARATOR_MATCH: when the ship minute number has reached the armed boundary, the match of R49 is taken. -/
def execComparatorMatch (s : State) : Host.Outcome State Fault Refusal :=
  .next (if matchDue s then settleAttention (takeMatch (shownNow s) s) else s)

end Sys2Proof.Machine
end

