-- ==== Sys2Proof/Machine/Exchange.lean ====
section
/-! DEFINITION. Exchange: summaries, gaps, catch-up requests, answers and publishing (Section 4). -/

namespace Sys2Proof.Machine

/-! ### Summaries (R58, R60) -/

/-- The pairs of a summary: each record whose high-water is 1 or more (R58). -/
def summaryPayload (records : List PubRecord) : List Octet :=
  ((records.filter (1 ≤ ·.highWater)).map fun r => o8 r.station :: le16 r.highWater).flatten

/-- Offer a PROGRAMME SUMMARY (R58). -/
def offerSummary (s : State) : State := offer' ⟨.programmeSummary, 255, summaryPayload s.exch.records, [], false⟩ s

/-- Start the summary timer with a fresh draw of 22,500..37,500 ms (R58). -/
def startSummaryTimer (s : State) : State :=
  drawn (s.modExch fun x => { x with summaryTimer := startTimer s (drawValue 22500 37500 s) })

/-- A join prompt makes an early summary pending in RUN at NORMAL or STANDBY, if none is (R60). -/
def promptSummary (s : State) : State :=
  if s.node.state = .run ∧ (level s).calm ∧ s.exch.early.isNone then
    drawn (s.modExch fun x => { x with early := startTimer s (drawValue 0 2000 s) })
  else s

/-! ### Catch-up requests (R62 to R64) -/

/-- A record back to IDLE with attempts 0 and its timer stopped. -/
def PubRecord.idled (r : PubRecord) : PubRecord := { r with waiting := false, attempts := 0, timer := none }

/-- A WAITING record that holds the sequence from an earlier request no longer does (R62). -/
def dropSequence (p : Nat) (seq : Octet) (s : State) : State :=
  s.modExch fun x => { x with records := x.records.map fun r =>
    if r.station ≠ p ∧ r.waiting ∧ r.reqSeq = some seq then { r with reqSeq := none } else r }

/-- The record is WAITING with one more attempt and its timer started (R62). -/
def markWaiting (p : Nat) (seq : Option Octet) (s : State) : State :=
  modRecord p (fun r => { r with waiting := true, attempts := r.attempts + 1, timer := startTimer s Config.requestTime,
                                 reqSeq := seq }) s

/-- Start a catch-up request for a publisher from an after-revision (R62). -/
def startCatchUp (p after : Nat) (s : State) : State :=
  match offer ⟨.itemRequest, 255, o8 p :: le16 after, [], false⟩ s with
  | (s, .accepted seq _) => markWaiting p (some seq) (dropSequence p seq s)
  | (s, _) => markWaiting p none s

/-- Start a catch-up when the record is IDLE and the level is NORMAL or STANDBY (R59, R61). -/
def catchUpIfIdle (p after : Nat) (s : State) : State :=
  match recordOf p s with
  | some r => if !r.waiting && (level s).calm then startCatchUp p after s else s
  | none => s

/-- Settled-through takes the greater value (R57). -/
def raiseSettled (p revision : Nat) (s : State) : State :=
  modRecord p (fun r => { r with settled := max r.settled revision }) s

/-- A direct item of revision `r`: settled-through moves on, or a gap starts a catch-up (R61). -/
def directItem (p r : Nat) (s : State) : State :=
  match recordOf p s with
  | none => s
  | some rec =>
    if r = rec.settled + 1 then raiseSettled p r s
    else if rec.settled + 1 < r then catchUpIfIdle p rec.settled s
    else s

/-- The outcome leaves the publisher with a record (R61). -/
def StoreOutcome.recorded : StoreOutcome → Bool
  | .bad | .refusedPublisher => false
  | .stale | .replaced | .past | .inserted | .insertedEvicting | .refusedFull => true

/-- The record that a reply part answers: WAITING with that request sequence (R63). -/
def answeredRecord (reply : ReplyPart) (s : State) : Option PubRecord :=
  if ownStation s = some reply.requester then
    s.exch.records.find? fun r => r.waiting && r.reqSeq = some reply.seq
  else none

/-- A reply part against the node's own requests: the timer is restarted, and a final closes the catch-up (R63). -/
def matchAnswer (reply : ReplyPart) (s : State) : State :=
  match answeredRecord reply s with
  | none => s
  | some r =>
    if reply.final then
      modRecord r.station (fun q => { q.idled with highWater := max q.highWater reply.through,
                                                   settled := max q.settled reply.through }) s
    else modRecord r.station (fun q => { q with timer := startTimer s Config.requestTime }) s

/-- The reply part is that of the answer entry (R67). -/
def AnswerEntry.matches (e : AnswerEntry) (reply : ReplyPart) : Bool :=
  e.requester = reply.requester && e.seq = reply.seq

/-- Count one answer suppressed (R67). -/
def countSuppressed (s : State) : State :=
  s.modCounters fun c => { c with answersSuppressed := raised c.answersSuppressed }

/-- Another node's answer against the node's own: a queued entry is removed, an active answer in HOLD dropped (R67).
Of two queued entries with that requester and sequence the first alone is removed and counted, the model's choice (log entry 38). -/
def suppressAnswer (reply : ReplyPart) (s : State) : State :=
  let s := if s.exch.answers.any (·.matches reply) then
      countSuppressed (s.modExch fun x => { x with answers := x.answers.eraseP (·.matches reply) })
    else s
  match s.exch.active with
  | some a =>
    match a.phase with
    | .hold _ => if a.entry.matches reply then countSuppressed (endAnswer s) else s
    | .walk => s
  | none => s

/-! ### Frames from the PROGRAMME queue -/

/-- Free the slot at the head of the PROGRAMME queue. -/
def freeProgramme (s : State) : State := s.modBus fun b => { b with programmeQ := b.programmeQ.drop 1 }

/-- The engine's part of a PROGRAMME ITEM: the reply part, or the revision of a direct item (R61, R63, R67). -/
def finishItem (body : Option (ItemBody × StoreOutcome)) (reply : Option ReplyPart) (s : State) : State :=
  match reply with
  | some r => suppressAnswer r (matchAnswer r s)
  | none =>
    match body with
    | some (b, o) => if o.recorded then directItem b.publisher b.revision s else s
    | none => s

/-- A PROGRAMME ITEM payload: the Store applies its body, the engine deals with the rest (R40). -/
def takeItem (payload : List Octet) (s : State) : State :=
  match readItemParts payload with
  | none => countOutcome .bad s
  | some parts =>
    match parts.body with
    | none => finishItem none parts.reply s
    | some octets =>
      match readBody octets with
      | none => finishItem none parts.reply (countOutcome .bad s)
      | some b =>
        match applyBody b s with
        | (s, o) => finishItem (some (b, o)) parts.reply s

/-- PROGRAMME_ITEM: the frame at the head of the PROGRAMME queue (R40). It is taken in JOINING and RUN alone: a frame still queued at
entry to FAULT keeps its slot and is not applied, the model's choice (log entry 43). -/
def execProgrammeItem (s : State) : Host.Outcome State Fault Refusal :=
  match s.bus.programmeQ with
  | f :: _ =>
    if participates s ∧ f.kind = .programmeItem then
      .next (settleAttention (settleAnswers (freeProgramme (takeItem f.payload s))))
    else .next s
  | [] => .next s

/-- One pair of a summary (R59). -/
def takePair (s : State) (pair : Nat × Nat) : State :=
  let (p, h) := pair
  if p < 1 ∨ 127 < p then s
  else
    let s := ensureRecord p s
    match recordOf p s with
    | none => s
    | some _ =>
      let s := if ownStation s = some p ∧ (roles s).publisher then raiseHighWater p h s else s
      match recordOf p s with
      | some r => if r.settled < h then catchUpIfIdle p r.settled s else s
      | none => s

/-- A summary from another station: the early summary is cancelled, then the pairs are taken in order (R59). -/
def takeSummary (payload : List Octet) (s : State) : State :=
  let s := s.modExch fun x => { x with early := none }
  match readPairs payload with
  | some pairs => pairs.foldl takePair s
  | none => s

/-- PROGRAMME_SUMMARY: the frame at the head of the PROGRAMME queue (R59). -/
def execProgrammeSummary (s : State) : Host.Outcome State Fault Refusal :=
  match s.bus.programmeQ with
  | f :: _ =>
    if participates s ∧ f.kind = .programmeSummary then
      .next (settleAttention (settleAnswers (freeProgramme (takeSummary f.payload s))))
    else .next s
  | [] => .next s

/-- The answer queue with a request kept: merged with an entry for the same requester and publisher, appended, or not kept (R65). -/
def keepRequest (e : AnswerEntry) (l : List AnswerEntry) : List AnswerEntry :=
  let same (q : AnswerEntry) : Bool := q.requester = e.requester && q.publisher = e.publisher
  if l.any same then l.map fun q => if same q then { q with seq := e.seq, after := min q.after e.after } else q
  else if l.length < 4 then l ++ [e] else l

/-- An ITEM REQUEST from a requester under a sequence: kept only when R65 allows. -/
def takeRequest (f : RxFrame) (s : State) : State :=
  let p := (octetAt f.payload 0).toNat
  let after := rd16At f.payload 1
  if f.payload.length = 3 ∧ 1 ≤ p ∧ p ≤ 127 ∧ s.node.state = .run ∧ (level s).calm ∧ after < highWaterOf p s then
    s.modExch fun x => { x with answers := keepRequest { requester := f.source, publisher := p, after, seq := f.seq } x.answers }
  else s

/-- ITEM_REQUEST: the frame at the head of the PROGRAMME queue (R65), after which R66 may make an answer active. -/
def execItemRequest (s : State) : Host.Outcome State Fault Refusal :=
  match s.bus.programmeQ with
  | f :: _ =>
    if participates s ∧ f.kind = .itemRequest then
      .next (settleAttention (settleAnswers (freeProgramme (takeRequest f s))))
    else .next s
  | [] => .next s

/-! ### Timers -/

/-- SUMMARY_TIMER: a summary is offered and the timer restarted with a fresh draw (R58). -/
def execSummaryTimer (s : State) : Host.Outcome State Fault Refusal :=
  .next (if timerDue s.exch.summaryTimer s then settleAttention (settleAnswers (offerSummary (startSummaryTimer s))) else s)

/-- EARLY_SUMMARY: the hold has run out, and a summary is offered (R60). -/
def execEarlySummary (s : State) : Host.Outcome State Fault Refusal :=
  .next (if timerDue s.exch.early s then
      settleAttention (settleAnswers (offerSummary (s.modExch fun x => { x with early := none })))
    else s)

/-- The request timer of a WAITING record expires: repeat, give up or fail (R64; log entry 26). -/
def requestExpired (r : PubRecord) (s : State) : State :=
  if 3 ≤ r.attempts then setEvent .catchUpFailed (modRecord r.station PubRecord.idled s)
  else if (level s).calm then startCatchUp r.station r.settled s
  else modRecord r.station PubRecord.idled s

/-- REQUEST_TIMER of the record of a publisher (R64). -/
def execRequestTimer (publisher : Nat) (s : State) : Host.Outcome State Fault Refusal :=
  match recordOf publisher s with
  | some r =>
    if r.waiting && timerDue r.timer s then .next (settleAttention (settleAnswers (requestExpired r s))) else .next s
  | none => .next s

/-- ANSWER_HOLD: the active answer's hold has run out; it passes to WALK and offers its first frame (R66, R68). -/
def execAnswerHold (s : State) : Host.Outcome State Fault Refusal :=
  match s.exch.active with
  | some a =>
    match a.phase with
    | .hold t =>
      if t.expired s.time.now then .next (settleAttention (settleAnswers (answerOffer { a with phase := .walk } s)))
      else .next s
    | .walk => .next s
  | none => .next s

/-! ### Publishing (R70, R71) -/

/-- The next own revision: high-water plus one (R70). -/
def nextRevision (own : Nat) (s : State) : Nat := highWaterOf own s + 1

/-- Checks 5 and 6 of Table 4-4: the status that refuses, or none. -/
def publishRoom (own : Nat) (s : State) : Option Status :=
  if highWaterOf own s = 65535 then some .exhausted
  else if ((recordOf own s).isNone ∧ 8 ≤ s.exch.records.length) ∨ !hasRoom .programmeItem s.bus.queue then some .full
  else none

/-- The code of an outcome (R175, Table 12-8). -/
def StoreOutcome.code : StoreOutcome → Nat
  | .bad => 0 | .refusedPublisher => 1 | .stale => 2 | .replaced => 3 | .past => 4 | .inserted => 5
  | .insertedEvicting => 6 | .refusedFull => 7

/-- Carry out a publication of a body under the next own revision: apply, treat as direct, offer (R70). -/
def publishBody (b : ItemBody) (s : State) : State × List Octet :=
  let s := ensureRecord b.publisher s
  match applyBody b s with
  | (s, o) =>
    let s := directItem b.publisher b.revision s
    let s := offer' ⟨.programmeItem, 255, itemPayload (some b) none, [], false⟩ s
    (s, respond .done (le16 b.revision ++ [o8 o.code]))

/-- Checks 1 to 3 of Table 4-4: the status that refuses, or none. -/
def publishAllowed (s : State) : Option Status :=
  if (roles s).publisher = false then some .notPermitted
  else if s.node.state = .joining then some .notReady
  else if level s = .muster then some .busy
  else none

/-- PUBLISH ITEM by its owner (R70, Table 4-4). -/
def doPublish (args : List Octet) (s : State) : State × List Octet :=
  match publishAllowed s, ownStation s with
  | some st, _ => (s, respond st [])
  | none, none => (s, respond .notPermitted [])
  | none, some own =>
    match readBody (publishOctets own 1 args) with
    | none => (s, respond .invalid [])
    | some b =>
      match publishRoom own s with
      | some st => (s, respond st [])
      | none => publishBody { b with revision := nextRevision own s } s

/-- WITHDRAW ITEM by its owner: the node's own entry republished as CANCELLED (R71, Table 4-4). -/
def doWithdraw (args : List Octet) (s : State) : State × List Octet :=
  match publishAllowed s, ownStation s with
  | some st, _ => (s, respond st [])
  | none, none => (s, respond .notPermitted [])
  | none, some own =>
    match s.store.table.find? (·.body.key = (own, rd16At args 0)) with
    | none => (s, respond .invalid [])
    | some e =>
      match publishRoom own s with
      | some st => (s, respond st [])
      | none => publishBody { e.body with status := .cancelled, revision := nextRevision own s } s

/-! ### The exchange and the level (R72, R73) -/

/-- Every WAITING record to IDLE with attempts 0 and its timer stopped. -/
def idleRecords (s : State) : State :=
  s.modExch fun x => { x with records := x.records.map fun r => if r.waiting then r.idled else r }

/-- The answers dropped, the requests idled, the summaries stopped: entry to MUSTER (R72) and to FAULT (R74). -/
def stopExchange (s : State) : State :=
  idleRecords ((dropAnswer s).modExch fun x => { x with answers := [], summaryTimer := none, early := none })

/-- What the engine does at a change of level (R58, R60, R72, R73). -/
def exchangeLevel (old new : Level) (s : State) : State :=
  if new = .muster then stopExchange s
  else if new = .standDown then s.modExch fun x => { x with summaryTimer := none, early := none }
  else if old.calm = false ∧ s.node.state = .run then startSummaryTimer (offerSummary s)
  else s

end Sys2Proof.Machine
end

