-- ==== Sys2Proof/Machine/Route.lean ====
section
/-! DEFINITION. Route: the SEGMENT STATE frames, the route table, adverts, invalidation, redirects and path lights (5.5, Section 6). -/

namespace Sys2Proof.Machine

/-! ### Segment frames offered (R81) -/

/-- The closure kinds (Table 5-2). -/
def SegKind.closure : SegKind → Bool
  | .fireClosure | .watertightClosure => true
  | .corridor | .stair | .lift => false

/-- A locally sensed closure: a closure kind whose source is LOCAL (R78). -/
def Neighbour.sensed (n : Neighbour) : Bool := n.fixed.kind.closure && !n.remote

/-- The sensed entries: one for each LOCAL closure record whose state is known, in index order (R81). -/
def sensedPayload (ns : List Neighbour) : List Octet :=
  ((ns.filter fun n => n.sensed && n.closure ≠ .unknown).map fun n => sensedOctets n.fixed.segment n.closure).flatten

/-- Offer the frame of sensed entries, if there are any (R81). -/
def offerSensed (s : State) : State :=
  let p := sensedPayload s.mon.neighbours
  if p.isEmpty then s else offer' ⟨.segmentState, 255, p, [], false⟩ s

/-- The notes a frame of declared entries takes: segment and issue of each CLEAR entry (R84). -/
def clearNotes (l : List Declared) : List ClearNote :=
  (l.filter (!·.blocked)).map fun d => { segment := d.segment, issue := d.issue }

/-- Offer a frame of DECLARED entries (R81, R84). -/
def offerDeclared (l : List Declared) (s : State) : State :=
  if l.isEmpty then s
  else offer' ⟨.segmentState, 255, (l.map fun d => declaredOctets d.segment d.blocked).flatten, clearNotes l, false⟩ s

/-- The SEGMENT STATE frames of an advert, in RUN: the sensed entries, then the declared list, six entries to a frame (R81). -/
def offerSegments (s : State) : State :=
  if s.node.state = .run then
    let s := offerSensed s
    if (roles s).console then
      let l := s.mon.declared
      offerDeclared (l.drop 6) (offerDeclared (l.take 6) s)
    else s
  else s

/-! ### Adverts (R96 to R99) -/

/-- One entry of the advert for a route entry (R96). -/
def advertEntry (ns : List Neighbour) (r : RouteEntry) : AdvertEntry :=
  match r.state with
  | .isLocal => { code := r.code, distance := 0, via := 0 }
  | .unreachable => { code := r.code, distance := 63, via := 0 }
  | .valid => { code := r.code, distance := r.distance,
                via := match r.nextHop with | some i => (match ns[i]? with | some n => n.fixed.station | none => 0) | none => 0 }

/-- The payload of an advert: JOINING flag and one entry for each route entry (R96). -/
def advertPayload (s : State) : List Octet :=
  o8 (b1 (decide (s.node.state = .joining)))
    :: (s.route.table.map fun r => (advertEntry s.mon.neighbours r).octets).flatten

/-- Start the advert timer with a fresh draw from the range of a level (R97). -/
def startAdvertTimer (l : Level) (s : State) : State :=
  let len := if l.alert then drawValue 1500 2500 s else drawValue 7500 12500 s
  drawn (s.modRoute fun r => { r with advertTimer := startTimer s len })

/-- The changed flags cleared (R99). -/
def clearChanged (s : State) : State :=
  s.modRoute fun r => { r with table := r.table.map fun e => { e with changed := false } }

/-- The answer to an advert offer acts on the last offer, the pending trigger and the changed flags (R96, R98, R99). -/
def advertAnswered (a : OfferAnswer) (s : State) : State :=
  match a with
  | .accepted .. => clearChanged (s.modRoute fun r => { r with lastOffer := some s.time.now, trigger := none })
  | .refusedFull =>
    s.modRoute fun r => { r with lastOffer := some s.time.now, trigger := startTimer s Config.triggerSpacing }
  | .refusedState => s.modRoute fun r => { r with trigger := none }

/-- Offer an advert: contents as they stand, the timer restarted, then the SEGMENT STATE frames (R81, R96 to R99; log entry 11). -/
def offerAdvert (s : State) : State :=
  match offer ⟨.routeAdvert, 255, advertPayload s, [], false⟩ s with
  | (s, a) => offerSegments (startAdvertTimer (level s) (advertAnswered a s))

/-- Make a triggered advert due (R98). -/
def makeTriggerDue (s : State) : State :=
  if participates s && s.route.trigger.isNone then
    match s.route.lastOffer with
    | none => offerAdvert s
    | some t =>
      if Config.triggerSpacing ≤ (s.time.now - t).toNat then offerAdvert s
      else s.modRoute fun r => { r with trigger := some { start := t, len := Config.triggerSpacing } }
  else s

/-! ### The route table (R90 to R95) -/

/-- The route table in work: whether a changed flag was set, and whether a state or next hop changed. -/
structure RouteWork where
  table : List RouteEntry
  touched : Bool
  turned : Bool
  deriving DecidableEq, Repr

/-- A route entry made VALID through a neighbour (R93). -/
def RouteEntry.viaHop (n distance : Nat) (e : RouteEntry) : RouteEntry :=
  { e with state := .valid, distance, nextHop := some n }

/-- A route entry made UNREACHABLE (R91). -/
def RouteEntry.lost (e : RouteEntry) : RouteEntry := { e with state := .unreachable, distance := 63, nextHop := none }

/-- The changed flag follows any change of state, distance or next hop (R91). -/
def RouteEntry.flagged (old new : RouteEntry) : RouteEntry :=
  if new.state ≠ old.state ∨ new.distance ≠ old.distance ∨ new.nextHop ≠ old.nextHop then { new with changed := true } else new

/-- Apply a change to every entry of a table, noting what changed. -/
def RouteWork.apply (f : RouteEntry → RouteEntry) (w : RouteWork) : RouteWork :=
  { table := w.table.map fun e => RouteEntry.flagged e (f e),
    touched := w.touched || w.table.any fun e =>
      decide ((f e).state ≠ e.state ∨ (f e).distance ≠ e.distance ∨ (f e).nextHop ≠ e.nextHop),
    turned := w.turned || w.table.any fun e => decide ((f e).state ≠ e.state ∨ (f e).nextHop ≠ e.nextHop) }

/-- What one candidate makes of a table entry (R93 steps 3, 5 and 6; Table 6-4). -/
def takeCandidate (n k : Nat) (e : RouteEntry) : RouteEntry :=
  if e.state = .isLocal then e
  else if e.nextHop = some n then (if k < 63 then e.viaHop n k else e.lost)
  else if k < e.distance then e.viaHop n k
  else e

/-- The candidate distance of an advert entry over a neighbour (R93 step 4). -/
def candidate (own : Option Nat) (nb : Neighbour) (a : AdvertEntry) : Nat :=
  if own = some a.via ∨ nb.passable = false then 63 else min 63 (a.distance + nb.fixed.cost)

/-- The advert entry is well formed (R93 step 1). -/
def AdvertEntry.wellFormed (a : AdvertEntry) : Bool := decide (1 ≤ a.code ∧ a.code ≤ 1023 ∧ a.distance ≤ 63 ∧ a.via ≤ 127)

/-- One advert entry against neighbour `n` (R93); the number counts unknown destinations. -/
def advertStep (own : Option Nat) (n : Nat) (nb : Neighbour) (w : RouteWork × Nat) (a : AdvertEntry) : RouteWork × Nat :=
  if !a.wellFormed then w
  else if w.1.table.all (·.code ≠ a.code) then (w.1, w.2 + 1)
  else (w.1.apply fun e => if e.code = a.code then takeCandidate n (candidate own nb a) e else e, w.2)

/-- The entries of an advert against one neighbour entry, then the codes it no longer carries (R93, R94). -/
def advertAgainst (own : Option Nat) (entries : List AdvertEntry) (w : RouteWork × Nat) (nb : Neighbour × Nat) :
    RouteWork × Nat :=
  let w := entries.foldl (advertStep own nb.2 nb.1) w
  let carried (c : Nat) : Bool := entries.any fun a => a.wellFormed && a.code = c
  (w.1.apply fun e => if e.nextHop = some nb.2 ∧ !carried e.code then e.lost else e, w.2)

/-- Count a number of unknown destinations, saturating (R93, 0.8). -/
def countUnknown : Nat → State → State
  | 0, s => s
  | n + 1, s => countUnknown n (s.modCounters fun c => { c with unknownDestinations := raised c.unknownDestinations })

/-- The end-of-advert effects: a trigger if a changed flag was set, the ROUTE event if a state or next hop changed (R94, R101).
The path lights follow in `settleLights` (R106). -/
def endOfChange (w : RouteWork) (s : State) : State :=
  let s := if w.touched then makeTriggerDue s else s
  setEventIf w.turned .route s

/-- Take a worked route table. -/
def putTable (w : RouteWork) (s : State) : State := s.modRoute fun r => { r with table := w.table }

/-- The work on the present table before any change. -/
def routeWork (s : State) : RouteWork := { table := s.route.table, touched := false, turned := false }

/-- Routes through any of the neighbour entries become UNREACHABLE at once, with the end-of-advert effects (R95). -/
def invalidate (lost : List Nat) (s : State) : State :=
  let w := (routeWork s).apply fun e => if e.nextHop.any lost.contains then e.lost else e
  endOfChange w (putTable w s)

/-! ### Redirects (R100 to R103) -/

/-- An effective route: the code, the entry, and the redirected mark (R100). -/
structure Effective where
  code : Nat
  entry : RouteEntry
  redirected : Bool
  deriving DecidableEq, Repr

/-- The route table's entry for a code. -/
def routeOf (table : List RouteEntry) (code : Nat) : Option RouteEntry := table.find? (·.code = code)

/-- The effective route for a code under a list of redirects: one step, the first pair that names it (R100). -/
def effectiveRoute (table : List RouteEntry) (redirects : List Redirect) (code : Nat) : Option Effective :=
  match routeOf table code with
  | none => none
  | some e =>
    match if e.cls = .muster then redirects.find? (·.closed = code) else none with
    | none => some { code, entry := e, redirected := false }
    | some r =>
      match routeOf table r.alternate with
      | some alt => some { code := r.alternate, entry := alt, redirected := true }
      | none => some { code, entry := e, redirected := false }

/-- The effective route for a code at present. -/
def effectiveNow (s : State) (code : Nat) : Option Effective :=
  effectiveRoute s.route.table s.muster.record.redirects code

/-- The neighbour entry of a route's next hop, if any. -/
def hopOf (ns : List Neighbour) (e : RouteEntry) : Option Neighbour :=
  match e.nextHop with
  | some i => ns[i]?
  | none => none

/-- The bearing of a route: that of its next hop when VALID, else none (R100). -/
def bearingOf (ns : List Neighbour) (e : RouteEntry) : Option Nat :=
  if e.state = .valid then (hopOf ns e).map (·.fixed.bearing) else none

/-- The station of a route's next hop, if any. -/
def hopStation (ns : List Neighbour) (e : RouteEntry) : Option Nat := (hopOf ns e).map (·.fixed.station)

/-- Whether a change of redirects changes the effective route of some MUSTER code (R101). -/
def redirectsTurn (table : List RouteEntry) (old new : List Redirect) : Bool :=
  table.any fun e => e.cls = .muster && decide (effectiveRoute table old e.code ≠ effectiveRoute table new e.code)

/-! ### Path lights (R104 to R106) -/

/-- The path muster code in use: configured, not 0, and naming an entry of the route table (R104). -/
def pathCode (s : State) : Option Nat :=
  match s.node.config with
  | some c => if c.pathCode ≠ 0 ∧ (routeOf s.route.table c.pathCode).isSome then some c.pathCode else none
  | none => none

/-- The channel states for an effective route at MUSTER (Table 6-5). -/
def lampsFor (ns : List Neighbour) (e : RouteEntry) : PathLights :=
  match e.state with
  | .isLocal => ⟨.steady, .steady⟩
  | .unreachable => ⟨.flash, .flash⟩
  | .valid =>
    match hopOf ns e with
    | some n =>
      match n.fixed.side with
      | .a => ⟨.flash, .off⟩
      | .b => ⟨.off, .flash⟩
      | .none => ⟨.flash, .flash⟩
    | none => ⟨.flash, .flash⟩

/-- The channel states at present (R104). -/
def lampsNow (s : State) : PathLights :=
  if participates s && decide (level s = .muster) then
    match (pathCode s).bind (effectiveNow s) with
    | some e => lampsFor s.mon.neighbours e.entry
    | none => ⟨.off, .off⟩
  else ⟨.off, .off⟩

/-- Re-evaluate the path lights (R106; log entry 16). -/
def settleLights (s : State) : State := s.modLights fun _ => lampsNow s

/-- The phase within the second of a channel in FLASH (R105). -/
def flashPhase (s : State) : Nat :=
  let m := if s.time.isSet then s.time.ship.ms else s.time.now.toNat % 1000
  (m + (match s.node.config with | some c => c.chase | none => 0)) % 1000

/-- Whether an output is lit at this moment (R105). -/
def lampLit (l : Lamp) (s : State) : Bool :=
  match l with
  | .off => false
  | .steady => true
  | .flash => decide (flashPhase s < 300)

/-! ### Commands -/

/-- The presence timeout of a level (R77). -/
def presenceTime (l : Level) : Nat := if l.alert then 12000 else 32000

/-- An advert from a station: each neighbour entry of that station is UP with its timer restarted; NEIGHBOUR if one was DOWN (R76). -/
def hearAdvert (source : Nat) (s : State) : State :=
  let wasDown := s.mon.neighbours.any fun n => n.fixed.station = source && n.presence = .down
  setEventIf wasDown .neighbour (s.modMon fun m => { m with neighbours := m.neighbours.map fun n =>
    if n.fixed.station = source then
      { n with presence := .up, presenceTimer := startTimer s (presenceTime (level s)) }
    else n })

/-- A join prompt makes a join-prompt echo pending in RUN with a serial not 0, if none is (R116). -/
def promptEcho (s : State) : State :=
  if s.node.state = .run ∧ s.muster.record.serial ≠ 0 ∧ s.muster.joinEcho.isNone then
    drawn (s.modMuster fun m => { m with joinEcho := startTimer s (drawValue 0 2000 s) })
  else s

/-- The neighbour entries of a station, with their indexes. -/
def entriesOf (source : Nat) (s : State) : List (Neighbour × Nat) :=
  s.mon.neighbours.zipIdx.filter fun p => p.1.fixed.station = source

/-- An advert at the Route Engine: entries against each neighbour entry of its source, the join prompt, the end-of-advert effects (R92 to R94). -/
def takeAdvert (source : Nat) (payload : List Octet) (s : State) : State :=
  let s := hearAdvert source s
  match readAdvert payload with
  | none => s
  | some (joining, entries) =>
    let nbs := entriesOf source s
    let w := nbs.foldl (advertAgainst (ownStation s) entries) (routeWork s, 0)
    let s := countUnknown w.2 (putTable w.1 s)
    let s := if joining then
        let s := promptEcho (promptSummary s)
        if nbs.isEmpty then s else makeTriggerDue s
      else s
    endOfChange w.1 s

/-- ROUTE_ADVERT: the frame at the head of the ROUTE queue (R92). -/
def execRouteAdvert (s : State) : Host.Outcome State Fault Refusal :=
  match s.bus.routeQ with
  | f :: rest =>
    if participates s ∧ f.kind = .routeAdvert then
      .next (settleAttention (settleLights (settleAnswers ((takeAdvert f.source f.payload s).modBus fun b =>
        { b with routeQ := rest }))))
    else .next s
  | [] => .next s

/-- ADVERT_TIMER: an advert is offered, with the segment frames, and the timer restarted (R97). -/
def execAdvertTimer (s : State) : Host.Outcome State Fault Refusal :=
  .next (if timerDue s.route.advertTimer s then settleAttention (settleAnswers (offerAdvert s)) else s)

/-- TRIGGERED_ADVERT: the pending triggered advert falls due and is offered (R98). -/
def execTriggeredAdvert (s : State) : Host.Outcome State Fault Refusal :=
  .next (if timerDue s.route.trigger s then settleAttention (settleAnswers (offerAdvert s)) else s)

/-! ### Responses -/

/-- The code of a route state (Table 12-8). -/
def RouteState.code : RouteState → Nat
  | .isLocal => 0 | .valid => 1 | .unreachable => 2

/-- The code of a channel state (Table 12-8). -/
def Lamp.code : Lamp → Nat
  | .off => 0 | .steady => 1 | .flash => 2

/-- The class and state octet of a route (Table 12-8). -/
def classState (e : RouteEntry) : Octet := o8 (e.cls.code + 16 * e.state.code)

/-- QUERY ROUTE by its owner (R102); the redirected octet reads 0 for no and 1 for yes (log entry 51). -/
def doQueryRoute (args : List Octet) (s : State) : State × List Octet :=
  let code := rd16At args 0
  match if 1 ≤ code ∧ code ≤ 1023 then effectiveNow s code else none with
  | none => (s, respond .invalid [])
  | some e =>
    (s, respond .done (le16 code ++ le16 e.code
      ++ [classState e.entry, o8 e.entry.distance, o8 ((hopStation s.mon.neighbours e.entry).getD 0),
          opt8 (bearingOf s.mon.neighbours e.entry), o8 (b1 e.redirected)]))

/-- A half of the route table (R103, Table 12-8); a half that holds no entry is the count alone (R168). -/
def routesPart (low : Bool) (s : State) : List Octet :=
  let half := if low then s.route.table.take 8 else (s.route.table.drop 8).take 8
  if half.isEmpty then [o8 s.route.table.length]
  else [o8 s.route.table.length, o8 s.lights.a.code, o8 s.lights.b.code]
    ++ (half.map fun e => le16 e.code ++ [classState e, o8 e.distance, opt8 e.nextHop,
          opt8 (hopStation s.mon.neighbours e), opt8 (bearingOf s.mon.neighbours e)]).flatten

/-- The path-route part of READ VIEW (R103, Table 12-8); with no path muster code its
fields are absent and its redirected octet reads 0, which the spec does not give (log entry 17); that octet reads 1 for yes (log entry 51). -/
def pathPart (s : State) : List Octet :=
  (match (pathCode s).bind fun c => (effectiveNow s c).map fun e => (c, e) with
   | some (c, e) => le16 c ++ le16 e.code ++ [o8 e.entry.state.code, o8 e.entry.distance,
       opt8 (bearingOf s.mon.neighbours e.entry), o8 (b1 e.redirected)]
   | none => le16 0 ++ [0xFF, 0xFF, 0xFF, 0xFF, 0xFF, 0])
  ++ [o8 s.lights.a.code, o8 s.lights.b.code]

end Sys2Proof.Machine
end

