-- ==== Sys2Proof/Machine/Monitor.lean ====
section
/-! DEFINITION. Monitor: presence, sense lines, segment states, declarations and passability (Section 5). -/

namespace Sys2Proof.Machine

/-! ### Passability (R85, R86) -/

/-- A segment is passable at a level (R85). -/
def passableAt (l : Level) (kind : SegKind) (closure : Closure) (blocked : Bool) : Bool :=
  !blocked && match kind with
    | .corridor | .stair | .fireClosure => true
    | .watertightClosure => closure = .opened
    | .lift => l ≠ .muster

/-- What R85 gives for a record at a level. -/
def Neighbour.passableNow (n : Neighbour) (l : Level) : Bool := passableAt l n.fixed.kind n.closure n.blocked

/-- The indexes, among those chosen, whose stored passability falls. -/
def fallen (l : Level) (choose : Neighbour → Nat → Bool) (ns : List Neighbour) : List Nat :=
  (ns.zipIdx.filter fun p => choose p.1 p.2 && p.1.passable && !p.1.passableNow l).map (·.2)

/-- Whether the stored passability of any record chosen changes. -/
def passabilityMoves (l : Level) (choose : Neighbour → Nat → Bool) (ns : List Neighbour) : Bool :=
  ns.zipIdx.any fun p => choose p.1 p.2 && p.1.passable ≠ p.1.passableNow l

/-- Store the passability of the records chosen. -/
def restore (l : Level) (choose : Neighbour → Nat → Bool) (ns : List Neighbour) : List Neighbour :=
  ns.zipIdx.map fun p => if choose p.1 p.2 then { p.1 with passable := p.1.passableNow l } else p.1

/-- Evaluate the passability of the records chosen, as one change: SEGMENT at a change, and routes over segments that became
impassable withdrawn (R86, R95). -/
def evaluate (choose : Neighbour → Nat → Bool) (s : State) : State :=
  let ns := s.mon.neighbours
  let lost := fallen (level s) choose ns
  let moved := passabilityMoves (level s) choose ns
  let s := setEventIf moved .segment (s.modMon fun m => { m with neighbours := restore (level s) choose ns })
  if lost.isEmpty then s else invalidate lost s

/-- A record of the neighbour table changed in its closure or block state: SEGMENT, and its passability evaluated (R82, R83, R86). -/
def recordChanged (i : Nat) (s : State) : State := evaluate (fun _ j => j = i) (setEvent .segment s)

/-! ### PRESENCE_TIMER -/

/-- A neighbour goes DOWN: its timer stops, NEIGHBOUR is set, routes through it are withdrawn (R77, R95). -/
def loseNeighbour (i : Nat) (s : State) : State :=
  invalidate [i] (setEvent .neighbour (s.modMon fun m => { m with
    neighbours := modAt (fun n => { n with presence := .down, presenceTimer := none }) i m.neighbours }))

/-- PRESENCE_TIMER of the neighbour entry at an index (R77). -/
def execPresenceTimer (index : Nat) (s : State) : Host.Outcome State Fault Refusal :=
  match s.mon.neighbours[index]? with
  | some n =>
    if timerDue n.presenceTimer s then .next (settleAttention (settleLights (settleAnswers (loseNeighbour index s))))
    else .next s
  | none => .next s

/-! ### Sense lines (R79, R80) -/

/-- A closure-kind entry names the line. -/
def Neighbour.onLine (n : Neighbour) (line : Fin 8) : Bool :=
  n.fixed.kind.closure && (match n.fixed.sense with | some (l, _) => l = line | none => false)

/-- The closure state an entry takes from an accepted level (R80). -/
def Neighbour.closureAt (n : Neighbour) (accepted : LineLevel) : Closure :=
  match n.fixed.sense with
  | some (_, closedLevel) => if accepted = closedLevel then .closed else .opened
  | none => n.closure

/-- The records whose closure state an accepted level changes, by index. -/
def closuresMoved (line : Fin 8) (accepted : LineLevel) (ns : List Neighbour) : List Nat :=
  (ns.zipIdx.filter fun p => p.1.onLine line && p.1.closureAt accepted ≠ p.1.closure).map (·.2)

/-- A changed LOCAL closure record: event, passability, and in RUN a frame of the sensed entries (R80, R81). -/
def sensedChange (s : State) (i : Nat) : State :=
  let s := recordChanged i s
  if s.node.state = .run then offerSensed s else s

/-- A filter takes a new accepted level: every closure-kind entry that names the line follows it (R80). Where it moves several records, all
closure states are set first and the records then dealt with in index order, the model's choice (log entry 40). -/
def acceptLevel (line : Fin 8) (accepted : LineLevel) (s : State) : State :=
  let moved := closuresMoved line accepted s.mon.neighbours
  let s := s.modMon fun m => { m with
    filters := m.filters.set line { m.filters[line] with accepted := some accepted },
    neighbours := m.neighbours.map fun n => if n.onLine line then { n with closure := n.closureAt accepted } else n }
  moved.foldl sensedChange s

/-- SENSE_LINE_ACCEPT: after twenty equal samples that differ from the accepted level the candidate is accepted (R79, R80). -/
def execSenseLineAccept (line : Fin 8) (s : State) : Host.Outcome State Fault Refusal :=
  let f := s.mon.filters[line]
  match f.candidate with
  | some c =>
    if Config.filterRun ≤ f.run ∧ f.accepted ≠ some c then
      .next (settleAttention (settleLights (settleAnswers (acceptLevel line c s))))
    else .next s
  | none => .next s

/-- SENSE_LINE_CHANGE: a sample that differs from the candidate of a running filter becomes the candidate with run count 1, and is
the sample of the coming millisecond (R79; log entry 35); the line's level is the sample. -/
def execSenseLineChange (line : Fin 8) (sample : LineLevel) (s : State) : Host.Outcome State Fault Refusal :=
  let f := s.mon.filters[line]
  let s := s.modPins fun p => { p with sense := p.sense.set line sample }
  match f.candidate with
  | some c =>
    .next (if c = sample then s
      else s.modMon fun m => { m with filters := m.filters.set line { f with candidate := some sample, run := 1, sampled := true } })
  | none => .next s

/-! ### SEGMENT_STATE -/

/-- One entry of a SEGMENT STATE against one record (R82). -/
def segmentAgainst (e : SegmentEntry) (c : Closure) (s : State) (i : Nat) : State :=
  match s.mon.neighbours[i]? with
  | none => s
  | some n =>
    if e.isDeclared then
      if n.blocked = e.blocked then s
      else recordChanged i (s.modMon fun m => { m with
        neighbours := modAt (fun n => { n with blocked := e.blocked }) i m.neighbours })
    else if n.remote = false ∨ n.closure = c then s
    else recordChanged i (s.modMon fun m => { m with
      neighbours := modAt (fun n => { n with closure := c }) i m.neighbours })

/-- The indexes of the records of a segment number. -/
def recordsOf (segment : Nat) (s : State) : List Nat :=
  (s.mon.neighbours.zipIdx.filter fun p => p.1.fixed.segment = segment).map (·.2)

/-- One entry of a SEGMENT STATE: skipped unless its number is in 1..1023, its fields are values and a record matches (R82). -/
def takeSegment (s : State) (e : SegmentEntry) : State :=
  match e.closure with
  | none => s
  | some c =>
    if e.segment < 1 ∨ 1023 < e.segment then s
    else (recordsOf e.segment s).foldl (segmentAgainst e c) s

/-- SEGMENT_STATE: the frame at the head of the ROUTE queue, its entries in the order carried (R82). -/
def execSegmentState (s : State) : Host.Outcome State Fault Refusal :=
  match s.bus.routeQ with
  | f :: rest =>
    if participates s ∧ f.kind = .segmentState then
      let s := match readSegments f.payload with
        | some es => es.foldl takeSegment s
        | none => s
      .next (settleAttention (settleLights (settleAnswers (s.modBus fun b => { b with routeQ := rest }))))
    else .next s
  | [] => .next s

/-! ### Declarations (R83, R84) -/

/-- The declared list with a declaration taken (R84). -/
def declareIn (segment : Nat) (blocked : Bool) (l : List Declared) : List Declared :=
  if l.any (·.segment = segment) then
    l.map fun d => if d.segment = segment then { d with blocked, issue := d.issue + 1 } else d
  else l ++ [{ segment, blocked, issue := 0 }]

/-- The note a declaration's own frame takes: of a CLEAR entry, its segment and issue (R84). -/
def declarationNotes (segment : Nat) (l : List Declared) : List ClearNote := clearNotes (l.filter (·.segment = segment))

/-- A declaration taken: the list, the local record, the frame (R83). -/
def declareTaken (segment : Nat) (blocked : Bool) (s : State) : State :=
  let s := s.modMon fun m => { m with declared := declareIn segment blocked m.declared }
  let s := (recordsOf segment s).foldl
    (segmentAgainst { segment, closure := some .opened, blocked, isDeclared := true } .opened) s
  offer' ⟨.segmentState, 255, declaredOctets segment blocked, declarationNotes segment s.mon.declared, false⟩ s

/-- DECLARE SEGMENT by its owner (R83). -/
def doDeclare (args : List Octet) (s : State) : State × List Octet :=
  let segment := rd16At args 0
  let state := (octetAt args 2).toNat
  if (roles s).console = false then (s, respond .notPermitted [])
  else if segment < 1 ∨ 1023 < segment ∨ 1 < state then (s, respond .invalid [])
  else if s.mon.declared.length = 8 ∧ s.mon.declared.all (·.segment ≠ segment) then (s, respond .full [])
  else (declareTaken segment (state = 1) s, respond .done [])

/-- Void the notes that outstanding frames hold for a segment (R84). -/
def voidNotes (segment : Nat) (s : State) : State :=
  let clean (f : TxFrame) : TxFrame := { f with notes := f.notes.filter (·.segment ≠ segment) }
  s.modBus fun b => { b with queue := b.queue.map clean,
                             buffer := b.buffer.map fun u => { u with frame := clean u.frame } }

/-- A completed frame's note of a CLEAR entry: the entry is removed if it is still CLEAR under that issue (R84). -/
def clearCompleted (s : State) (n : ClearNote) : State :=
  if s.mon.declared.any fun d => d.segment = n.segment && !d.blocked && d.issue = n.issue then
    voidNotes n.segment (s.modMon fun m => { m with declared := m.declared.filter (·.segment ≠ n.segment) })
  else s

/-! ### The level (R77, R86) -/

/-- What the Monitor does at a change of level: presence timers on crossing rows, lifts on entering or leaving MUSTER. -/
def monitorLevel (old new : Level) (s : State) : State :=
  let s := if old.alert ≠ new.alert then
      s.modMon fun m => { m with neighbours := m.neighbours.map fun n =>
        if n.presenceTimer.isSome then { n with presenceTimer := startTimer s (presenceTime new) } else n }
    else s
  if (old = .muster) ≠ (new = .muster) then evaluate (fun n _ => n.fixed.kind = .lift) s else s

/-- What the Route Engine does at a change of level: the advert timer on crossing rows (R97). -/
def routeLevel (old new : Level) (s : State) : State :=
  if old.alert ≠ new.alert ∧ s.route.advertTimer.isSome then startAdvertTimer new s else s

/-! ### Responses -/

/-- The code of a presence (Table 12-8). -/
def Presence.code : Presence → Nat
  | .unknown => 0 | .up => 1 | .down => 2

/-- The neighbour part of READ ROUTE (R87, Table 12-8). -/
def neighboursPart (s : State) : List Octet :=
  o8 s.mon.neighbours.length :: (s.mon.neighbours.map fun n =>
    o8 n.fixed.station :: le16 n.fixed.segment
      ++ [o8 n.fixed.kind.code, o8 (n.fixed.bearing + 16 * n.fixed.side.code), o8 n.presence.code,
          o8 (n.closure.code + 4 * b1 n.remote + 8 * b1 n.blocked + 16 * b1 n.passable)]).flatten

/-- The declared list as reported (R87, Table 12-8); a state has the code of DECLARE SEGMENT, 0 CLEAR and 1 BLOCKED (log entry 51). -/
def declaredPart (s : State) : List Octet :=
  o8 s.mon.declared.length :: (s.mon.declared.map fun d => le16 d.segment ++ [o8 (b1 d.blocked)]).flatten

/-- READ ROUTE by its owners (R168). -/
def doReadRoute (args : List Octet) (s : State) : State × List Octet :=
  (s, match (octetAt args 0).toNat with
    | 0 => respond .done (neighboursPart s)
    | 1 => respond .done (routesPart true s)
    | 2 => respond .done (routesPart false s)
    | 3 => if (roles s).console then respond .done (declaredPart s) else respond .notPermitted []
    | _ => respond .invalid [])

end Sys2Proof.Machine
end

