-- ==== Sys2Proof/Machine/Refresh.lean ====
section
/-! DEFINITION. Refresh: plate targets, the refresh queue, starting, completing, failing and cancelling refreshes (Section 9),
and the pending cabin report list that plates feed (R119 to R123). -/

namespace Sys2Proof.Machine

/-! ### Plates -/

/-- Update the plate at a chain position. -/
def modPlate (i : Nat) (f : Plate → Plate) (s : State) : State :=
  s.modSched fun c => { c with plates := modAt f i c.plates }

/-! ### Targets (R145) -/

/-- The layout of every target (R145). -/
def layoutFor (node : NodeState) (l : Level) : Layout :=
  if node = .fault then .outOfService
  else match l with
    | .normal | .standby => .normal
    | .muster => .muster
    | .standDown => .standDown

/-- The layouts that carry the drill marker and the sweep mark (R145). -/
def Layout.mustering : Layout → Bool
  | .muster | .standDown => true
  | .normal | .outOfService => false

/-- The muster code shown: the assigned code, redirected once by the order (R145). -/
def shownCode (redirects : List Redirect) (assigned : Nat) : Nat :=
  match redirects.find? (·.closed = assigned) with
  | some r => r.alternate
  | none => assigned

/-- The target content of a plate (R145). -/
def targetFor (node : NodeState) (r : OrderRecord) (p : Plate) : Content :=
  let layout := layoutFor node r.level
  { layout, code := shownCode r.redirects p.assigned,
    drill := layout.mustering && r.drill,
    mark := if layout.mustering then (if p.swept then .swept else .notSwept) else .none,
    dnd := layout ≠ .outOfService && p.dnd,
    mur := layout ≠ .outOfService && p.mur }

/-- The plate with its target recomputed; the stamp rises when the content differs (R144, R145). -/
def Plate.retargeted (node : NodeState) (r : OrderRecord) (p : Plate) : Plate :=
  let t := targetFor node r p
  if t = p.target then p else { p with target := t, targetStamp := p.targetStamp + 1 }

/-! ### The queue (R146, R147) -/

/-- The shown content is absent or differs from the target (R144). -/
def Plate.stale (p : Plate) : Bool :=
  match p.shown with
  | some (c, _) => c ≠ p.target
  | none => true

/-- RUN or FAULT: the node states in which plates are queued and refreshed (R146, R148). -/
def refreshing (s : State) : Bool := s.node.state = .run || s.node.state = .fault

/-- The comparison of R146 for one plate. -/
def comparePlate (i : Nat) (s : State) : State :=
  match s.sched.plates[i]? with
  | none => s
  | some p =>
    if refreshing s then
      match p.refresh with
      | .idle =>
        if p.stale then
          modPlate i (fun p => { p with refresh := .queued }) (s.modSched fun c => { c with queue := c.queue ++ [i] })
        else s
      | .queued =>
        if p.stale then s
        else modPlate i (fun p => { p with refresh := .idle }) (s.modSched fun c => { c with queue := c.queue.filter (· ≠ i) })
      | .load | .drive => s
    else s

/-- Recompute the target of a plate and compare (R145, R146). -/
def retarget (i : Nat) (s : State) : State :=
  comparePlate i (modPlate i (Plate.retargeted s.node.state s.muster.record) s)

/-- Recompute every target, in ascending chain position. The worked sequence 9.11 shows that order at a change of level; for plates compared together
at entry to FAULT, and when an adopted order changes the redirects or the drill flag alone, R146 and R155 give no order in which they join the
refresh queue, and ascending chain position is the model's choice (log entry 47). -/
def retargetAll (s : State) : State := (List.range s.sched.plates.length).foldl (fun s i => retarget i s) s

/-- Compare every plate, in chain position order (R155). -/
def compareAll (s : State) : State := (List.range s.sched.plates.length).foldl (fun s i => comparePlate i s) s

/-- The entry of a plate has MUSTER priority (R147). -/
def musterPriority (l : Level) (p : Plate) : Bool :=
  l = .muster && (match p.shown with
    | none => true
    | some (c, _) => c.layout ≠ p.target.layout || c.code ≠ p.target.code || c.drill ≠ p.target.drill || c.mark ≠ p.target.mark)

/-- Whether the queue entry of a position has MUSTER priority. -/
def entryPriority (s : State) (i : Nat) : Bool :=
  match s.sched.plates[i]? with
  | some p => musterPriority (level s) p
  | none => false

/-- The queue in its order: MUSTER before ROUTINE, join order within each (R147). -/
def queueOrder (s : State) : List Nat :=
  s.sched.queue.filter (entryPriority s) ++ s.sched.queue.filter (!entryPriority s ·)

/-! ### Starting (R148) -/

/-- The allowance of a supply state (R148). -/
def allowanceOf : SupplyState → Nat
  | .mains => 2
  | .emergency | .low => 1
  | .critical => 0

/-- The allowance at present. -/
def allowance (s : State) : Nat := allowanceOf (supplyState s)

/-- The plate at a position is not NOT RESPONDING. -/
def startable (s : State) (i : Nat) : Bool :=
  match s.sched.plates[i]? with
  | some p => p.health ≠ .notResponding
  | none => false

/-- The refresh is FULL (R148). -/
def Plate.needsFull (p : Plate) : Bool :=
  (match p.shown with
   | none => true
   | some (c, _) => c.layout ≠ p.target.layout) || p.partialCount = 19

/-- The refresh a plate starts, with its copy of the target (R144, R148, R149). -/
def Plate.newRefresh (i : Nat) (p : Plate) : Refresh :=
  { position := i, content := p.target, stamp := p.targetStamp, full := p.needsFull, next := .ident, driveTimer := none,
    cancelled := false, pressNoted := false }

/-- The conditions of R148 that do not concern the queue. -/
def startAllowed (s : State) : Bool :=
  refreshing s && decide (s.sched.flight.length < allowance s) && decide (s.chain.service = .inService) && !s.chain.testPending

/-- Start the first eligible entry in queue order, if R148 allows it. -/
def startOne (s : State) : State :=
  if startAllowed s then
    match (queueOrder s).find? (startable s) with
    | none => s
    | some i =>
      match s.sched.plates[i]? with
      | none => s
      | some p =>
        modPlate i (fun p => { p with refresh := .load }) (s.modSched fun c => { c with
          queue := c.queue.filter (· ≠ i), flight := c.flight ++ [p.newRefresh i] })
  else s

/-- Start refreshes one after the other: at most two are ever in flight. Done at the end of every step that can make the conditions hold,
the start of a line test among them (R148; log entries 16, 42). -/
def settleRefreshes (s : State) : State := startOne (startOne s)

/-! ### Ends of a refresh (R150 to R152) -/

/-- The refresh of a plate in flight. -/
def refreshOf (i : Nat) (s : State) : Option Refresh := s.sched.flight.find? (·.position = i)

/-- Update the refresh of a plate. -/
def modRefresh (i : Nat) (f : Refresh → Refresh) (s : State) : State :=
  s.modSched fun c => { c with flight := c.flight.map fun r => if r.position = i then f r else r }

/-- The refresh of a plate leaves flight. -/
def leaveFlight (i : Nat) (s : State) : State :=
  s.modSched fun c => { c with flight := c.flight.filter (·.position ≠ i) }

/-- A refresh completes (R150). -/
def completeRefresh (r : Refresh) (s : State) : State :=
  comparePlate r.position (modPlate r.position (fun p => { p with
    shown := if r.pressNoted then none else some (r.content, r.stamp),
    partialCount := if r.full then 0 else p.partialCount + 1,
    refresh := .idle }) (leaveFlight r.position s))

/-- A refresh fails: the shown content becomes absent and the plate is queued again (R151). -/
def failRefresh (i : Nat) (s : State) : State :=
  comparePlate i (modPlate i (fun p => { p with shown := none, refresh := .idle }) (leaveFlight i s))

/-- A refresh enters DRIVE, its drive timer started; a cancellation is void (R150, R152). -/
def enterDrive (i : Nat) (s : State) : State :=
  modPlate i (fun p => { p with refresh := .drive })
    (modRefresh i (fun r => { r with driveTimer := startTimer s Config.driveTime, cancelled := false }) s)

/-- A cancelled refresh leaves LOAD and its plate is re-queued ahead of every entry; the comparison follows (R146, R152). -/
def requeueFront (i : Nat) (s : State) : State :=
  comparePlate i (modPlate i (fun p => { p with refresh := .queued })
    ((leaveFlight i s).modSched fun c => { c with queue := i :: c.queue }))

/-- A transaction of the refresh is on the chain. -/
def onChain (i : Nat) (s : State) : Bool :=
  match s.chain.engine with
  | .transaction t => t.position = i && t.op ≠ .poll
  | _ => false

/-- Cancel one refresh in LOAD: at once, or marked while its transaction is on the chain (R152). A refresh cancelled with nothing on the
chain keeps its plate's shown content, also after a DRIVE write that failed and stands ready again (the model's choice, log entry 41). -/
def cancelOne (s : State) (i : Nat) : State :=
  if onChain i s then modRefresh i (fun r => { r with cancelled := true }) s else requeueFront i s

/-- The positions of refreshes in LOAD, in the order in which they started. -/
def loading (s : State) : List Nat := (s.sched.flight.filter (·.driveTimer.isNone)).map (·.position)

/-- Cancel every refresh in LOAD; plates re-queued together keep the order in which their refreshes started (R147, R152). -/
def cancelLoads (s : State) : State := (loading s).reverse.foldl cancelOne s

/-- The write that follows a write of the list (R149). -/
def ChainOp.following : ChainOp → ChainOp
  | .ident => .musterBlock | .musterBlock => .status | .status => .drive | .drive => .drive | .poll => .poll

/-- The outcome of a LOAD transaction handed to the Scheduler (R149, R152). -/
def loadOutcome (i : Nat) (ok : Bool) (s : State) : State :=
  match refreshOf i s with
  | none => s
  | some r =>
    if r.driveTimer.isSome then s
    else if ok && decide (r.next = .drive) then enterDrive i s
    else if r.cancelled then
      requeueFront i (if r.next = .drive then modPlate i (fun p => { p with shown := none }) s else s)
    else if ok then modRefresh i (fun r => { r with next := r.next.following }) s
    else s

/-- A drive status handed to the Scheduler (R150, R151). -/
def driveReading (i : Nat) (d : DriveStatus) (s : State) : State :=
  match refreshOf i s with
  | none => s
  | some r =>
    if r.driveTimer.isNone then s
    else match d with
      | .driving => s
      | .done => completeRefresh r s
      | .idle => failRefresh i s

/-- The loss of a plate handed to the Scheduler: its refresh fails, or its shown content becomes absent (R151). -/
def lossRefresh (i : Nat) (s : State) : State :=
  if (refreshOf i s).isSome then failRefresh i s
  else comparePlate i (modPlate i (fun p => { p with shown := none }) s)

/-- A short press taken at a level other than MUSTER (R154). -/
def shortPressRefresh (i : Nat) (s : State) : State :=
  comparePlate i (modPlate i (fun p => { p with shown := none }) (modRefresh i (fun r => { r with pressNoted := true }) s))

/-- DRIVE_TIMER: the drive timer of a plate's refresh expires and the refresh fails (R151). -/
def driveTimedOut (position : Nat) (s : State) : Bool :=
  match refreshOf position s with
  | some r => timerDue r.driveTimer s
  | none => false

/-! ### Cabin reports (R120 to R123) -/

/-- Health as a report carries it (R121). -/
def Health.cabin : Health → CabinHealth
  | .unknown => .unknown | .responding => .ok | .notResponding => .failed

/-- The report of a plate with its state at this moment (R121). -/
def reportFor (i : Nat) (p : Plate) : CabinEntry :=
  { position := i, cabin := p.cabin, swept := p.swept, health := p.health.cabin, dnd := p.dnd, mur := p.mur }

/-- The list with a report joined: in place of the plate's entry, or at the tail (R121). -/
def joinReport (e : CabinEntry) (l : List CabinEntry) : List CabinEntry :=
  if l.any (·.position = e.position) then l.map fun q => if q.position = e.position then e else q else l ++ [e]

/-- A report for a plate joins the pending list, and the builder may offer again (R121, R123). -/
def reportPlate (i : Nat) (s : State) : State :=
  match s.sched.plates[i]? with
  | some p => s.modMuster fun m => { m with pendingReports := joinReport (reportFor i p) m.pendingReports, builderWaits := false }
  | none => s

/-- A report joins while the level is MUSTER (R120). -/
def reportAtMuster (i : Nat) (s : State) : State := if level s = .muster then reportPlate i s else s

/-- The builder takes up to six of the oldest entries and offers a CABIN REPORT; a refusal loses them and makes it wait (R123). -/
def buildReport (s : State) : State :=
  let entries := s.muster.pendingReports.take 6
  let s := s.modMuster fun m => { m with pendingReports := m.pendingReports.drop 6 }
  match offer ⟨.cabinReport, 128, cabinPayload entries, [], false⟩ s with
  | (s, .accepted ..) => s.modMuster fun m => { m with reportOutstanding := true }
  | (s, _) => s.modMuster fun m => { m with builderWaits := true }

/-- The report builder, whenever it may run (R123; log entry 16). -/
def settleReports (s : State) : State :=
  if participates s && !s.muster.pendingReports.isEmpty && !s.muster.reportOutstanding && !s.muster.builderWaits
  then buildReport s else s

/-- A change of a plate's sweep state by a press: SWEEP, the new target, a report (R119, R153). -/
def sweepByPress (i : Nat) (swept : Bool) (s : State) : State :=
  reportPlate i (retarget i (setEvent .sweep (modPlate i (fun p => { p with swept }) s)))

end Sys2Proof.Machine
end

