-- ==== Sys2Proof/Machine/Chain.lean ====
section
/-! DEFINITION. Chain: the arbiter, transactions, polls, plate health, presses and the line test (Section 8). -/

namespace Sys2Proof.Machine

/-! ### The arbiter (R131, R133) -/

/-- How long a plate's poll has been due; none when it is not (R133). -/
def Plate.overdue (now : Tick) (p : Plate) : Option Nat :=
  match p.pollDue with
  | some t => if t.expired now then some ((now - t.start).toNat - t.len) else none
  | none => none

/-- Of two candidates for a poll the one due longer; the one at hand, which stands lower, at equal times (R131). -/
def longerDue (best : Option (Nat × Nat)) (c : Option Nat × Nat) : Option (Nat × Nat) :=
  match c.1, best with
  | none, b => b
  | some late, none => some (c.2, late)
  | some late, some b => if b.2 < late then some (c.2, late) else some b

/-- The plate to poll: of those due, the one due longest, the lowest position first (R131). -/
def pollChoice (s : State) : Option Nat :=
  ((s.sched.plates.zipIdx.map fun p => (p.1.overdue s.time.now, p.2)).foldl longerDue none).map (·.1)

/-- The refresh that offers its LOAD transaction: of those in LOAD the one that started first (R149). -/
def loadReady (s : State) : Option Refresh :=
  match s.sched.flight.find? (·.driveTimer.isNone) with
  | some r => if r.cancelled then none else some r
  | none => none

/-- A transaction enters START and, with BUSY released, passes on at once; SELECT and DATA take no time here (R128, R129; log entry 8).
BUSY is read as the outside has last reported the line (log entry 37). -/
def startTransaction (position : Nat) (op : ChainOp) (s : State) : State :=
  let phase : ChainPhase := if s.pins.busy then .start else .finish
  s.modChain fun c => { c with
    engine := .transaction { position, op, phase, startedAt := s.time.now, phaseAt := s.time.now } }

/-- A poll starts: it is no longer due (R133). -/
def startPoll (position : Nat) (s : State) : State :=
  startTransaction position .poll (modPlate position (fun p => { p with pollDue := none }) s)

/-- The arbiter may start plate traffic: IDLE, no test pending, IN SERVICE (R131). -/
def chainFree (s : State) : Bool :=
  decide (s.chain.engine = .idle) && !s.chain.testPending && decide (s.chain.service = .inService)

/-- JOINING, RUN or FAULT: the node states in which plates are polled (R131). -/
def polling (s : State) : Bool := participates s || s.node.state = .fault

/-- The poll the arbiter would start at this IDLE point. -/
def duePoll (s : State) : Option Nat := if chainFree s && polling s then pollChoice s else none

/-- An IDLE point of the arbiter: polls before content; a pending test is started by LINE_TEST_START alone (R131). -/
def arbitrate (s : State) : State :=
  match duePoll s with
  | some i => startPoll i s
  | none =>
    if chainFree s then
      match loadReady s with
      | some r => startTransaction r.position r.next s
      | none => s
    else s

/-- Everything that happens "whenever" its condition holds, at the end of a step (log entry 16): refreshes start (R148),
the report builder and the answer queue look again (R123, R66), the arbiter passes an IDLE point (R131),
the path lights and the attention line follow (R106, R172). -/
def settle (s : State) : State :=
  settleAttention (settleLights (arbitrate (settleAnswers (settleReports (settleRefreshes s)))))

/-! ### Plate health (R135, R137) -/

/-- A plate is lost: NOT RESPONDING, its press void, PLATE, then the Scheduler and the Muster Controller are told (R135, R137). -/
def losePlate (i : Nat) (s : State) : State :=
  reportAtMuster i (lossRefresh i (setEvent .plate
    (modPlate i (fun p => { p with health := .notResponding, failureRun := 0, press := .released }) s)))

/-- A failed transaction raises the failure run; the third loses the plate, unless it is lost already (R135). -/
def healthFailed (i : Nat) (s : State) : State :=
  match s.sched.plates[i]? with
  | none => s
  | some p =>
    if p.failureRun < 2 then modPlate i (fun p => { p with failureRun := p.failureRun + 1 }) s
    else if p.health = .notResponding then modPlate i (fun p => { p with failureRun := 0 }) s
    else losePlate i s

/-- A complete transaction: run 0, and a return with its event and report, or the first hearing (R135). -/
def healthComplete (i : Nat) (s : State) : State :=
  match s.sched.plates[i]? with
  | none => s
  | some p =>
    let s := modPlate i (fun p => { p with failureRun := 0, health := .responding }) s
    if p.health = .notResponding then reportAtMuster i (setEvent .plate s) else s

/-! ### Presses (R136) -/

/-- What a release or a fifteenth poll gives (Table 8-5). -/
inductive PressTaken
  | nothing | short | ignored | long
  deriving DecidableEq, Repr

/-- The classification of a released press by its count of polls (Table 8-5). -/
def classifyPress (count : Nat) : PressTaken :=
  if count ≤ 1 then .nothing else if count ≤ 10 then .short else .ignored

/-- One completed poll's button level against a press state (R136). -/
def pressStep (held : Bool) : Press → Press × PressTaken
  | .released => (if held then .pressed 1 else .released, .nothing)
  | .pressed n =>
    if held then (if n < 14 then (.pressed (n + 1), .nothing) else (.latched, .long)) else (.released, classifyPress n)
  | .latched => (if held then .latched else .released, .nothing)

/-- A press report to the Muster Controller at MUSTER: the sweep state wanted, a change of which is reported (R119). -/
def pressAtMuster (i : Nat) (swept : Bool) (s : State) : State :=
  match s.sched.plates[i]? with
  | some p => if p.swept = swept then s else sweepByPress i swept s
  | none => s

/-- A press taken, or ignored and counted: the Muster Controller first, then the Scheduler (R119, R136, R154). -/
def pressReport (i : Nat) (t : PressTaken) (s : State) : State :=
  match t with
  | .nothing => s
  | .ignored => s.modCounters fun c => { c with ignoredPresses := raised c.ignoredPresses }
  | .long => if level s = .muster then pressAtMuster i true s else s
  | .short => if level s = .muster then pressAtMuster i false s else shortPressRefresh i s

/-- The button reading of a completed poll (R134, R136). -/
def takeButton (i : Nat) (held : Bool) (s : State) : State :=
  match s.sched.plates[i]? with
  | some p => pressReport i (pressStep held p.press).2 (modPlate i (fun q => { q with press := (pressStep held p.press).1 }) s)
  | none => s

/-- The switch readings of a completed poll: a difference goes to the occupancy flags, then to the Muster Controller (R134, R154, R120). -/
def takeSwitches (i : Nat) (dnd mur : Bool) (s : State) : State :=
  match s.sched.plates[i]? with
  | some p =>
    if p.switchDnd = dnd ∧ p.switchMur = mur then s
    else reportAtMuster i (retarget i (modPlate i (fun p => { p with
      switchDnd := dnd, switchMur := mur, dnd := dnd, mur := mur }) s))
  | none => s

/-- The drive status of a completed poll (R134, R150). -/
def takeDrive (i : Nat) (d : DriveStatus) (s : State) : State :=
  driveReading i d (modPlate i (fun p => { p with driveStatus := some d }) s)

/-- The four readings of a completed poll, in their order (R134). -/
def takeReadings (i : Nat) (r : Readings) (s : State) : State :=
  healthComplete i (takeDrive i r.drive (takeSwitches i r.dnd r.mur (takeButton i r.button s)))

/-! ### Ends of a transaction -/

/-- The poll period of a health (R133). -/
def pollPeriod : Health → Nat
  | .notResponding => 2000
  | .unknown | .responding => 100

/-- The next poll of a plate falls due one period after the ended poll entered START (R133). -/
def nextPoll (t : Transaction) (s : State) : State :=
  modPlate t.position (fun p => { p with pollDue := some { start := t.startedAt, len := pollPeriod p.health } }) s

/-- The engine returns to IDLE. -/
def engineIdle (s : State) : State := s.modChain fun c => { c with engine := .idle }

/-- BUSY as read. -/
def readBusy (busy : Bool) (s : State) : State := s.modPins fun p => { p with busy := busy }

/-- A failed transaction other than a stall: health, then the block that asked for it (R128, R133, R149). -/
def transactionFailed (t : Transaction) (s : State) : State :=
  let s := healthFailed t.position s
  if t.op = .poll then nextPoll t s else loadOutcome t.position false s

/-- A transaction whose BUSY is released in FINISH: complete or bad reply (R128). -/
def transactionEnded (t : Transaction) (reply : List Octet) (s : State) : State :=
  if t.op = .poll then
    match readPoll reply with
    | some r => nextPoll t (takeReadings t.position r s)
    | none => transactionFailed t s
  else
    match refreshOf t.position s, s.sched.plates[t.position]? with
    | some r, some p =>
      if writeReplyOk (writeOctets t.op p.cabin r.content r.full) reply then
        loadOutcome t.position true (healthComplete t.position s)
      else transactionFailed t s
    | _, _ => transactionFailed t s

/-- The transaction on the chain when it stands in a phase. -/
def inPhase (phase : ChainPhase) (s : State) : Option Transaction :=
  match s.chain.engine with
  | .transaction t => if t.phase = phase then some t else none
  | _ => none

/-- The phase has lasted the 20 ms of R129 and R130. -/
def phaseOver (t : Transaction) (s : State) : Bool :=
  Timer.expired { start := t.phaseAt, len := Config.busyLimit } s.time.now

/-! ### Service state (R140) -/

/-- Every plate not NOT RESPONDING is lost (R140, R151). The spec gives no order among plates lost together: they are handed over in
ascending chain position, and so join the refresh queue and the pending reports, the model's choice (log entry 44). -/
def loseAll (s : State) : State :=
  ((s.sched.plates.zipIdx.filter fun p => p.1.health ≠ .notResponding).map (·.2)).foldl (fun s i => losePlate i s) s

/-- The chain goes OUT OF SERVICE with a result (R140). -/
def outOfService (r : ChainResult) (s : State) : State :=
  let s := s.modChain fun c => { c with service := .outOfService, lastResult := r }
  let s := s.modSched fun c => { c with plates := c.plates.map fun p => { p with pollDue := none } }
  loseAll (setEvent .chainFault s)

/-- The chain passes a test: from UNTESTED or OUT OF SERVICE it enters IN SERVICE, every poll due now, every run 0 (R133, R140). -/
def testPassed (s : State) : State :=
  let enters := s.chain.service ≠ .inService
  let s := s.modChain fun c => { c with service := .inService, lastResult := .ok }
  if enters then
    s.modSched fun c => { c with plates := c.plates.map fun p => { p with pollDue := startTimer s 0, failureRun := 0 } }
  else s

/-- A line test's result applied (R140). -/
def applyResult (r : ChainResult) (s : State) : State := if r = .ok then testPassed s else outOfService r s

/-- A reset pulse of 1 ms begins (R127). -/
def resetPulse (s : State) : State :=
  s.modChain fun c => { c with chainReset := true, pulse := startTimer s Config.pulseTime }

/-! ### Commands -/

/-- POLL_DUE: a poll falling due at an IDLE engine; the arbiter starts the poll due longest (R131). With nothing to start, an IDLE
engine has read BUSY all the same (log entry 37). -/
def execPollDue (busy : Bool) (s : State) : Host.Outcome State Fault Refusal :=
  .next (if (duePoll s).isSome then settle (readBusy busy s)
    else if s.chain.engine = .idle then readBusy busy s
    else s)

/-- BUSY_RELEASE_START: BUSY is released, and the transaction in START passes on (R129). In every other phase the release is what the
next entry to START reads (log entry 37). -/
def execBusyReleaseStart (s : State) : Host.Outcome State Fault Refusal :=
  match inPhase .start s with
  | some t =>
    .next ((readBusy false s).modChain fun c => { c with
      engine := .transaction { t with phase := .finish, phaseAt := s.time.now } })
  | none => .next (readBusy false s)

/-- CHAIN_STALL: 20 ms in START with BUSY asserted: the chain goes OUT OF SERVICE with BUSY STUCK (R129, R140). -/
def execChainStall (s : State) : Host.Outcome State Fault Refusal :=
  match inPhase .start s with
  | some t =>
    if phaseOver t s then .next (settle (outOfService .busyStuck (engineIdle (readBusy true s)))) else .next s
  | none => .next s

/-- TRANSACTION_END: BUSY is released in FINISH, and the reply decides (R128, R130). -/
def execTransactionEnd (reply : List Octet) (s : State) : Host.Outcome State Fault Refusal :=
  match inPhase .finish s with
  | some t => .next (settle (transactionEnded t reply (engineIdle (readBusy false s))))
  | none => .next s

/-- CHAIN_TIMEOUT: 20 ms in FINISH with BUSY asserted: one chain timeout, a reset pulse, failed by timeout (R130). -/
def execChainTimeout (s : State) : Host.Outcome State Fault Refusal :=
  match inPhase .finish s with
  | some t =>
    if phaseOver t s then
      .next (settle (transactionFailed t (resetPulse (engineIdle ((readBusy true s).modCounters fun c =>
        { c with chainTimeouts := raised c.chainTimeouts })))))
    else .next s
  | none => .next s

/-- CHAIN_RESET_PULSE_END: CHAIN RESET is released; in TEST the wait for BUSY begins (R127, R138). -/
def execChainResetPulseEnd (s : State) : Host.Outcome State Fault Refusal :=
  .next (if timerDue s.chain.pulse s then
      s.modChain fun c => { c with
        chainReset := false, pulse := none,
        engine := if c.engine = .test none then .test (startTimer s Config.busyLimit) else c.engine }
    else s)

/-- The pending test may start: IDLE, no refresh in LOAD (R139). -/
def testMayStart (s : State) : Bool :=
  s.chain.testPending && decide (s.chain.engine = .idle) && (loading s).isEmpty

/-- The pending test starts with a reset pulse (R138, R139). -/
def startTest (s : State) : State := resetPulse (s.modChain fun c => { c with engine := .test none, testPending := false })

/-- LINE_TEST_START: with no test pending any more a refresh may start, its LOAD waiting for the chain (R138, R139, R148; log entry 42). -/
def execLineTestStart (s : State) : Host.Outcome State Fault Refusal :=
  .next (if testMayStart s then settle (startTest s) else s)

/-- The result of the line test's steps, the first that fails first (R138). -/
def testResult (busy lowReadsHigh highReadsLow : Bool) : ChainResult :=
  if busy then .busyStuck else if lowReadsHigh then .dataStuckHigh else if highReadsLow then .dataStuckLow else .ok

/-- A line test is requested: pending, and refreshes in LOAD cancelled (R139, R152). -/
def requestTest (s : State) : State := cancelLoads (s.modChain fun c => { c with testPending := true })

/-- DRIVE_TIMER: the drive timer of a plate's refresh expires and the refresh fails (R151). -/
def execDriveTimer (position : Nat) (s : State) : Host.Outcome State Fault Refusal :=
  .next (if driveTimedOut position s then settle (failRefresh position s) else s)

/-! ### READ PLATE (R143, R156, Table 12-8) -/

/-- The code of a service state. -/
def Service.code : Service → Nat
  | .untested => 0 | .inService => 1 | .outOfService => 2

/-- The code of a chain result. -/
def ChainResult.code : ChainResult → Nat
  | .none => 0 | .ok => 1 | .dataStuckLow => 2 | .dataStuckHigh => 3 | .busyStuck => 4

/-- The code of a plate's health. -/
def Health.code : Health → Nat
  | .unknown => 0 | .responding => 1 | .notResponding => 2

/-- Press state and press count (log entry 17: the count is 0 outside PRESSED). -/
def Press.octets : Press → List Octet
  | .released => [0, 0] | .pressed n => [1, o8 n] | .latched => [2, 0]

/-- The code of a drive status, FFh for none. -/
def driveOctet : Option DriveStatus → Octet
  | some .idle => 0 | some .driving => 1 | some .done => 2 | none => 0xFF

/-- The code of a refresh state. -/
def RefreshState.code : RefreshState → Nat
  | .idle => 0 | .queued => 1 | .load => 2 | .drive => 3

/-- A content in six octets. -/
def Content.octets (c : Content) : List Octet :=
  o8 c.layout.code :: le16 c.code ++ [o8 (b1 c.drill), o8 c.mark.code, occupancyOctet c.dnd c.mur]

/-- The chain part of READ PLATE (R143). -/
def chainPart (s : State) (p : Plate) : List Octet :=
  [o8 s.chain.service.code, o8 s.chain.lastResult.code, o8 p.health.code, o8 p.failureRun,
   occupancyOctet p.switchDnd p.switchMur] ++ p.press.octets ++ [driveOctet p.driveStatus]

/-- The content part of READ PLATE (R156). -/
def contentPart (s : State) (i : Nat) (p : Plate) : List Octet :=
  let queuedAt := (queueOrder s).idxOf? i
  le16 p.cabin ++ le16 p.assigned ++ [occupancyOctet p.dnd p.mur, o8 (b1 p.swept)]
    ++ p.target.octets ++ half16 p.targetStamp
    ++ (match p.shown with
        | some (c, stamp) => c.octets ++ half16 stamp
        | none => List.replicate 8 0xFF)
    ++ [o8 p.refresh.code, opt8 queuedAt, opt8 (queuedAt.map fun _ => b1 (entryPriority s i)), o8 p.partialCount]
    ++ (match refreshOf i s with
        | some r => (if r.full then 1 else 2) :: half16 r.stamp
        | none => [0xFF, 0xFF, 0xFF])
    ++ [o8 (allowance s), o8 s.sched.flight.length]

/-- READ PLATE by its owners (R143, R156). -/
def doReadPlate (args : List Octet) (s : State) : State × List Octet :=
  let i := (octetAt args 0).toNat
  (s, match s.sched.plates[i]? with
    | some p => respond .done (chainPart s p ++ contentPart s i p)
    | none => respond .invalid [])

end Sys2Proof.Machine
end

