-- ==== Sys2Proof/Machine/Muster.lean ====
section
/-! DEFINITION. Muster: levels, orders, echoes, the sweep roll and their commands (Section 7). -/

namespace Sys2Proof.Machine

/-! ### The work of the blocks at a change of level (Table 7-3) -/

/-- The muster purge of the transmit buffer (R34): removed unless it is on the line, in which case it is left to finish. -/
def purgeBuffer (u : TxBuffer) : Option TxBuffer :=
  if u.frame.kind.programme then
    match u.phase with
    | .waiting _ | .backoff _ | .held _ => none
    | .sending .. | .jamming => some { u with condemned := true }
  else some u

/-- The muster purge of the send path, after which a freed buffer takes the head of the queue (R27, R34). -/
def purgeProgramme (s : State) : State :=
  fillBuffer (s.modBus fun b => { b with
    queue := b.queue.filter (!·.kind.programme), buffer := b.buffer.bind purgeBuffer })

/-- Every sweep state becomes NOT SWEPT (R118). -/
def resetSweeps (s : State) : State :=
  s.modSched fun c => { c with plates := c.plates.map fun p => { p with swept := false } }

/-- The sweep roll of a CONSOLE node is emptied, with ROLL if it held an entry (R118). -/
def clearRoll (s : State) : State :=
  if (roles s).console then
    setEventIf (!s.muster.roll.isEmpty) .roll (s.modMuster fun m => { m with roll := [] })
  else s

/-- Start the sweep refresh timer where it may run: PLATES, JOINING or RUN (R122). -/
def startSweepRefresh (s : State) : State :=
  if (roles s).plates && participates s then
    s.modMuster fun m => { m with sweepRefresh := startTimer s Config.sweepRefreshTime }
  else s

/-- The Muster Controller's own work at a change of level (R118). -/
def ownLevelWork (old new : Level) (s : State) : State :=
  let s := if old = .muster then s.modMuster fun m => { m with sweepRefresh := none } else s
  match new with
  | .muster => startSweepRefresh (clearRoll ((resetSweeps s).modMuster fun m => { m with pendingReports := [] }))
  | .normal | .standby => resetSweeps s
  | .standDown => s

/-- A change of level, given to every block that acts on it (R108, Table 7-3; the order is that of log entry 14).
The record already stands at the new level. -/
def changeLevel (old new : Level) (s : State) : State :=
  let s := setEvent .level s
  let s := if new = .muster then purgeProgramme s else s
  let s := routeLevel old new (monitorLevel old new (exchangeLevel old new s))
  let s := retargetAll (ownLevelWork old new s)
  if new = .muster then cancelLoads s else s

/-! ### The echo timer (R115) -/

/-- The echo period of a level (R115). -/
def echoTime : Level → Nat
  | .normal => 60000
  | .standby | .muster | .standDown => 5000

/-- Start or restart the echo timer at the level's period: in RUN, with a serial not 0 (R115). -/
def restartEcho (s : State) : State :=
  if s.node.state = .run ∧ s.muster.record.serial ≠ 0 then
    s.modMuster fun m => { m with echoTimer := startTimer s (echoTime (level s)) }
  else s

/-- The current order as an echo carries it: the lapsed flag is not carried (R115). -/
def OrderRecord.order (r : OrderRecord) : Order :=
  { authority := r.authority.getD 0, serial := r.serial, level := r.level, drill := r.drill, zones := r.zones,
    issue := r.issue, redirects := r.redirects }

/-- Offer an order, with the echo flag set or clear (R115, R117). -/
def offerOrder (o : Order) (echo : Bool) (s : State) : State := offer' ⟨.musterOrder, 255, orderPayload o echo, [], false⟩ s

/-- Offer the current order as an echo (R115). -/
def offerEcho (s : State) : State := offerOrder s.muster.record.order true s

/-! ### The checks of an order (R110) -/

/-- The redirect checks of R110, against a route table. -/
def redirectsOk (table : List RouteEntry) (rs : List Redirect) : Bool :=
  rs.all fun r => decide (1 ≤ r.closed ∧ r.closed ≤ 1023 ∧ 1 ≤ r.alternate ∧ r.alternate ≤ 1023)
    && rs.all (·.closed ≠ r.alternate)
    && table.any (fun e => e.cls = .muster && e.code = r.alternate)

/-- An issue time within its ranges, or absent (R110). -/
def issueOk : Option IssueTime → Bool
  | some t => decide (t.minute ≤ 1439 ∧ t.second ≤ 59)
  | none => true

/-- The checks of R110 on an order whose form and level have been read. -/
def orderOk (s : State) (o : Order) : Bool :=
  s.muster.authorities.contains o.authority && decide (o.serial ≠ 0) && decide (o.zones ≠ 0) && issueOk o.issue
    && redirectsOk s.route.table o.redirects

/-! ### Acceptance (R111 to R113) -/

/-- Seconds of a ship time in its cycle. -/
def IssueTime.seconds (t : IssueTime) : Nat := (t.day * 1440 + t.minute) * 60 + t.second

/-- Seconds in the cycle of ship time (R113). -/
def cycleSeconds : Nat := 22118400

/-- The present ship time to the second, absent while UNSET (R117, R124). -/
def secondNow (s : State) : Option IssueTime :=
  if s.time.isSet then some { day := s.time.ship.day, minute := s.time.ship.minute, second := s.time.ship.second } else none

/-- The issue time has lapsed at the present ship time (R113). -/
def issueLapsed (now issue : IssueTime) : Bool :=
  let age := (now.seconds + cycleSeconds - issue.seconds % cycleSeconds) % cycleSeconds
  decide (120 ≤ age ∧ age ≤ 11059199)

/-- A STAND-DOWN order that gives NORMAL, lapsed yes (R113). -/
def givesLapsed (s : State) (o : Order) : Bool :=
  decide (o.level = .standDown) && (decide (level s = .normal)
    || (match secondNow s, o.issue with
        | some now, some issue => issueLapsed now issue
        | _, _ => false))

/-- The record an adopted order makes (R113). -/
def recordFor (s : State) (o : Order) : OrderRecord :=
  { authority := some o.authority, serial := o.serial, level := if givesLapsed s o then .normal else o.level,
    drill := o.drill, zones := o.zones, issue := o.issue, redirects := o.redirects, lapsed := givesLapsed s o }

/-- The record replaced, the stand-down timer started or stopped, and a pending echo cancelled by a change of serial (R113, R116). -/
def putRecord (r : OrderRecord) (s : State) : State :=
  s.modMuster fun m => { m with
    record := r,
    standDown := if r.level = .standDown then startTimer s Config.standDownTime else none,
    joinEcho := if r.serial = m.record.serial then m.joinEcho else none }

/-- What a new record is told to the other blocks: redirects, level, drill flag, and the echo timer (R101, R108, R113, R115). -/
def recordEffects (old new : OrderRecord) (s : State) : State :=
  let s := setEventIf (redirectsTurn s.route.table old.redirects new.redirects) .route s
  let s :=
    if new.level ≠ old.level then changeLevel old.level new.level s
    else if new.drill ≠ old.drill ∨ new.redirects ≠ old.redirects then retargetAll s
    else s
  if new.level ≠ old.level ∨ new.serial ≠ old.serial then restartEcho s else s

/-- Adopt an order (R113). -/
def adoptOrder (o : Order) (s : State) : State :=
  recordEffects s.muster.record (recordFor s o) (putRecord (recordFor s o) s)

/-- Ranks of the levels (Table 7-2). -/
def Level.rank : Level → Nat
  | .normal => 1 | .standDown => 2 | .standby => 3 | .muster => 4

/-- The levels are equal or a matched pair (R112). -/
def levelsMatch (o : Order) (r : OrderRecord) : Bool :=
  o.level = r.level || (o.level = .standDown && r.level = .normal && r.lapsed) || (o.level = .normal && r.level = .standDown)

/-- The order is identical with the record (R112). -/
def identicalTo (o : Order) (r : OrderRecord) : Bool :=
  decide (r.authority = some o.authority ∧ o.drill = r.drill ∧ o.zones = r.zones ∧ o.issue = r.issue ∧ o.redirects = r.redirects)
    && levelsMatch o r

/-- Count an order conflict and set ORDER FAULT (R112). -/
def countConflict (s : State) : State :=
  setEvent .orderFault (s.modCounters fun c => { c with orderConflicts := raised c.orderConflicts })

/-- An order for the node's zone against the current record (R112). -/
def compareOrder (o : Order) (s : State) : State :=
  let r := s.muster.record
  if r.serial < o.serial then adoptOrder o s
  else if o.serial < r.serial then s.modCounters fun c => { c with ordersStale := raised c.ordersStale }
  else if identicalTo o r then s
  else if r.level.rank < o.level.rank then adoptOrder o (countConflict s)
  else countConflict s

/-- The node's own zone is in a mask (R111). -/
def inZone (zones : Half) (s : State) : Bool :=
  match s.node.config with
  | some c => zones.getLsbD c.zone
  | none => false

/-- Accept an order that has passed R110 (R111). -/
def acceptOrder (o : Order) (s : State) : State :=
  let s := s.modMuster fun m => { m with highestSeen := max m.highestSeen o.serial }
  if inZone o.zones s then compareOrder o s else s

/-- Count an order refused and set ORDER FAULT (R110). -/
def refuseOrder (s : State) : State :=
  setEvent .orderFault (s.modCounters fun c => { c with ordersRefused := raised c.ordersRefused })

/-- A MUSTER ORDER of the current serial cancels a pending join-prompt echo, whatever its outcome (R116). -/
def cancelPrompted (payload : List Octet) (s : State) : State :=
  if 3 ≤ payload.length ∧ rd16At payload 1 = s.muster.record.serial then
    s.modMuster fun m => { m with joinEcho := none }
  else s

/-- A MUSTER ORDER payload (R110 to R113, R116). -/
def takeOrder (payload : List Octet) (s : State) : State :=
  let s := cancelPrompted payload s
  match readOrder payload with
  | some o => if orderOk s o then acceptOrder o s else refuseOrder s
  | none => refuseOrder s

/-- Free the slot at the head of the MUSTER queue. -/
def freeMuster (s : State) : State := s.modBus fun b => { b with musterQ := b.musterQ.drop 1 }

/-- MUSTER_ORDER: the frame at the head of the MUSTER queue (R110). -/
def execMusterOrder (s : State) : Host.Outcome State Fault Refusal :=
  match s.bus.musterQ with
  | f :: _ =>
    if participates s ∧ f.kind = .musterOrder then .next (settle (freeMuster (takeOrder f.payload s))) else .next s
  | [] => .next s

/-! ### Timers -/

/-- The stand-down period has run out: NORMAL, lapsed yes, every other field kept (R114). -/
def lapse (s : State) : State :=
  let s := s.modMuster fun m => { m with record := { m.record with level := .normal, lapsed := true }, standDown := none }
  restartEcho (changeLevel .standDown .normal s)

/-- STAND_DOWN_TIMER (R114). -/
def execStandDownTimer (s : State) : Host.Outcome State Fault Refusal :=
  .next (if timerDue s.muster.standDown s && decide (level s = .standDown) then settle (lapse s) else s)

/-- ECHO_TIMER: the current order is offered as an echo, and the timer restarted (R115). -/
def execEchoTimer (s : State) : Host.Outcome State Fault Refusal :=
  .next (if timerDue s.muster.echoTimer s then settle (restartEcho (offerEcho s)) else s)

/-- JOIN_PROMPT_ECHO: the hold has run out, and the current order is offered as an echo (R116). -/
def execJoinPromptEcho (s : State) : Host.Outcome State Fault Refusal :=
  .next (if timerDue s.muster.joinEcho s then
      settle (offerEcho (s.modMuster fun m => { m with joinEcho := none }))
    else s)

/-- A report for every configured plate, in ascending position order (R122). -/
def reportAll (s : State) : State := (List.range s.sched.plates.length).foldl (fun s i => reportPlate i s) s

/-- SWEEP_REFRESH_TIMER: every plate is reported and the timer restarted (R122). -/
def execSweepRefreshTimer (s : State) : Host.Outcome State Fault Refusal :=
  .next (if timerDue s.muster.sweepRefresh s then
      settle (reportAll (s.modMuster fun m => { m with sweepRefresh := startTimer s Config.sweepRefreshTime }))
    else s)

/-! ### ISSUE ORDER (R117) -/

/-- The order a command asks for, under a serial and at the present ship time; none when its level is not one of the four. -/
def issuedOrder (own : Nat) (args : List Octet) (s : State) : Option Order :=
  let lv := octetAt args 0
  (levelOf (lv.toNat % 8)).map fun l =>
    { authority := own, serial := s.muster.highestSeen + 1, level := l, drill := lv.getLsbD 3,
      zones := rdHalf (octetAt args 2) (octetAt args 3), issue := secondNow s,
      redirects := readRedirects (octetAt args 1).toNat (args.drop 4) }

/-- Check 1 of Table 7-5 passes: the station that may issue. -/
def issuingStation (s : State) : Option Nat :=
  match ownStation s with
  | some own => if (roles s).authority && s.muster.authorities.contains own then some own else none
  | none => none

/-- An issued order carried out: accepted as a received one, offered, answered with its serial and whether it was adopted (R117). -/
def issueTaken (o : Order) (s : State) : State × List Octet :=
  let adopted := inZone o.zones s && decide (s.muster.record.serial < o.serial)
  (offerOrder o false (acceptOrder o s), respond .done (le16 o.serial ++ [o8 (b1 adopted)]))

/-- ISSUE ORDER by its owner (R117, Table 7-5). -/
def doIssueOrder (args : List Octet) (s : State) : State × List Octet :=
  match issuingStation s with
  | none => (s, respond .notPermitted [])
  | some own =>
    if s.node.state = .joining then (s, respond .notReady [])
    else match issuedOrder own args s with
      | none => (s, respond .invalid [])
      | some o =>
        if o.zones = 0 ∨ 4 < (octetAt args 1).toNat ∨ redirectsOk s.route.table o.redirects = false then (s, respond .invalid [])
        else if s.muster.highestSeen = 65535 then (s, respond .exhausted [])
        else issueTaken o s

/-! ### The sweep roll (R124, R125) -/

/-- Insert a roll entry in ascending order of cabin. -/
def insertRoll (e : RollEntry) : List RollEntry → List RollEntry
  | [] => [e]
  | q :: l => if e.cabin < q.cabin then e :: q :: l else q :: insertRoll e l

/-- The capacity of the sweep roll (R124). -/
def rollSize : Nat := 256

/-- An entry known to the roll takes the report; ROLL if its sweep state, occupancy or health changed (R124). -/
def updateRoll (e q : RollEntry) (s : State) : State :=
  let changed := decide (e.swept ≠ q.swept ∨ e.dnd ≠ q.dnd ∨ e.mur ≠ q.mur ∨ e.health ≠ q.health)
  setEventIf changed .roll (s.modMuster fun m => { m with
    roll := m.roll.map fun r => if r.cabin = e.cabin then e else r })

/-- An entry of a report at the roll: update, insertion or refusal (R124). -/
def putRoll (e : RollEntry) (s : State) : State :=
  match s.muster.roll.find? (·.cabin = e.cabin) with
  | some q => updateRoll e q s
  | none =>
    if s.muster.roll.length < rollSize then
      setEvent .roll (s.modMuster fun m => { m with roll := insertRoll e m.roll })
    else setEvent .rollFull (s.modCounters fun c => { c with rollRefusals := raised c.rollRefusals })

/-- One cabin of a report from a station, skipped when a field is not a value (R124). -/
def takeCabin (station : Nat) (s : State) (c : CabinRecord) : State :=
  match c.health with
  | none => s
  | some health =>
    if c.cabin < 1 ∨ 9999 < c.cabin then s
    else putRoll { cabin := c.cabin, swept := c.swept, dnd := c.dnd, mur := c.mur, health, station, received := secondNow s } s

/-- A CABIN REPORT at a CONSOLE node; without the role, or with a bad length, it is discarded whole (R124). -/
def takeCabins (station : Nat) (payload : List Octet) (s : State) : State :=
  if (roles s).console then
    match readCabins payload with
    | some cs => cs.foldl (takeCabin station) s
    | none => s
  else s

/-- CABIN_REPORT: the frame at the head of the MUSTER queue (R124). -/
def execCabinReport (s : State) : Host.Outcome State Fault Refusal :=
  match s.bus.musterQ with
  | f :: _ =>
    if participates s ∧ f.kind = .cabinReport then
      .next (settle (freeMuster (takeCabins f.source f.payload s)))
    else .next s
  | [] => .next s

/-- READ ROLL answered INVALID: it carries the number of entries (R125, R175). -/
def rollInvalid (s : State) : List Octet := respond .invalid (le16 s.muster.roll.length)

/-- READ ROLL by its owner (R125, Table 12-8); INVALID in a FAULT reached from LOADING (R167). -/
def doReadRoll (args : List Octet) (s : State) : State × List Octet :=
  (s, if unloadedFault s then rollInvalid s
    else if (roles s).console = false then respond .notPermitted []
    else match s.muster.roll[rd16At args 0]? with
      | some e => respond .done (le16 s.muster.roll.length ++ le16 e.cabin
          ++ [cabinStateOctet e.swept e.health e.dnd e.mur, o8 e.station] ++ issueOctets e.received)
      | none => rollInvalid s)

/-- Whole seconds left on the stand-down timer, 0 at every level but STAND-DOWN (R125). -/
def standDownSeconds (s : State) : Nat :=
  match s.muster.standDown with
  | some t => if level s = .standDown then (t.len - (s.time.now - t.start).toNat) / 1000 else 0
  | none => 0

/-- The muster part of READ VIEW (R125, Table 12-8). -/
def musterPart (s : State) : List Octet :=
  let r := s.muster.record
  o8 r.level.code :: le16 r.serial ++ [opt8 r.authority, o8 (b1 r.drill + 2 * b1 r.lapsed)] ++ half16 r.zones
    ++ issueOctets r.issue ++ [o8 r.redirects.length] ++ (r.redirects.map Redirect.octets).flatten
    ++ le16 s.muster.highestSeen ++ [o8 (standDownSeconds s)]

end Sys2Proof.Machine
end

