-- ==== Sys2Proof/Machine/Time.lean ====
section
/-! DEFINITION. Time: ship time, the time-source list and the sending of marks (Section 1). -/

namespace Sys2Proof.Machine

/-- Milliseconds in the 256-day cycle of ship time (1.2). -/
def cycleMs : Nat := 22118400000

/-- Ship time in milliseconds (1.2). -/
def ShipTime.toMs (t : ShipTime) : Nat := ((t.day * 1440 + t.minute) * 60 + t.second) * 1000 + t.ms

/-- The ship time of a number of milliseconds within the cycle. -/
def ShipTime.ofMs (n : Nat) : ShipTime :=
  { day := n / 86400000, minute := n / 60000 % 1440, second := n / 1000 % 60, ms := n % 1000 }

/-- The last millisecond of the cycle, 255/23:59:59.999 (R4). -/
def ShipTime.last : ShipTime := ⟨255, 1439, 59, 999⟩

/-- One millisecond on, by the cascade of R3. -/
def ShipTime.next (t : ShipTime) : ShipTime :=
  if t.ms < 999 then { t with ms := t.ms + 1 }
  else if t.second < 59 then { t with second := t.second + 1, ms := 0 }
  else if t.minute < 1439 then { t with minute := t.minute + 1, second := 0, ms := 0 }
  else { day := t.day + 1, minute := 0, second := 0, ms := 0 }

/-- A STEP of ship time (R5): the new time is taken, the time state is SET, TIME is set, and the Programme Store is given the notice.
The Path Light Unit's phase is read from the time as it stands (R105), so its notice changes no stored state. -/
def stepTime (t : ShipTime) (s : State) : State :=
  stepRephase (setEvent .time (s.modTime fun b => { b with ship := t, isSet := true }))

/-- An ADJUST of ship time (R10): no event and no notice; the comparator is tested if the minute number changed (R49). -/
def adjustTime (t : ShipTime) (s : State) : State :=
  let before := nowMinute s
  let s := s.modTime fun b => { b with ship := t }
  if nowMinute s ≠ before ∧ matchDue s then takeMatch (shownNow s) s else s

/-! ### The time-source list (R6 to R8) -/

/-- Insert a record in ascending order of station. -/
def insertSource (r : SourceRecord) : List SourceRecord → List SourceRecord
  | [] => [r]
  | q :: l => if r.station < q.station then r :: q :: l else q :: insertSource r l

/-- The list after an accepted mark's record: refreshed, inserted, inserted in place of the highest, or unchanged (R6). -/
def updateSources (r : SourceRecord) (l : List SourceRecord) : List SourceRecord :=
  if l.any (·.station = r.station) then l.map fun q => if q.station = r.station then r else q
  else if l.length < 4 then insertSource r l
  else match l.getLast? with
    | some h => if r.station < h.station then insertSource r l.dropLast else l
    | none => l

/-- The stations among which the preferred source is the lowest: the list, and the node itself while it takes part (R8). -/
def sourceStations (s : State) : List Nat :=
  s.time.sources.map (·.station)
    ++ (if (roles s).timeSource && s.time.isSet then (ownStation s).toList else [])

/-- The preferred source: the lowest of those stations, or none (R8). -/
def preferredSource (s : State) : Option Nat := (sourceStations s).min?

/-! ### Sending marks (R11, R12) -/

/-- The node is eligible to send marks (R11). -/
def markEligible (s : State) : Bool :=
  (roles s).timeSource && s.time.isSet && participates s &&
    (match ownStation s with
     | some own => s.time.sources.all (own ≤ ·.station)
     | none => false)

/-- Offer a TIME MARK carrying the pending shift; its time fields are not yet filled in (R11, R12). -/
def offerMark (s : State) : State :=
  offer' ⟨.timeMark, 255, markPayload ⟨0, 0, 0, 0⟩ (shiftOctet s.time.pendingShift), [], false⟩ s

/-- Offer a mark and restart the mark timer at 20 s (R11). -/
def sendMark (s : State) : State :=
  offerMark (s.modTime fun b => { b with markTimer := startTimer s Config.markInterval })

/-- Bring mark sending to the node's eligibility: on becoming eligible it offers a mark and starts the timer,
on yielding the timer stops (R11). -/
def settleMarks (s : State) : State :=
  if markEligible s then
    if s.time.markTimer.isNone then sendMark s else s
  else s.modTime fun b => { b with markTimer := none }

/-! ### Applying marks (R9, R10) -/

/-- The source's time at this moment: the mark's time and the elapsed time since its capture (R9). -/
def markTime (m : Mark) (capture : Tick) (s : State) : Nat :=
  let sum := m.ship.toMs + (s.time.now - capture).toNat
  if cycleMs ≤ sum then sum - cycleMs else sum

/-- Whether the mark is a STEP: first setting, a shift, or a difference over the threshold (Table 1-3). -/
def markSteps (m : Mark) (newMs : Nat) (s : State) : Bool :=
  !s.time.isSet || decide (m.shift ≠ 0) || decide (Config.stepThreshold < ((newMs : Int) - (s.time.ship.toMs : Int)).natAbs)

/-- Apply a mark of the preferred source; the node's pending shift is cleared (R10). -/
def applyMark (m : Mark) (newMs : Nat) (s : State) : State :=
  let t := ShipTime.ofMs newMs
  let s' := s.modTime fun b => { b with pendingShift := 0 }
  if markSteps m newMs s then stepTime t s' else adjustTime t s'

/-- An accepted mark from `station`: record, preference, application, and the node's own eligibility (R6, R8, R9, R11). -/
def acceptMark (m : Mark) (station : Nat) (capture : Tick) (s : State) : State :=
  let newMs := markTime m capture s
  let s := s.modTime fun b => { b with
    sources := updateSources { station, lastHeard := ShipTime.ofMs newMs, heardAt := b.now } b.sources }
  settleMarks (if preferredSource s = some station then applyMark m newMs s else s)

/-- TIME_MARK: the mark at the head of the TIME queue is taken, and its slot freed (R9). -/
def execTimeMark (s : State) : Host.Outcome State Fault Refusal :=
  match s.bus.timeQ with
  | f :: rest =>
    if participates s then
      let s := match readMark f.payload with
        | some m => acceptMark m f.source f.capture s
        | none => s
      .next (settleAttention (settleAnswers (s.modBus fun b => { b with timeQ := rest })))
    else .next s
  | [] => .next s

/-- MARK_TIMER: an eligible node offers another mark and restarts the timer (R11). -/
def execMarkTimer (s : State) : Host.Outcome State Fault Refusal :=
  .next (if timerDue s.time.markTimer s then settleAttention (settleAnswers (sendMark s)) else s)

/-- The record has reached its source hold (R7). -/
def SourceRecord.held (r : SourceRecord) (now : Tick) : Bool := decide (Config.sourceHold ≤ (now - r.heardAt).toNat)

/-- SOURCE_HOLD: the record of the station, when it has reached its hold, is removed with the TIME event (R7);
its removal can make the node eligible (R11). -/
def execSourceHold (station : Nat) (s : State) : Host.Outcome State Fault Refusal :=
  .next (if s.time.sources.any (fun r => r.station = station && r.held s.time.now) then
      settleAttention (settleAnswers (settleMarks (setEvent .time
        (s.modTime fun b => { b with sources := b.sources.filter (·.station ≠ station) }))))
    else s)

/-- DAY_WRAP: ship time advances past 255/23:59:59.999, wraps to 0, and the wrap is a STEP (R4; log entry 29). -/
def execDayWrap (s : State) : Host.Outcome State Fault Refusal :=
  .next (if s.time.isSet && decide (s.time.ship = .last) then settleAttention (stepTime ⟨0, 0, 0, 0⟩ s) else s)

/-- SET TIME taken: the time is set as a STEP, the shift pends, and an eligible node offers a mark at once (R13). -/
def takeSetTime (t : ShipTime) (shift : Int) (s : State) : State :=
  let s := stepTime t (s.modTime fun b => { b with pendingShift := shift })
  if markEligible s then sendMark s else s

/-- The time part of READ VIEW (R14, Table 12-8); the time state has the code of Table 12-2, 0 UNSET and 1 SET (log entry 51). -/
def timePart (s : State) : List Octet :=
  o8 (b1 s.time.isSet) :: s.time.ship.octets
    ++ [o8 ((preferredSource s).getD 0), o8 s.time.sources.length]
    ++ (s.time.sources.map fun r => o8 r.station :: r.lastHeard.octets).flatten

end Sys2Proof.Machine
end

