-- ==== Sys2Proof/Machine/Node.lean ====
section
/-! DEFINITION. Node: supply, resets, the configuration image, the node states and the end of a line test (Section 10, R138 to R140). -/

namespace Sys2Proof.Machine

/-! ### Supply (R157, R158) -/

/-- The band after a crossing (R157). -/
def bandAfter (c : Crossing) (b : Band) : Band :=
  match b, c with
  | .ok, .below20V0 => .warn
  | .ok, .below18V0 => .critical
  | .warn, .below18V0 => .critical
  | .warn, .above20V5 => .ok
  | .critical, .above19V0 => .warn
  | b, _ => b

/-- The transmitter at entry to CRITICAL: a frame on the line gets an aborted tail, a waiting one is held (R32, R33). -/
def holdPhase (begun : Nat) : TxPhase → TxPhase
  | .sending wire aborted =>
    if !aborted && decide (begun < wire.length) then .sending (abortedOctets begun wire) true else .sending wire aborted
  | .waiting _ => .held none
  | .backoff n => .held (some n)
  | .jamming => .jamming
  | .held b => .held b

/-- The Zone Bus Controller at entry to CRITICAL (R32, R33). -/
def holdTransmit (begun : Nat) (s : State) : State :=
  s.modBus fun b => { b with buffer := b.buffer.map fun u => { u with phase := holdPhase begun u.phase } }

/-- Put the frame in the buffer in a transmitter state. -/
def setPhase (p : TxPhase) (s : State) : State :=
  s.modBus fun b => { b with buffer := b.buffer.map fun u => { u with phase := p } }

/-- Enter WAITING with a fresh spread (R28). -/
def enterWaiting (s : State) : State := drawn (setPhase (waitingPhase s) s)

/-- The Zone Bus Controller when the supply leaves CRITICAL (R27, R33). -/
def releaseTransmit (s : State) : State :=
  match s.bus.buffer with
  | none => fillBuffer s
  | some u =>
    match u.phase with
    | .held none => enterWaiting s
    | .held (some n) => setPhase (.backoff n) s
    | _ => s

/-- The supply state has been re-formed; when it differs from before, SUPPLY is set and the two blocks act (R158). -/
def supplyReformed (before : SupplyState) (begun : Nat) (s : State) : State :=
  if supplyState s = before then s
  else
    let s := setEvent .supply s
    if supplyState s = .critical then cancelLoads (holdTransmit begun s)
    else if before = .critical then releaseTransmit s
    else s

/-- VOLTAGE_CROSSING: the band follows the crossing in every node state but RESET (R157). -/
def execVoltageCrossing (c : Crossing) (begun : Nat) (s : State) : Host.Outcome State Fault Refusal :=
  .next (if s.node.state = .reset then s
    else settle (supplyReformed (supplyState s) begun (s.modSupply fun p => { p with band := bandAfter c p.band })))

/-- SOURCE_LINE_ACCEPT: after twenty equal samples that differ from the accepted level the candidate is accepted (R158). -/
def execSourceLineAccept (s : State) : Host.Outcome State Fault Refusal :=
  .next (if s.node.state ≠ .reset ∧ Config.filterRun ≤ s.supply.run ∧ s.supply.candidate ≠ s.supply.accepted then
      settle (supplyReformed (supplyState s) 0 (s.modSupply fun p => { p with accepted := p.candidate }))
    else s)

/-- SOURCE_LINE_CHANGE: a sample that differs from the candidate becomes the candidate with run count 1, and is the sample of the
coming millisecond; in RESET nothing is filtered (R79, R158; log entry 35). -/
def execSourceLineChange (sample : SourceLevel) (s : State) : Host.Outcome State Fault Refusal :=
  let s := s.modPins fun p => { p with source := sample }
  .next (if s.node.state = .reset ∨ s.supply.candidate = sample then s
    else s.modSupply fun p => { p with candidate := sample, run := 1, sampled := true })

/-! ### Resets (R159, R165) -/

/-- The machine after a FULL RESET: every reset value, the inputs and the commands waiting apart (R159; log entries 4, 32). -/
def afterReset (s : State) : State := { State.reset with pins := s.pins, free := s.free, pending := s.pending }

/-- FULL_RESET: any of the three causes has the same effect (R159, R165). -/
def execFullReset (_cause : ResetCause) (s : State) : Host.Outcome State Fault Refusal := .next (afterReset s)

/-- The machine after a RESTART taken as a command block: the counter, ship time, counters, flags and OVERRUN are kept,
every other piece takes its reset value, and the port will hold the response (R165; log entry 20). R54 recomposes the view after a reset and
sets PROGRAMME when it differs, while R56 and R165 keep the flag: it is kept as it stood, the model's choice (log entry 45). R165 has the node leave
RESET at once unless it is held there: that it leaves by the RESET_RELEASE which the outside sends, and by nothing else, is the model's choice
(log entry 50). -/
def afterRestart (block : List Octet) (s : State) : State :=
  { afterReset s with
    time := { Timebase.reset with now := s.time.now, isSet := s.time.isSet, ship := s.time.ship },
    counters := s.counters,
    events := { EventUnit.reset with flags := s.events.flags },
    port := { state := .busy, command := block, response := [], overrun := s.port.overrun } }

/-- The band first taken, from the voltage in millivolts (R157). -/
def firstBand (mv : Nat) : Band := if mv < 19000 then .critical else if mv ≤ 20500 then .warn else .ok

/-- A RESTART in progress is answered as the node leaves RESET (R165). -/
def answerRestart (p : LocalPort) : LocalPort :=
  if p.state = .busy then { p with state := .ready, response := respond .done [] } else p

/-- RESET_RELEASE: reset line and brown-out have cleared, or hold nothing after a RESTART (log entry 50); band and source are taken, and the node
enters LOADING (R157 to R160, R165). -/
def execResetRelease (mv : Nat) (source : SourceLevel) (s : State) : Host.Outcome State Fault Refusal :=
  .next (if s.node.state = .reset ∧ 15000 ≤ mv then
      let s := s.modSupply fun _ => { band := firstBand mv, accepted := source, candidate := source, run := 1, sampled := true }
      let s := s.modPins fun p => { p with source := source }
      settleAttention ((s.modNode fun n => { n with state := .loading }).modPort answerRestart)
    else s)

/-! ### Entries to the node states (R162, R164) -/

/-- The presence timers start, presence UNKNOWN (R77). -/
def startPresence (s : State) : State :=
  s.modMon fun m => { m with neighbours := m.neighbours.map fun n =>
    { n with presence := .unknown, presenceTimer := startTimer s (presenceTime (level s)) } }

/-- Entry to JOINING (R162, R163; log entry 30). -/
def enterJoining (s : State) : State :=
  let s := s.modNode fun n => { n with state := .joining, joinTimer := startTimer s Config.joinTime }
  let s := s.modChain fun c => { c with chainReset := false }
  settleMarks (offerAdvert (startPresence s))

/-- Entry to RUN (R162; log entry 30). -/
def enterRun (s : State) : State :=
  let s := s.modNode fun n => { n with state := .run, joinTimer := none }
  let s := if (level s).calm then startSummaryTimer s else s
  settleMarks (compareAll (offerSensed (restartEcho s)))

/-- The send path and the receiver at entry to FAULT (R35). -/
def silenceBus (s : State) : State := s.modBus fun b => { b with receiver := .hunt, queue := [], buffer := none }

/-- The timers that stop at entry to FAULT, and the pending holds (R77, R97, R115, R116, R122, R163, R164). -/
def stopTimers (s : State) : State :=
  let s := s.modMon fun m => { m with neighbours := m.neighbours.map fun n => { n with presenceTimer := none } }
  let s := s.modRoute fun r => { r with advertTimer := none, trigger := none }
  s.modMuster fun m => { m with echoTimer := none, joinEcho := none, sweepRefresh := none }

/-- Entry to FAULT (R164). -/
def enterFault (s : State) : State :=
  let s := s.modNode fun n => { n with state := .fault, joinTimer := none }
  compareAll (retargetAll (settleMarks (stopTimers (stopExchange (silenceBus s)))))

/-- JOIN_TIMER: the join window ends and the node passes to RUN (R163). -/
def execJoinTimer (s : State) : Host.Outcome State Fault Refusal :=
  .next (if s.node.state = .joining ∧ timerDue s.node.joinTimer s = true then settle (enterRun s) else s)

/-! ### The tables a valid image gives (R75, R78, R79, R90, R109, R144, R156) -/

/-- A neighbour entry and its segment record as loaded (R78, R89). -/
def loadedNeighbour (n : NeighbourConfig) : Neighbour :=
  let closure : Closure := if n.kind.closure then .unknown else .opened
  { fixed := n, presence := .unknown, presenceTimer := none, closure, remote := n.kind.closure && n.sense.isNone,
    blocked := false, passable := passableAt .normal n.kind closure false }

/-- The route table: one entry for each distinct code, in the order in which the codes first appear (R90). -/
def routeTableOf : List Destination → List Nat → List RouteEntry
  | [], _ => []
  | d :: ds, seen =>
    if seen.contains d.code then routeTableOf ds seen
    else { code := d.code, cls := d.cls, state := if d.isLocal then .isLocal else .unreachable,
           distance := if d.isLocal then 0 else 63, nextHop := none, changed := false } :: routeTableOf ds (d.code :: seen)

/-- A plate record as loaded; its target is that of level NORMAL (R142, R156). -/
def loadedPlate (c : PlateConfig) : Plate :=
  { cabin := c.cabin, assigned := c.assigned, health := .unknown, failureRun := 0, pollDue := none, switchDnd := false,
    switchMur := false, press := .released, driveStatus := none, dnd := false, mur := false, swept := false,
    target := { layout := .normal, code := c.assigned, drill := false, mark := .none, dnd := false, mur := false },
    targetStamp := 0, shown := none, refresh := .idle, partialCount := 0 }

/-- A filter begins for a line that an entry of a closure kind names: its candidate is the first sample, with run count 1;
that sample is the one of the coming millisecond, so that a steady line is taken 20 ms on (R79; log entry 35). -/
def loadedFilter (ns : List Neighbour) (sense : Vector LineLevel 8) (line : Fin 8) : Filter :=
  if ns.any (·.onLine line) then { accepted := none, candidate := some sense[line], run := 1, sampled := true }
  else { accepted := none, candidate := none, run := 0, sampled := false }

/-- Hand each part of a configuration to the block that uses it (R160). -/
def installConfig (c : Configuration) (s : State) : State :=
  let ns := c.neighbours.map loadedNeighbour
  let s := s.modNode fun n => { n with loadResult := .valid, firstFailed := 0, config := some c, seed := some c.station }
  let s := s.modMon fun _ => { neighbours := ns, filters := Vector.ofFn (loadedFilter ns s.pins.sense), declared := [] }
  let s := s.modRoute fun r => { r with table := routeTableOf c.destinations [] }
  let s := s.modMuster fun m => { m with authorities := c.authorities }
  let s := s.modSched fun _ => { plates := c.plates.map loadedPlate, queue := [], flight := [] }
  s.modStore fun t => { t with view := composedView s }

/-- A valid image: the tables, then CHAIN TEST with the PLATES role and JOINING without (R139, R160). -/
def loadValid (c : Configuration) (s : State) : State :=
  let s := installConfig c s
  if c.roles.plates then requestTest (s.modNode fun n => { n with state := .chainTest }) else enterJoining s

/-- An invalid image: no configuration, and FAULT (R160). -/
def loadInvalid (r : LoadResult) (check : Nat) (s : State) : State :=
  enterFault (s.modNode fun n => { n with loadResult := r, firstFailed := check, config := none })

/-- The image judged by check, version and content (R160). -/
def judgeImage (image : List Octet) (s : State) : State :=
  match readImage (imageOctets image) with
  | none => loadInvalid .badCheck 0 s
  | some r =>
    if r.agrees = false then loadInvalid .badCheck 0 s
    else if r.version ≠ 1 then loadInvalid .badVersion 0 s
    else match judgeContents r with
      | .error n => loadInvalid .badContent n s
      | .ok c => loadValid c s

/-- IMAGE_LOAD_DONE: the octets read are judged, and the node leaves LOADING (R160). -/
def execImageLoadDone (image : List Octet) (s : State) : Host.Outcome State Fault Refusal :=
  .next (if s.node.state = .loading then settle (judgeImage image s) else s)

/-! ### The end of a line test (R138 to R140) -/

/-- A TEST CHAIN that waits is answered DONE with the result (R139). -/
def answerTest (r : ChainResult) (s : State) : State :=
  s.modPort fun p =>
    if p.state = .busy ∧ p.command.head? = some 0x10 then
      { p with state := .ready, response := respond .done [o8 r.code] }
    else p

/-- The line test has ended with a result: applied, answered, and the start-up test lets the node join (R139 to R141). -/
def testEnded (r : ChainResult) (s : State) : State :=
  let s := answerTest r (applyResult r (engineIdle s))
  if s.node.state = .chainTest then enterJoining s else s

/-- LINE_TEST_END: BUSY is released within the wait, or still asserted at its end; then the DATA checks (R138). A release reported at or
after the end of the wait, before the end has been reported, counts as in time, the model's choice (log entry 46). -/
def execLineTestEnd (busy lowReadsHigh highReadsLow : Bool) (s : State) : Host.Outcome State Fault Refusal :=
  match s.chain.engine with
  | .test (some t) =>
    if busy && !t.expired s.time.now then .next s
    else .next (settle (testEnded (testResult busy lowReadsHigh highReadsLow) (readBusy busy s)))
  | _ => .next s

/-! ### Parts of READ VIEW (R168, Table 12-8) -/

/-- The code of a node state. -/
def NodeState.code : NodeState → Nat
  | .reset => 0 | .loading => 1 | .chainTest => 2 | .joining => 3 | .run => 4 | .fault => 5

/-- The code of a load result. -/
def LoadResult.code : LoadResult → Nat
  | .none => 0 | .valid => 1 | .badCheck => 2 | .badVersion => 3 | .badContent => 4

/-- The node part of READ VIEW; station, zone, deck and roles read 0 with no valid image (R168). -/
def nodePart (s : State) : List Octet :=
  o8 s.node.state.code :: (match s.node.config with
    | some c => [o8 c.station, o8 c.zone, o8 c.deck, c.roles.octet]
    | none => [0, 0, 0, 0]) ++ [o8 s.node.loadResult.code, o8 s.node.firstFailed]

/-- The code of a supply state (R175). -/
def SupplyState.code : SupplyState → Nat
  | .mains => 0 | .emergency => 1 | .low => 2 | .critical => 3

/-- The code of a voltage band (R175). -/
def Band.code : Band → Nat
  | .ok => 0 | .warn => 1 | .critical => 2

/-- The code of a source level (R175). -/
def sourceCode : SourceLevel → Nat
  | .mains => 0 | .emergency => 1

/-- The supply part of READ VIEW (R158). -/
def supplyPart (s : State) : List Octet :=
  [o8 (supplyState s).code, o8 s.supply.band.code, o8 (sourceCode s.supply.accepted)]

end Sys2Proof.Machine
end

