-- ==== Sys2Proof/Machine/Bus.lean ====
section
/-! DEFINITION. Bus: the receiver and the transmitter of the zone bus (Section 2). -/

namespace Sys2Proof.Machine

/-! ### The receiver (R17 to R22) -/

/-- The receiver enters a state. -/
def setReceiver (r : Receiver) (s : State) : State := s.modBus fun b => { b with receiver := r }

/-- Count one framing error (R17, R18). -/
def countFraming (s : State) : State := s.modCounters fun c => { c with framingErrors := raised c.framingErrors }

/-- The transmitter has characters on the line. -/
def sendingNow (s : State) : Bool :=
  match s.bus.buffer with
  | some u => match u.phase with
    | .sending .. => true
    | _ => false
  | none => false

/-- A start bit of another station: a transmitter in WAITING draws a fresh spread for the next wait (R28). -/
def restartWait (s : State) : State :=
  match s.bus.buffer with
  | some u => match u.phase with
    | .waiting _ => enterWaiting s
    | _ => s
  | none => s

/-- The first character after twelve bit times of idle: C5h with a good stop bit begins a frame at this capture, any other counts a framing error (R2, R17). -/
def takeStart (octet : Octet) (goodStop : Bool) (s : State) : State :=
  if octet = 0xC5 ∧ goodStop then setReceiver (.frame s.time.now none) s else countFraming s

/-- START_OCTET: a character of another station begins while the receiver hunts; before twelve bit times of idle it is ignored (R17; log entry 6). -/
def execStartOctet (idle : Nat) (octet : Octet) (goodStop : Bool) (s : State) : Host.Outcome State Fault Refusal :=
  .next (if participates s ∧ sendingNow s = false ∧ s.bus.receiver = .hunt then
      let s := restartWait s
      if 12 ≤ idle then takeStart octet goodStop s else s
    else s)

/-- The header read, or none when it is malformed (R18). -/
def readHeader (kind source dest seq len : Octet) : Option FrameHead :=
  match kindOf kind.toNat with
  | none => none
  | some k =>
    if 1 ≤ source.toNat ∧ source.toNat ≤ 127 ∧ len.toNat ≤ 52 then
      some { kind := k, source := source.toNat, dest := dest.toNat, seq, len := len.toNat }
    else none

/-- The destination filter keeps the frame (R19). -/
def keepsDestination (dest : Nat) (s : State) : Bool :=
  ownStation s = some dest || dest = 255 || (dest = 128 && (roles s).console)

/-- The free count at or below which a class is shed (Table 2-4). -/
def FrameClass.limit : FrameClass → Nat
  | .routine => 6 | .route => 2 | .urgent => 0

/-- Class shedding: a refused frame is counted as an overrun or as shed, and followed (R20). -/
def shedOrKeep (capture : Tick) (h : FrameHead) (s : State) : State :=
  if freeSlots s = 0 then
    setReceiver (.follow h.len) (s.modCounters fun c => { c with overruns := raised c.overruns })
  else if freeSlots s ≤ h.kind.cls.limit then
    setReceiver (.follow h.len) (s.modCounters fun c => { c with shed := raised c.shed })
  else setReceiver (.frame capture (some h)) s

/-- A header at the moment its fifth octet has arrived (R18 to R20). -/
def takeHeader (capture : Tick) (h : Option FrameHead) (s : State) : State :=
  match h with
  | none => setReceiver .hunt (countFraming s)
  | some h => if keepsDestination h.dest s then shedOrKeep capture h s else setReceiver (.follow h.len) s

/-- FRAME_HEADER: the fifth header octet has arrived (R18). -/
def execFrameHeader (kind source dest seq len : Octet) (s : State) : Host.Outcome State Fault Refusal :=
  match s.bus.receiver with
  | .frame capture none =>
    .next (if participates s then takeHeader capture (readHeader kind source dest seq len) s else s)
  | _ => .next s

/-- The receiver is in FRAME. -/
def Receiver.inFrame : Receiver → Bool
  | .frame .. => true
  | .hunt | .follow _ => false

/-- The cause ends or refuses a frame in this receiver state (R17; log entry 15). -/
def shortApplies (c : ShortCause) (r : Receiver) : Bool :=
  match c with
  | .badStop | .silence => r.inFrame
  | .badStartOctet => r = .hunt

/-- FRAME_END_SHORT: one framing error, and the receiver returns to HUNT (R17). A bad start octet of another station begins with a
start bit, at which a transmitter in WAITING draws a fresh spread (R28). -/
def execFrameEndShort (c : ShortCause) (s : State) : Host.Outcome State Fault Refusal :=
  .next (if participates s ∧ shortApplies c s.bus.receiver then
      setReceiver .hunt (countFraming (if c = .badStartOctet then restartWait s else s))
    else s)

/-- Append a frame to the owner queue of its kind (Table 2-3). -/
def placeReceived (f : RxFrame) (b : ZoneBus) : ZoneBus :=
  match f.kind with
  | .programmeItem | .programmeSummary | .itemRequest => { b with programmeQ := b.programmeQ ++ [f] }
  | .routeAdvert | .segmentState => { b with routeQ := b.routeQ ++ [f] }
  | .musterOrder | .cabinReport => { b with musterQ := b.musterQ ++ [f] }
  | .timeMark => { b with timeQ := b.timeQ ++ [f] }

/-- A station clash: FAULT in JOINING, STATION CLASH in RUN (R22). -/
def stationClash (s : State) : State :=
  if s.node.state = .joining then enterFault s else setEvent .stationClash s

/-- The check of a kept frame agrees with its header and payload (R21). -/
def checkAgrees (h : FrameHead) (payload : List Octet) (high low : Octet) : Bool :=
  let c := check16 (headerOctets h.kind h.source h.dest h.seq h.len ++ payload)
  decide (high = checkHigh c ∧ low = checkLow c)

/-- A whole frame at its last check octet: check error, clash, or placed on its owner queue; the receiver returns to HUNT (R21). -/
def takeFrame (capture : Tick) (h : FrameHead) (payload : List Octet) (high low : Octet) (s : State) : State :=
  let s := setReceiver .hunt s
  if checkAgrees h payload high low = false then s.modCounters fun c => { c with checkErrors := raised c.checkErrors }
  else if ownStation s = some h.source then stationClash s
  else
    (s.modBus (placeReceived { kind := h.kind, source := h.source, dest := h.dest, seq := h.seq, payload, capture })).modCounters
      fun c => { c with framesReceived := raised c.framesReceived }

/-- FRAME_RECEIVED: the last check octet of the frame in FRAME has arrived (R21). -/
def execFrameReceived (payload : List Octet) (high low : Octet) (s : State) : Host.Outcome State Fault Refusal :=
  match s.bus.receiver with
  | .frame capture (some h) =>
    .next (if participates s ∧ payload.length = h.len then settle (takeFrame capture h payload high low s) else s)
  | _ => .next s

/-- FOLLOWED_FRAME_END: the frame being followed has passed or been cut; no count (R19). -/
def execFollowedFrameEnd (s : State) : Host.Outcome State Fault Refusal :=
  match s.bus.receiver with
  | .follow _ => .next (setReceiver .hunt s)
  | _ => .next s

/-! ### The transmitter (R28 to R34) -/

/-- The frame as it goes on the line: a TIME MARK takes its time fields at the start bit (R12). -/
def atStartBit (t : ShipTime) (f : TxFrame) : TxFrame :=
  if f.kind = .timeMark then { f with payload := t.octets ++ f.payload.drop 6 } else f

/-- Begin sending: the octets on the line, and the capture of the node's own frame (R2, R12, R28). -/
def beginSending (u : TxBuffer) (s : State) : State :=
  let f := atStartBit s.time.ship u.frame
  s.modBus fun b => { b with buffer := some { u with
    frame := f, phase := .sending (frameOctets ((ownStation s).getD 0) f) false, capture := some s.time.now } }

/-- TRANSMIT_BEGIN: the idle time has reached the class gap plus the spread (R28; log entry 6). -/
def execTransmitBegin (idle : Nat) (s : State) : Host.Outcome State Fault Refusal :=
  match s.bus.buffer with
  | some u =>
    match u.phase with
    | .waiting spread =>
      .next (if participates s ∧ u.frame.kind.cls.gap + spread ≤ idle then beginSending u s else s)
    | _ => .next s
  | none => .next s

/-- COLLISION: a frame not aborted stops and jams; one collision, one attempt more (R29, R32). -/
def execCollision (s : State) : Host.Outcome State Fault Refusal :=
  match s.bus.buffer with
  | some u =>
    match u.phase with
    | .sending _ false =>
      .next ((s.modBus fun b => { b with buffer := some { u with phase := .jamming, attempts := u.attempts + 1 } }).modCounters
        fun c => { c with collisions := raised c.collisions })
    | _ => .next s
  | none => .next s

/-- A completed mark clears the pending shift it carried (R12). -/
def markCompleted (f : TxFrame) (s : State) : State :=
  let shift := (octetAt f.payload 6).toInt
  if shift ≠ 0 ∧ s.time.pendingShift = shift then s.modTime fun b => { b with pendingShift := 0 } else s

/-- The node's CABIN REPORT has had its outcome (R123). -/
def reportDone (s : State) : State := s.modMuster fun m => { m with reportOutstanding := false }

/-- The owner is told that its frame is complete (R12, R68, R84, R123). -/
def tellComplete (f : TxFrame) (s : State) : State :=
  match f.kind with
  | .programmeItem => answerReported f s
  | .segmentState => f.notes.foldl clearCompleted s
  | .cabinReport => reportDone s
  | .timeMark => markCompleted f s
  | .programmeSummary | .itemRequest | .routeAdvert | .musterOrder => s

/-- The owner is told that its frame was not sent (R68, R123); the owners of the other kinds do nothing. -/
def tellNotSent (f : TxFrame) (s : State) : State :=
  match f.kind with
  | .programmeItem => answerReported f s
  | .cabinReport => reportDone s
  | .programmeSummary | .itemRequest | .routeAdvert | .segmentState | .musterOrder | .timeMark => s

/-- The buffer becomes EMPTY, and the head of the queue moves in (R27). -/
def emptyBuffer (s : State) : State := fillBuffer (s.modBus fun b => { b with buffer := none })

/-- What the send path's owners may do once a frame has had its outcome (R66, R123, R172). -/
def settleSend (s : State) : State := settleAttention (settleAnswers (settleReports s))

/-- The largest number of slots of the backoff after an attempt (R30). -/
def backoffTop (attempts : Nat) : Nat := 2 ^ min attempts 5 - 1

/-- The backoff drawn at the end of a jam: none leads to WAITING at once, and CRITICAL holds the frame (R30, R33; log entry 12). -/
def enterBackoff (u : TxBuffer) (s : State) : State :=
  let n := drawValue 0 (backoffTop u.attempts) s
  let s := drawn s
  if supplyState s = .critical then setPhase (.held (if n = 0 then none else some n)) s
  else if n = 0 then enterWaiting s
  else setPhase (.backoff n) s

/-- The end of a jam: discarded at the eighth collision, removed when purged, else a backoff (R30, R34; log entry 13). -/
def jamEnded (u : TxBuffer) (s : State) : State :=
  if 8 ≤ u.attempts then
    emptyBuffer (tellNotSent u.frame (setEvent .transmitLoss (s.modCounters fun c => { c with discards := raised c.discards })))
  else if u.condemned then emptyBuffer s
  else enterBackoff u s

/-- JAM_END (R30). -/
def execJamEnd (s : State) : Host.Outcome State Fault Refusal :=
  match s.bus.buffer with
  | some u =>
    match u.phase with
    | .jamming => .next (settleSend (jamEnded u s))
    | _ => .next s
  | none => .next s

/-- BACKOFF_END: WAITING with a fresh spread; during a hold the backoff runs out in HELD (R30, R33). -/
def execBackoffEnd (s : State) : Host.Outcome State Fault Refusal :=
  match s.bus.buffer with
  | some u =>
    match u.phase with
    | .backoff _ => .next (enterWaiting s)
    | .held (some _) => .next (setPhase (.held none) s)
    | _ => .next s
  | none => .next s

/-- TRANSMIT_COMPLETE: the last stop bit has been read back; counted, told, and the buffer EMPTY (R31; log entry 9). -/
def execTransmitComplete (s : State) : Host.Outcome State Fault Refusal :=
  match s.bus.buffer with
  | some u =>
    match u.phase with
    | .sending _ false =>
      .next (settleSend (emptyBuffer (tellComplete u.frame (s.modCounters fun c => { c with framesSent := raised c.framesSent }))))
    | _ => .next s
  | none => .next s

/-- ABORTED_TAIL_END: counted as aborted, told not sent, and the buffer EMPTY (R32). -/
def execAbortedTailEnd (s : State) : Host.Outcome State Fault Refusal :=
  match s.bus.buffer with
  | some u =>
    match u.phase with
    | .sending _ true =>
      .next (settleSend (emptyBuffer (tellNotSent u.frame (s.modCounters fun c => { c with aborted := raised c.aborted }))))
    | _ => .next s
  | none => .next s

end Sys2Proof.Machine
end

