-- ==== Sys2Proof/Machine/Port.lean ====
section
/-! DEFINITION. Port: the local port, its commands, the Event Unit's commands and the counters (Section 11). -/

namespace Sys2Proof.Machine

/-! ### Taking a command (R166, R167) -/

/-- The codes taken in LOADING, CHAIN TEST and FAULT (R167). -/
def readCode (code : Nat) : Bool := [0x01, 0x02, 0x03, 0x04, 0x05, 0x06, 0x07, 0x09, 0x11].contains code

/-- The node state lets the command run (R167). -/
def stateAllows (code : Nat) (s : State) : Bool := participates s || readCode code

/-- The block is shorter than its command needs (R167, Table 12-7). -/
def tooShort (code : Nat) (args : List Octet) : Bool :=
  (match argsNeeded code with
   | some n => decide (args.length < n)
   | none => true)
  || (decide (code = 0x0E) && issueArgsShort args)

/-- The port holds the command and its response, READY (R166). -/
def answer (block response : List Octet) (s : State) : State :=
  s.modPort fun p => { p with state := .ready, command := block, response := response }

/-- A command block written while the port is not IDLE: discarded, OVERRUN set (R166). -/
def overrunPort (s : State) : State := s.modPort fun p => { p with overrun := true }

/-- INVALID as the port itself answers a command of a code: READ ROLL carries the number of entries, every other no data (R167, R175). -/
def invalidFor (code : Nat) (s : State) : List Octet := if code = 0x06 then rollInvalid s else respond .invalid []

/-- A command block at the port (R166, R167): ignored in RESET, an overrun unless IDLE, else refused for the node state or for
its length, or carried out by its owner. -/
def portTake (code : Nat) (args : List Octet) (owner : State → State) (s : State) : State :=
  let block := o8 code :: args
  if s.node.state = .reset then s
  else if s.port.state ≠ .idle then overrunPort s
  else if stateAllows code s = false then answer block (respond .notReady []) s
  else if tooShort code args then answer block (invalidFor code s) s
  else owner s

/-- A command its owner answers at once with a new state and a response (R166). -/
def portRun (code : Nat) (args : List Octet) (owner : State → State × List Octet) (s : State) : State :=
  portTake code args (fun s => match owner s with | (s, r) => answer (o8 code :: args) r s) s

/-! ### Reads (R168, R55) -/

/-- The code of a phase (Table 12-8). -/
def Phase.code : Phase → Nat
  | .pending => 0 | .onNow => 1

/-- Positions padded with FFh to a number of places (R175). -/
def padPositions (n : Nat) (l : List Nat) : List Octet := (l.map o8 ++ List.replicate n 0xFF).take n

/-- The programme part of READ VIEW (R55, Table 12-8). -/
def programmePart (v : View) : List Octet :=
  half16 v.generation ++ (o8 v.onNow.length :: padPositions 4 v.onNow) ++ (o8 v.next.length :: padPositions 6 v.next)
    ++ (o8 v.venues.length :: (v.venues.map fun p => [opt8 p.1, opt8 p.2]).flatten)

/-- READ VIEW by the owners of its parts (R168). -/
def doReadView (args : List Octet) (s : State) : State × List Octet :=
  (s, match (octetAt args 0).toNat with
    | 0 => respond .done (nodePart s)
    | 1 => respond .done (timePart s)
    | 2 => respond .done (musterPart s)
    | 3 => respond .done (programmePart s.store.view)
    | 4 => respond .done (pathPart s ++ supplyPart s)
    | _ => respond .invalid [])

/-- READ ITEM by its owner (R55); INVALID in a FAULT reached from LOADING (R167). -/
def doReadItem (args : List Octet) (s : State) : State × List Octet :=
  (s, if unloadedFault s then respond .invalid []
    else if rdHalf (octetAt args 1) (octetAt args 2) ≠ s.store.generation then respond .stale []
    else match s.store.table[(octetAt args 0).toNat]? with
      | some e => respond .done (e.body.octets ++ [o8 e.phase.code])
      | none => respond .invalid [])

/-! ### Events and counters (R170, R171) -/

/-- READ EVENTS: flags and OVERRUN as they stand, then the flags named and OVERRUN cleared (R171). Table 12-8 gives OVERRUN one octet and no code:
0 clear and 1 set, the model's choice (log entry 51). -/
def doReadEvents (args : List Octet) (s : State) : State × List Octet :=
  let r := respond .done (half16 s.events.flags ++ [o8 (b1 s.port.overrun)])
  let clear := rdHalf (octetAt args 0) (octetAt args 1)
  (((s.modEvents fun u => { u with flags := u.flags &&& ~~~clear }).modPort fun p => { p with overrun := false }), r)

/-- SET EVENT MASK: all sixteen enables replaced, and answered (R171). -/
def doSetEventMask (args : List Octet) (s : State) : State × List Octet :=
  let enables := rdHalf (octetAt args 0) (octetAt args 1)
  (s.modEvents fun u => { u with enables := enables }, respond .done (half16 enables))

/-- The counters as reported (R170, Table 12-8). -/
def counterOctets (c : Counters) : List Octet := (c.list.map half16).flatten

/-- READ COUNTERS (R170). -/
def doReadCounters (s : State) : State × List Octet := (s, respond .done (counterOctets s.counters))

/-- CLEAR COUNTERS: each set to 0 as its value is taken (R170). -/
def doClearCounters (s : State) : State × List Octet :=
  (s.modCounters fun _ => Counters.zero, respond .done (counterOctets s.counters))

/-! ### SET TIME, TEST CHAIN (R13, R139) -/

/-- SET TIME by its owner (R13). -/
def doSetTime (args : List Octet) (s : State) : State × List Octet :=
  let t := readShipTime args
  let shift := (octetAt args 6).toInt
  if (roles s).timeSource = false then (s, respond .notPermitted [])
  else if t.inRange = false ∨ shift < -120 ∨ 120 < shift ∨ (shift ≠ 0 ∧ s.time.isSet = false) then (s, respond .invalid [])
  else (takeSetTime t shift s, respond .done [])

/-- TEST CHAIN by its owner: refused without PLATES, else a test is requested and the port stays BUSY until it has ended (R139). -/
def doTestChain (block : List Octet) (s : State) : State :=
  if (roles s).plates = false then answer block (respond .notPermitted []) s
  else requestTest (s.modPort fun p => { p with state := .busy, command := block, response := [] })

/-! ### The commands of the port -/

/-- READ_VIEW (R168). -/
def execReadView (args : List Octet) (s : State) : Host.Outcome State Fault Refusal :=
  .next (portRun 0x01 args (doReadView args) s)

/-- READ_ITEM (R55). -/
def execReadItem (args : List Octet) (s : State) : Host.Outcome State Fault Refusal :=
  .next (portRun 0x02 args (doReadItem args) s)

/-- READ_ROUTE (R168). -/
def execReadRoute (args : List Octet) (s : State) : Host.Outcome State Fault Refusal :=
  .next (portRun 0x03 args (doReadRoute args) s)

/-- QUERY_ROUTE (R102). -/
def execQueryRoute (args : List Octet) (s : State) : Host.Outcome State Fault Refusal :=
  .next (portRun 0x04 args (doQueryRoute args) s)

/-- READ_PLATE (R143, R156). -/
def execReadPlate (args : List Octet) (s : State) : Host.Outcome State Fault Refusal :=
  .next (portRun 0x05 args (doReadPlate args) s)

/-- READ_ROLL (R125). -/
def execReadRoll (args : List Octet) (s : State) : Host.Outcome State Fault Refusal :=
  .next (portRun 0x06 args (doReadRoll args) s)

/-- READ_EVENTS, after which the attention line follows (R171, R172). -/
def execReadEvents (args : List Octet) (s : State) : Host.Outcome State Fault Refusal :=
  .next (settleAttention (portRun 0x07 args (doReadEvents args) s))

/-- SET_EVENT_MASK, after which the attention line follows (R171, R172). -/
def execSetEventMask (args : List Octet) (s : State) : Host.Outcome State Fault Refusal :=
  .next (settleAttention (portRun 0x08 args (doSetEventMask args) s))

/-- READ_COUNTERS (R170). -/
def execReadCounters (args : List Octet) (s : State) : Host.Outcome State Fault Refusal :=
  .next (portRun 0x09 args doReadCounters s)

/-- CLEAR_COUNTERS (R170). -/
def execClearCounters (args : List Octet) (s : State) : Host.Outcome State Fault Refusal :=
  .next (portRun 0x0A args doClearCounters s)

/-- SET_TIME (R13). -/
def execSetTime (args : List Octet) (s : State) : Host.Outcome State Fault Refusal :=
  .next (settleSend (portRun 0x0B args (doSetTime args) s))

/-- PUBLISH_ITEM (R70). -/
def execPublishItem (args : List Octet) (s : State) : Host.Outcome State Fault Refusal :=
  .next (settleSend (portRun 0x0C args (doPublish args) s))

/-- WITHDRAW_ITEM (R71). -/
def execWithdrawItem (args : List Octet) (s : State) : Host.Outcome State Fault Refusal :=
  .next (settleSend (portRun 0x0D args (doWithdraw args) s))

/-- ISSUE_ORDER (R117). -/
def execIssueOrder (args : List Octet) (s : State) : Host.Outcome State Fault Refusal :=
  .next (settle (portRun 0x0E args (doIssueOrder args) s))

/-- DECLARE_SEGMENT (R83). -/
def execDeclareSegment (args : List Octet) (s : State) : Host.Outcome State Fault Refusal :=
  .next (settle (portRun 0x0F args (doDeclare args) s))

/-- TEST_CHAIN (R139). -/
def execTestChain (args : List Octet) (s : State) : Host.Outcome State Fault Refusal :=
  .next (settle (portTake 0x10 args (doTestChain (0x10 :: args)) s))

/-- RESTART (R165): ends at once whatever the node was doing. -/
def execRestart (args : List Octet) (s : State) : Host.Outcome State Fault Refusal :=
  .next (portTake 0x11 args (afterRestart (0x11 :: args)) s)

/-- The block's code names no command, or the block is shorter than its command needs (R167). -/
def badBlock (block : List Octet) : Option (Option Nat) :=
  match block with
  | [] => some none
  | c :: args =>
    match argsNeeded c.toNat with
    | none => some none
    | some _ => if tooShort c.toNat args then some (some c.toNat) else none

/-- An unknown or short block at an idle port: a known code meets the node state first, then INVALID (R167; log entry 18). -/
def answerBad (block : List Octet) (code : Option Nat) (s : State) : State :=
  match code with
  | some c => if stateAllows c s then answer block (invalidFor c s) s else answer block (respond .notReady []) s
  | none => answer block (respond .invalid []) s

/-- UNKNOWN_COMMAND: a block with an unknown code or too few octets (R167). -/
def execUnknownCommand (block : List Octet) (s : State) : Host.Outcome State Fault Refusal :=
  match badBlock block with
  | some code =>
    .next (if s.node.state = .reset then s
      else if s.port.state ≠ .idle then overrunPort s
      else answerBad block code s)
  | none => .next s

/-- COMMAND_OVERRUN: a block written while the port is BUSY or READY is discarded and OVERRUN set (R166). -/
def execCommandOverrun (_block : List Octet) (s : State) : Host.Outcome State Fault Refusal :=
  .next (if s.node.state ≠ .reset ∧ s.port.state ≠ .idle then overrunPort s else s)

/-- RESPONSE_READ: the end of the read clears READY and returns the port to IDLE (R166). -/
def execResponseRead (s : State) : Host.Outcome State Fault Refusal :=
  .next (if s.port.state = .ready then s.modPort fun p => { p with state := .idle, response := [] } else s)

/-- ATTENTION_PACING: the pacing interval ends, and the line is asserted if an enabled flag is still set (R172). -/
def execAttentionPacing (s : State) : Host.Outcome State Fault Refusal := .next (settleAttention s)

end Sys2Proof.Machine
end

