-- ==== Sys2Proof/Machine/Tick.lean ====
section
/-! DEFINITION. Tick: one millisecond of the local counter, and the commands that fall due with it (R1, R3, R79, R158; log entry 2). -/

namespace Sys2Proof.Machine

/-- Ship time one millisecond on while SET; the advance past the last millisecond of its cycle is DAY_WRAP's, filed by the same
tick (R3, R4; log entry 29). -/
def tickShip (b : Timebase) : Timebase :=
  { b with now := b.now + 1, ship := if b.isSet ∧ b.ship ≠ .last then b.ship.next else b.ship }

/-- A running filter takes this millisecond's sample of its line, unless a command has taken it (R79; log entry 35). -/
def Filter.tick (level : LineLevel) (f : Filter) : Filter :=
  match f.candidate with
  | none => f
  | some c =>
    if f.sampled then { f with sampled := false }
    else { f with candidate := some (filterStep level c f.run).1, run := (filterStep level c f.run).2 }

/-- The source filter takes this millisecond's sample of its line, unless a command has taken it; it does not run in RESET
(R79, R158; log entry 35). -/
def Supply.tick (node : NodeState) (level : SourceLevel) (p : Supply) : Supply :=
  if node = .reset then p
  else if p.sampled then { p with sampled := false }
  else { p with candidate := (filterStep level p.candidate p.run).1, run := (filterStep level p.candidate p.run).2 }

/-- The counter, ship time and the filters one millisecond on. -/
def advance (s : State) : State :=
  ((s.modTime tickShip).modMon fun m => { m with filters := Vector.ofFn fun l => m.filters[l].tick s.pins.sense[l] }).modSupply
    (Supply.tick s.node.state s.pins.source)

/-- File a command when its condition holds. -/
def whenDue (c : Bool) (i : Instr) : List Instr := if c then [i] else []

/-- Indexes of a list's items that satisfy `p`. -/
def indexesOf {α : Type} (p : α → Bool) (l : List α) : List Nat := (l.zipIdx.filter fun x => p x.1).map (·.2)

/-- The filter of a sense line holds a candidate to be accepted (R79). -/
def Filter.ready (f : Filter) : Bool := f.candidate.isSome && decide (Config.filterRun ≤ f.run) && decide (f.accepted ≠ f.candidate)

/-- The transaction on the chain has been in a phase for 20 ms (R129, R130). -/
def phaseDue (p : ChainPhase) (s : State) : Bool :=
  match inPhase p s with
  | some t => phaseOver t s
  | none => false

/-- The active answer's hold has run out (R66). -/
def holdDue (s : State) : Bool :=
  match s.exch.active with
  | some a => match a.phase with
    | .hold t => t.expired s.time.now
    | .walk => false
  | none => false

/-- The millisecond that begins now advances ship time past the last of its cycle (R4; log entry 29). -/
def wrapComes (s : State) : Bool := s.time.isSet && decide (s.time.ship = .last)

/-- Commands of the time, the supply and the sense lines that are due. -/
def dueTime (s : State) : List Instr :=
  whenDue (matchDue s) .comparatorMatch
    ++ ((s.time.sources.filter (·.held s.time.now)).map fun r => .sourceHold r.station)
    ++ whenDue (timerDue s.node.joinTimer s) .joinTimer
    ++ whenDue (timerDue s.muster.standDown s) .standDownTimer
    ++ ((List.finRange 8).filter fun l => s.mon.filters[l].ready).map .senseLineAccept
    ++ whenDue (s.node.state ≠ .reset && decide (Config.filterRun ≤ s.supply.run)
        && decide (s.supply.candidate ≠ s.supply.accepted)) .sourceLineAccept

/-- Commands of the exchange, the routes and the muster control that are due. -/
def dueZone (s : State) : List Instr :=
  ((indexesOf (fun n => timerDue n.presenceTimer s) s.mon.neighbours).map .presenceTimer)
    ++ ((s.exch.records.filter fun r => r.waiting && timerDue r.timer s).map fun r => .requestTimer r.station)
    ++ whenDue (timerDue s.exch.early s) .earlySummary
    ++ whenDue (timerDue s.exch.summaryTimer s) .summaryTimer
    ++ whenDue (holdDue s) .answerHold
    ++ whenDue (timerDue s.route.trigger s) .triggeredAdvert
    ++ whenDue (timerDue s.route.advertTimer s) .advertTimer
    ++ whenDue (timerDue s.muster.joinEcho s) .joinPromptEcho
    ++ whenDue (timerDue s.muster.echoTimer s) .echoTimer
    ++ whenDue (timerDue s.time.markTimer s) .markTimer
    ++ whenDue (timerDue s.muster.sweepRefresh s) .sweepRefreshTimer

/-- Commands of the plate chain and the attention line that are due. -/
def dueChain (s : State) : List Instr :=
  ((s.sched.flight.filter fun r => timerDue r.driveTimer s).map fun r => .driveTimer r.position)
    ++ whenDue (phaseDue .start s) .chainStall
    ++ whenDue (phaseDue .finish s) .chainTimeout
    ++ whenDue (timerDue s.chain.pulse s) .chainResetPulseEnd
    ++ whenDue (testMayStart s) .lineTestStart
    ++ whenDue (duePoll s).isSome (.pollDue s.pins.busy)
    ++ whenDue (s.node.state ≠ .reset && enabledFlag s && !s.events.attention && pacingPassed s) .attentionPacing

/-- The commands due at this moment, in the order in which they are filed (log entry 2). -/
def dueCommands (s : State) : List Instr := dueTime s ++ dueZone s ++ dueChain s

/-- One millisecond passes; the commands that fall due with it are filed in the queue, a day wrap first (R1, R4; log entries 2, 29). -/
def tick (s : State) : State :=
  (advance s).modPending fun q => q ++ whenDue (wrapComes s) .dayWrap ++ dueCommands (advance s)

end Sys2Proof.Machine
end

