-- ==== Sys2Proof/Machine/Dispatch.lean ====
section
/-! DEFINITION. Dispatch: one arm for each command, each a direct call of its meaning. -/

namespace Sys2Proof.Machine

/-- The effect of a command on everything but the queue of commands. -/
def exec (i : Instr) (s : State) : Host.Outcome State Fault Refusal :=
  match i with
  | .fullReset cause => Sys2Proof.Machine.execFullReset cause s
  | .resetRelease millivolts source => Sys2Proof.Machine.execResetRelease millivolts source s
  | .imageLoadDone image => Sys2Proof.Machine.execImageLoadDone image s
  | .joinTimer => Sys2Proof.Machine.execJoinTimer s
  | .voltageCrossing crossing begun => Sys2Proof.Machine.execVoltageCrossing crossing begun s
  | .sourceLineAccept => Sys2Proof.Machine.execSourceLineAccept s
  | .dayWrap => Sys2Proof.Machine.execDayWrap s
  | .comparatorMatch => Sys2Proof.Machine.execComparatorMatch s
  | .sourceHold station => Sys2Proof.Machine.execSourceHold station s
  | .timeMark => Sys2Proof.Machine.execTimeMark s
  | .markTimer => Sys2Proof.Machine.execMarkTimer s
  | .frameHeader kind source dest seq len => Sys2Proof.Machine.execFrameHeader kind source dest seq len s
  | .frameEndShort cause => Sys2Proof.Machine.execFrameEndShort cause s
  | .frameReceived payload checkHigh checkLow => Sys2Proof.Machine.execFrameReceived payload checkHigh checkLow s
  | .transmitBegin idle => Sys2Proof.Machine.execTransmitBegin idle s
  | .collision => Sys2Proof.Machine.execCollision s
  | .jamEnd => Sys2Proof.Machine.execJamEnd s
  | .backoffEnd => Sys2Proof.Machine.execBackoffEnd s
  | .transmitComplete => Sys2Proof.Machine.execTransmitComplete s
  | .abortedTailEnd => Sys2Proof.Machine.execAbortedTailEnd s
  | .programmeItem => Sys2Proof.Machine.execProgrammeItem s
  | .programmeSummary => Sys2Proof.Machine.execProgrammeSummary s
  | .itemRequest => Sys2Proof.Machine.execItemRequest s
  | .summaryTimer => Sys2Proof.Machine.execSummaryTimer s
  | .earlySummary => Sys2Proof.Machine.execEarlySummary s
  | .requestTimer publisher => Sys2Proof.Machine.execRequestTimer publisher s
  | .answerHold => Sys2Proof.Machine.execAnswerHold s
  | .publishItem args => Sys2Proof.Machine.execPublishItem args s
  | .withdrawItem args => Sys2Proof.Machine.execWithdrawItem args s
  | .presenceTimer index => Sys2Proof.Machine.execPresenceTimer index s
  | .senseLineAccept line => Sys2Proof.Machine.execSenseLineAccept line s
  | .segmentState => Sys2Proof.Machine.execSegmentState s
  | .declareSegment args => Sys2Proof.Machine.execDeclareSegment args s
  | .routeAdvert => Sys2Proof.Machine.execRouteAdvert s
  | .advertTimer => Sys2Proof.Machine.execAdvertTimer s
  | .triggeredAdvert => Sys2Proof.Machine.execTriggeredAdvert s
  | .queryRoute args => Sys2Proof.Machine.execQueryRoute args s
  | .musterOrder => Sys2Proof.Machine.execMusterOrder s
  | .standDownTimer => Sys2Proof.Machine.execStandDownTimer s
  | .echoTimer => Sys2Proof.Machine.execEchoTimer s
  | .joinPromptEcho => Sys2Proof.Machine.execJoinPromptEcho s
  | .issueOrder args => Sys2Proof.Machine.execIssueOrder args s
  | .sweepRefreshTimer => Sys2Proof.Machine.execSweepRefreshTimer s
  | .cabinReport => Sys2Proof.Machine.execCabinReport s
  | .readRoll args => Sys2Proof.Machine.execReadRoll args s
  | .pollDue busy => Sys2Proof.Machine.execPollDue busy s
  | .busyReleaseStart => Sys2Proof.Machine.execBusyReleaseStart s
  | .chainStall => Sys2Proof.Machine.execChainStall s
  | .transactionEnd reply => Sys2Proof.Machine.execTransactionEnd reply s
  | .chainTimeout => Sys2Proof.Machine.execChainTimeout s
  | .chainResetPulseEnd => Sys2Proof.Machine.execChainResetPulseEnd s
  | .lineTestStart => Sys2Proof.Machine.execLineTestStart s
  | .lineTestEnd busy lowReadsHigh highReadsLow => Sys2Proof.Machine.execLineTestEnd busy lowReadsHigh highReadsLow s
  | .testChain args => Sys2Proof.Machine.execTestChain args s
  | .driveTimer position => Sys2Proof.Machine.execDriveTimer position s
  | .readPlate args => Sys2Proof.Machine.execReadPlate args s
  | .readView args => Sys2Proof.Machine.execReadView args s
  | .readItem args => Sys2Proof.Machine.execReadItem args s
  | .readRoute args => Sys2Proof.Machine.execReadRoute args s
  | .readEvents args => Sys2Proof.Machine.execReadEvents args s
  | .setEventMask args => Sys2Proof.Machine.execSetEventMask args s
  | .readCounters args => Sys2Proof.Machine.execReadCounters args s
  | .clearCounters args => Sys2Proof.Machine.execClearCounters args s
  | .setTime args => Sys2Proof.Machine.execSetTime args s
  | .restart args => Sys2Proof.Machine.execRestart args s
  | .unknownCommand block => Sys2Proof.Machine.execUnknownCommand block s
  | .commandOverrun block => Sys2Proof.Machine.execCommandOverrun block s
  | .responseRead => Sys2Proof.Machine.execResponseRead s
  | .attentionPacing => Sys2Proof.Machine.execAttentionPacing s
  | .startOctet idle octet goodStop => Sys2Proof.Machine.execStartOctet idle octet goodStop s
  | .followedFrameEnd => Sys2Proof.Machine.execFollowedFrameEnd s
  | .senseLineChange line level => Sys2Proof.Machine.execSenseLineChange line level s
  | .sourceLineChange level => Sys2Proof.Machine.execSourceLineChange level s

end Sys2Proof.Machine
end

