-- ==== Sys2Proof/Machine/Step.lean ====
section
/-! DEFINITION. Step: the command at the front of the queue is run; on an empty queue one millisecond passes. -/

namespace Sys2Proof.Machine

/-- One step: the command at the front of the queue, run on the state with the queue's rest; with an empty queue one millisecond
of the local counter (log entry 2). -/
def step (s : State) : Host.Outcome State Fault Refusal :=
  match s.pending with
  | c :: rest => exec c (s.modPending fun _ => rest)
  | [] => .next (tick s)

/-- The state with the command that a word spells put at the front of the queue; unchanged where the word spells none (log entry 31). -/
def State.withFetchWord (s : State) (nbits w : Nat) : State :=
  match decodeTableWord nbits w with
  | some c => s.modPending fun q => c :: q
  | none => s

end Sys2Proof.Machine
end

