-- ==== Sys2Proof/Safety.lean ====
section
/-! DEFINITION. Safety: the terms claims are stated in: what the "whenever" rules of the end of a step leave alone,
the words of a sound order, pool, queue, flight and output, of a frame that stands to be sent, of blocks that have followed a change of level or
an entry to JOINING or to FAULT, of plates lost with their chain, of a report that has had its outcome, and of an attention line that is due. -/

namespace Sys2Proof.Machine

/-- The parts of State that the rules at the end of a step (`settle`: R66, R106, R123, R131, R148, R172) never write.
Of the event flags they may set TRANSMIT LOSS alone (R26), of the counters raise queue refusals alone. -/
structure Steady where
  time : Timebase
  store : Store
  mon : Monitor
  route : RouteEngine
  supply : Supply
  node : Sequencer
  port : LocalPort
  pins : Pins
  pending : List Instr
  receiver : Receiver
  timeQ : List RxFrame
  programmeQ : List RxFrame
  routeQ : List RxFrame
  musterQ : List RxFrame
  records : List PubRecord
  summaryTimer : Option Timer
  early : Option Timer
  authorities : List Nat
  record : OrderRecord
  highestSeen : Nat
  standDown : Option Timer
  echoTimer : Option Timer
  joinEcho : Option Timer
  sweepRefresh : Option Timer
  roll : List RollEntry
  service : Service
  lastResult : ChainResult
  testPending : Bool
  chainReset : Bool
  pulse : Option Timer
  flags : Half
  enables : Half
  counters : Counters

/-- Those parts of a state: the flags with TRANSMIT LOSS masked in, the counters without queue refusals. -/
def State.steady (s : State) : Steady :=
  { time := s.time, store := s.store, mon := s.mon, route := s.route, supply := s.supply, node := s.node, port := s.port,
    pins := s.pins, pending := s.pending, receiver := s.bus.receiver, timeQ := s.bus.timeQ,
    programmeQ := s.bus.programmeQ, routeQ := s.bus.routeQ, musterQ := s.bus.musterQ, records := s.exch.records,
    summaryTimer := s.exch.summaryTimer, early := s.exch.early, authorities := s.muster.authorities,
    record := s.muster.record, highestSeen := s.muster.highestSeen, standDown := s.muster.standDown,
    echoTimer := s.muster.echoTimer, joinEcho := s.muster.joinEcho, sweepRefresh := s.muster.sweepRefresh,
    roll := s.muster.roll, service := s.chain.service, lastResult := s.chain.lastResult,
    testPending := s.chain.testPending, chainReset := s.chain.chainReset, pulse := s.chain.pulse,
    flags := s.events.flags ||| Event.transmitLoss.mask, enables := s.events.enables,
    counters := { s.counters with queueRefusals := 0 } }

/-- A frame stands in the transmit queue or in the buffer, from where it is sent (R24, R27). -/
def State.stands (s : State) (f : TxFrame) : Prop := f ∈ s.bus.queue ∨ ∃ u, s.bus.buffer = some u ∧ u.frame = f

/-- R84 of the declared list: each note of a completed frame removes the entry of its segment, when that is still CLEAR under the noted issue. -/
def clearedBy (notes : List ClearNote) (declared : List Declared) : List Declared :=
  notes.foldl (fun l n =>
    if l.any (fun d => d.segment = n.segment && !d.blocked && d.issue = n.issue) then l.filter (·.segment ≠ n.segment) else l) declared

/-- What every block has done in `t` once the level of `s` has become another (Table 7-3). -/
structure FollowsLevel (s t : State) : Prop where
  /-- R34: at MUSTER no programme frame is queued, and one in the buffer is on the line, to be left to finish. -/
  purged : level t = .muster → (∀ f ∈ t.bus.queue, f.kind.programme = false)
    ∧ ∀ u, t.bus.buffer = some u → u.frame.kind.programme = true →
        u.condemned = true ∧ (match u.phase with | .sending .. | .jamming => True | .waiting _ | .backoff _ | .held _ => False)
  /-- R72: at MUSTER no answer waits or is active, every WAITING request is IDLE, and no summary is to come. -/
  exchangeStopped : level t = .muster → t.exch.answers = [] ∧ t.exch.active = none ∧ t.exch.summaryTimer = none
    ∧ t.exch.early = none ∧ t.exch.records = s.exch.records.map fun r =>
        if r.waiting then { r with waiting := false, attempts := 0, timer := none } else r
  /-- R58: at STAND-DOWN no summary is to come. -/
  summariesStopped : level t = .standDown → t.exch.summaryTimer = none ∧ t.exch.early = none
  /-- R58, R73: in RUN, NORMAL or STANDBY after MUSTER or STAND-DOWN starts the summaries, the first at once where the queue takes it. -/
  summariesStarted : s.node.state = .run → (level s).calm = false → (level t).calm = true →
    (∃ n, 22500 ≤ n ∧ n ≤ 37500 ∧ t.exch.summaryTimer = some { start := s.time.now, len := n })
    ∧ (s.bus.queue.length ≤ 1 → ∃ q, t.stands ⟨.programmeSummary, 255, q, summaryPayload s.exch.records, [], false⟩)
  /-- R77: the running presence timers are restarted where the level crosses between their two lengths, and stand elsewhere. -/
  presenceTimers : t.mon.neighbours.map (·.presenceTimer) = s.mon.neighbours.map fun n =>
    if (level s).alert ≠ (level t).alert ∧ n.presenceTimer.isSome = true
    then some { start := s.time.now, len := if (level t).alert then 12000 else 32000 } else n.presenceTimer
  /-- R86: entering or leaving MUSTER, every lift has the passability of the new level, which at MUSTER is none. -/
  lifts : level s = .muster ∨ level t = .muster → ∀ n ∈ t.mon.neighbours, n.fixed.kind = .lift →
    n.passable = (!n.blocked && decide (level t ≠ .muster))
  /-- R95: no route leaves over a segment that has become impassable. -/
  withdrawn : ∀ (i : Nat) (n m : Neighbour), s.mon.neighbours[i]? = some n → t.mon.neighbours[i]? = some m →
    n.passable = true → m.passable = false → ∀ e ∈ t.route.table, e.nextHop ≠ some i
  /-- R97: a running advert timer is restarted where the level crosses between its two ranges. -/
  advertTimer : (level s).alert ≠ (level t).alert → s.route.advertTimer.isSome = true →
    ∃ n, (if (level t).alert = true then 1500 ≤ n ∧ n ≤ 2500 else 7500 ≤ n ∧ n ≤ 12500)
      ∧ t.route.advertTimer = some { start := s.time.now, len := n }
  /-- R118: every sweep state is NOT SWEPT, but at STAND-DOWN, which keeps them. -/
  sweeps : t.sched.plates.map (·.swept) = s.sched.plates.map fun p => decide (level t = .standDown) && p.swept
  /-- R118, R122: at MUSTER no report is pending, a console's roll is empty, with ROLL if it held an entry, and the sweep refresh runs. -/
  reports : level t = .muster → t.muster.pendingReports = []
    ∧ ((roles s).console = true → t.muster.roll = [] ∧ (s.muster.roll ≠ [] → eventSet .roll t = true))
    ∧ ((roles s).plates = true → participates s = true →
        t.muster.sweepRefresh = some { start := s.time.now, len := 30000 })
  /-- R118: leaving MUSTER stops the sweep refresh. -/
  sweepRefreshStopped : level s = .muster → t.muster.sweepRefresh = none
  /-- R145: every plate has the target of the new record. -/
  targets : ∀ p ∈ t.sched.plates, p.target = targetFor s.node.state t.muster.record p
  /-- R152: at MUSTER a refresh in LOAD is one that waits for its transaction, cancelled, or one that has started since with the new target. -/
  loads : level t = .muster → ∀ r ∈ t.sched.flight, r.driveTimer = none →
    r.cancelled = true ∨ (r.next = .ident ∧ ∀ p, t.sched.plates[r.position]? = some p → r.content = p.target)
  /-- R115: in RUN the echo timer runs anew at the period of the new level. -/
  echo : s.node.state = .run → t.muster.record.serial ≠ 0 →
    t.muster.echoTimer = some { start := s.time.now, len := if level t = .normal then 60000 else 5000 }
  /-- R106: the path lights are those of the new level. -/
  lights : t.lights = lampsNow t

/-- R11: the node is eligible to send marks: TIME SOURCE, SET, in JOINING or RUN, with no listed source below its own station. -/
def State.sendsMarks (s : State) : Prop :=
  (roles s).timeSource = true ∧ s.time.isSet = true ∧ participates s = true
    ∧ ∃ own, ownStation s = some own ∧ ∀ r ∈ s.time.sources, own ≤ r.station

/-- What has become of mark sending in `t` once the node of `s` has entered JOINING or RUN (R11): the clock runs on, and a node that becomes
eligible starts its mark timer and has a mark with the pending shift standing to be sent. -/
structure MarksFollow (s t : State) : Prop where
  time : t.time = { s.time with markTimer := t.time.markTimer }
  begun : t.sendsMarks → s.time.markTimer = none →
    t.time.markTimer = some { start := s.time.now, len := 20000 }
      ∧ (s.bus.queue.length ≤ 5 →
          ∃ q, t.stands ⟨.timeMark, 255, q, markPayload ⟨0, 0, 0, 0⟩ (shiftOctet s.time.pendingShift), [], false⟩)
  kept : t.sendsMarks → s.time.markTimer ≠ none → t.time.markTimer = s.time.markTimer
  stopped : ¬ t.sendsMarks → t.time.markTimer = none

/-- What every block has done in `t` once the node of `s` has entered JOINING (R162). -/
structure EntersJoining (s t : State) : Prop where
  /-- R163: the node state, with the join timer at 8,000 ms. -/
  state : t.node.state = .joining ∧ t.node.joinTimer = some { start := s.time.now, len := 8000 }
  /-- R127: CHAIN RESET is released. -/
  released : t.chain.chainReset = false
  /-- R77: every presence is UNKNOWN, with its timer started at the level's duration. -/
  presence : ∀ n ∈ t.mon.neighbours, n.presence = .unknown
    ∧ n.presenceTimer = some { start := s.time.now, len := if (level s).alert then 12000 else 32000 }
  /-- R97: an advert is offered, and the advert timer runs with a length of the level's range. -/
  advertTimer : t.route.lastOffer = some s.time.now
    ∧ ∃ n, (if (level s).alert = true then 1500 ≤ n ∧ n ≤ 2500 else 7500 ≤ n ∧ n ≤ 12500)
        ∧ t.route.advertTimer = some { start := s.time.now, len := n }
  /-- R96, R98, R99: with room in the queue that advert, its JOINING flag set, stands to be sent, no trigger is pending and no changed flag is set. -/
  advert : (advertPayload t).head? = some 1 ∧ (s.bus.queue.length ≤ 5 →
    t.stands ⟨.routeAdvert, 255, s.bus.nextSeq, advertPayload t, [], false⟩
      ∧ t.route.trigger = none ∧ ∀ e ∈ t.route.table, e.changed = false)
  /-- R11: a TIME SOURCE node whose time is SET sends marks, unless it yields to a listed source. -/
  marks : MarksFollow s t

/-- What every block has done in `t` once the node of `s` has entered FAULT (R164). -/
structure EntersFault (s t : State) : Prop where
  /-- R163, R164: the node state, with the join timer stopped; no event is set and nothing is counted. -/
  state : t.node.state = .fault ∧ t.node.joinTimer = none ∧ t.events.flags = s.events.flags ∧ t.counters = s.counters
  /-- R35: nothing is left to send, and no frame is kept. -/
  silent : t.bus.receiver = .hunt ∧ t.bus.queue = [] ∧ t.bus.buffer = none
  /-- R11: the mark timer stops, and ship time runs on. -/
  marks : t.time = { s.time with markTimer := none }
  /-- R58, R74: the summaries stop, the answers are dropped and every WAITING request is IDLE. -/
  exchange : t.exch.answers = [] ∧ t.exch.active = none ∧ t.exch.summaryTimer = none ∧ t.exch.early = none
    ∧ t.exch.records = s.exch.records.map fun r => if r.waiting then { r with waiting := false, attempts := 0, timer := none } else r
  /-- R88: the presence timers stop and presence stands; closures and filters stand, to run on. -/
  presence : t.mon = { s.mon with neighbours := s.mon.neighbours.map fun n => { n with presenceTimer := none } }
  /-- R97, R98: the advert timer stops, and a pending trigger is cancelled. -/
  adverts : t.route = { s.route with advertTimer := none, trigger := none }
  /-- R126: the echo and sweep refresh timers stop, a pending echo is cancelled, and the level with its stand-down timer stands. -/
  muster : t.muster = { s.muster with echoTimer := none, joinEcho := none, sweepRefresh := none }
  /-- R155: every plate has the target OUT OF SERVICE. -/
  targets : ∀ p ∈ t.sched.plates, p.target = targetFor .fault s.muster.record p ∧ p.target.layout = .outOfService
  /-- R146, R155: a plate left IDLE shows its target. -/
  compared : ∀ p ∈ t.sched.plates, p.refresh = .idle → p.shown.map (·.1) = some p.target
  /-- R155: a refresh in flight continues. -/
  inFlight : s.sched.flight <+: t.sched.flight

/-- What has become of every plate of `s` in `t` once the chain has gone OUT OF SERVICE (R135, R140, R151): no poll is due, and one not yet NOT
RESPONDING is lost, its press void, its shown content absent, its refresh ended, its loss reported at MUSTER. -/
def PlatesLost (s t : State) : Prop :=
  ∀ (i : Nat) (p : Plate), s.sched.plates[i]? = some p → ∃ q, t.sched.plates[i]? = some q
    ∧ q.health = .notResponding ∧ q.pollDue = none
    ∧ (p.health = .notResponding → q.failureRun = p.failureRun ∧ q.press = p.press ∧ q.shown = p.shown)
    ∧ (p.health ≠ .notResponding → q.failureRun = 0 ∧ q.press = .released ∧ q.shown = none ∧ refreshOf i t = none
        ∧ eventSet .plate t = true
        ∧ (level s = .muster → s.muster.reportOutstanding = true → reportFor i q ∈ t.muster.pendingReports))

/-- What has become of the report builder in `t` once the CABIN REPORT of `s` has had its outcome (R123): no report is outstanding, and the builder
looks at the list again. With entries pending and no wait it offers the six oldest, and a report is outstanding again when the queue takes it; else they are
lost, and it waits. -/
structure ReportEnds (s t : State) : Prop where
  idle : participates s = false ∨ s.muster.pendingReports = [] ∨ s.muster.builderWaits = true →
    t.muster = { s.muster with reportOutstanding := false }
  next : participates s = true → s.muster.pendingReports ≠ [] → s.muster.builderWaits = false →
    (s.bus.queue.length < 8 ∨ (s.bus.queue.length = 8 ∧ supplyState s ≠ .critical)) →
    t.muster = { s.muster with pendingReports := s.muster.pendingReports.drop 6, reportOutstanding := true }
      ∧ t.stands ⟨.cabinReport, 128, s.bus.nextSeq, cabinPayload (s.muster.pendingReports.take 6), [], false⟩
  lost : participates s = true → s.muster.pendingReports ≠ [] → s.muster.builderWaits = false → supplyState s = .critical →
    hasRoom .cabinReport s.bus.queue = false →
    t.muster = { s.muster with pendingReports := s.muster.pendingReports.drop 6, reportOutstanding := false, builderWaits := true }

/-- R109 and R111 of the order record: its serial never exceeds the highest-seen, which stays in 16 bits; while the serial is 0
the level is NORMAL and the authority absent; no alternate is closed by the same list. -/
def State.orderSound (s : State) : Prop :=
  s.muster.record.serial ≤ s.muster.highestSeen ∧ s.muster.highestSeen ≤ 65535
    ∧ (s.muster.record.serial = 0 → s.muster.record.level = .normal ∧ s.muster.record.authority = none)
    ∧ ∀ r ∈ s.muster.record.redirects, ∀ q ∈ s.muster.record.redirects, q.closed ≠ r.alternate

/-- R23 of the receive pool: never more than 24 slots held, and one free while a frame is being assembled. -/
def State.poolSound (s : State) : Prop :=
  heldSlots s.bus ≤ poolSize ∧ ∀ c h, s.bus.receiver = .frame c (some h) → heldSlots s.bus < poolSize

/-- Frames stand in class order: no frame of a lower class before one of a higher (R25). -/
def classOrdered : List TxFrame → Prop
  | [] => True
  | f :: l => (∀ g ∈ l, g.kind.rank ≤ f.kind.rank) ∧ classOrdered l

/-- R25 of the transmit queue: at most 8 frames, in class order, at most one of each single-instance kind. -/
def State.queueSound (s : State) : Prop :=
  s.bus.queue.length ≤ 8 ∧ classOrdered s.bus.queue
    ∧ ∀ k : FrameKind, k.single = true → (s.bus.queue.filter (·.kind = k)).length ≤ 1

/-- R148 of the refreshes: at most 2 are ever in LOAD or DRIVE. -/
def State.flightSound (s : State) : Prop := s.sched.flight.length ≤ 2

/-- R104 and R106 of the path lights: the channels stand as the level, the node state, the redirects and the routes give them. -/
def State.lightsSound (s : State) : Prop := s.lights = lampsNow s

/-- R172 of the attention line: it is asserted only while a flag is set whose enable is set. -/
def State.attentionSound (s : State) : Prop := s.events.attention = true → enabledFlag s = true

/-- R172 the other way: outside RESET, with an enabled flag set and the pacing passed, the line is asserted, or the end of the pacing, which a
millisecond has filed (log entry 2), waits in the queue of commands. -/
def State.attentionGiven (s : State) : Prop :=
  s.node.state ≠ .reset → enabledFlag s = true → pacingPassed s = true → s.events.attention = true ∨ .attentionPacing ∈ s.pending

end Sys2Proof.Machine
end

