-- ==== Sys2Proof/Certificates/Slice0/Obligations.lean ====
section
/-! DEFINITION. Obligations: what is claimed of the model, for the provers. -/

section

open Sys2Proof Sys2Proof.Machine



/-! ### The step and the resets -/

/-- With a command at the front of the queue a step is exec of that command on the state with the queue's rest. -/
def Obligations.StepRunsFrontCommand : Prop :=
  ∀ (c : Instr) (rest : List Instr) (s : State), s.pending = c :: rest → step s = exec c { s with pending := rest }

/-- On an empty queue a step is one millisecond: the counter advances by one, ship time by one while SET (R1, R3); at the last millisecond of
its cycle ship time waits for a DAY_WRAP at the front of the queue (log entry 29). Every running filter outside RESET takes one sample of its line: equal
to the candidate it raises the run count up to 20, else it is the candidate with run count 1 (R79, R158), unless a command has taken this millisecond's
sample already (log entry 35). Nothing else changes but the queue. That time passes on an empty queue is the model's choice (log entry 2). -/
def Obligations.EmptyQueueIsOneMillisecond : Prop :=
  ∀ s : State, s.pending = [] → ∃ t, step s = .next t
    ∧ t.time = { s.time with now := s.time.now + 1, ship := t.time.ship }
    ∧ (s.time.isSet = false → t.time.ship = s.time.ship)
    ∧ (s.time.isSet = true → s.time.ship ≠ .last → t.time.ship = s.time.ship.next)
    ∧ (s.time.isSet = true → s.time.ship = .last → t.time.ship = .last ∧ t.pending.head? = some .dayWrap)
    ∧ t.mon = { s.mon with filters := t.mon.filters }
    ∧ (∀ l : Fin 8, let f := s.mon.filters[l]
        t.mon.filters[l] = match f.candidate with
          | none => f
          | some c =>
            if f.sampled then { f with sampled := false }
            else if s.pins.sense[l] = c then { f with run := if f.run < 20 then f.run + 1 else f.run }
            else { f with candidate := some s.pins.sense[l], run := 1 })
    ∧ (t.supply =
        if s.node.state = .reset then s.supply
        else if s.supply.sampled then { s.supply with sampled := false }
        else if s.pins.source = s.supply.candidate then
          { s.supply with run := if s.supply.run < 20 then s.supply.run + 1 else s.supply.run }
        else { s.supply with candidate := s.pins.source, run := 1 })
    ∧ { t with time := s.time, mon := s.mon, supply := s.supply, pending := s.pending } = s

/-- FULL_RESET, of whatever cause, puts every piece of state at its reset value; the inputs, the count of free values and the commands
waiting are the outside world's (log entries 4, 31, 32). -/
def Obligations.FullResetGivesResetValues : Prop :=
  ∀ (cause : ResetCause) (s : State),
    exec (.fullReset cause) s = .next { State.reset with pins := s.pins, free := s.free, pending := s.pending }

/-- RESTART taken at an idle port: counter, ship time and time state, counters, event flags and OVERRUN are kept, every other piece takes
its reset value (R165), but for what the model's choices keep: the input levels (log entry 4), the commands waiting (log entry 31) and the count of
free values (log entry 32). The port is BUSY with the command until the node leaves RESET (log entry 20), which it does at the RESET_RELEASE that the outside sends (log entry 50). -/
def Obligations.RestartKeepsItsColumn : Prop :=
  ∀ (args : List Octet) (s : State), s.node.state ≠ .reset → s.port.state = .idle →
    exec (.restart args) s = .next { State.reset with
      pins := s.pins, free := s.free, pending := s.pending,
      time := { s.time with sources := [], pendingShift := 0, markTimer := none },
      counters := s.counters,
      events := { flags := s.events.flags, enables := 0xFFFF, attention := false, lastAssert := none },
      port := { state := .busy, command := 0x11 :: args, response := [], overrun := s.port.overrun } }

/-- RESET_RELEASE at 15.0 V or more: LOADING, the band from the voltage, the source from its sample (which is that of the coming millisecond, log entry 35), a RESTART answered DONE;
nothing else changes but the attention line. -/
def Obligations.ResetReleaseEntersLoading : Prop :=
  ∀ (mv : Nat) (source : SourceLevel) (s : State), s.node.state = .reset → 15000 ≤ mv →
    ∃ t, exec (.resetRelease mv source) s = .next t
      ∧ t.node = { s.node with state := .loading }
      ∧ t.supply = { band := if mv < 19000 then .critical else if mv ≤ 20500 then .warn else .ok,
                     accepted := source, candidate := source, run := 1, sampled := true }
      ∧ t.pins = { s.pins with source := source }
      ∧ (s.port.state = .busy → t.port = { s.port with state := .ready, response := [0x00] })
      ∧ (s.port.state ≠ .busy → t.port = s.port)
      ∧ t.events.flags = s.events.flags ∧ t.events.enables = s.events.enables
      ∧ { t with node := s.node, supply := s.supply, pins := s.pins, port := s.port, events := s.events } = s

/-- IMAGE_LOAD_DONE in LOADING judges the image by check, version and content: an invalid one gives FAULT with the result and no configuration;
each block has then entered FAULT (`EntersFault`, R164). A valid one gives the configuration, and the node enters JOINING without the PLATES role, as every block does with it (`EntersJoining`, R162), and CHAIN TEST with it: a line test is pending, which LINE_TEST_START starts
at the IDLE engine with a reset pulse (R138, R139), and no frame is offered. It gives the tables: the neighbours in their order, presence UNKNOWN, with segment records of R78 and R89, their timers started in JOINING alone (R77); a filter
with its first sample for each line that a closure kind names (R79), the others stopped (R89); no declaration; a route entry for each distinct code where it first appears (R90, R107); the plates of R156, with no refresh queued or in flight.
That a filter's first sample is that of the coming millisecond (`sampled`) and that a stopped filter holds no candidate are the model's choices (log entries 35 and 36). -/
def Obligations.ImageIsJudged : Prop :=
  ∀ (image : List Octet) (s : State), s.node.state = .loading →
    ∃ t, exec (.imageLoadDone image) s = .next t ∧
      match readImage (imageOctets image) with
      | none => t.node.state = .fault ∧ t.node.loadResult = .badCheck ∧ t.node.config = none ∧ EntersFault s t
      | some r =>
        if r.agrees = false then t.node.state = .fault ∧ t.node.loadResult = .badCheck ∧ t.node.config = none ∧ EntersFault s t
        else if r.version ≠ 1 then t.node.state = .fault ∧ t.node.loadResult = .badVersion ∧ t.node.config = none ∧ EntersFault s t
        else match judgeContents r with
          | .error n => t.node.state = .fault ∧ t.node.loadResult = .badContent ∧ t.node.firstFailed = n ∧ t.node.config = none
              ∧ EntersFault s t
          | .ok c => t.node.loadResult = .valid ∧ t.node.config = some c ∧ t.node.seed = some c.station
              ∧ t.muster.authorities = c.authorities
              ∧ t.node.state = (if c.roles.plates then .chainTest else .joining)
              ∧ t.mon.neighbours = c.neighbours.map (fun n =>
                  let closes : Bool := n.kind = .fireClosure ∨ n.kind = .watertightClosure
                  { fixed := n, presence := .unknown,
                    presenceTimer := if c.roles.plates then none
                      else some { start := s.time.now, len := if (level s).alert then 12000 else 32000 },
                    closure := if closes then .unknown else .opened, remote := closes && n.sense.isNone, blocked := false,
                    passable := decide (n.kind ≠ .watertightClosure) })
              ∧ (∀ l : Fin 8, t.mon.filters[l] =
                  if ∃ n ∈ c.neighbours, (n.kind = .fireClosure ∨ n.kind = .watertightClosure) ∧ n.sense.map (·.1) = some l
                  then { accepted := none, candidate := some s.pins.sense[l], run := 1, sampled := true }
                  else { accepted := none, candidate := none, run := 0, sampled := false })
              ∧ t.mon.declared = []
              ∧ t.route.table.map (·.code) = (c.destinations.map (·.code)).eraseDups
              ∧ (∀ e ∈ t.route.table, ∃ d, c.destinations.find? (·.code = e.code) = some d
                  ∧ e = { code := d.code, cls := d.cls, state := if d.isLocal then .isLocal else .unreachable,
                          distance := if d.isLocal then 0 else 63, nextHop := none, changed := false })
              ∧ t.sched.plates = c.plates.map (fun p =>
                  { cabin := p.cabin, assigned := p.assigned, health := .unknown, failureRun := 0, pollDue := none,
                    switchDnd := false, switchMur := false, press := .released, driveStatus := none, dnd := false, mur := false,
                    swept := false,
                    target := { layout := .normal, code := p.assigned, drill := false, mark := .none, dnd := false, mur := false },
                    targetStamp := 0, shown := none, refresh := .idle, partialCount := 0 })
              ∧ t.sched.queue = [] ∧ t.sched.flight = []
              ∧ (c.roles.plates = false → EntersJoining s t)
              ∧ (c.roles.plates = true → t.chain = { s.chain with testPending := true } ∧ t.node.joinTimer = s.node.joinTimer
                  ∧ t.time = s.time ∧ t.bus = s.bus
                  ∧ (s.chain.engine = .idle → ∃ u, exec .lineTestStart t = .next u
                      ∧ u.chain = { s.chain with
                          engine := .test none, testPending := false, chainReset := true, pulse := some { start := s.time.now, len := 1 } }))

/-- JOIN_TIMER expired in JOINING: RUN, the join timer stopped; at NORMAL or STANDBY the summary timer runs with a length of
22,500 to 37,500 ms; with a serial not 0 the echo timer runs at the level's period. The sensed segment states, if there are any, stand to be
sent when the queue, being sound, has room (R81). Every plate is compared (R146, R155): one left IDLE shows its target, one IDLE with its shown content absent is queued, or started FULL; on an empty queue with no refresh in flight
they join in ascending chain position. A node that becomes eligible sends marks (`MarksFollow`, R11). Ship time, the order and the store stand. -/
def Obligations.JoinTimerEntersRun : Prop :=
  ∀ s : State, s.node.state = .joining → timerDue s.node.joinTimer s = true →
    ∃ t, exec .joinTimer s = .next t
      ∧ t.node = { s.node with state := .run, joinTimer := none }
      ∧ ((level s).calm = true → ∃ n, 22500 ≤ n ∧ n ≤ 37500 ∧ t.exch.summaryTimer = some { start := s.time.now, len := n })
      ∧ (s.muster.record.serial ≠ 0 → t.muster.echoTimer =
          some { start := s.time.now, len := if level s = .normal then 60000 else 5000 })
      ∧ (∀ p ∈ t.sched.plates, p.refresh = .idle → p.shown.map (·.1) = some p.target)
      ∧ (∀ i p, s.sched.plates[i]? = some p → p.refresh = .idle → p.shown = none → ∃ q, t.sched.plates[i]? = some q ∧ q.shown = none
          ∧ ((q.refresh = .queued ∧ i ∈ t.sched.queue)
            ∨ (q.refresh = .load ∧ ∃ r ∈ t.sched.flight, r.position = i ∧ r.full = true ∧ r.content = q.target)))
      ∧ (s.sched.queue = [] → s.sched.flight = [] →
          (∀ p ∈ s.sched.plates, p.refresh = .idle ∧ p.shown = none ∧ p.health ≠ .notResponding) →
          t.sched.flight.map (·.position) ++ t.sched.queue = List.range s.sched.plates.length)
      ∧ MarksFollow s t
      ∧ (sensedPayload s.mon.neighbours ≠ [] → s.queueSound → hasRoom .segmentState s.bus.queue = true →
          ∃ q, t.stands ⟨.segmentState, 255, q, sensedPayload s.mon.neighbours, [], false⟩)
      ∧ t.muster.record = s.muster.record ∧ t.store = s.store ∧ t.supply = s.supply ∧ t.port = s.port

/-! ### Supply -/

/-- The twelve entries of R157's table, then VOLTAGE_CROSSING outside RESET: the band follows it, the source filter stands, and a changed
supply state sets SUPPLY.
SOURCE_LINE_CHANGE outside RESET makes a differing sample the candidate with run count 1 (the sample of the coming millisecond, log entry 35);
SOURCE_LINE_ACCEPT after twenty samples makes a differing candidate the accepted level, and a changed supply state sets SUPPLY.
Entry to CRITICAL (R32, R33, R152): a frame on the line with octets not begun goes on with an aborted tail, a waiting one and one in backoff are HELD, and no
refresh stays in LOAD but one marked cancelled whose transaction is on the chain. Exit from CRITICAL: a HELD frame is WAITING with a spread of 0..7, or in BACKOFF
for the slots it holds. The aborted tail: header and octets begun as they stand, payload octets not begun FFh, check octets not begun the complement
of the check over header and payload as sent. -/
def Obligations.SupplyFollowsItsLines : Prop :=
  (
  (bandAfter .below20V0 .ok = .warn ∧ bandAfter .below18V0 .ok = .critical ∧ bandAfter .above19V0 .ok = .ok
    ∧ bandAfter .above20V5 .ok = .ok ∧ bandAfter .below20V0 .warn = .warn ∧ bandAfter .below18V0 .warn = .critical
    ∧ bandAfter .above19V0 .warn = .warn ∧ bandAfter .above20V5 .warn = .ok ∧ bandAfter .below20V0 .critical = .critical
    ∧ bandAfter .below18V0 .critical = .critical ∧ bandAfter .above19V0 .critical = .warn
    ∧ bandAfter .above20V5 .critical = .critical)
  ∧ ∀ (c : Crossing) (begun : Nat) (s : State), s.node.state ≠ .reset →
    ∃ t, exec (.voltageCrossing c begun) s = .next t
      ∧ t.supply = { s.supply with band := bandAfter c s.supply.band }
      ∧ (supplyState t ≠ supplyState s → eventSet .supply t = true)
      ∧ t.time = s.time ∧ t.node = s.node ∧ t.port = s.port ∧ t.mon = s.mon ∧ t.route = s.route ∧ t.store = s.store
      ∧ t.muster.record = s.muster.record)
  ∧ (
  (∀ (l : SourceLevel) (s : State), s.node.state ≠ .reset → s.supply.candidate ≠ l →
    exec (.sourceLineChange l) s = .next { s with
      pins := { s.pins with source := l }, supply := { s.supply with candidate := l, run := 1, sampled := true } })
  ∧ ∀ s : State, s.node.state ≠ .reset → 20 ≤ s.supply.run → s.supply.candidate ≠ s.supply.accepted →
    ∃ t, exec .sourceLineAccept s = .next t
      ∧ t.supply = { s.supply with accepted := s.supply.candidate }
      ∧ (supplyState t ≠ supplyState s → eventSet .supply t = true)
      ∧ t.time = s.time ∧ t.node = s.node ∧ t.port = s.port ∧ t.mon = s.mon ∧ t.route = s.route ∧ t.store = s.store)
  ∧ (
  (∀ (c : Crossing) (begun : Nat) (s : State), s.node.state ≠ .reset → supplyState s ≠ .critical →
    supplyOf (bandAfter c s.supply.band) s.supply.accepted = .critical →
    ∃ t, exec (.voltageCrossing c begun) s = .next t
      ∧ t.bus.buffer = s.bus.buffer.map (fun u => { u with phase := match u.phase with
          | .sending wire false => if begun < wire.length then .sending (abortedOctets begun wire) true else .sending wire false
          | .sending wire true => .sending wire true
          | .waiting _ => .held none
          | .backoff n => .held (some n)
          | .jamming => .jamming
          | .held b => .held b })
      ∧ ∀ r ∈ t.sched.flight, r.driveTimer = none → r.cancelled = true ∧ onChain r.position t = true)
  ∧ (∀ (c : Crossing) (begun : Nat) (u : TxBuffer) (s : State), s.node.state ≠ .reset → supplyState s = .critical →
    supplyOf (bandAfter c s.supply.band) s.supply.accepted ≠ .critical → s.bus.buffer = some u →
    ∃ t, exec (.voltageCrossing c begun) s = .next t
      ∧ (u.phase = .held none → ∃ m, m ≤ 7 ∧ t.bus.buffer = some { u with phase := .waiting m })
      ∧ (∀ n, u.phase = .held (some n) → t.bus.buffer = some { u with phase := .backoff n })
      ∧ ((∀ b, u.phase ≠ .held b) → t.bus.buffer = some u))
  ∧ ∀ (begun : Nat) (wire : List Octet), 8 ≤ wire.length →
    let a := abortedOctets begun wire
    let n := wire.length
    let c := check16 ((a.drop 1).take (n - 3))
    a.length = n
      ∧ (∀ i, i < 6 ∨ i < begun → i < n → a[i]? = wire[i]?)
      ∧ (∀ i, 6 ≤ i → begun ≤ i → i < n - 2 → a[i]? = some 0xFF)
      ∧ (begun ≤ n - 2 → a[n - 2]? = some (~~~ checkHigh c))
      ∧ (begun ≤ n - 1 → a[n - 1]? = some (~~~ checkLow c)))

/-! ### Timebase -/

/-- DAY_WRAP while SET at 255/23:59:59.999: ship time 0/00:00:00.000, still SET, TIME set; the store is re-phased as at every STEP (R50): ended entries leave, running ones are ON NOW, future ones
PENDING, as one change of the table, and the comparator is reloaded; of the event flags PROGRAMME alone may be set besides, and is when what the view shows has changed (R54, log entry 21), and nothing else changes but the attention line. That the command stands for
the advance past that last millisecond is the model's reading (log entry 29).
MARK_TIMER expired: the timer is restarted at 20,000 ms, and with room in the queue a mark with the pending shift stands to be sent; of the steady parts nothing
else changes. -/
def Obligations.DayWrapAndMarkTimer : Prop :=
  (
  ∀ s : State, s.time.isSet = true → s.time.ship = ⟨255, 1439, 59, 999⟩ →
    ∃ t, exec .dayWrap s = .next t
      ∧ t.time = { s.time with ship := ⟨0, 0, 0, 0⟩ } ∧ eventSet .time t = true
      ∧ t.store.table = rephased true 0 s.store.table
      ∧ (t.store.table = s.store.table → t.store.generation = s.store.generation ∧ t.store.view = s.store.view)
      ∧ (t.store.table ≠ s.store.table → t.store.generation = s.store.generation + 1 ∧ t.store.view = composedView t)
      ∧ t.store.comparator = boundary t
      ∧ t.events.flags ||| Event.programme.mask = s.events.flags ||| Event.time.mask ||| Event.programme.mask
      ∧ eventSet .programme t = (eventSet .programme s || decide (shownNow t ≠ shownNow s))
      ∧ t.events.enables = s.events.enables
      ∧ { t with time := s.time, events := s.events, store := s.store } = s)
  ∧ (
  ∀ (now : Nat) (table : List Entry), rephased true now table = table.filterMap fun e =>
    match classify now e.body with
    | .ended => none
    | .running => some { e with phase := .onNow }
    | .future => some { e with phase := .pending })
  ∧ (
  ∀ s : State, timerDue s.time.markTimer s = true →
    ∃ t, exec .markTimer s = .next t
      ∧ (participates s = true → s.queueSound → hasRoom .timeMark s.bus.queue = true →
          t.stands ⟨.timeMark, 255, s.bus.nextSeq, markPayload ⟨0, 0, 0, 0⟩ (shiftOctet s.time.pendingShift), [], false⟩)
      ∧ t.steady = { s.steady with time := { s.time with markTimer := some { start := s.time.now, len := 20000 } } })

/-- TIME_MARK frees the slot at the head of the TIME queue. A mark that is ignored changes no time. Otherwise the source's record is
written, and when that source is then the preferred one, ship time becomes the mark's time and the elapsed time since its capture, SET,
and the pending shift is 0, and the store is re-phased at a STEP (R50) or, at an ADJUST that changes the minute, tested against its comparator (R49); when it is not, ship time stands.
A mark is a STEP while UNSET, with a shift not 0, or when it differs from ship time by more than 2,000 ms, and else an ADJUST (Table 1-3). The record is refreshed where its station has one, inserted in station order among fewer than four,
and takes the place of the highest of four when it is lower than that (R6).
SOURCE_HOLD of a record whose heard-at lies 60,000 ms or more behind the counter: the record leaves the list, TIME is set, ship time stands. -/
def Obligations.TimeSourcesAreFollowed : Prop :=
  (
  ∀ (s : State) (f : RxFrame) (rest : List RxFrame), s.bus.timeQ = f :: rest → participates s = true →
    ∃ t, exec .timeMark s = .next t ∧ t.bus.timeQ = rest
      ∧ t.bus.programmeQ = s.bus.programmeQ ∧ t.bus.routeQ = s.bus.routeQ ∧ t.bus.musterQ = s.bus.musterQ
      ∧ t.node = s.node ∧ t.port = s.port ∧ t.mon = s.mon ∧ t.route = s.route ∧ t.muster.record = s.muster.record
      ∧ t.time.now = s.time.now
      ∧ match readMark f.payload with
        | none => t.time = s.time ∧ t.store = s.store
        | some m =>
          let newMs := (m.ship.toMs + (s.time.now - f.capture).toNat) % 22118400000
          let listed := updateSources { station := f.source, lastHeard := ShipTime.ofMs newMs, heardAt := s.time.now } s.time.sources
          t.time.sources = listed
          ∧ (preferredSource { s with time := { s.time with sources := listed } } = some f.source →
              t.time.ship = ShipTime.ofMs newMs ∧ t.time.isSet = true ∧ t.time.pendingShift = 0
                ∧ (markSteps m newMs s = true → eventSet .time t = true
                    ∧ t.store.table = rephased true (nowMinute t) s.store.table ∧ t.store.comparator = boundary t)
                ∧ (markSteps m newMs s = false → t.store.table =
                    if nowMinute t ≠ nowMinute s ∧ matchDue { s with time := t.time } = true
                    then rephased false (nowMinute t) s.store.table else s.store.table))
          ∧ (preferredSource { s with time := { s.time with sources := listed } } ≠ some f.source →
              t.time.ship = s.time.ship ∧ t.time.isSet = s.time.isSet ∧ t.time.pendingShift = s.time.pendingShift ∧ t.store = s.store))
  ∧ (
  ∀ (m : Mark) (newMs : Nat) (s : State), markSteps m newMs s = true ↔
    s.time.isSet = false ∨ m.shift ≠ 0 ∨ 2000 < ((newMs : Int) - (s.time.ship.toMs : Int)).natAbs)
  ∧ (
  ∀ (r : SourceRecord) (l : List SourceRecord),
    let placedIn (k : List SourceRecord) : Prop := ∃ a b, k = a ++ b ∧ updateSources r l = a ++ r :: b
      ∧ (∀ q ∈ a, q.station ≤ r.station) ∧ ∀ q, b.head? = some q → r.station < q.station
    ((∃ q ∈ l, q.station = r.station) → updateSources r l = l.map fun q => if q.station = r.station then r else q)
    ∧ ((∀ q ∈ l, q.station ≠ r.station) → l.length < 4 → placedIn l)
    ∧ ∀ h, (∀ q ∈ l, q.station ≠ r.station) → 4 ≤ l.length → l.getLast? = some h →
        (r.station < h.station → placedIn l.dropLast) ∧ (h.station ≤ r.station → updateSources r l = l))
  ∧ (
  ∀ (s : State) (r : SourceRecord), r ∈ s.time.sources → 60000 ≤ (s.time.now - r.heardAt).toNat →
    ∃ t, exec (.sourceHold r.station) s = .next t
      ∧ t.time.sources = s.time.sources.filter (·.station ≠ r.station) ∧ eventSet .time t = true
      ∧ t.time.ship = s.time.ship ∧ t.time.isSet = s.time.isSet ∧ t.time.now = s.time.now
      ∧ t.store = s.store ∧ t.mon = s.mon ∧ t.route = s.route ∧ t.node = s.node ∧ t.port = s.port
      ∧ t.muster.record = s.muster.record)

/-- SET_TIME with the TIME SOURCE role, in range: ship time and shift as given, SET, TIME set, DONE, the store re-phased against the new time (R50), PROGRAMME set when what the view shows has changed (R54, log entry 21), and a node that no listed source lies below has a mark
with the shift standing to be sent. Without the role it is NOT PERMITTED; with a field out of its range, or a shift not 0 while UNSET, it is INVALID. In a refusal, of the steady
parts only the port changes. -/
def Obligations.SetTimeSteps : Prop :=
  ∀ (args : List Octet) (s : State), participates s = true → s.port.state = .idle → 7 ≤ args.length →
    ((roles s).timeSource = true → (readShipTime args).inRange = true → -120 ≤ (octetAt args 6).toInt →
      (octetAt args 6).toInt ≤ 120 → ((octetAt args 6).toInt = 0 ∨ s.time.isSet = true) →
      ∃ t, exec (.setTime args) s = .next t
        ∧ t.time.ship = readShipTime args ∧ t.time.isSet = true ∧ t.time.pendingShift = (octetAt args 6).toInt
        ∧ t.time.now = s.time.now ∧ t.time.sources = s.time.sources ∧ eventSet .time t = true
        ∧ t.store.table = rephased true (nowMinute t) s.store.table ∧ t.store.comparator = boundary t
        ∧ (t.store.table = s.store.table → t.store.generation = s.store.generation ∧ t.store.view = s.store.view)
        ∧ (t.store.table ≠ s.store.table → t.store.generation = s.store.generation + 1 ∧ t.store.view = composedView t)
        ∧ eventSet .programme t = (eventSet .programme s || decide (shownNow t ≠ shownNow s))
        ∧ t.port = { s.port with state := .ready, command := 0x0B :: args, response := [0x00] }
        ∧ (∀ own, ownStation s = some own → (∀ r ∈ s.time.sources, own ≤ r.station) → s.bus.queue.length ≤ 6 →
            t.stands ⟨.timeMark, 255, s.bus.nextSeq, markPayload ⟨0, 0, 0, 0⟩ (octetAt args 6), [], false⟩)
        ∧ t.mon = s.mon ∧ t.route = s.route ∧ t.node = s.node ∧ t.muster.record = s.muster.record)
    ∧ ((roles s).timeSource = false →
      ∃ t, exec (.setTime args) s = .next t
        ∧ t.steady = { s.steady with port := { s.port with state := .ready, command := 0x0B :: args, response := [0x02] } })
    ∧ ((roles s).timeSource = true →
      ((readShipTime args).inRange = false ∨ (octetAt args 6).toInt < -120 ∨ 120 < (octetAt args 6).toInt
        ∨ ((octetAt args 6).toInt ≠ 0 ∧ s.time.isSet = false)) →
      ∃ t, exec (.setTime args) s = .next t
        ∧ t.steady = { s.steady with port := { s.port with state := .ready, command := 0x0B :: args, response := [0x03] } })

/-! ### Zone bus: receiving -/

/-- START_OCTET in HUNT after twelve bit times of idle: a good C5h begins a frame at this capture; anything else counts one framing error
and leaves the receiver in HUNT. Only a waiting transmitter's spread may change beside, and it stays within 0..7.
FRAME_END_SHORT in FRAME by a bad stop bit or silence, and in HUNT by a bad start octet (log entry 15), counts one framing error and gives HUNT; the start bit of that octet gives
a waiting transmitter a fresh spread (R28). FOLLOWED_FRAME_END gives HUNT without a count. Nothing else changes but the count of free values. -/
def Obligations.FramesBeginAndAreCut : Prop :=
  (
  ∀ (idle : Nat) (octet : Octet) (good : Bool) (s : State), participates s = true → sendingNow s = false →
    s.bus.receiver = .hunt → 12 ≤ idle →
    ∃ t, exec (.startOctet idle octet good) s = .next t
      ∧ t.bus = { s.bus with buffer := t.bus.buffer, receiver := if octet = 0xC5 ∧ good = true then .frame s.time.now none else .hunt }
      ∧ t.counters = (if octet = 0xC5 ∧ good = true then s.counters
          else { s.counters with framingErrors := raised s.counters.framingErrors })
      ∧ (∀ u n, s.bus.buffer = some u → u.phase = .waiting n → ∃ m, m ≤ 7 ∧ t.bus.buffer = some { u with phase := .waiting m })
      ∧ ((∀ u n, s.bus.buffer = some u → u.phase ≠ .waiting n) → t.bus.buffer = s.bus.buffer)
      ∧ { t with bus := s.bus, counters := s.counters, free := s.free } = s)
  ∧ (
  (∀ (cause : ShortCause) (s : State), participates s = true →
    (match cause with
     | .badStop | .silence => ∃ capture head, s.bus.receiver = .frame capture head
     | .badStartOctet => s.bus.receiver = .hunt) →
    ∃ t, exec (.frameEndShort cause) s = .next t
      ∧ t.bus = { s.bus with buffer := t.bus.buffer, receiver := .hunt }
      ∧ t.counters = { s.counters with framingErrors := raised s.counters.framingErrors }
      ∧ (cause = .badStartOctet → ∀ u n, s.bus.buffer = some u → u.phase = .waiting n →
          ∃ m, m ≤ 7 ∧ t.bus.buffer = some { u with phase := .waiting m })
      ∧ ((cause ≠ .badStartOctet ∨ ∀ u n, s.bus.buffer = some u → u.phase ≠ .waiting n) →
          t.bus.buffer = s.bus.buffer ∧ t.free = s.free)
      ∧ { t with bus := s.bus, counters := s.counters, free := s.free } = s)
  ∧ ∀ (len : Nat) (s : State), s.bus.receiver = .follow len →
    exec .followedFrameEnd s = .next { s with bus := { s.bus with receiver := .hunt } })

/-- FRAME_HEADER in FRAME before its header: malformed counts a framing error and gives HUNT; a destination not kept is followed
without count; at a free count of 0 an overrun is counted, at or below the class limit (6, 2, 0) a shed frame, and both are followed;
else the header is kept with its capture. Nothing else changes. -/
def Obligations.FrameHeaderIsSorted : Prop :=
  ∀ (kind source dest seq len : Octet) (capture : Tick) (s : State), participates s = true →
    s.bus.receiver = .frame capture none →
    match kindOf kind.toNat with
    | none => exec (.frameHeader kind source dest seq len) s = .next { s with
        bus := { s.bus with receiver := .hunt }, counters := { s.counters with framingErrors := raised s.counters.framingErrors } }
    | some k =>
      if source.toNat < 1 ∨ 127 < source.toNat ∨ 52 < len.toNat then
        exec (.frameHeader kind source dest seq len) s = .next { s with
          bus := { s.bus with receiver := .hunt }, counters := { s.counters with framingErrors := raised s.counters.framingErrors } }
      else if ¬ (ownStation s = some dest.toNat ∨ dest.toNat = 255 ∨ (dest.toNat = 128 ∧ (roles s).console = true)) then
        exec (.frameHeader kind source dest seq len) s = .next { s with bus := { s.bus with receiver := .follow len.toNat } }
      else if freeSlots s = 0 then
        exec (.frameHeader kind source dest seq len) s = .next { s with
          bus := { s.bus with receiver := .follow len.toNat }, counters := { s.counters with overruns := raised s.counters.overruns } }
      else if freeSlots s ≤ (match k.cls with | .routine => 6 | .route => 2 | .urgent => 0) then
        exec (.frameHeader kind source dest seq len) s = .next { s with
          bus := { s.bus with receiver := .follow len.toNat }, counters := { s.counters with shed := raised s.counters.shed } }
      else
        let h : FrameHead := { kind := k, source := source.toNat, dest := dest.toNat, seq := seq, len := len.toNat }
        exec (.frameHeader kind source dest seq len) s = .next { s with bus := { s.bus with receiver := .frame capture (some h) } }

/-- FRAME_RECEIVED: a check that disagrees counts a check error; a good frame of the own station is a clash (in JOINING every block enters FAULT, `EntersFault`: the
send path emptied, its timers and holds stopped, the plates' targets OUT OF SERVICE, R164; in RUN STATION CLASH); any other is counted received and appended to the owner queue of its kind. The receiver is in HUNT after each. -/
def Obligations.FrameReceivedIsPlaced : Prop :=
  ∀ (payload : List Octet) (high low : Octet) (capture : Tick) (h : FrameHead) (s : State), participates s = true →
    s.bus.receiver = .frame capture (some h) → payload.length = h.len →
    ∃ t, exec (.frameReceived payload high low) s = .next t ∧ t.bus.receiver = .hunt ∧
      if checkAgrees h payload high low = false then
        t.steady = { s.steady with
          receiver := .hunt, counters := { s.counters with checkErrors := raised s.counters.checkErrors, queueRefusals := 0 } }
      else if ownStation s = some h.source then
        (s.node.state = .joining → t.node = { s.node with state := .fault, joinTimer := none } ∧ t.bus.queue = [] ∧ t.bus.buffer = none
          ∧ EntersFault s t)
        ∧ (s.node.state = .run → t.steady = { s.steady with
            receiver := .hunt, flags := s.events.flags ||| Event.stationClash.mask ||| Event.transmitLoss.mask })
      else
        let f : RxFrame := { kind := h.kind, source := h.source, dest := h.dest, seq := h.seq, payload := payload, capture := capture }
        t.steady = { s.steady with
          receiver := .hunt,
          timeQ := s.bus.timeQ ++ (if h.kind = .timeMark then [f] else []),
          programmeQ := s.bus.programmeQ ++
            (if h.kind = .programmeItem ∨ h.kind = .programmeSummary ∨ h.kind = .itemRequest then [f] else []),
          routeQ := s.bus.routeQ ++ (if h.kind = .routeAdvert ∨ h.kind = .segmentState then [f] else []),
          musterQ := s.bus.musterQ ++ (if h.kind = .musterOrder ∨ h.kind = .cabinReport then [f] else []),
          counters := { s.counters with framesReceived := raised s.counters.framesReceived, queueRefusals := 0 } }

/-! ### Zone bus: sending -/

/-- TRANSMIT_BEGIN once the idle time reaches the class gap (12, 20, 28) and the spread: SENDING, the octets of the frame on the line, the capture
taken; a TIME MARK takes its time fields from ship time at that moment. Nothing else changes.
COLLISION of a frame in SENDING that is not an aborted tail: JAMMING, one attempt more, one collision counted. Nothing else changes. -/
def Obligations.SendingBeginsAndCollides : Prop :=
  (
  ∀ (idle spread : Nat) (u : TxBuffer) (own : Nat) (s : State), participates s = true → s.bus.buffer = some u →
    u.phase = .waiting spread → ownStation s = some own →
    (match u.frame.kind.cls with | .urgent => 12 | .route => 20 | .routine => 28) + spread ≤ idle →
    let f := if u.frame.kind = .timeMark then { u.frame with payload := s.time.ship.octets ++ u.frame.payload.drop 6 } else u.frame
    exec (.transmitBegin idle) s = .next { s with bus := { s.bus with
      buffer := some { u with frame := f, phase := .sending (frameOctets own f) false, capture := some s.time.now } } })
  ∧ (
  ∀ (u : TxBuffer) (wire : List Octet) (s : State), s.bus.buffer = some u → u.phase = .sending wire false →
    exec .collision s = .next { s with
      bus := { s.bus with buffer := some { u with phase := .jamming, attempts := u.attempts + 1 } },
      counters := { s.counters with collisions := raised s.counters.collisions } })

/-- JAM_END: at eight attempts the frame leaves the buffer, discarded with its count and TRANSMIT LOSS (a frame left to finish by the muster purge too, which is
the model's reading, log entry 13); below eight a purged frame leaves the buffer without count (R34); a CABIN REPORT so discarded has had its outcome (`ReportEnds`, R123); otherwise a frame not purged keeps its contents and attempts
and is in BACKOFF for 1 to 2^k-1 slots with k the lesser of attempts and 5, or in WAITING when none was drawn, or in HELD while CRITICAL.
BACKOFF_END: BACKOFF gives WAITING with a spread of 0..7; in HELD the backoff has run out. Nothing else changes but the count of free values. -/
def Obligations.JamsAndBackoffsEnd : Prop :=
  (
  ∀ (u : TxBuffer) (s : State), s.bus.buffer = some u → u.phase = .jamming →
    (8 ≤ u.attempts → ∃ t, exec .jamEnd s = .next t
      ∧ t.counters.discards = raised s.counters.discards ∧ eventSet .transmitLoss t = true
      ∧ (∀ v, t.bus.buffer = some v → v.attempts = 0 ∧ v.capture = none)
      ∧ (u.frame.kind = .cabinReport → ReportEnds s t)
      ∧ t.time = s.time ∧ t.mon = s.mon ∧ t.node = s.node ∧ t.muster.record = s.muster.record)
    ∧ (u.attempts < 8 → u.condemned = false → ∃ t p, exec .jamEnd s = .next t
      ∧ t.bus.buffer = some { u with phase := p }
      ∧ (if supplyState s = .critical then ∃ b, p = .held b
         else (∃ n, 1 ≤ n ∧ n ≤ 2 ^ min u.attempts 5 - 1 ∧ p = .backoff n) ∨ ∃ n, n ≤ 7 ∧ p = .waiting n)
      ∧ t.steady = s.steady)
    ∧ (u.attempts < 8 → u.condemned = true → ∃ t, exec .jamEnd s = .next t
      ∧ (∀ v, t.bus.buffer = some v → v.attempts = 0 ∧ v.capture = none)
      ∧ t.steady = s.steady))
  ∧ (
  ∀ (u : TxBuffer) (n : Nat) (s : State), s.bus.buffer = some u →
    (u.phase = .backoff n → ∃ m, m ≤ 7 ∧
      exec .backoffEnd s = .next { s with bus := { s.bus with buffer := some { u with phase := .waiting m } }, free := s.free + 1 })
    ∧ (u.phase = .held (some n) →
      exec .backoffEnd s = .next { s with bus := { s.bus with buffer := some { u with phase := .held none } } }))

/-- TRANSMIT_COMPLETE counts one frame sent, ABORTED_TAIL_END one aborted frame, and the frame leaves the buffer, which holds at most a frame not yet begun. A completed mark clears the pending shift if it carried it and it is
not 0; no other frame changes the time, and an aborted one keeps the shift. A completed SEGMENT STATE removes each declaration that its notes name, still CLEAR under the noted issue, and no frame keeps
a note of its segment (R84). A CABIN REPORT that ends either way has had its outcome (`ReportEnds`, R123). When the outstanding frame of the active answer ends either way, the close ends the answer and the next request is in HOLD at RUN and NORMAL or STANDBY (R66, R69); after
any other frame the next item of the publisher, or the close, stands to be sent under the next sequence (R68). -/
def Obligations.FrameEndsAreCounted : Prop :=
  (∀ (u : TxBuffer) (wire : List Octet) (s : State), s.bus.buffer = some u →
    (u.phase = .sending wire false → ∃ t, exec .transmitComplete s = .next t
      ∧ t.counters.framesSent = raised s.counters.framesSent ∧ t.counters.aborted = s.counters.aborted
      ∧ (∀ v, t.bus.buffer = some v → v.attempts = 0 ∧ v.capture = none)
      ∧ t.time = { s.time with pendingShift :=
          if u.frame.kind = .timeMark ∧ (octetAt u.frame.payload 6).toInt ≠ 0
            ∧ s.time.pendingShift = (octetAt u.frame.payload 6).toInt then 0 else s.time.pendingShift }
      ∧ t.mon = { s.mon with declared :=
          if u.frame.kind = .segmentState then clearedBy u.frame.notes s.mon.declared else s.mon.declared }
      ∧ (∀ d ∈ s.mon.declared, d ∉ t.mon.declared → ∀ f, t.stands f → ∀ n ∈ f.notes, n.segment ≠ d.segment)
      ∧ (u.frame.kind = .cabinReport → ReportEnds s t)
      ∧ t.node = s.node ∧ t.port = s.port ∧ t.bus.receiver = s.bus.receiver ∧ t.muster.record = s.muster.record)
    ∧ (u.phase = .sending wire true → ∃ t, exec .abortedTailEnd s = .next t
      ∧ t.counters.aborted = raised s.counters.aborted ∧ t.counters.framesSent = s.counters.framesSent
      ∧ (u.frame.kind = .cabinReport → ReportEnds s t)
      ∧ (∀ v, t.bus.buffer = some v → v.attempts = 0 ∧ v.capture = none)
      ∧ t.time = s.time ∧ t.mon = s.mon ∧ t.node = s.node ∧ t.port = s.port ∧ t.bus.receiver = s.bus.receiver
      ∧ t.muster.record = s.muster.record))
  ∧ ∀ (aborted : Bool) (u : TxBuffer) (wire : List Octet) (a : ActiveAnswer) (s : State), s.bus.buffer = some u →
    u.phase = .sending wire aborted → u.frame.kind = .programmeItem → u.frame.answer = true → s.exch.active = some a → a.outstanding = true →
    ∃ t, exec (if aborted then .abortedTailEnd else .transmitComplete) s = .next t
      ∧ (a.closing = true →
          match s.exch.answers with
          | e :: rest =>
            if s.node.state = .run ∧ (level s).calm = true then
              ∃ n, n ≤ 400 ∧ t.exch.answers = rest
                ∧ t.exch.active = some { entry := e, phase := .hold ⟨s.time.now, n⟩, lastSent := e.after, outstanding := false, closing := false }
            else t.exch.active = none ∧ t.exch.answers = e :: rest
          | [] => t.exch.active = none ∧ t.exch.answers = [])
      ∧ (a.closing = false → participates s = true → level s ≠ .muster → s.bus.queue.length ≤ 6 →
          match nextToSend a.entry.publisher a.lastSent s.store.table with
          | some b =>
            t.exch.active = some { a with phase := .walk, lastSent := b.revision, outstanding := true, closing := false }
              ∧ t.stands ⟨.programmeItem, 255, s.bus.nextSeq,
                  itemPayload (some b) (some { requester := a.entry.requester, seq := a.entry.seq, final := false, through := 0 }), [], true⟩
          | none =>
            t.exch.active = some { a with phase := .walk, outstanding := true, closing := true }
              ∧ t.stands ⟨.programmeItem, 255, s.bus.nextSeq,
                  itemPayload none (some { requester := a.entry.requester, seq := a.entry.seq, final := true,
                                           through := highWaterOf a.entry.publisher s }), [], true⟩)

/-- An offer to the transmit queue (R24 to R26, R34, R35), on a sound queue: refused outside JOINING and RUN and, of a programme kind, at MUSTER, with nothing changed; a single-instance kind that is queued takes the
queued frame's place with new contents and sequence; else, with fewer than 8 frames queued, the frame stands behind the last of its own or a higher class; on a full queue it evicts the last frame when that is of a lower class, and is refused otherwise,
each with a queue refusal counted and TRANSMIT LOSS. An accepted frame consumes the next sequence; then an EMPTY buffer takes the head of the queue in WAITING with a spread of 0..7, in JOINING or RUN and not while CRITICAL (R27). -/
def Obligations.OffersAreQueued : Prop :=
  (∀ (o : Offer) (s : State), s.queueSound →
    let q := s.bus.queue
    let f : TxFrame := { kind := o.kind, dest := o.dest, seq := s.bus.nextSeq, payload := o.payload, notes := o.notes, answer := o.answer }
    let refusedByState : Prop := participates s = false ∨ (level s = .muster ∧ o.kind.programme = true)
    let loss := setEvent .transmitLoss (s.modCounters fun c => { c with queueRefusals := raised c.queueRefusals })
    let taken (queue : List TxFrame) (u : State) : State :=
      fillBuffer { u with bus := { u.bus with queue := queue, nextSeq := s.bus.nextSeq + 1 } }
    (refusedByState → offerBase o s = (s, .refusedState))
    ∧ (¬ refusedByState → o.kind.single = true → (∃ g ∈ q, g.kind = o.kind) →
        offerBase o s = (taken (q.map fun g => if g.kind = o.kind then f else g) s, .accepted s.bus.nextSeq none))
    ∧ (¬ refusedByState → (o.kind.single = false ∨ ∀ g ∈ q, g.kind ≠ o.kind) →
      (q.length < 8 → ∃ a b, q = a ++ b ∧ (∀ g ∈ a, f.kind.rank ≤ g.kind.rank) ∧ (∀ g ∈ b, g.kind.rank < f.kind.rank)
        ∧ offerBase o s = (taken (a ++ f :: b) s, .accepted s.bus.nextSeq none))
      ∧ ∀ last, 8 ≤ q.length → q.getLast? = some last →
        (last.kind.rank < f.kind.rank → ∃ a b, q.dropLast = a ++ b ∧ (∀ g ∈ a, f.kind.rank ≤ g.kind.rank)
          ∧ (∀ g ∈ b, g.kind.rank < f.kind.rank)
          ∧ offerBase o s = (taken (a ++ f :: b) loss, .accepted s.bus.nextSeq (some last)))
        ∧ (f.kind.rank ≤ last.kind.rank → offerBase o s = (loss, .refusedFull))))
  ∧ (∀ (f : TxFrame) (q : List TxFrame) (s : State), s.bus.buffer = none → s.bus.queue = f :: q → participates s = true →
    supplyState s ≠ .critical → ∃ m, m ≤ 7 ∧ fillBuffer s = { s with
      bus := { s.bus with
        queue := q,
        buffer := some {
          frame := if f.kind = .timeMark then { f with payload := f.payload.set 6 (shiftOctet s.time.pendingShift) } else f,
          attempts := 0, phase := .waiting m, capture := none, condemned := false } },
      free := s.free + 1 })
  ∧ ∀ s : State, (s.bus.buffer ≠ none ∨ s.bus.queue = [] ∨ participates s = false ∨ supplyState s = .critical) → fillBuffer s = s

/-! ### Programme Store and exchange -/

/-- COMPARATOR_MATCH when the armed boundary lies at or before now: ended entries leave and running ones are ON NOW, as one change under the next
generation; with nothing to change table and generation stand. The comparator is reloaded; the view of a changed table is recomposed. PROGRAMME is set when what the view shows has changed, in a position or in the item a position names (R54; that both count is log entry 21), and else stands
as it stood, with every other flag. A view names an item when one of its positions holds that item's entry. -/
def Obligations.ComparatorMatchRephases : Prop :=
  (∀ s : State, matchDue s = true →
    ∃ t, exec .comparatorMatch s = .next t
      ∧ t.store.table = rephased false (nowMinute s) s.store.table
      ∧ (rephased false (nowMinute s) s.store.table = s.store.table → t.store.generation = s.store.generation)
      ∧ (rephased false (nowMinute s) s.store.table ≠ s.store.table →
          t.store.generation = s.store.generation + 1 ∧ t.store.view = composedView t)
      ∧ t.store.comparator = boundary t
      ∧ eventSet .programme t = (eventSet .programme s || decide (shownNow t ≠ shownNow s))
      ∧ t.events.flags ||| Event.programme.mask = s.events.flags ||| Event.programme.mask ∧ t.events.enables = s.events.enables
      ∧ { t with store := s.store, events := s.events } = s)
  ∧ (∀ (table : List Entry) (v : View) (key : Nat × Nat), (shownBy table v).names key = true ↔
      ∃ i e, (i ∈ v.onNow ∨ i ∈ v.next ∨ ∃ p ∈ v.venues, p.1 = some i ∨ p.2 = some i) ∧ table[i]? = some e ∧ e.body.key = key)
  ∧ ∀ (table table' : List Entry) (v v' : View), shownBy table v = shownBy table' v' ↔
      v.onNow = v'.onNow ∧ v.next = v'.next ∧ v.venues = v'.venues
      ∧ ∀ i, (i ∈ v.onNow ∨ i ∈ v.next ∨ ∃ p ∈ v.venues, p.1 = some i ∨ p.2 = some i) →
          table[i]?.map (·.body.key) = table'[i]?.map (·.body.key)

/-- PROGRAMME_ITEM, PROGRAMME_SUMMARY and ITEM_REQUEST free the slot at the head of the PROGRAMME queue when it holds such a frame; the other
owner queues, ship time, routes, segments and the order stand. -/
def Obligations.ProgrammeFramesAreTaken : Prop :=
  ∀ (c : Instr) (k : FrameKind) (f : RxFrame) (rest : List RxFrame) (s : State),
    ((c = .programmeItem ∧ k = .programmeItem) ∨ (c = .programmeSummary ∧ k = .programmeSummary)
      ∨ (c = .itemRequest ∧ k = .itemRequest)) →
    s.bus.programmeQ = f :: rest → f.kind = k → participates s = true →
    ∃ t, exec c s = .next t ∧ t.bus.programmeQ = rest
      ∧ t.bus.timeQ = s.bus.timeQ ∧ t.bus.routeQ = s.bus.routeQ ∧ t.bus.musterQ = s.bus.musterQ
      ∧ t.bus.receiver = s.bus.receiver
      ∧ t.time = s.time ∧ t.mon = s.mon ∧ t.route = s.route ∧ t.node = s.node ∧ t.supply = s.supply ∧ t.port = s.port
      ∧ t.muster.record = s.muster.record ∧ t.muster.highestSeen = s.muster.highestSeen
      ∧ (c ≠ .programmeItem → t.store = s.store)

/-- Applying a valid body (R40 to R44) raises its publisher's high-water to at least its revision, unless no record can be made; a body no newer than the
entry held is STALE and counted, and the store stands. A newer one takes the entry's place, or removes it when the item has ended: REPLACED. A new identity is PAST when it has ended, INSERTED in a table of
fewer than 192 entries, INSERTED WITH EVICTION of the last entry of a full table when it sorts before that entry, else REFUSED. The table is the one given here when no entry of it is
due for a change of phase (R46, R49), under the next generation, with the view recomposed. PROGRAMME is set when what the view shows has changed, and when a REPLACED item is named in it, and else stands as it stood (R54, log entry 21), with every other flag. That an item whose higher revision was PAST or REFUSED counts as new when a lower one follows, where R45 has the table the same in either order, is the model's choice (log entry 49).
PROGRAMME_ITEM whose payload disagrees with its presence octet, or whose body alone is no valid one, counts one bad item and leaves the store and the publisher table as they are.
With a valid body the store, its counters, the flags and the high-water are those of that application. Of a direct item, one with no reply part, settled-through then becomes its revision when that is one above it, and a gap starts a catch-up of an IDLE record at NORMAL or
STANDBY, whose request stands to be sent where the queue has room (R61, R62); with a reply part the store is that of the application too, and settled-through is left to the close. -/
def Obligations.ItemsAreApplied : Prop :=
  (
  ∀ (b : ItemBody) (s : State),
    ((recordOf b.publisher s).isSome ∨ s.exch.records.length < 8 →
      ∃ r ∈ (applyBody b s).1.exch.records, r.station = b.publisher ∧ b.revision ≤ r.highWater)
    ∧ (let t := (applyBody b s).1
       eventSet .programme t = (eventSet .programme s || decide (shownNow t ≠ shownNow s)
          || (decide ((applyBody b s).2 = .replaced) && (shownNow t).names b.key))
        ∧ t.events.flags ||| Event.programme.mask = s.events.flags ||| Event.programme.mask ∧ t.events.enables = s.events.enables)
    ∧ ((recordOf b.publisher s).isNone → 8 ≤ s.exch.records.length → applyBody b s =
        (s.modCounters fun c => { c with refusedItems := raised c.refusedItems }, .refusedPublisher))
    ∧ ∀ e : Entry, (recordOf b.publisher s).isSome → s.store.table.find? (·.body.key = b.key) = some e →
        b.revision ≤ e.body.revision →
        (applyBody b s).2 = .stale ∧ (applyBody b s).1.store = s.store
          ∧ (applyBody b s).1.counters = { s.counters with staleItems := raised s.counters.staleItems })
  ∧ (
  ∀ (b : ItemBody) (s : State), ((recordOf b.publisher s).isSome ∨ s.exch.records.length < 8) →
    let t := (applyBody b s).1
    let ended : Bool := s.time.isSet && decide (classify (nowMinute s) b = .ended)
    let entry : Entry := { body := b, phase := if s.time.isSet = true ∧ classify (nowMinute s) b = .running then .onNow else .pending }
    let rest := s.store.table.filter (·.body.key ≠ b.key)
    let becomes (table : List Entry) : Prop :=
      (s.time.isSet = true → ∀ e ∈ table, rephaseEntry false (nowMinute s) e = some e) →
        t.store.table = table ∧ t.store.generation = s.store.generation + 1 ∧ t.store.view = composedView t
    (∀ e, s.store.table.find? (·.body.key = b.key) = some e → e.body.revision < b.revision →
      (applyBody b s).2 = .replaced ∧ t.counters = s.counters ∧ becomes (if ended then rest else insertEntry entry rest))
    ∧ (s.store.table.find? (·.body.key = b.key) = none →
      (ended = true → (applyBody b s).2 = .past ∧ t.store = s.store ∧ t.counters = s.counters)
      ∧ (ended = false → s.store.table.length < 192 →
          (applyBody b s).2 = .inserted ∧ t.counters = s.counters ∧ becomes (insertEntry entry s.store.table))
      ∧ ∀ last, ended = false → 192 ≤ s.store.table.length → s.store.table.getLast? = some last →
          (b.before last.body = true → (applyBody b s).2 = .insertedEvicting
            ∧ t.counters = { s.counters with evictedItems := raised s.counters.evictedItems }
            ∧ becomes (insertEntry entry s.store.table.dropLast))
          ∧ (b.before last.body = false → (applyBody b s).2 = .refusedFull ∧ t.store = s.store
            ∧ t.counters = { s.counters with refusedItems := raised s.counters.refusedItems })))
  ∧ (
  ∀ (f : RxFrame) (rest : List RxFrame) (s : State), s.bus.programmeQ = f :: rest → f.kind = .programmeItem →
    participates s = true →
    (readItemParts f.payload = none
      ∨ ∃ octets, readItemParts f.payload = some { body := some octets, reply := none } ∧ readBody octets = none) →
    ∃ t, exec .programmeItem s = .next t
      ∧ t.steady = { s.steady with
          programmeQ := rest, counters := { s.counters with badItems := raised s.counters.badItems, queueRefusals := 0 } })
  ∧ (
  ∀ (f : RxFrame) (rest : List RxFrame) (octets : List Octet) (b : ItemBody) (s : State), s.bus.programmeQ = f :: rest →
    f.kind = .programmeItem → participates s = true → readItemParts f.payload = some { body := some octets, reply := none } →
    readBody octets = some b →
    let u := (applyBody b s).1
    ∃ t, exec .programmeItem s = .next t ∧ t.bus.programmeQ = rest ∧ t.store = u.store
      ∧ t.counters = { u.counters with queueRefusals := t.counters.queueRefusals }
      ∧ t.events.flags ||| Event.transmitLoss.mask = u.events.flags ||| Event.transmitLoss.mask
      ∧ ((applyBody b s).2 = .refusedPublisher → t.exch.records = s.exch.records)
      ∧ ∀ r, recordOf b.publisher u = some r →
          (b.revision = r.settled + 1 → recordOf b.publisher t = some { r with settled := b.revision })
          ∧ (b.revision ≤ r.settled → recordOf b.publisher t = some r)
          ∧ (r.settled + 1 < b.revision →
              if r.waiting = false ∧ (level s).calm = true then
                ∃ q, recordOf b.publisher t = some { r with
                      waiting := true, attempts := r.attempts + 1, timer := some { start := s.time.now, len := 4000 }, reqSeq := q }
                  ∧ (hasRoom .itemRequest s.bus.queue = true → q = some s.bus.nextSeq
                      ∧ t.stands ⟨.itemRequest, 255, s.bus.nextSeq, o8 b.publisher :: le16 r.settled, [], false⟩)
              else recordOf b.publisher t = some r))
  ∧ (
  ∀ (f : RxFrame) (rest : List RxFrame) (octets : List Octet) (b : ItemBody) (x : ReplyPart) (s : State), s.bus.programmeQ = f :: rest →
    f.kind = .programmeItem → participates s = true → readItemParts f.payload = some { body := some octets, reply := some x } →
    readBody octets = some b →
    let u := (applyBody b s).1
    ∃ t, exec .programmeItem s = .next t ∧ t.bus.programmeQ = rest ∧ t.store = u.store
      ∧ t.counters = { u.counters with answersSuppressed := t.counters.answersSuppressed } ∧ t.events.flags = u.events.flags
      ∧ (ownStation s ≠ some x.requester → t.exch.records = u.exch.records))

/-- PROGRAMME_SUMMARY cancels the early summary. A pair for a publisher of 1..127 with a record, or with room for one, raises the own high-water at a PUBLISHER of that number; when the record lies
behind the pair, is IDLE and the level is NORMAL or STANDBY, it is WAITING with one attempt more and its timer at 4,000 ms, and with room in the queue the request for what lies above settled-through stands to be
sent under the record's request sequence (R59, R62). A pair of another number changes no record.
ITEM_REQUEST kept (RUN, NORMAL or STANDBY, a greater high-water) is merged or appended as R65 gives while another answer is active, and with an empty answer queue and none active it is the active answer in HOLD for 0..400 ms
(R66); one not kept leaves the answers as they are. A kept request takes the place of the queued one of its requester and publisher, with its sequence and the lower after-revision, or is appended to fewer than four, or else is not kept (R65).
A PROGRAMME_ITEM with a reply part alone (R63, R67): the WAITING record of the own request of that sequence has its timer restarted, and a final closes it with high-water and settled-through raised to the answer-through; a
queued answer of the same requester and sequence is removed (the first, should two match, log entry 38), an active one is dropped in HOLD alone, each counted. -/
def Obligations.SummaryAndRequestAreTaken : Prop :=
  (∀ (f : RxFrame) (rest : List RxFrame) (s : State), s.bus.programmeQ = f :: rest → f.kind = .programmeSummary →
    participates s = true → ∃ t, exec .programmeSummary s = .next t ∧ t.exch.early = none ∧ t.exch.summaryTimer = s.exch.summaryTimer
      ∧ ∀ p h, readPairs f.payload = some [(p, h)] →
          (p < 1 ∨ 127 < p → t.exch.records = s.exch.records)
          ∧ (1 ≤ p → p ≤ 127 → ((recordOf p s).isSome ∨ s.exch.records.length < 8) →
            let r0 := (recordOf p s).getD (newRecord p)
            let r := if ownStation s = some p ∧ (roles s).publisher = true then { r0 with highWater := max r0.highWater h } else r0
            if r.settled < h ∧ r.waiting = false ∧ (level s).calm = true then
              ∃ q, recordOf p t = some { r with
                    waiting := true, attempts := r.attempts + 1, timer := some { start := s.time.now, len := 4000 }, reqSeq := q }
                ∧ (hasRoom .itemRequest s.bus.queue = true → q = some s.bus.nextSeq
                    ∧ t.stands ⟨.itemRequest, 255, s.bus.nextSeq, o8 p :: le16 r.settled, [], false⟩)
            else recordOf p t = some r))
  ∧ (∀ (f : RxFrame) (rest : List RxFrame) (s : State), s.bus.programmeQ = f :: rest → f.kind = .itemRequest →
    participates s = true →
    let p := (octetAt f.payload 0).toNat
    let after := rd16At f.payload 1
    let e : AnswerEntry := { requester := f.source, publisher := p, after := after, seq := f.seq }
    let kept := f.payload.length = 3 ∧ 1 ≤ p ∧ p ≤ 127 ∧ s.node.state = .run ∧ (level s).calm = true ∧ after < highWaterOf p s
    ∃ t, exec .itemRequest s = .next t
      ∧ (∀ a, s.exch.active = some a →
          t.exch = { s.exch with answers := if kept then keepRequest e s.exch.answers else s.exch.answers })
      ∧ (s.exch.active = none → s.exch.answers = [] →
          (kept → ∃ n, n ≤ 400 ∧ t.exch = { s.exch with
            active := some { entry := e, phase := .hold ⟨s.time.now, n⟩, lastSent := after, outstanding := false, closing := false } })
          ∧ (¬ kept → t.exch = s.exch)))
  ∧ (∀ (e : AnswerEntry) (l : List AnswerEntry),
    ((∃ q ∈ l, q.requester = e.requester ∧ q.publisher = e.publisher) → keepRequest e l = l.map fun q =>
        if q.requester = e.requester ∧ q.publisher = e.publisher then { q with seq := e.seq, after := min q.after e.after } else q)
    ∧ ((∀ q ∈ l, ¬ (q.requester = e.requester ∧ q.publisher = e.publisher)) →
        keepRequest e l = if l.length < 4 then l ++ [e] else l))
  ∧ ∀ (f : RxFrame) (rest : List RxFrame) (r : ReplyPart) (s : State), s.bus.programmeQ = f :: rest → f.kind = .programmeItem →
    participates s = true → readItemParts f.payload = some { body := none, reply := some r } →
    ∃ t, exec .programmeItem s = .next t ∧ t.store = s.store
      ∧ (∀ q, ownStation s = some r.requester → s.exch.records.find? (fun q => q.waiting && q.reqSeq = some r.seq) = some q →
          t.exch.records = s.exch.records.map fun x =>
            if x.station = q.station then
              if r.final then
                { x with
                  waiting := false, attempts := 0, timer := none, highWater := max x.highWater r.through,
                  settled := max x.settled r.through }
              else { x with timer := some { start := s.time.now, len := 4000 } }
            else x)
      ∧ (ownStation s ≠ some r.requester ∨ s.exch.records.find? (fun q => q.waiting && q.reqSeq = some r.seq) = none →
          t.exch.records = s.exch.records)
      ∧ (∀ a, s.exch.active = some a →
          let hit (e : AnswerEntry) : Bool := e.requester = r.requester && e.seq = r.seq
          let held : Bool := match a.phase with | .hold _ => true | .walk => false
          let once := if s.exch.answers.any hit then raised s.counters.answersSuppressed else s.counters.answersSuppressed
          t.counters = { t.counters with answersSuppressed := if held && hit a.entry then raised once else once }
          ∧ ((held && hit a.entry) = false → t.exch.active = some a ∧ t.exch.answers = s.exch.answers.eraseP hit)
          ∧ ((held && hit a.entry) = true → s.exch.answers = [] → t.exch.active = none ∧ t.exch.answers = []))

/-- SUMMARY_TIMER expired restarts the timer with 22,500 to 37,500 ms; EARLY_SUMMARY expired ends the early summary and leaves that timer. With room in the queue, below MUSTER, each has a summary of every record whose high-water
is 1 or more standing to be sent. Of the steady parts nothing else changes.
ANSWER_HOLD run out, with room in the queue: the answer is in WALK with one frame outstanding, which stands to be sent under the next sequence, the close when no item of
the publisher lies above last sent. -/
def Obligations.ExchangeTimersRun : Prop :=
  (
  (∀ s : State, timerDue s.exch.summaryTimer s = true → ∃ t n, 22500 ≤ n ∧ n ≤ 37500 ∧ exec .summaryTimer s = .next t
    ∧ (participates s = true → level s ≠ .muster → hasRoom .programmeSummary s.bus.queue = true →
        t.stands ⟨.programmeSummary, 255, s.bus.nextSeq, summaryPayload s.exch.records, [], false⟩)
    ∧ t.steady = { s.steady with summaryTimer := some { start := s.time.now, len := n } })
  ∧ ∀ s : State, timerDue s.exch.early s = true → ∃ t, exec .earlySummary s = .next t
    ∧ (participates s = true → level s ≠ .muster → hasRoom .programmeSummary s.bus.queue = true →
        t.stands ⟨.programmeSummary, 255, s.bus.nextSeq, summaryPayload s.exch.records, [], false⟩)
    ∧ t.steady = { s.steady with early := none })
  ∧ (
  ∀ (a : ActiveAnswer) (tm : Timer) (s : State), s.exch.active = some a → a.phase = .hold tm → tm.expired s.time.now = true →
    participates s = true → level s ≠ .muster → s.bus.queue.length < 8 →
    ∃ t, exec .answerHold s = .next t
      ∧ t.exch.active = some (match nextToSend a.entry.publisher a.lastSent s.store.table with
          | some b => { a with phase := .walk, lastSent := b.revision, outstanding := true, closing := false }
          | none => { a with phase := .walk, outstanding := true, closing := true })
      ∧ t.stands ⟨.programmeItem, 255, s.bus.nextSeq,
          match nextToSend a.entry.publisher a.lastSent s.store.table with
          | some b => itemPayload (some b) (some { requester := a.entry.requester, seq := a.entry.seq, final := false, through := 0 })
          | none => itemPayload none (some { requester := a.entry.requester, seq := a.entry.seq, final := true,
                                             through := highWaterOf a.entry.publisher s }), [], true⟩
      ∧ t.steady = s.steady)

/-- REQUEST_TIMER of a WAITING record whose timer has expired: at three attempts it fails with CATCH-UP FAILED and is IDLE; below three it is requested again at NORMAL or
STANDBY with the attempt counted and the timer at 4,000 ms, the request for what lies above settled-through standing to be sent under the record's new request sequence, which is absent when the offer
is refused (R62, R64); and given up without event at STAND-DOWN, and at MUSTER too, which R64 does not name and is the model's reading (log entry 26). -/
def Obligations.RequestTimerDecides : Prop :=
  ∀ (r : PubRecord) (s : State), recordOf r.station s = some r → r.waiting = true → timerDue r.timer s = true →
    ∃ t, exec (.requestTimer r.station) s = .next t ∧
      (if 3 ≤ r.attempts then
        recordOf r.station t = some { r with waiting := false, attempts := 0, timer := none } ∧ eventSet .catchUpFailed t = true
      else if (level s).calm = true then
        ∃ q, recordOf r.station t = some { r with
            waiting := true, attempts := r.attempts + 1, timer := some { start := s.time.now, len := 4000 }, reqSeq := q }
          ∧ (participates s = true → hasRoom .itemRequest s.bus.queue = true → q = some s.bus.nextSeq
              ∧ t.stands ⟨.itemRequest, 255, s.bus.nextSeq, o8 r.station :: le16 r.settled, [], false⟩)
          ∧ (participates s = false ∨ hasRoom .itemRequest s.bus.queue = false → q = none)
      else recordOf r.station t = some { r with waiting := false, attempts := 0, timer := none }
        ∧ t.events.flags ||| Event.transmitLoss.mask = s.events.flags ||| Event.transmitLoss.mask)
      ∧ t.store = s.store ∧ t.time = s.time ∧ t.mon = s.mon ∧ t.route = s.route ∧ t.node = s.node ∧ t.port = s.port

/-- PUBLISH_ITEM and WITHDRAW_ITEM that pass the checks of Table 4-4 in RUN apply the body under the revision one above the own high-water: the store is the one that application
leaves, the response is DONE with the revision and the outcome of Table 3-3 by its number, and the own high-water is then that revision (in a station number's range), as settled-through is when it stood one below. With room
for three frames the item under that revision stands to be sent. The checks in their order (R70, R71): without the PUBLISHER role NOT PERMITTED; in JOINING NOT READY; at MUSTER BUSY; a body that is no valid one, or an item to withdraw that the
table does not hold, INVALID; a high-water of 65535 EXHAUSTED; no room for the own record or for the frame FULL. In a refusal, of the steady parts only the port changes. -/
def Obligations.PublishTakesNextRevision : Prop :=
  ∀ (own : Nat) (args : List Octet) (s : State), participates s = true → s.port.state = .idle → ownStation s = some own → own ≤ 127 →
    let hw := highWaterOf own s
    let port (code : Octet) (response : List Octet) : LocalPort :=
      { s.port with state := .ready, command := code :: args, response := response }
    let refused (c : Instr) (code status : Octet) : Prop := ∃ t, exec c s = .next t ∧ t.steady = { s.steady with port := port code [status] }
    let number : StoreOutcome → Octet
      | .bad => 0 | .refusedPublisher => 1 | .stale => 2 | .replaced => 3 | .past => 4 | .inserted => 5
      | .insertedEvicting => 6 | .refusedFull => 7
    let published (c : Instr) (code : Octet) (b : ItemBody) : Prop := ∃ t, exec c s = .next t
      ∧ highWaterOf own t = hw + 1 ∧ t.store = (applyBody b s).1.store
      ∧ t.port = port code (0x00 :: le16 (hw + 1) ++ [number (applyBody b s).2])
      ∧ (∀ r, recordOf own (applyBody b s).1 = some r → r.settled = hw → recordOf own t = some { r with settled := hw + 1 })
      ∧ (s.bus.queue.length ≤ 5 → ∃ q, t.stands ⟨.programmeItem, 255, q, itemPayload (some b) none, [], false⟩)
    let allowed : Prop := (roles s).publisher = true ∧ s.node.state = .run ∧ level s ≠ .muster
    let room : Prop := ((recordOf own s).isSome ∨ s.exch.records.length < 8) ∧ hasRoom .programmeItem s.bus.queue = true
    let entry := s.store.table.find? (·.body.key = (own, rd16At args 0))
    (13 ≤ args.length →
      ((roles s).publisher = false → refused (.publishItem args) 0x0C 0x02)
      ∧ ((roles s).publisher = true → s.node.state = .joining → refused (.publishItem args) 0x0C 0x01)
      ∧ ((roles s).publisher = true → s.node.state = .run → level s = .muster → refused (.publishItem args) 0x0C 0x06)
      ∧ (allowed → readBody (publishOctets own 1 args) = none → refused (.publishItem args) 0x0C 0x03)
      ∧ ∀ b, allowed → readBody (publishOctets own 1 args) = some b →
          (hw = 65535 → refused (.publishItem args) 0x0C 0x05)
          ∧ (hw < 65535 → ¬ room → refused (.publishItem args) 0x0C 0x04)
          ∧ (hw < 65535 → room → published (.publishItem args) 0x0C { b with revision := hw + 1 }))
    ∧ (2 ≤ args.length →
      ((roles s).publisher = false → refused (.withdrawItem args) 0x0D 0x02)
      ∧ ((roles s).publisher = true → s.node.state = .joining → refused (.withdrawItem args) 0x0D 0x01)
      ∧ ((roles s).publisher = true → s.node.state = .run → level s = .muster → refused (.withdrawItem args) 0x0D 0x06)
      ∧ (allowed → entry = none → refused (.withdrawItem args) 0x0D 0x03)
      ∧ ∀ e, allowed → entry = some e →
          (hw = 65535 → refused (.withdrawItem args) 0x0D 0x05)
          ∧ (hw < 65535 → ¬ room → refused (.withdrawItem args) 0x0D 0x04)
          ∧ (hw < 65535 → room → published (.withdrawItem args) 0x0D { e.body with status := .cancelled, revision := hw + 1 }))

/-! ### Neighbours, segments and routes -/

/-- R85: a segment is passable when its block state is CLEAR and its kind allows it, at the level. -/
def Obligations.SegmentIsPassable : Prop :=
  ∀ (l : Level) (kind : SegKind) (closure : Closure) (blocked : Bool),
    passableAt l kind closure blocked = true ↔ blocked = false ∧
      (kind = .corridor ∨ kind = .stair ∨ kind = .fireClosure ∨ (kind = .watertightClosure ∧ closure = .opened)
        ∨ (kind = .lift ∧ l ≠ .muster))

/-- PRESENCE_TIMER of an entry whose timer has expired: presence DOWN, timer stopped, NEIGHBOUR set, and no route leaves through the entry. -/
def Obligations.PresenceTimerLosesNeighbour : Prop :=
  ∀ (i : Nat) (n : Neighbour) (s : State), s.mon.neighbours[i]? = some n → timerDue n.presenceTimer s = true →
    ∃ t, exec (.presenceTimer i) s = .next t
      ∧ t.mon.neighbours[i]? = some { n with presence := .down, presenceTimer := none }
      ∧ eventSet .neighbour t = true ∧ (∀ e ∈ t.route.table, e.nextHop ≠ some i)
      ∧ t.time = s.time ∧ t.store = s.store ∧ t.node = s.node ∧ t.port = s.port ∧ t.muster.record = s.muster.record

/-- SENSE_LINE_ACCEPT after twenty equal samples: the candidate is the accepted level, every closure-kind entry that names the line is CLOSED at its closed level and OPEN
at the other (an entry is on the line when it is a fire or watertight closure whose sense assignment names it, R80), SEGMENT is set when one of them changed, and entries that do not name the line keep their closure state.
SENSE_LINE_CHANGE makes a sample that differs from a running filter's candidate the candidate with run count 1, the sample
of the coming millisecond (log entry 35); nothing else changes but the line's level. -/
def Obligations.SenseLinesAreFiltered : Prop :=
  (
  ∀ (line : Fin 8) (c : LineLevel) (s : State), s.mon.filters[line].candidate = some c → 20 ≤ s.mon.filters[line].run →
    s.mon.filters[line].accepted ≠ some c →
    ∃ t, exec (.senseLineAccept line) s = .next t
      ∧ t.mon.filters = s.mon.filters.set line { s.mon.filters[line] with accepted := some c }
      ∧ t.mon.neighbours.map (fun n => (n.fixed, n.closure, n.blocked, n.presence)) = s.mon.neighbours.map (fun n =>
          (n.fixed, if n.onLine line then n.closureAt c else n.closure, n.blocked, n.presence))
      ∧ ((∃ n ∈ s.mon.neighbours, n.onLine line = true ∧ n.closureAt c ≠ n.closure) → eventSet .segment t = true)
      ∧ t.mon.declared = s.mon.declared ∧ t.time = s.time ∧ t.store = s.store ∧ t.node = s.node ∧ t.port = s.port)
  ∧ (
  ∀ (n : Neighbour) (line : Fin 8),
    (n.onLine line = true ↔ (n.fixed.kind = .fireClosure ∨ n.fixed.kind = .watertightClosure) ∧ ∃ closed, n.fixed.sense = some (line, closed))
    ∧ ∀ closed accepted, n.fixed.sense = some (line, closed) → n.closureAt accepted = if accepted = closed then .closed else .opened)
  ∧ (
  ∀ (line : Fin 8) (l c : LineLevel) (s : State), s.mon.filters[line].candidate = some c → c ≠ l →
    exec (.senseLineChange line l) s = .next { s with
      pins := { s.pins with sense := s.pins.sense.set line l },
      mon := { s.mon with filters := s.mon.filters.set line { s.mon.filters[line] with candidate := some l, run := 1, sampled := true } } })

/-- SEGMENT_STATE frees its slot; a payload of a wrong length changes no segment record. Otherwise the entries act in the order carried (R82): one with its fields values and a number of 1..1023 gives each record of its segment the block
state when DECLARED, and each REMOTE one the closure state when SENSED. A record that it left changed has its passability by R85, with SEGMENT set, and no route leaves through a segment that it made impassable (R86). Nothing else of a
record changes, and no declaration. -/
def Obligations.SegmentStateIsTaken : Prop :=
  ∀ (f : RxFrame) (rest : List RxFrame) (s : State), s.bus.routeQ = f :: rest → f.kind = .segmentState → participates s = true →
    ∃ t, exec .segmentState s = .next t ∧ t.bus.routeQ = rest
      ∧ t.bus.timeQ = s.bus.timeQ ∧ t.bus.programmeQ = s.bus.programmeQ ∧ t.bus.musterQ = s.bus.musterQ
      ∧ (readSegments f.payload = none → t.mon = s.mon ∧ t.route = s.route)
      ∧ t.mon.neighbours.map (fun n => (n.fixed, n.presence, n.presenceTimer, n.remote))
          = s.mon.neighbours.map (fun n => (n.fixed, n.presence, n.presenceTimer, n.remote))
      ∧ (∀ es, readSegments f.payload = some es →
          t.mon.neighbours.map (fun n => (n.closure, n.blocked)) = s.mon.neighbours.map fun n =>
            es.foldl (fun (x : Closure × Bool) e =>
              match e.closure with
              | none => x
              | some c =>
                if e.segment < 1 ∨ 1023 < e.segment ∨ e.segment ≠ n.fixed.segment then x
                else if e.isDeclared = true then (x.1, e.blocked)
                else if n.remote = true then (c, x.2)
                else x) (n.closure, n.blocked))
      ∧ (∀ (i : Nat) (n m : Neighbour), s.mon.neighbours[i]? = some n → t.mon.neighbours[i]? = some m →
          ((m.closure ≠ n.closure ∨ m.blocked ≠ n.blocked) → m.passable = m.passableNow (level s) ∧ eventSet .segment t = true)
          ∧ (n.passable = true → m.passable = false → ∀ e ∈ t.route.table, e.nextHop ≠ some i))
      ∧ t.mon.filters = s.mon.filters ∧ t.mon.declared = s.mon.declared ∧ t.time = s.time ∧ t.store = s.store
      ∧ t.node = s.node ∧ t.port = s.port ∧ t.muster.record = s.muster.record

/-- DECLARE_SEGMENT taken: the list holds the declaration, every record of the segment takes its block state, DONE; where no record of the segment changes by it and the
queue has room, its frame stands to be sent, with the note of a CLEAR entry's issue. An entry of the segment takes the state under its next issue, in its place; a new one joins at the tail under issue 0 (R84).
Without the CONSOLE role it is NOT PERMITTED; with a number outside 1..1023 or a state over 1 INVALID; for a new segment on a list of eight FULL. -/
def Obligations.DeclareSegmentBlocks : Prop :=
  ∀ (args : List Octet) (s : State), participates s = true → s.port.state = .idle → 3 ≤ args.length →
    ((roles s).console = true → 1 ≤ rd16At args 0 → rd16At args 0 ≤ 1023 → (octetAt args 2).toNat ≤ 1 →
      (s.mon.declared.length < 8 ∨ ∃ d ∈ s.mon.declared, d.segment = rd16At args 0) →
      ∃ t, exec (.declareSegment args) s = .next t
        ∧ t.mon.declared = declareIn (rd16At args 0) ((octetAt args 2).toNat = 1) s.mon.declared
        ∧ (∀ n ∈ t.mon.neighbours, n.fixed.segment = rd16At args 0 → n.blocked = decide ((octetAt args 2).toNat = 1))
        ∧ ((∀ n ∈ s.mon.neighbours, n.fixed.segment = rd16At args 0 → n.blocked = decide ((octetAt args 2).toNat = 1)) →
            s.queueSound → hasRoom .segmentState s.bus.queue = true →
            t.stands ⟨.segmentState, 255, s.bus.nextSeq, declaredOctets (rd16At args 0) ((octetAt args 2).toNat = 1),
              clearNotes (t.mon.declared.filter (·.segment = rd16At args 0)), false⟩)
        ∧ t.port = { s.port with state := .ready, command := 0x0F :: args, response := [0x00] }
        ∧ t.time = s.time ∧ t.store = s.store ∧ t.node = s.node ∧ t.muster.record = s.muster.record)
    ∧ ((roles s).console = false → ∃ t, exec (.declareSegment args) s = .next t
        ∧ t.steady = { s.steady with port := { s.port with state := .ready, command := 0x0F :: args, response := [0x02] } })
    ∧ ((roles s).console = true → (rd16At args 0 < 1 ∨ 1023 < rd16At args 0 ∨ 1 < (octetAt args 2).toNat) →
        ∃ t, exec (.declareSegment args) s = .next t
          ∧ t.steady = { s.steady with port := { s.port with state := .ready, command := 0x0F :: args, response := [0x03] } })
    ∧ ((roles s).console = true → 1 ≤ rd16At args 0 → rd16At args 0 ≤ 1023 → (octetAt args 2).toNat ≤ 1 →
        s.mon.declared.length = 8 → (∀ d ∈ s.mon.declared, d.segment ≠ rd16At args 0) →
        ∃ t, exec (.declareSegment args) s = .next t
          ∧ t.steady = { s.steady with port := { s.port with state := .ready, command := 0x0F :: args, response := [0x04] } })
    ∧ ∀ (segment : Nat) (blocked : Bool) (l : List Declared),
        ((∃ d ∈ l, d.segment = segment) → declareIn segment blocked l =
          l.map fun d => if d.segment = segment then { d with blocked := blocked, issue := d.issue + 1 } else d)
        ∧ ((∀ d ∈ l, d.segment ≠ segment) → declareIn segment blocked l = l ++ [{ segment := segment, blocked := blocked, issue := 0 }])

/-- ROUTE_ADVERT frees its slot and settles presence first: each neighbour entry of its source is UP with its timer at the level's duration, the others stand, and NEIGHBOUR
is set when one of them was DOWN. A payload of a wrong length changes no route. Otherwise the routes are those that the entries, in order, and then the codes no longer carried give against each neighbour entry of the source in
index order (R93, R94); a change of a state or next hop sets ROUTE (R101); a changed flag set, or a join prompt of a neighbour, leaves a triggered advert pending or an advert offered now (R98), and while none is offered the changed
flags stand; each code of no route entry is counted as an unknown destination. The JOINING flag is a join prompt (R92): in RUN at NORMAL or STANDBY it makes an early summary pending with a hold of 0..2,000 ms, if none is (R60), and in RUN with
a serial not 0 a join-prompt echo likewise (R116); one that is pending keeps its hold, and the summary and echo timers run on. -/
def Obligations.RouteAdvertSettlesPresence : Prop :=
  ∀ (f : RxFrame) (rest : List RxFrame) (s : State), s.bus.routeQ = f :: rest → f.kind = .routeAdvert → participates s = true →
    ∃ t, exec .routeAdvert s = .next t ∧ t.bus.routeQ = rest
      ∧ t.bus.timeQ = s.bus.timeQ ∧ t.bus.programmeQ = s.bus.programmeQ ∧ t.bus.musterQ = s.bus.musterQ
      ∧ t.mon = { s.mon with neighbours := s.mon.neighbours.map fun n =>
          if n.fixed.station = f.source then
            { n with
              presence := .up,
              presenceTimer := some { start := s.time.now, len := if (level s).alert = true then 12000 else 32000 } }
          else n }
      ∧ ((∃ n ∈ s.mon.neighbours, n.fixed.station = f.source ∧ n.presence = .down) → eventSet .neighbour t = true)
      ∧ (readAdvert f.payload = none → t.route = s.route)
      ∧ (∀ joining entries, readAdvert f.payload = some (joining, entries) →
          let nbs := s.mon.neighbours.zipIdx.filter fun p => p.1.fixed.station = f.source
          let w := nbs.foldl (advertAgainst (ownStation s) entries) (⟨s.route.table, false, false⟩, 0)
          t.route.table.map (fun e => { e with changed := false }) = w.1.table.map (fun e => { e with changed := false })
            ∧ (t.route.lastOffer = s.route.lastOffer → t.route.table = w.1.table)
            ∧ (w.1.turned = true → eventSet .route t = true)
            ∧ (w.1.touched = true ∨ (joining = true ∧ nbs ≠ []) →
                t.route.trigger.isSome = true ∨ t.route.lastOffer = some s.time.now)
            ∧ t.counters.unknownDestinations = raised^[w.2] s.counters.unknownDestinations)
      ∧ (let prompted : Prop := s.node.state = .run ∧ ∃ entries, readAdvert f.payload = some (true, entries)
         (prompted ∧ (level s).calm = true ∧ s.exch.early = none →
            ∃ n, n ≤ 2000 ∧ t.exch.early = some { start := s.time.now, len := n })
          ∧ (¬ (prompted ∧ (level s).calm = true ∧ s.exch.early = none) → t.exch.early = s.exch.early)
          ∧ (prompted ∧ s.muster.record.serial ≠ 0 ∧ s.muster.joinEcho = none →
              ∃ n, n ≤ 2000 ∧ t.muster.joinEcho = some { start := s.time.now, len := n })
          ∧ (¬ (prompted ∧ s.muster.record.serial ≠ 0 ∧ s.muster.joinEcho = none) → t.muster.joinEcho = s.muster.joinEcho)
          ∧ t.exch.summaryTimer = s.exch.summaryTimer ∧ t.muster.echoTimer = s.muster.echoTimer)
      ∧ t.time = s.time ∧ t.store = s.store ∧ t.node = s.node ∧ t.port = s.port ∧ t.muster.record = s.muster.record

/-- The candidate distance of an advert entry (R93): 63 over an impassable segment or when the entry goes over the node itself, else distance and cost together, at most 63.
What one advert candidate makes of a route (R93, Table 6-4): LOCAL passes it by; the present next hop's candidate is taken, 63 withdrawing the route; another's
only when lower. A change of state, distance or next hop sets the changed flag, and of state or next hop is a turn (R91, R101); a route through the neighbour whose code the advert no longer carries is lost (R94).
The effective route (R100): a MUSTER code that the order closes leads to the first such pair's alternate, marked redirected; every other code to its own entry. -/
def Obligations.RoutesAreChosen : Prop :=
  (∀ (own : Option Nat) (nb : Neighbour) (a : AdvertEntry),
    ((own = some a.via ∨ nb.passable = false) → candidate own nb a = 63)
    ∧ (own ≠ some a.via → nb.passable = true → candidate own nb a = min 63 (a.distance + nb.fixed.cost)))
  ∧ (
  ∀ (n k : Nat) (e : RouteEntry),
    (e.state = .isLocal → takeCandidate n k e = e)
    ∧ (e.state ≠ .isLocal → e.nextHop = some n → k < 63 →
        takeCandidate n k e = { e with state := .valid, distance := k, nextHop := some n })
    ∧ (e.state ≠ .isLocal → e.nextHop = some n → 63 ≤ k →
        takeCandidate n k e = { e with state := .unreachable, distance := 63, nextHop := none })
    ∧ (e.state ≠ .isLocal → e.nextHop ≠ some n → k < e.distance →
        takeCandidate n k e = { e with state := .valid, distance := k, nextHop := some n })
    ∧ (e.state ≠ .isLocal → e.nextHop ≠ some n → e.distance ≤ k → takeCandidate n k e = e))
  ∧ (∀ (own : Option Nat) (n : Nat) (nb : Neighbour) (e : RouteEntry) (a : AdvertEntry),
    1 ≤ a.code → a.code ≤ 1023 → a.distance ≤ 63 → a.via ≤ 127 → e.code = a.code →
    let new := takeCandidate n (candidate own nb a) e
    advertStep own n nb (⟨[e], false, false⟩, 0) a =
      (⟨[if new.state ≠ e.state ∨ new.distance ≠ e.distance ∨ new.nextHop ≠ e.nextHop then { new with changed := true } else new],
        decide (new.state ≠ e.state ∨ new.distance ≠ e.distance ∨ new.nextHop ≠ e.nextHop),
        decide (new.state ≠ e.state ∨ new.nextHop ≠ e.nextHop)⟩, 0))
  ∧ (∀ (own : Option Nat) (n : Nat) (nb : Neighbour) (e : RouteEntry), e.nextHop = some n → e.state = .valid →
    advertAgainst own [] (⟨[e], false, false⟩, 0) (nb, n) =
      (⟨[{ e with state := .unreachable, distance := 63, nextHop := none, changed := true }], true, true⟩, 0))
  ∧ (
  ∀ (table : List RouteEntry) (rs : List Redirect) (code : Nat) (e : RouteEntry), routeOf table code = some e →
    (e.cls ≠ .muster ∨ rs.find? (·.closed = code) = none →
      effectiveRoute table rs code = some { code := code, entry := e, redirected := false })
    ∧ ∀ (r : Redirect) (alt : RouteEntry), e.cls = .muster → rs.find? (·.closed = code) = some r →
        routeOf table r.alternate = some alt →
        effectiveRoute table rs code = some { code := r.alternate, entry := alt, redirected := true })

/-- ADVERT_TIMER and TRIGGERED_ADVERT fallen due offer an advert before its SEGMENT STATE frames (that order is log entry 11): with room in the queue the last offer is now, no trigger is pending and every changed flag is clear; the
timer is restarted within the level's range. States, distances and next hops stand. With room for all of them the advert stands to be sent under the next sequence (R96), and in RUN the frame of the sensed entries and, at a CONSOLE, those of the
declared list, six entries to a frame, with their CLEAR entries noted (R81, R84). -/
def Obligations.AdvertsAreOffered : Prop :=
  ∀ (c : Instr) (s : State),
    ((c = .advertTimer ∧ timerDue s.route.advertTimer s = true) ∨ (c = .triggeredAdvert ∧ timerDue s.route.trigger s = true)) →
    participates s = true → s.bus.queue.length < 8 →
    ∃ t n, exec c s = .next t
      ∧ (if (level s).alert = true then 1500 ≤ n ∧ n ≤ 2500 else 7500 ≤ n ∧ n ≤ 12500)
      ∧ (s.bus.queue.length ≤ 4 →
          t.stands ⟨.routeAdvert, 255, s.bus.nextSeq, advertPayload s, [], false⟩
          ∧ (s.node.state = .run → sensedPayload s.mon.neighbours ≠ [] →
              ∃ q, t.stands ⟨.segmentState, 255, q, sensedPayload s.mon.neighbours, [], false⟩)
          ∧ ∀ l, l = s.mon.declared.take 6 ∨ l = s.mon.declared.drop 6 → l ≠ [] → s.node.state = .run → (roles s).console = true →
              ∃ q, t.stands ⟨.segmentState, 255, q, (l.map fun d => declaredOctets d.segment d.blocked).flatten, clearNotes l, false⟩)
      ∧ t.steady = { s.steady with route :=
          { table := s.route.table.map fun e => { e with changed := false },
            advertTimer := some { start := s.time.now, len := n }, trigger := none, lastOffer := some s.time.now } }

/-- R102: QUERY_ROUTE at an idle port outside RESET is INVALID for a code outside 1..1023 or in no route entry, else DONE with the code, the effective code, the effective
entry's class and state, distance, next hop station or 0, bearing or FFh, and the redirected mark. Only the port changes. That the mark reads 0 for no and 1 for yes is the model's choice (log entry 51). -/
def Obligations.QueryRouteAnswers : Prop :=
  ∀ (args : List Octet) (s : State), s.node.state ≠ .reset → s.port.state = .idle → 2 ≤ args.length →
    exec (.queryRoute args) s = .next { s with port := { s.port with
      state := .ready, command := 0x04 :: args,
      response :=
        let code := rd16At args 0
        if code < 1 ∨ 1023 < code then [0x03]
        else match effectiveRoute s.route.table s.muster.record.redirects code with
          | none => [0x03]
          | some e => 0x00 :: (le16 code ++ le16 e.code
              ++ [o8 (e.entry.cls.code + 16 * e.entry.state.code), o8 e.entry.distance,
                  o8 ((hopStation s.mon.neighbours e.entry).getD 0), opt8 (bearingOf s.mon.neighbours e.entry),
                  o8 (b1 e.redirected)]) } }

/-- The path lights (R104, Table 6-5): in JOINING and RUN at MUSTER, with a path muster code that names a route, the channels take the state that the effective route gives: both STEADY at LOCAL, both FLASH at UNREACHABLE and over a next hop of no path
side, the one channel of its side alone in FLASH otherwise; in every other case both are OFF. An output is dark in OFF, lit in STEADY, and in FLASH lit while the phase, of ship time while SET and of the local counter while UNSET, with the chase
offset, is below 300 (R105). The commands that bring a route, a level or redirects leave the channels as these give them (R106). -/
def Obligations.PathLightsShowTheWay : Prop :=
  (∀ (ns : List Neighbour) (e : RouteEntry),
    (e.state = .isLocal → lampsFor ns e = ⟨.steady, .steady⟩)
    ∧ (e.state = .unreachable → lampsFor ns e = ⟨.flash, .flash⟩)
    ∧ ∀ (i : Nat) (n : Neighbour), e.state = .valid → e.nextHop = some i → ns[i]? = some n →
        lampsFor ns e = match n.fixed.side with | .a => ⟨.flash, .off⟩ | .b => ⟨.off, .flash⟩ | .none => ⟨.flash, .flash⟩)
  ∧ (∀ s : State,
    (∀ c e, participates s = true → level s = .muster → s.node.config = some c → c.pathCode ≠ 0 →
      effectiveRoute s.route.table s.muster.record.redirects c.pathCode = some e →
      lampsNow s = lampsFor s.mon.neighbours e.entry)
    ∧ (participates s = false ∨ level s ≠ .muster ∨ s.node.config = none
        ∨ (∃ c, s.node.config = some c ∧ (c.pathCode = 0 ∨ routeOf s.route.table c.pathCode = none)) →
      lampsNow s = ⟨.off, .off⟩))
  ∧ (∀ (c : Configuration) (s : State), s.node.config = some c →
    lampLit .off s = false ∧ lampLit .steady s = true
    ∧ (lampLit .flash s = true ↔ ((if s.time.isSet then s.time.ship.ms else s.time.now.toNat % 1000) + c.chase) % 1000 < 300))
  ∧ ∀ (f : RxFrame) (rest : List RxFrame) (s : State), participates s = true →
    (s.bus.musterQ = f :: rest → f.kind = .musterOrder → ∃ t, exec .musterOrder s = .next t ∧ t.lights = lampsNow t)
    ∧ (s.bus.routeQ = f :: rest → f.kind = .routeAdvert → ∃ t, exec .routeAdvert s = .next t ∧ t.lights = lampsNow t)

/-- READ_VIEW, READ_ROUTE, READ_PLATE and READ_ROLL at an idle port outside RESET are answered, the port is READY with the command, and nothing else changes. Each is DONE with the part named (Table 12-8): the node, time, muster, programme
or path and supply part; the neighbours, a half of the routes or the declared list; the chain and content parts of the plate; the roll entry at the index, with the number of entries. The refusals
of each are those of its rule: no such part or position INVALID, DECLARED and the roll without CONSOLE NOT PERMITTED; in a FAULT reached from LOADING the roll and an item are INVALID (R167). READ_ROLL answered INVALID, for a short block too, carries the
number of entries (R175); a half of the routes that holds no entry is the count alone (R168).
READ_ITEM is answered STALE when its generation is not current, else DONE with every field of the entry at the position, phase
included, else INVALID. Only the port changes. The codes of the time state, of a declared state and of the redirected octet of PATH are the model's choice (log entry 51), as are the octets of absent fields (log entry 17). -/
def Obligations.ReadsChangeThePortAlone : Prop :=
  (
  ∀ (args : List Octet) (s : State), s.node.state ≠ .reset → s.port.state = .idle →
    let answered (code : Octet) (response : List Octet) : State :=
      { s with port := { s.port with state := .ready, command := code :: args, response := response } }
    (1 ≤ args.length → exec (.readView args) s = .next (answered 0x01 (
      match (octetAt args 0).toNat with
      | 0 => 0x00 :: nodePart s
      | 1 => 0x00 :: timePart s
      | 2 => 0x00 :: musterPart s
      | 3 => 0x00 :: programmePart s.store.view
      | 4 => 0x00 :: (pathPart s ++ supplyPart s)
      | _ => [0x03])))
    ∧ (1 ≤ args.length → exec (.readRoute args) s = .next (answered 0x03 (
      match (octetAt args 0).toNat with
      | 0 => 0x00 :: neighboursPart s
      | 1 => 0x00 :: routesPart true s
      | 2 => 0x00 :: routesPart false s
      | 3 => if (roles s).console = true then 0x00 :: declaredPart s else [0x02]
      | _ => [0x03])))
    ∧ (s.route.table = [] → routesPart true s = [0x00])
    ∧ (s.route.table.length ≤ 8 → routesPart false s = [o8 s.route.table.length])
    ∧ (1 ≤ args.length → exec (.readPlate args) s = .next (answered 0x05 (
      match s.sched.plates[(octetAt args 0).toNat]? with
      | some p => 0x00 :: (chainPart s p ++ contentPart s (octetAt args 0).toNat p)
      | none => [0x03])))
    ∧ (2 ≤ args.length → exec (.readRoll args) s = .next (answered 0x06 (
      if s.node.state = .fault ∧ s.node.config = none then 0x03 :: le16 s.muster.roll.length
      else if (roles s).console = false then [0x02]
      else match s.muster.roll[rd16At args 0]? with
        | some e => 0x00 :: (le16 s.muster.roll.length ++ le16 e.cabin
            ++ [cabinStateOctet e.swept e.health e.dnd e.mur, o8 e.station] ++ issueOctets e.received)
        | none => 0x03 :: le16 s.muster.roll.length)))
    ∧ (args.length < 2 → exec (.readRoll args) s = .next (answered 0x06 (0x03 :: le16 s.muster.roll.length))))
  ∧ (
  ∀ (args : List Octet) (s : State), s.node.state ≠ .reset → s.port.state = .idle →
    (3 ≤ args.length → exec (.readItem args) s = .next { s with port := { s.port with
      state := .ready, command := 0x02 :: args,
      response :=
        if s.node.state = .fault ∧ s.node.config = none then [0x03]
        else if rdHalf (octetAt args 1) (octetAt args 2) ≠ s.store.generation then [0x07]
        else match s.store.table[(octetAt args 0).toNat]? with
          | some e => 0x00 :: e.body.octets ++ [match e.phase with | .pending => 0 | .onNow => 1]
          | none => [0x03] } }))

/-! ### Muster control -/

/-- MUSTER_ORDER of a greater serial, for the node's zone and sound by R110, is adopted: the record takes its fields, at NORMAL lapsed when R113 says so; highest-seen rises to
it; the stand-down timer runs at 120,000 ms at STAND-DOWN and is stopped at any other level; a changed level sets LEVEL. An order of equal serial that is not identical and ranks higher is adopted likewise, and is a conflict:
counted, with ORDER FAULT (R112). At a changed level every block of Table 7-3 has followed it (`FollowsLevel`); a change of the drill flag or the redirects alone gives every plate its new target (R113, R145). -/
def Obligations.GreaterOrderIsAdopted : Prop :=
  ∀ (f : RxFrame) (rest : List RxFrame) (o : Order) (s : State), s.bus.musterQ = f :: rest → f.kind = .musterOrder →
    participates s = true → readOrder f.payload = some o → orderOk s o = true → inZone o.zones s = true →
    (s.muster.record.serial < o.serial
      ∨ (o.serial = s.muster.record.serial ∧ identicalTo o s.muster.record = false ∧ s.muster.record.level.rank < o.level.rank)) →
    ∃ t, exec .musterOrder s = .next t
      ∧ t.muster.record =
          { authority := some o.authority, serial := o.serial, level := if givesLapsed s o then .normal else o.level, drill := o.drill,
            zones := o.zones, issue := o.issue, redirects := o.redirects, lapsed := givesLapsed s o }
      ∧ t.muster.highestSeen = max s.muster.highestSeen o.serial
      ∧ t.muster.standDown = (if t.muster.record.level = .standDown then some { start := s.time.now, len := 120000 } else none)
      ∧ (t.muster.record.level ≠ s.muster.record.level → eventSet .level t = true ∧ FollowsLevel s t)
      ∧ (t.muster.record.drill ≠ s.muster.record.drill ∨ t.muster.record.redirects ≠ s.muster.record.redirects →
          ∀ p ∈ t.sched.plates, p.target = targetFor s.node.state t.muster.record p)
      ∧ (s.muster.record.serial < o.serial → t.counters.orderConflicts = s.counters.orderConflicts)
      ∧ (o.serial = s.muster.record.serial →
          t.counters.orderConflicts = raised s.counters.orderConflicts ∧ eventSet .orderFault t = true)
      ∧ t.bus.musterQ = rest ∧ t.bus.timeQ = s.bus.timeQ ∧ t.bus.programmeQ = s.bus.programmeQ ∧ t.bus.routeQ = s.bus.routeQ
      ∧ t.time = s.time ∧ t.store = s.store ∧ t.node = s.node ∧ t.port = s.port ∧ t.supply = s.supply

/-- MUSTER_ORDER not adopted: refused by R110 with its count and ORDER FAULT and nothing raised; for another zone without a count; stale with its count alone; identical with no count; a conflict of no higher rank
with its count and ORDER FAULT. The record stands in each, an order of the current serial cancels a pending join-prompt echo (R116), and of the steady parts nothing else changes. -/
def Obligations.OtherOrdersLeaveTheRecord : Prop :=
  ∀ (f : RxFrame) (rest : List RxFrame) (s : State), s.bus.musterQ = f :: rest → f.kind = .musterOrder → participates s = true →
    let echo := if 3 ≤ f.payload.length ∧ rd16At f.payload 1 = s.muster.record.serial then none else s.muster.joinEcho
    let faulted := s.events.flags ||| Event.orderFault.mask ||| Event.transmitLoss.mask
    ∃ t, exec .musterOrder s = .next t ∧ t.bus.musterQ = rest ∧ t.time = s.time ∧ t.store = s.store ∧ t.node = s.node
      ∧ ((readOrder f.payload = none ∨ ∃ o, readOrder f.payload = some o ∧ orderOk s o = false) →
          t.muster.record = s.muster.record ∧ t.muster.highestSeen = s.muster.highestSeen
          ∧ t.counters.ordersRefused = raised s.counters.ordersRefused ∧ eventSet .orderFault t = true
          ∧ t.steady = { s.steady with
              musterQ := rest, joinEcho := echo, flags := faulted,
              counters := { s.counters with ordersRefused := raised s.counters.ordersRefused, queueRefusals := 0 } })
      ∧ ∀ o, readOrder f.payload = some o → orderOk s o = true →
          let seen := max s.muster.highestSeen o.serial
          t.muster.highestSeen = seen
          ∧ (inZone o.zones s = false → t.muster.record = s.muster.record ∧ t.counters.ordersStale = s.counters.ordersStale
              ∧ t.counters.orderConflicts = s.counters.orderConflicts
              ∧ t.steady = { s.steady with musterQ := rest, joinEcho := echo, highestSeen := seen })
          ∧ (inZone o.zones s = true → o.serial < s.muster.record.serial →
              t.muster.record = s.muster.record ∧ t.counters.ordersStale = raised s.counters.ordersStale
              ∧ t.steady = { s.steady with
                  musterQ := rest, joinEcho := echo, highestSeen := seen,
                  counters := { s.counters with ordersStale := raised s.counters.ordersStale, queueRefusals := 0 } })
          ∧ (inZone o.zones s = true → o.serial = s.muster.record.serial → identicalTo o s.muster.record = true →
              t.muster.record = s.muster.record ∧ t.counters.orderConflicts = s.counters.orderConflicts
              ∧ t.steady = { s.steady with musterQ := rest, joinEcho := echo, highestSeen := seen })
          ∧ (inZone o.zones s = true → o.serial = s.muster.record.serial → identicalTo o s.muster.record = false →
              o.level.rank ≤ s.muster.record.level.rank →
              t.muster.record = s.muster.record ∧ t.counters.orderConflicts = raised s.counters.orderConflicts
                ∧ eventSet .orderFault t = true
                ∧ t.steady = { s.steady with
                    musterQ := rest, joinEcho := echo, highestSeen := seen, flags := faulted,
                    counters := { s.counters with orderConflicts := raised s.counters.orderConflicts, queueRefusals := 0 } })

/-- STAND_DOWN_TIMER expired at STAND-DOWN: the record is NORMAL with lapsed yes and every other field kept, the timer stopped, LEVEL set, and every block of Table 7-3 has followed the level (`FollowsLevel`), in every node state.
ECHO_TIMER expired in RUN with a serial not 0 restarts at the level's period; JOIN_PROMPT_ECHO run out is no longer pending and leaves the echo timer. With room in the queue each has the current order standing to be
sent as an echo. Of the steady parts nothing else changes. -/
def Obligations.StandDownAndEchoTimers : Prop :=
  (
  ∀ s : State, timerDue s.muster.standDown s = true → s.muster.record.level = .standDown →
    ∃ t, exec .standDownTimer s = .next t
      ∧ t.muster.record = { s.muster.record with level := .normal, lapsed := true }
      ∧ t.muster.standDown = none ∧ eventSet .level t = true ∧ FollowsLevel s t ∧ t.muster.highestSeen = s.muster.highestSeen
      ∧ t.time = s.time ∧ t.store = s.store ∧ t.node = s.node ∧ t.port = s.port ∧ t.supply = s.supply)
  ∧ (
  (∀ s : State, timerDue s.muster.echoTimer s = true → s.node.state = .run → s.muster.record.serial ≠ 0 →
    ∃ t, exec .echoTimer s = .next t
      ∧ (s.queueSound → hasRoom .musterOrder s.bus.queue = true →
          t.stands ⟨.musterOrder, 255, s.bus.nextSeq, orderPayload s.muster.record.order true, [], false⟩)
      ∧ t.steady = { s.steady with
          echoTimer := some ⟨s.time.now, if s.muster.record.level = .normal then 60000 else 5000⟩ })
  ∧ ∀ s : State, timerDue s.muster.joinEcho s = true →
    ∃ t, exec .joinPromptEcho s = .next t
      ∧ (participates s = true → s.queueSound → hasRoom .musterOrder s.bus.queue = true →
          t.stands ⟨.musterOrder, 255, s.bus.nextSeq, orderPayload s.muster.record.order true, [], false⟩)
      ∧ t.steady = { s.steady with joinEcho := none })

/-- ISSUE_ORDER that passes Table 7-5 takes the serial one above highest-seen, is answered DONE with it and with whether the node adopted it, and is the record, with every field of the order, when the node's zone
is in its mask, and every block of Table 7-3 follows a changed level (`FollowsLevel`); with room for what a change of level offers too, it stands to be sent with the echo flag clear. Without the role, or outside the authority list, it is NOT PERMITTED; in JOINING NOT READY; with a level not one of the four, no zone, over four
redirects or one that fails R110, INVALID; with highest-seen 65535 EXHAUSTED. That a block of more than four redirects without their octets meets these checks of the owner's, and is not refused as short, is the model's choice (log entry 48). -/
def Obligations.IssueOrderTakesNextSerial : Prop :=
  ∀ (own : Nat) (args : List Octet) (s : State), participates s = true → s.port.state = .idle → issueArgsShort args = false →
    ownStation s = some own →
    let refused (status : Octet) : Prop := ∃ t, exec (.issueOrder args) s = .next t
      ∧ t.steady = { s.steady with port := { s.port with state := .ready, command := 0x0E :: args, response := [status] } }
    ((roles s).authority = false ∨ own ∉ s.muster.authorities → refused 0x02)
    ∧ ((roles s).authority = true → own ∈ s.muster.authorities →
      (s.node.state = .joining → refused 0x01)
      ∧ (s.node.state = .run →
        (levelOf ((octetAt args 0).toNat % 8) = none → refused 0x03)
        ∧ ∀ o, issuedOrder own args s = some o →
          (o.zones = 0 ∨ 4 < (octetAt args 1).toNat ∨ redirectsOk s.route.table o.redirects = false → refused 0x03)
          ∧ (o.zones ≠ 0 → (octetAt args 1).toNat ≤ 4 → redirectsOk s.route.table o.redirects = true →
            (s.muster.highestSeen = 65535 → refused 0x05)
            ∧ (s.muster.highestSeen < 65535 → s.muster.record.serial ≤ s.muster.highestSeen →
              ∃ t, exec (.issueOrder args) s = .next t
                ∧ t.muster.highestSeen = s.muster.highestSeen + 1
                ∧ t.port = { s.port with
                    state := .ready, command := 0x0E :: args,
                    response := 0x00 :: le16 (s.muster.highestSeen + 1) ++ [if inZone o.zones s then 1 else 0] }
                ∧ o = { authority := own, serial := s.muster.highestSeen + 1, level := o.level, drill := (octetAt args 0).getLsbD 3,
                        zones := rdHalf (octetAt args 2) (octetAt args 3),
                        issue := if s.time.isSet then some ⟨s.time.ship.day, s.time.ship.minute, s.time.ship.second⟩ else none,
                        redirects := o.redirects }
                ∧ (inZone o.zones s = true → t.muster.record =
                    { authority := some own, serial := s.muster.highestSeen + 1,
                      level := if givesLapsed s o then .normal else o.level, drill := o.drill,
                      zones := o.zones, issue := o.issue, redirects := o.redirects, lapsed := givesLapsed s o })
                ∧ (t.muster.record.level ≠ s.muster.record.level → eventSet .level t = true ∧ FollowsLevel s t)
                ∧ (inZone o.zones s = false → t.muster.record = s.muster.record)
                ∧ (s.bus.queue.length ≤ 2 → ∃ q, t.stands ⟨.musterOrder, 255, q, orderPayload o false, [], false⟩)))))

/-- CABIN_REPORT frees its slot. Without the CONSOLE role, or with a payload of a wrong length, the roll stands; a one-cabin report with every field a value puts the cabin in
the roll with the report's fields, its station and the time of receipt, if the roll knows the cabin or has room: in place of its entry, with ROLL when the sweep state, the occupancy or the health changed, or as a new entry in cabin order, with ROLL; no other flag but TRANSMIT LOSS changes (R124).
SWEEP_REFRESH_TIMER expired restarts at 30,000 ms; of the steady parts nothing else changes; outside JOINING and RUN, or while a report is outstanding, every plate's report is on the
pending list with its state at this moment. The report builder (R123), in JOINING or RUN with entries pending, none outstanding and no wait: on a sound queue with room a CABIN REPORT of the six oldest entries stands to be sent to the crew group,
those entries leave the list and a report is outstanding; with no room they are lost and the builder waits. It stands idle otherwise. At SWEEP_REFRESH_TIMER with an empty list the first six plates are so reported. -/
def Obligations.CabinsAreReportedAndKept : Prop :=
  (
  ∀ (f : RxFrame) (rest : List RxFrame) (s : State), s.bus.musterQ = f :: rest → f.kind = .cabinReport → participates s = true →
    ∃ t, exec .cabinReport s = .next t ∧ t.bus.musterQ = rest ∧ t.bus.timeQ = s.bus.timeQ ∧ t.bus.programmeQ = s.bus.programmeQ
      ∧ t.bus.routeQ = s.bus.routeQ ∧ t.muster.record = s.muster.record ∧ t.time = s.time ∧ t.store = s.store ∧ t.node = s.node
      ∧ ((roles s).console = false ∨ readCabins f.payload = none → t.muster.roll = s.muster.roll)
      ∧ ∀ (c : CabinRecord) (h : CabinHealth), (roles s).console = true → readCabins f.payload = some [c] → c.health = some h →
          1 ≤ c.cabin → c.cabin ≤ 9999 →
          (∀ e : RollEntry, e = ⟨c.cabin, c.swept, c.dnd, c.mur, h, f.source, secondNow s⟩ →
            (∃ q ∈ s.muster.roll, q.cabin = c.cabin) ∨ s.muster.roll.length < 256 → e ∈ t.muster.roll)
          ∧ (let e : RollEntry := ⟨c.cabin, c.swept, c.dnd, c.mur, h, f.source, secondNow s⟩
             let flagged (flags : Half) : Prop := t.events.flags ||| Event.transmitLoss.mask = flags ||| Event.transmitLoss.mask
             (∀ q, s.muster.roll.find? (·.cabin = c.cabin) = some q →
                t.muster.roll = s.muster.roll.map (fun r => if r.cabin = c.cabin then e else r)
                ∧ (c.swept ≠ q.swept ∨ c.dnd ≠ q.dnd ∨ c.mur ≠ q.mur ∨ h ≠ q.health →
                    eventSet .roll t = true ∧ flagged (s.events.flags ||| Event.roll.mask))
                ∧ (c.swept = q.swept → c.dnd = q.dnd → c.mur = q.mur → h = q.health → flagged s.events.flags))
              ∧ ((∀ q ∈ s.muster.roll, q.cabin ≠ c.cabin) → s.muster.roll.length < 256 →
                  eventSet .roll t = true ∧ flagged (s.events.flags ||| Event.roll.mask)
                  ∧ ∃ a b, s.muster.roll = a ++ b ∧ t.muster.roll = a ++ e :: b ∧ (∀ q ∈ a, q.cabin < c.cabin)
                      ∧ ∀ q, b.head? = some q → c.cabin < q.cabin))
          ∧ ((∀ q ∈ s.muster.roll, q.cabin ≠ c.cabin) → 256 ≤ s.muster.roll.length →
              t.muster.roll = s.muster.roll ∧ eventSet .rollFull t = true
                ∧ t.counters.rollRefusals = raised s.counters.rollRefusals))
  ∧ (
  ∀ s : State, timerDue s.muster.sweepRefresh s = true →
    ∃ t, exec .sweepRefreshTimer s = .next t
      ∧ t.steady = { s.steady with sweepRefresh := some { start := s.time.now, len := 30000 } }
      ∧ (participates s = false ∨ s.muster.reportOutstanding = true →
          ∀ i p, s.sched.plates[i]? = some p → reportFor i p ∈ t.muster.pendingReports))
  ∧ (
  ∀ s : State,
    let ready : Prop := participates s = true ∧ s.muster.pendingReports ≠ [] ∧ s.muster.reportOutstanding = false
      ∧ s.muster.builderWaits = false
    (ready → s.queueSound → hasRoom .cabinReport s.bus.queue = true →
      (settleReports s).stands ⟨.cabinReport, 128, s.bus.nextSeq, cabinPayload (s.muster.pendingReports.take 6), [], false⟩
        ∧ (settleReports s).muster = { s.muster with
            pendingReports := s.muster.pendingReports.drop 6, reportOutstanding := true, builderWaits := false })
    ∧ (ready → hasRoom .cabinReport s.bus.queue = false →
      (settleReports s).muster = { s.muster with
        pendingReports := s.muster.pendingReports.drop 6, reportOutstanding := false, builderWaits := true })
    ∧ (¬ ready → settleReports s = s))
  ∧ (
  ∀ s : State, timerDue s.muster.sweepRefresh s = true → participates s = true → s.muster.pendingReports = [] →
    s.muster.reportOutstanding = false → s.sched.plates ≠ [] → s.queueSound → hasRoom .cabinReport s.bus.queue = true →
    let reports := s.sched.plates.zipIdx.map fun p => reportFor p.2 p.1
    ∃ t, exec .sweepRefreshTimer s = .next t
      ∧ t.stands ⟨.cabinReport, 128, s.bus.nextSeq, cabinPayload (reports.take 6), [], false⟩
      ∧ t.muster.pendingReports = reports.drop 6 ∧ t.muster.reportOutstanding = true)

/-! ### Plate chain and refreshes -/

/-- POLL_DUE with a poll due at an IDLE engine that may start one: the poll of the plate due longest is on the chain, in START when BUSY reads asserted, and that plate's poll is no longer due.
BUSY_RELEASE_START: the transaction in START passes on at this moment; nothing else changes but BUSY as read, which a release in any other phase makes released (log entry 37).
A poll is started at an IDLE engine with no test pending, on a chain IN SERVICE, in JOINING, RUN or FAULT, and of the plates whose poll is due it is that of the plate due longest, the lowest position first (R131).
That a transaction passes to FINISH directly is the model's reading of the rows (log entry 8). -/
def Obligations.PollDueAndBusyRelease : Prop :=
  (
  ∀ (busy : Bool) (i : Nat) (s : State), duePoll s = some i →
    ∃ t, exec (.pollDue busy) s = .next t
      ∧ t.chain.engine = .transaction ⟨i, .poll, if busy then .start else .finish, s.time.now, s.time.now⟩
      ∧ (∀ p, t.sched.plates[i]? = some p → p.pollDue = none)
      ∧ t.steady = { s.steady with pins := { s.pins with busy := busy } })
  ∧ (
  ∀ (i : Nat) (s : State),
    let late (x : Timer) : Nat := (s.time.now - x.start).toNat - x.len
    let due (j : Nat) (x : Timer) : Prop := (s.sched.plates[j]?.bind (·.pollDue)) = some x ∧ x.len ≤ (s.time.now - x.start).toNat
    duePoll s = some i ↔
      (s.chain.engine = .idle ∧ s.chain.testPending = false ∧ s.chain.service = .inService
        ∧ (s.node.state = .joining ∨ s.node.state = .run ∨ s.node.state = .fault))
      ∧ ∃ x, due i x ∧ ∀ j y, due j y → late y < late x ∨ (late y = late x ∧ i ≤ j))
  ∧ (
  ∀ (tr : Transaction) (s : State), s.chain.engine = .transaction tr → tr.phase = .start →
    exec .busyReleaseStart s = .next { s with
      pins := { s.pins with busy := false },
      chain := { s.chain with engine := .transaction { tr with phase := .finish, phaseAt := s.time.now } } }
  ∧ ∀ s : State, (∀ tr, s.chain.engine = .transaction tr → tr.phase ≠ .start) →
    exec .busyReleaseStart s = .next { s with pins := { s.pins with busy := false } })

/-- CHAIN_STALL after 20 ms in START: OUT OF SERVICE with BUSY STUCK, CHAIN FAULT set, every plate NOT RESPONDING with no poll due (`PlatesLost`), no chain timeout counted.
CHAIN_TIMEOUT after 20 ms in FINISH: one chain timeout counted, a reset pulse of 1 ms begun, the service state kept. -/
def Obligations.BusyLimitsEndTransactions : Prop :=
  (
  ∀ (tr : Transaction) (s : State), s.chain.engine = .transaction tr → tr.phase = .start →
    20 ≤ (s.time.now - tr.phaseAt).toNat →
    ∃ t, exec .chainStall s = .next t
      ∧ t.chain.service = .outOfService ∧ t.chain.lastResult = .busyStuck ∧ eventSet .chainFault t = true
      ∧ (∀ p ∈ t.sched.plates, p.health = .notResponding ∧ p.pollDue = none) ∧ PlatesLost s t
      ∧ t.counters.chainTimeouts = s.counters.chainTimeouts
      ∧ t.time = s.time ∧ t.store = s.store ∧ t.mon = s.mon ∧ t.route = s.route ∧ t.node = s.node ∧ t.port = s.port)
  ∧ (
  ∀ (tr : Transaction) (s : State), s.chain.engine = .transaction tr → tr.phase = .finish →
    20 ≤ (s.time.now - tr.phaseAt).toNat →
    ∃ t, exec .chainTimeout s = .next t
      ∧ t.counters.chainTimeouts = raised s.counters.chainTimeouts
      ∧ t.chain.chainReset = true ∧ t.chain.pulse = some { start := s.time.now, len := 1 } ∧ t.chain.service = s.chain.service
      ∧ t.time = s.time ∧ t.store = s.store ∧ t.mon = s.mon ∧ t.route = s.route ∧ t.node = s.node ∧ t.port = s.port
      ∧ t.muster.record = s.muster.record)

/-- TRANSACTION_END of a poll: a sound reply gives the plate its readings, health RESPONDING, run 0 and the press state R136 gives; a bad reply below the third failure raises the run and leaves
the readings. By a sound reply a difference of the switches becomes the occupancy flags, with the target they give (R134, R154); a long press at MUSTER sweeps the plate and a short one unsweeps it, with SWEEP and the target, and an ignored
press is counted (R119, R136, R153); a short press elsewhere makes the shown content absent and is noted with a refresh in flight (R154); of a refresh in DRIVE the status DONE completes it and IDLE fails it (R150, R151). At MUSTER a change of the sweep
state or a switch, or a return, puts a report of the plate on the pending list, which the builder sends at once when it may (R120, R123); nothing else joins the list. By any reply the next poll falls due one period, 100 ms, or 2,000 ms when NOT RESPONDING,
after the ended one entered START (R133), unless that time has passed and the arbiter has started it. -/
def Obligations.PollEndsWithItsReadings : Prop :=
  ∀ (tr : Transaction) (p : Plate) (reply : List Octet) (s : State), s.chain.engine = .transaction tr → tr.phase = .finish →
    tr.op = .poll → s.sched.plates[tr.position]? = some p →
    ∃ t q, exec (.transactionEnd reply) s = .next t ∧ t.sched.plates[tr.position]? = some q
      ∧ (∀ r, readPoll reply = some r →
          q.health = .responding ∧ q.failureRun = 0 ∧ q.switchDnd = r.dnd ∧ q.switchMur = r.mur
            ∧ q.driveStatus = some r.drive ∧ q.press = (pressStep r.button p.press).1
            ∧ (p.health = .notResponding → eventSet .plate t = true))
      ∧ (∀ r, readPoll reply = some r →
          let taken := (pressStep r.button p.press).2
          let sameSwitches : Prop := p.switchDnd = r.dnd ∧ p.switchMur = r.mur
          let short : Prop := taken = .short ∧ level s ≠ .muster
          let driven : Option Refresh := (refreshOf tr.position s).filter (·.driveTimer.isSome)
          let told : Prop := level s = .muster ∧ (q.swept ≠ p.swept ∨ ¬ sameSwitches ∨ p.health = .notResponding)
          let report := reportFor tr.position { q with health := if p.health = .unknown then .unknown else .responding }
          (sameSwitches → q.dnd = p.dnd ∧ q.mur = p.mur)
          ∧ (¬ sameSwitches → q.dnd = r.dnd ∧ q.mur = r.mur ∧ q.target = targetFor s.node.state s.muster.record q)
          ∧ q.swept = (if level s = .muster then (match taken with | .long => true | .short => false | .nothing => p.swept | .ignored => p.swept)
              else p.swept)
          ∧ (q.swept ≠ p.swept → eventSet .sweep t = true ∧ q.target = targetFor s.node.state s.muster.record q)
          ∧ t.counters.ignoredPresses = (if taken = .ignored then raised s.counters.ignoredPresses else s.counters.ignoredPresses)
          ∧ (short → q.shown = none ∧ (refreshing s = true → q.refresh ≠ .idle))
          ∧ (¬ short → q.shown = match driven, r.drive with
              | some x, .done => if x.pressNoted then none else some (x.content, x.stamp)
              | some _, .idle => none
              | _, _ => p.shown)
          ∧ q.partialCount = (match driven, r.drive with
              | some x, .done => if x.full then 0 else p.partialCount + 1
              | _, _ => p.partialCount)
          ∧ (∀ x, driven = some x → r.drive = .driving → ∃ noted, (noted = true ↔ x.pressNoted = true ∨ short)
              ∧ refreshOf tr.position t = some { x with pressNoted := noted })
          ∧ (∀ x y, driven = some x → r.drive ≠ .driving → refreshOf tr.position t = some y → y.driveTimer = none ∧ y.next = .ident)
          ∧ (told → participates s = false ∨ s.muster.reportOutstanding = true → report ∈ t.muster.pendingReports)
          ∧ (told → participates s = true → s.muster.reportOutstanding = false → s.muster.pendingReports = [] → s.queueSound →
              hasRoom .cabinReport s.bus.queue = true →
              t.stands ⟨.cabinReport, 128, s.bus.nextSeq, cabinPayload [report], [], false⟩
                ∧ t.muster.pendingReports = [] ∧ t.muster.reportOutstanding = true)
          ∧ (¬ told → participates s = false ∨ s.muster.reportOutstanding = true → t.muster.pendingReports = s.muster.pendingReports))
      ∧ (q.pollDue = some { start := tr.startedAt, len := if q.health = .notResponding then 2000 else 100 }
          ∨ ((if q.health = .notResponding then 2000 else 100) ≤ (s.time.now - tr.startedAt).toNat ∧ q.pollDue = none
              ∧ t.chain.engine = .transaction ⟨tr.position, .poll, .finish, s.time.now, s.time.now⟩))
      ∧ (readPoll reply = none → t.counters.ignoredPresses = s.counters.ignoredPresses ∧ q.dnd = p.dnd ∧ q.mur = p.mur ∧ q.swept = p.swept)
      ∧ (readPoll reply = none → p.failureRun < 2 →
          q.health = p.health ∧ q.failureRun = p.failureRun + 1 ∧ q.switchDnd = p.switchDnd ∧ q.switchMur = p.switchMur
            ∧ q.driveStatus = p.driveStatus ∧ q.press = p.press)
      ∧ (readPoll reply = none → 2 ≤ p.failureRun → p.health ≠ .notResponding →
          q.health = .notResponding ∧ q.failureRun = 0 ∧ q.press = .released ∧ eventSet .plate t = true)
      ∧ t.time = s.time ∧ t.store = s.store ∧ t.mon = s.mon ∧ t.route = s.route ∧ t.node = s.node ∧ t.port = s.port
      ∧ t.muster.record = s.muster.record

/-- TRANSACTION_END of a LOAD transaction of a refresh in LOAD that is not cancelled: a sound reply to a CONTENT write makes the next write ready, a sound reply to the
DRIVE write enters DRIVE with the drive timer at 4,000 ms, and a bad reply below the third failure leaves the refresh as it stands with the run raised.
Of a refresh that is cancelled (R152): a CONTENT write of any outcome leaves LOAD with the shown content kept, a complete DRIVE write voids the cancellation and enters DRIVE, and a failed one leaves LOAD with the shown content absent; a refresh that leaves LOAD leaves
flight, and its plate is queued ahead of every entry, but for a plate that shows its target already, which R146 takes from the queue. What TRANSACTION_END leaves is this with the refreshes that may start after it. -/
def Obligations.LoadTransactionEnds : Prop :=
  (
  ∀ (tr : Transaction) (r : Refresh) (p : Plate) (reply : List Octet) (s : State),
    s.chain.engine = .transaction tr → tr.phase = .finish → tr.op ≠ .poll → s.sched.plates[tr.position]? = some p →
    refreshOf tr.position s = some r → r.driveTimer = none → r.cancelled = false →
    ∃ t q, exec (.transactionEnd reply) s = .next t ∧ t.sched.plates[tr.position]? = some q
      ∧ (writeReplyOk (writeOctets tr.op p.cabin r.content r.full) reply = true →
          q.health = .responding ∧ q.failureRun = 0
          ∧ refreshOf tr.position t = some (if r.next = .drive then { r with driveTimer := some ⟨s.time.now, 4000⟩ }
              else { r with next := r.next.following }))
      ∧ (writeReplyOk (writeOctets tr.op p.cabin r.content r.full) reply = false → p.failureRun < 2 →
          q.health = p.health ∧ q.failureRun = p.failureRun + 1 ∧ refreshOf tr.position t = some r)
      ∧ t.time = s.time ∧ t.store = s.store ∧ t.mon = s.mon ∧ t.route = s.route ∧ t.node = s.node ∧ t.port = s.port
      ∧ t.muster.record = s.muster.record)
  ∧ (
  ∀ (i : Nat) (ok : Bool) (r : Refresh) (p : Plate) (s : State), refreshOf i s = some r → r.driveTimer = none → r.cancelled = true →
    s.sched.plates[i]? = some p →
    let t := loadOutcome i ok s
    let shows : Prop := refreshing s = true ∧ p.shown.map (·.1) = some p.target
    (r.next ≠ .drive →
      t.sched.flight = s.sched.flight.filter (·.position ≠ i)
      ∧ (¬ shows → t.sched.queue = i :: s.sched.queue ∧ t.sched.plates[i]? = some { p with refresh := .queued })
      ∧ (shows → t.sched.queue = s.sched.queue.filter (· ≠ i) ∧ t.sched.plates[i]? = some { p with refresh := .idle }))
    ∧ (r.next = .drive → ok = true →
      refreshOf i t = some { r with driveTimer := some { start := s.time.now, len := 4000 }, cancelled := false }
      ∧ t.sched.queue = s.sched.queue ∧ t.sched.plates[i]? = some { p with refresh := .drive })
    ∧ (r.next = .drive → ok = false →
      t.sched.flight = s.sched.flight.filter (·.position ≠ i) ∧ t.sched.queue = i :: s.sched.queue
      ∧ t.sched.plates[i]? = some { p with shown := none, refresh := .queued }))
  ∧ (
  ∀ (tr : Transaction) (r : Refresh) (p : Plate) (reply : List Octet) (s : State),
    s.chain.engine = .transaction tr → tr.phase = .finish → tr.op ≠ .poll → s.sched.plates[tr.position]? = some p →
    refreshOf tr.position s = some r → r.driveTimer = none → r.cancelled = true →
    let sound := writeReplyOk (writeOctets tr.op p.cabin r.content r.full) reply
    ∃ t q, exec (.transactionEnd reply) s = .next t ∧ t.sched.plates[tr.position]? = some q
      ∧ (r.next = .drive → sound = true → q.shown = p.shown
          ∧ refreshOf tr.position t = some { r with driveTimer := some { start := s.time.now, len := 4000 }, cancelled := false })
      ∧ (r.next ≠ .drive → sound = true ∨ p.failureRun < 2 → q.shown = p.shown)
      ∧ (r.next = .drive → sound = false → q.shown = none)
      ∧ (r.next ≠ .drive ∨ sound = false → ∀ x, refreshOf tr.position t = some x → x.cancelled = false ∧ x.next = .ident))

/-- The press table of R136, with the classes of Table 8-5.
A press at MUSTER (R119): a long press sweeps a plate not swept, a short one unsweeps a swept one, each with SWEEP; the other two change nothing. At another level no
sweep state changes. An ignored press is counted and nothing else. That TRANSACTION_END applies this to the plate polled is said in PollEndsWithItsReadings. -/
def Obligations.PressesAreClassified : Prop :=
  (
  pressStep true .released = (.pressed 1, .nothing) ∧ pressStep false .released = (.released, .nothing)
  ∧ (∀ n, 1 ≤ n → n ≤ 13 → pressStep true (.pressed n) = (.pressed (n + 1), .nothing))
  ∧ pressStep true (.pressed 14) = (.latched, .long)
  ∧ pressStep false (.pressed 1) = (.released, .nothing)
  ∧ (∀ n, 2 ≤ n → n ≤ 10 → pressStep false (.pressed n) = (.released, .short))
  ∧ (∀ n, 11 ≤ n → n ≤ 14 → pressStep false (.pressed n) = (.released, .ignored))
  ∧ pressStep true .latched = (.latched, .nothing) ∧ pressStep false .latched = (.released, .nothing))
  ∧ (
  ∀ (i : Nat) (p : Plate) (s : State), s.sched.plates[i]? = some p →
    (level s = .muster →
      (p.swept = false → eventSet .sweep (pressReport i .long s) = true
        ∧ (pressReport i .long s).sched.plates[i]?.map (·.swept) = some true)
      ∧ (p.swept = true → pressReport i .long s = s)
      ∧ (p.swept = true → eventSet .sweep (pressReport i .short s) = true
        ∧ (pressReport i .short s).sched.plates[i]?.map (·.swept) = some false)
      ∧ (p.swept = false → pressReport i .short s = s))
    ∧ pressReport i .nothing s = s
    ∧ pressReport i .ignored s = { s with counters := { s.counters with ignoredPresses := raised s.counters.ignoredPresses } }
    ∧ (level s ≠ .muster → pressReport i .long s = s
        ∧ (pressReport i .short s).sched.plates[i]?.map (·.swept) = some p.swept))

/-- LINE_TEST_END with BUSY released, or still asserted after its wait: the result is the first step that fails, it is the last chain result, OK puts the chain IN SERVICE and any other OUT OF SERVICE with
CHAIN FAULT and every plate lost (`PlatesLost`); OK leaves the plates' health, press and shown content, and when the chain enters IN SERVICE every failure run is 0 and every poll falls due now, the first of which the arbiter may have started; on a chain IN SERVICE runs
and polls stand (R140). A waiting TEST CHAIN is answered DONE with the result; in CHAIN TEST the node enters JOINING, as every block does with it (`EntersJoining`, R162), and in every other node state the node, the routes, the Monitor and the time stand. That a release reported after the wait counts as in time is the model's choice (log entry 46). -/
def Obligations.LineTestEndGivesResult : Prop :=
  ∀ (busy low high : Bool) (tm : Timer) (s : State), s.chain.engine = .test (some tm) →
    (busy = false ∨ tm.expired s.time.now = true) →
    let r : ChainResult := if busy = true then .busyStuck else if low = true then .dataStuckHigh
      else if high = true then .dataStuckLow else .ok
    ∃ t, exec (.lineTestEnd busy low high) s = .next t
      ∧ t.chain.lastResult = r ∧ t.chain.service = (if r = .ok then .inService else .outOfService)
      ∧ (r ≠ .ok → eventSet .chainFault t = true ∧ PlatesLost s t)
      ∧ (r = .ok → ∀ i p, s.sched.plates[i]? = some p → ∃ q, t.sched.plates[i]? = some q
          ∧ q.health = p.health ∧ q.press = p.press ∧ q.shown = p.shown
          ∧ q.failureRun = (if s.chain.service = .inService then p.failureRun else 0)
          ∧ (q.pollDue = (if s.chain.service = .inService then p.pollDue else some { start := s.time.now, len := 0 })
              ∨ (q.pollDue = none ∧ t.chain.engine = .transaction ⟨i, .poll, .finish, s.time.now, s.time.now⟩)))
      ∧ (s.port.state = .busy → s.port.command.head? = some 0x10 →
          t.port = { s.port with state := .ready, response := [0x00, o8 r.code] })
      ∧ t.node.state = (if s.node.state = .chainTest then .joining else s.node.state)
      ∧ (s.node.state = .chainTest → EntersJoining s t)
      ∧ (s.node.state ≠ .chainTest → t.node = s.node ∧ t.route = s.route ∧ t.mon = s.mon ∧ t.time = s.time)
      ∧ t.node.config = s.node.config ∧ t.store = s.store ∧ t.supply = s.supply ∧ t.muster.record = s.muster.record

/-- TEST_CHAIN at an idle port in JOINING or RUN: with PLATES a test is pending and the port stays BUSY with the command; without, NOT PERMITTED. The request cancels the refreshes in LOAD (R139, R152): one whose transaction is on the chain stays, marked
cancelled; any other leaves LOAD at once, its plate's shown content kept, and its plate is queued ahead of every entry, but for one that shows its target already, which R146 takes from the queue. Refreshes in DRIVE go on.
That the shown content is kept also of a refresh whose DRIVE write has failed and stands ready again, for which two rows of R152 meet, is the model's choice (log entry 41).
CHAIN_RESET_PULSE_END after the 1 ms releases CHAIN RESET and, in TEST, starts the wait of 20 ms for BUSY; nothing else changes. LINE_TEST_START with a test pending, the engine IDLE and no refresh in LOAD starts the
test with a reset pulse; of the steady parts nothing else changes. -/
def Obligations.LineTestsAreStarted : Prop :=
  (
  ∀ (args : List Octet) (s : State), participates s = true → s.port.state = .idle →
    ((roles s).plates = true → ∃ t, exec (.testChain args) s = .next t
      ∧ t.steady = { s.steady with
          testPending := true, port := { s.port with state := .busy, command := 0x10 :: args, response := [] } }
      ∧ (∀ x ∈ t.sched.flight, x.driveTimer = none → x.cancelled = true ∧ onChain x.position s = true)
      ∧ ∀ x ∈ s.sched.flight, (∀ y ∈ s.sched.flight, y.position = x.position → y = x) →
          (x.driveTimer.isSome = true → x ∈ t.sched.flight)
          ∧ ∀ p, x.driveTimer = none → s.sched.plates[x.position]? = some p →
              let shows : Prop := refreshing s = true ∧ p.shown.map (·.1) = some p.target
              (onChain x.position s = true → { x with cancelled := true } ∈ t.sched.flight ∧ t.sched.plates[x.position]? = some p)
              ∧ (onChain x.position s = false → shows →
                  t.sched.plates[x.position]? = some { p with refresh := .idle } ∧ x.position ∉ t.sched.queue)
              ∧ (onChain x.position s = false → ¬ shows →
                  t.sched.plates[x.position]? = some { p with refresh := .queued } ∧ x.position ∈ t.sched.queue
                  ∧ (s.sched.flight.filter (·.driveTimer.isNone) = [x] → t.sched.queue = x.position :: s.sched.queue)))
    ∧ ((roles s).plates = false → ∃ t, exec (.testChain args) s = .next t
      ∧ t.steady = { s.steady with port := { s.port with state := .ready, command := 0x10 :: args, response := [0x02] } }))
  ∧ (
  (∀ s : State, timerDue s.chain.pulse s = true → exec .chainResetPulseEnd s = .next { s with chain := { s.chain with
      chainReset := false, pulse := none,
      engine := if s.chain.engine = .test none then .test (some { start := s.time.now, len := 20 }) else s.chain.engine } })
  ∧ ∀ s : State, s.chain.testPending = true → s.chain.engine = .idle → (∀ r ∈ s.sched.flight, r.driveTimer.isSome = true) →
    ∃ t, exec .lineTestStart s = .next t
      ∧ t.chain = { s.chain with
          engine := .test none, testPending := false, chainReset := true, pulse := some { start := s.time.now, len := 1 } }
      ∧ t.steady = { s.steady with testPending := false, chainReset := true, pulse := some { start := s.time.now, len := 1 } })

/-- DRIVE_TIMER after 4,000 ms in DRIVE: the refresh fails and leaves flight, and its plate's shown content is absent with its partial count as it stood; in RUN and FAULT the plate is queued, or started again at once
FULL (R148, R151). A poll's drive status (R150): DONE completes a refresh in DRIVE, which leaves flight with its loaded content shown, or none after a noted press, the partial count 0 after a FULL refresh and one more after a
PARTIAL one, the plate IDLE, or queued at the tail in RUN and FAULT when the target differs; IDLE fails it; DRIVING, and any status with no refresh in DRIVE, changes nothing. That TRANSACTION_END hands a poll's status over so is said in PollEndsWithItsReadings. -/
def Obligations.DriveTimerFailsRefresh : Prop :=
  (
  ∀ (i : Nat) (r : Refresh) (p : Plate) (s : State), refreshOf i s = some r → timerDue r.driveTimer s = true →
    s.sched.plates[i]? = some p →
    ∃ t q, exec (.driveTimer i) s = .next t ∧ t.sched.plates[i]? = some q
      ∧ q.shown = none ∧ q.partialCount = p.partialCount ∧ q.target = p.target
      ∧ (∀ x, refreshOf i t = some x → x.driveTimer = none ∧ x.full = true ∧ x.next = .ident ∧ x.content = p.target)
      ∧ (refreshing s = true → (q.refresh = .queued ∧ i ∈ t.sched.queue) ∨ (q.refresh = .load ∧ (refreshOf i t).isSome = true))
      ∧ (refreshing s = false → q.refresh = .idle ∧ refreshOf i t = none)
      ∧ t.steady = s.steady)
  ∧ (
  ∀ (i : Nat) (r : Refresh) (p : Plate) (s : State), refreshOf i s = some r → r.driveTimer.isSome = true →
    s.sched.plates[i]? = some p →
    (∃ q, (driveReading i .done s).sched.plates[i]? = some q
      ∧ q = { p with
          shown := if r.pressNoted then none else some (r.content, r.stamp),
          partialCount := if r.full then 0 else p.partialCount + 1,
          refresh := if refreshing s = true ∧ (r.pressNoted = true ∨ r.content ≠ p.target) then .queued else .idle }
      ∧ (driveReading i .done s).sched.flight = s.sched.flight.filter (·.position ≠ i)
      ∧ (driveReading i .done s).sched.queue = s.sched.queue ++ (if q.refresh = .queued then [i] else []))
    ∧ (∃ q, (driveReading i .idle s).sched.plates[i]? = some q
      ∧ q = { p with shown := none, refresh := if refreshing s = true then .queued else .idle }
      ∧ (driveReading i .idle s).sched.flight = s.sched.flight.filter (·.position ≠ i)
      ∧ (driveReading i .idle s).sched.queue = s.sched.queue ++ (if q.refresh = .queued then [i] else []))
    ∧ driveReading i .driving s = s)
  ∧ ∀ (i : Nat) (d : DriveStatus) (s : State), (∀ r, refreshOf i s = some r → r.driveTimer = none) → driveReading i d s = s

/-- The target of a plate (R145): layout by node state and level, the assigned code redirected once, drill and sweep marks in the mustering layouts alone, icons in every layout but OUT OF SERVICE. -/
def Obligations.TargetFollowsItsInputs : Prop :=
  ∀ (node : NodeState) (r : OrderRecord) (p : Plate),
    let c := targetFor node r p
    (c.layout = if node = .fault then .outOfService else match r.level with
      | .normal => .normal | .standby => .normal | .muster => .muster | .standDown => .standDown)
    ∧ (c.code = match r.redirects.find? (·.closed = p.assigned) with | some q => q.alternate | none => p.assigned)
    ∧ (c.drill = true ↔ (c.layout = .muster ∨ c.layout = .standDown) ∧ r.drill = true)
    ∧ (c.mark = if c.layout = .muster ∨ c.layout = .standDown then (if p.swept then .swept else .notSwept) else .none)
    ∧ (c.dnd = true ↔ c.layout ≠ .outOfService ∧ p.dnd = true) ∧ (c.mur = true ↔ c.layout ≠ .outOfService ∧ p.mur = true)

/-- The comparison of R146, in RUN and FAULT: an IDLE plate whose shown content is absent or differs from its target is queued at the tail, a QUEUED one whose contents agree leaves the queue, every other stands, as all do in the other node
states. The queue's order (R147): the entries of MUSTER priority, which those have at MUSTER whose shown content is absent or differs in layout, code, drill marker or sweep mark, before the others, each in join order. The start (R148): in RUN
or FAULT, with fewer refreshes in flight than the allowance (2 on MAINS, 1 at EMERGENCY and LOW, 0 at CRITICAL), the chain IN SERVICE and no test pending, the first entry in that order whose plate is not NOT RESPONDING starts with the target as it
stands, FULL when the shown content is absent or of another layout or the partial count is 19. The end of a step leaves none waiting that may start. -/
def Obligations.RefreshesAreQueuedAndStarted : Prop :=
  (∀ (i : Nat) (p : Plate) (s : State), s.sched.plates[i]? = some p →
    let differs : Prop := ∀ c stamp, p.shown = some (c, stamp) → c ≠ p.target
    (refreshing s = true → p.refresh = .idle → differs →
      (comparePlate i s).sched.queue = s.sched.queue ++ [i]
        ∧ (comparePlate i s).sched.plates[i]? = some { p with refresh := .queued })
    ∧ (refreshing s = true → p.refresh = .queued → ¬ differs →
      (comparePlate i s).sched.queue = s.sched.queue.filter (· ≠ i)
        ∧ (comparePlate i s).sched.plates[i]? = some { p with refresh := .idle })
    ∧ (refreshing s = false ∨ p.refresh = .load ∨ p.refresh = .drive ∨ (p.refresh = .queued ∧ differs) ∨ (p.refresh = .idle ∧ ¬ differs) →
      comparePlate i s = s))
  ∧ (∀ s : State,
    let muster (i : Nat) : Bool := match s.sched.plates[i]? with
      | none => false
      | some p => decide (level s = .muster) && match p.shown with
        | none => true
        | some (c, _) => decide (c.layout ≠ p.target.layout ∨ c.code ≠ p.target.code ∨ c.drill ≠ p.target.drill ∨ c.mark ≠ p.target.mark)
    queueOrder s = s.sched.queue.filter muster ++ s.sched.queue.filter (!muster ·))
  ∧ (∀ s : State,
    let allowed : Nat := match supplyState s with | .mains => 2 | .emergency => 1 | .low => 1 | .critical => 0
    let may : Prop := (s.node.state = .run ∨ s.node.state = .fault) ∧ s.sched.flight.length < allowed
      ∧ s.chain.service = .inService ∧ s.chain.testPending = false
    let answers (i : Nat) : Bool := match s.sched.plates[i]? with | some p => decide (p.health ≠ .notResponding) | none => false
    (∀ i p, may → (queueOrder s).find? answers = some i → s.sched.plates[i]? = some p →
      (startOne s).sched.queue = s.sched.queue.filter (· ≠ i)
      ∧ (startOne s).sched.plates[i]? = some { p with refresh := .load }
      ∧ ∃ full : Bool, (full = true ↔ (∀ c stamp, p.shown = some (c, stamp) → c.layout ≠ p.target.layout) ∨ p.partialCount = 19)
        ∧ (startOne s).sched.flight = s.sched.flight ++ [{
            position := i, content := p.target, stamp := p.targetStamp, full := full, next := .ident, driveTimer := none,
            cancelled := false, pressNoted := false }])
    ∧ ((¬ may ∨ (queueOrder s).find? answers = none) → startOne s = s))
  ∧ ∀ s : State, startAllowed (settle s) = true → ∀ i ∈ (settle s).sched.queue, startable (settle s) i = false

/-! ### Local port and events -/

/-- READ_EVENTS reports flags and OVERRUN, coded 0 clear and 1 set, which is the model's choice (log entry 51), and clears the flags named and OVERRUN; SET_EVENT_MASK replaces the enables and answers with them. Nothing else changes but the attention line, which either command leaves asserted when an enabled flag is set and either it stood so or the pacing has passed, and released otherwise (R172). -/
def Obligations.EventCommands : Prop :=
  ∀ (args : List Octet) (s : State), s.node.state ≠ .reset → s.port.state = .idle → 2 ≤ args.length →
    (∃ t, exec (.readEvents args) s = .next t
      ∧ t.events = { t.events with
          flags := s.events.flags &&& ~~~ rdHalf (octetAt args 0) (octetAt args 1), enables := s.events.enables }
      ∧ t.port = { s.port with
          state := .ready, command := 0x07 :: args, overrun := false,
          response := 0x00 :: half16 s.events.flags ++ [if s.port.overrun then 1 else 0] }
      ∧ t.events.attention = (enabledFlag t && (s.events.attention || pacingPassed s))
      ∧ t.events.lastAssert = (if s.events.attention = false ∧ t.events.attention = true then some s.time.now else s.events.lastAssert)
      ∧ { t with events := s.events, port := s.port } = s)
    ∧ (participates s = true → ∃ t, exec (.setEventMask args) s = .next t
      ∧ t.events = { t.events with flags := s.events.flags, enables := rdHalf (octetAt args 0) (octetAt args 1) }
      ∧ t.port = { s.port with
          state := .ready, command := 0x08 :: args, response := 0x00 :: half16 (rdHalf (octetAt args 0) (octetAt args 1)) }
      ∧ t.events.attention = (enabledFlag t && (s.events.attention || pacingPassed s))
      ∧ t.events.lastAssert = (if s.events.attention = false ∧ t.events.attention = true then some s.time.now else s.events.lastAssert)
      ∧ { t with events := s.events, port := s.port } = s)

/-- R170: READ_COUNTERS returns the 22 counters; CLEAR_COUNTERS returns them and sets each to 0, in JOINING and RUN; in LOADING, CHAIN TEST and FAULT it is NOT READY and clears none; all are 0 after a FULL RESET
and kept by a RESTART. -/
def Obligations.CountersAreReadAndCleared : Prop :=
  ∀ (args : List Octet) (cause : ResetCause) (s : State),
    (s.node.state ≠ .reset → s.port.state = .idle → exec (.readCounters args) s = .next { s with port := { s.port with
      state := .ready, command := 0x09 :: args, response := 0x00 :: (s.counters.list.map half16).flatten } })
    ∧ (participates s = true → s.port.state = .idle → exec (.clearCounters args) s = .next { s with
        counters := Counters.zero,
        port := { s.port with
          state := .ready, command := 0x0A :: args, response := 0x00 :: (s.counters.list.map half16).flatten } })
    ∧ (s.node.state = .loading ∨ s.node.state = .chainTest ∨ s.node.state = .fault → s.port.state = .idle →
        exec (.clearCounters args) s = .next { s with port := { s.port with
          state := .ready, command := 0x0A :: args, response := [0x01] } })
    ∧ (∃ t, exec (.fullReset cause) s = .next t ∧ t.counters.list = List.replicate 22 0)
    ∧ (s.node.state ≠ .reset → s.port.state = .idle → ∃ t, exec (.restart args) s = .next t ∧ t.counters = s.counters)

/-- In LOADING, CHAIN TEST and FAULT the idle port answers SET_EVENT_MASK, SET_TIME, PUBLISH_ITEM, WITHDRAW_ITEM, ISSUE_ORDER, DECLARE_SEGMENT and TEST_CHAIN NOT READY, before any check of the owner's, and nothing else changes (R167, R169). In JOINING and RUN a block shorter
than its command needs is INVALID, an ISSUE_ORDER of at most four redirects that lacks their octets among them; one that declares more goes to its owner, the model's choice (log entry 48).
UNKNOWN_COMMAND in LOADING, CHAIN TEST and FAULT: an unknown code is INVALID, a short block of a command that these states take is INVALID, and one of any other NOT READY (the order of those two is the model's, log entry 18).
UNKNOWN_COMMAND at an idle port in JOINING or RUN: a block whose code is 00h or above 11h, an empty one, or a short one is answered INVALID, and nothing else changes; a READ ROLL answered so carries the number of entries (R175).
COMMAND_OVERRUN outside RESET while the port is BUSY or READY sets OVERRUN and nothing else; RESPONSE_READ of a READY port returns it to IDLE; ATTENTION_PACING with an enabled flag set and the interval passed asserts
the line with the last assertion now. -/
def Obligations.BlocksAtThePort : Prop :=
  (
  ∀ (block : List Octet) (s : State), participates s = true → s.port.state = .idle →
    (match block with
     | [] => True
     | c :: args => c.toNat = 0 ∨ 0x11 < c.toNat ∨ (∃ n, argsNeeded c.toNat = some n ∧ args.length < n)
         ∨ (c.toNat = 0x0E ∧ (octetAt args 1).toNat ≤ 4 ∧ args.length < 4 + 4 * (octetAt args 1).toNat)) →
    exec (.unknownCommand block) s = .next { s with port := { s.port with
      state := .ready, command := block,
      response := if block.head? = some 0x06 then 0x03 :: le16 s.muster.roll.length else [0x03] } })
  ∧ (
  (∀ (block : List Octet) (s : State), s.node.state ≠ .reset → s.port.state ≠ .idle →
    exec (.commandOverrun block) s = .next { s with port := { s.port with overrun := true } })
  ∧ (∀ s : State, s.port.state = .ready →
    exec .responseRead s = .next { s with port := { s.port with state := .idle, response := [] } })
  ∧ ∀ s : State, s.node.state ≠ .reset → enabledFlag s = true → s.events.attention = false → pacingPassed s = true →
    exec .attentionPacing s = .next { s with events := { s.events with attention := true, lastAssert := some s.time.now } })
  ∧ (
  ∀ (c : Instr) (code : Octet) (args : List Octet) (s : State),
    (c, code) ∈ [(Instr.setEventMask args, (0x08 : Octet)), (.setTime args, 0x0B), (.publishItem args, 0x0C), (.withdrawItem args, 0x0D),
      (.issueOrder args, 0x0E), (.declareSegment args, 0x0F), (.testChain args, 0x10)] →
    (s.node.state = .loading ∨ s.node.state = .chainTest ∨ s.node.state = .fault) → s.port.state = .idle →
    ∃ t, exec c s = .next t
      ∧ t.steady = { s.steady with port := { s.port with state := .ready, command := code :: args, response := [0x01] } })
  ∧ (
  ∀ (c : Instr) (code : Octet) (n : Nat) (args : List Octet) (s : State),
    (c, code, n) ∈ [(Instr.readView args, (0x01 : Octet), 1), (.readItem args, 0x02, 3), (.readRoute args, 0x03, 1), (.queryRoute args, 0x04, 2),
      (.readPlate args, 0x05, 1), (.readEvents args, 0x07, 2), (.setEventMask args, 0x08, 2), (.setTime args, 0x0B, 7), (.publishItem args, 0x0C, 13),
      (.withdrawItem args, 0x0D, 2), (.issueOrder args, 0x0E, 4), (.declareSegment args, 0x0F, 3)] →
    participates s = true → s.port.state = .idle →
    (args.length < n ∨ (code = 0x0E ∧ (octetAt args 1).toNat ≤ 4 ∧ args.length < 4 + 4 * (octetAt args 1).toNat)) →
    ∃ t, exec c s = .next t
      ∧ t.steady = { s.steady with port := { s.port with state := .ready, command := code :: args, response := [0x03] } })
  ∧ (
  ∀ (block : List Octet) (s : State), (s.node.state = .loading ∨ s.node.state = .chainTest ∨ s.node.state = .fault) → s.port.state = .idle →
    let answered (response : List Octet) : State := { s with port := { s.port with state := .ready, command := block, response := response } }
    ((match block with | [] => True | c :: _ => c.toNat = 0 ∨ 0x11 < c.toNat) → exec (.unknownCommand block) s = .next (answered [0x03]))
    ∧ ∀ c args n, block = c :: args → argsNeeded c.toNat = some n → args.length < n →
        exec (.unknownCommand block) s = .next (answered (
          if c.toNat = 6 then 0x03 :: le16 s.muster.roll.length else if c.toNat ≤ 7 then [0x03] else [0x01])))

/-! ### Invariants -/

/-- The state after reset is sound in every sense of Safety. -/
def Obligations.ResetIsSound : Prop :=
  State.reset.orderSound ∧ State.reset.poolSound ∧ State.reset.queueSound ∧ State.reset.flightSound ∧ State.reset.attentionSound
    ∧ State.reset.lightsSound ∧ State.reset.attentionGiven

/-- Every step keeps the order sound: the serial never exceeds highest-seen, which stays within 65535;
while the serial is 0 the level is NORMAL and the authority absent; no alternate is closed by the same list. -/
def Obligations.StepKeepsOrderSound : Prop :=
  ∀ s t : State, s.orderSound → step s = .next t → t.orderSound

/-- Every step keeps the receive pool sound: at most 24 slots are held on the owner queues, and one is free while a kept frame is assembled. -/
def Obligations.StepKeepsPoolSound : Prop :=
  ∀ s t : State, s.poolSound → step s = .next t → t.poolSound

/-- Every step keeps the transmit queue sound: at most 8 frames, in class order, at most one of each single-instance kind. -/
def Obligations.StepKeepsQueueSound : Prop :=
  ∀ s t : State, s.queueSound → step s = .next t → t.queueSound

/-- Every step keeps at most 2 refreshes in LOAD or DRIVE.
Every step keeps the attention line sound: asserted only while an enabled flag is set.
Every step keeps the path lights sound (R104, R106): the channels stand as level, node state, redirects and routes give them.
R172 the other way: every step keeps the line given (`attentionGiven`), where a millisecond files the end of the pacing, the model's choice (log entry 2). No command leaves the line released outside RESET with an enabled flag set and the pacing passed, unless it found it so,
and a command that asserts it makes the last assertion now, the pacing having passed since the one before. -/
def Obligations.StepKeepsFlightAttentionAndLightsSound : Prop :=
  (
  ∀ s t : State, s.flightSound → step s = .next t → t.flightSound)
  ∧ (
  ∀ s t : State, s.attentionSound → step s = .next t → t.attentionSound)
  ∧ (
  ∀ s t : State, s.lightsSound → step s = .next t → t.lightsSound)
  ∧ (
  ∀ s t : State, s.attentionGiven → step s = .next t → t.attentionGiven)
  ∧ (
  ∀ (c : Instr) (s t : State), exec c s = .next t →
    ((s.node.state ≠ .reset → enabledFlag s = true → pacingPassed s = true → s.events.attention = true) →
      t.node.state ≠ .reset → enabledFlag t = true → pacingPassed t = true → t.events.attention = true)
    ∧ (s.events.attention = false → t.events.attention = true → t.events.lastAssert = some s.time.now
        ∧ pacingPassed { t with events := { t.events with lastAssert := s.events.lastAssert } } = true))

/-- No command and no state ends in a fault or a refusal. For a command whose occasion does not hold in the state that is the model's reading: it leaves the state as it is, but for an input level it brings (log entry 1). -/
def Obligations.NothingStops : Prop :=
  ∀ (c : Instr) (s : State), ∃ t, exec c s = .next t

end
end

