-- ==== Sys2Proof/Laws/State.lean ====
section
/-! SUPPORT. What each update of a block leaves and what it changes, one lemma per field per update. -/

namespace Sys2Proof.Machine

@[simp] theorem State.modTime_time (s : State) (f : Timebase → Timebase) : (s.modTime f).time = f s.time := rfl
@[simp] theorem State.modTime_bus (s : State) (f : Timebase → Timebase) : (s.modTime f).bus = s.bus := rfl
@[simp] theorem State.modTime_store (s : State) (f : Timebase → Timebase) : (s.modTime f).store = s.store := rfl
@[simp] theorem State.modTime_exch (s : State) (f : Timebase → Timebase) : (s.modTime f).exch = s.exch := rfl
@[simp] theorem State.modTime_mon (s : State) (f : Timebase → Timebase) : (s.modTime f).mon = s.mon := rfl
@[simp] theorem State.modTime_route (s : State) (f : Timebase → Timebase) : (s.modTime f).route = s.route := rfl
@[simp] theorem State.modTime_lights (s : State) (f : Timebase → Timebase) : (s.modTime f).lights = s.lights := rfl
@[simp] theorem State.modTime_muster (s : State) (f : Timebase → Timebase) : (s.modTime f).muster = s.muster := rfl
@[simp] theorem State.modTime_chain (s : State) (f : Timebase → Timebase) : (s.modTime f).chain = s.chain := rfl
@[simp] theorem State.modTime_sched (s : State) (f : Timebase → Timebase) : (s.modTime f).sched = s.sched := rfl
@[simp] theorem State.modTime_supply (s : State) (f : Timebase → Timebase) : (s.modTime f).supply = s.supply := rfl
@[simp] theorem State.modTime_node (s : State) (f : Timebase → Timebase) : (s.modTime f).node = s.node := rfl
@[simp] theorem State.modTime_port (s : State) (f : Timebase → Timebase) : (s.modTime f).port = s.port := rfl
@[simp] theorem State.modTime_events (s : State) (f : Timebase → Timebase) : (s.modTime f).events = s.events := rfl
@[simp] theorem State.modTime_counters (s : State) (f : Timebase → Timebase) : (s.modTime f).counters = s.counters := rfl
@[simp] theorem State.modTime_pins (s : State) (f : Timebase → Timebase) : (s.modTime f).pins = s.pins := rfl
@[simp] theorem State.modTime_free (s : State) (f : Timebase → Timebase) : (s.modTime f).free = s.free := rfl
@[simp] theorem State.modTime_pending (s : State) (f : Timebase → Timebase) : (s.modTime f).pending = s.pending := rfl

@[simp] theorem State.modBus_time (s : State) (f : ZoneBus → ZoneBus) : (s.modBus f).time = s.time := rfl
@[simp] theorem State.modBus_bus (s : State) (f : ZoneBus → ZoneBus) : (s.modBus f).bus = f s.bus := rfl
@[simp] theorem State.modBus_store (s : State) (f : ZoneBus → ZoneBus) : (s.modBus f).store = s.store := rfl
@[simp] theorem State.modBus_exch (s : State) (f : ZoneBus → ZoneBus) : (s.modBus f).exch = s.exch := rfl
@[simp] theorem State.modBus_mon (s : State) (f : ZoneBus → ZoneBus) : (s.modBus f).mon = s.mon := rfl
@[simp] theorem State.modBus_route (s : State) (f : ZoneBus → ZoneBus) : (s.modBus f).route = s.route := rfl
@[simp] theorem State.modBus_lights (s : State) (f : ZoneBus → ZoneBus) : (s.modBus f).lights = s.lights := rfl
@[simp] theorem State.modBus_muster (s : State) (f : ZoneBus → ZoneBus) : (s.modBus f).muster = s.muster := rfl
@[simp] theorem State.modBus_chain (s : State) (f : ZoneBus → ZoneBus) : (s.modBus f).chain = s.chain := rfl
@[simp] theorem State.modBus_sched (s : State) (f : ZoneBus → ZoneBus) : (s.modBus f).sched = s.sched := rfl
@[simp] theorem State.modBus_supply (s : State) (f : ZoneBus → ZoneBus) : (s.modBus f).supply = s.supply := rfl
@[simp] theorem State.modBus_node (s : State) (f : ZoneBus → ZoneBus) : (s.modBus f).node = s.node := rfl
@[simp] theorem State.modBus_port (s : State) (f : ZoneBus → ZoneBus) : (s.modBus f).port = s.port := rfl
@[simp] theorem State.modBus_events (s : State) (f : ZoneBus → ZoneBus) : (s.modBus f).events = s.events := rfl
@[simp] theorem State.modBus_counters (s : State) (f : ZoneBus → ZoneBus) : (s.modBus f).counters = s.counters := rfl
@[simp] theorem State.modBus_pins (s : State) (f : ZoneBus → ZoneBus) : (s.modBus f).pins = s.pins := rfl
@[simp] theorem State.modBus_free (s : State) (f : ZoneBus → ZoneBus) : (s.modBus f).free = s.free := rfl
@[simp] theorem State.modBus_pending (s : State) (f : ZoneBus → ZoneBus) : (s.modBus f).pending = s.pending := rfl

@[simp] theorem State.modStore_time (s : State) (f : Store → Store) : (s.modStore f).time = s.time := rfl
@[simp] theorem State.modStore_bus (s : State) (f : Store → Store) : (s.modStore f).bus = s.bus := rfl
@[simp] theorem State.modStore_store (s : State) (f : Store → Store) : (s.modStore f).store = f s.store := rfl
@[simp] theorem State.modStore_exch (s : State) (f : Store → Store) : (s.modStore f).exch = s.exch := rfl
@[simp] theorem State.modStore_mon (s : State) (f : Store → Store) : (s.modStore f).mon = s.mon := rfl
@[simp] theorem State.modStore_route (s : State) (f : Store → Store) : (s.modStore f).route = s.route := rfl
@[simp] theorem State.modStore_lights (s : State) (f : Store → Store) : (s.modStore f).lights = s.lights := rfl
@[simp] theorem State.modStore_muster (s : State) (f : Store → Store) : (s.modStore f).muster = s.muster := rfl
@[simp] theorem State.modStore_chain (s : State) (f : Store → Store) : (s.modStore f).chain = s.chain := rfl
@[simp] theorem State.modStore_sched (s : State) (f : Store → Store) : (s.modStore f).sched = s.sched := rfl
@[simp] theorem State.modStore_supply (s : State) (f : Store → Store) : (s.modStore f).supply = s.supply := rfl
@[simp] theorem State.modStore_node (s : State) (f : Store → Store) : (s.modStore f).node = s.node := rfl
@[simp] theorem State.modStore_port (s : State) (f : Store → Store) : (s.modStore f).port = s.port := rfl
@[simp] theorem State.modStore_events (s : State) (f : Store → Store) : (s.modStore f).events = s.events := rfl
@[simp] theorem State.modStore_counters (s : State) (f : Store → Store) : (s.modStore f).counters = s.counters := rfl
@[simp] theorem State.modStore_pins (s : State) (f : Store → Store) : (s.modStore f).pins = s.pins := rfl
@[simp] theorem State.modStore_free (s : State) (f : Store → Store) : (s.modStore f).free = s.free := rfl
@[simp] theorem State.modStore_pending (s : State) (f : Store → Store) : (s.modStore f).pending = s.pending := rfl

@[simp] theorem State.modExch_time (s : State) (f : Exchange → Exchange) : (s.modExch f).time = s.time := rfl
@[simp] theorem State.modExch_bus (s : State) (f : Exchange → Exchange) : (s.modExch f).bus = s.bus := rfl
@[simp] theorem State.modExch_store (s : State) (f : Exchange → Exchange) : (s.modExch f).store = s.store := rfl
@[simp] theorem State.modExch_exch (s : State) (f : Exchange → Exchange) : (s.modExch f).exch = f s.exch := rfl
@[simp] theorem State.modExch_mon (s : State) (f : Exchange → Exchange) : (s.modExch f).mon = s.mon := rfl
@[simp] theorem State.modExch_route (s : State) (f : Exchange → Exchange) : (s.modExch f).route = s.route := rfl
@[simp] theorem State.modExch_lights (s : State) (f : Exchange → Exchange) : (s.modExch f).lights = s.lights := rfl
@[simp] theorem State.modExch_muster (s : State) (f : Exchange → Exchange) : (s.modExch f).muster = s.muster := rfl
@[simp] theorem State.modExch_chain (s : State) (f : Exchange → Exchange) : (s.modExch f).chain = s.chain := rfl
@[simp] theorem State.modExch_sched (s : State) (f : Exchange → Exchange) : (s.modExch f).sched = s.sched := rfl
@[simp] theorem State.modExch_supply (s : State) (f : Exchange → Exchange) : (s.modExch f).supply = s.supply := rfl
@[simp] theorem State.modExch_node (s : State) (f : Exchange → Exchange) : (s.modExch f).node = s.node := rfl
@[simp] theorem State.modExch_port (s : State) (f : Exchange → Exchange) : (s.modExch f).port = s.port := rfl
@[simp] theorem State.modExch_events (s : State) (f : Exchange → Exchange) : (s.modExch f).events = s.events := rfl
@[simp] theorem State.modExch_counters (s : State) (f : Exchange → Exchange) : (s.modExch f).counters = s.counters := rfl
@[simp] theorem State.modExch_pins (s : State) (f : Exchange → Exchange) : (s.modExch f).pins = s.pins := rfl
@[simp] theorem State.modExch_free (s : State) (f : Exchange → Exchange) : (s.modExch f).free = s.free := rfl
@[simp] theorem State.modExch_pending (s : State) (f : Exchange → Exchange) : (s.modExch f).pending = s.pending := rfl

@[simp] theorem State.modMon_time (s : State) (f : Monitor → Monitor) : (s.modMon f).time = s.time := rfl
@[simp] theorem State.modMon_bus (s : State) (f : Monitor → Monitor) : (s.modMon f).bus = s.bus := rfl
@[simp] theorem State.modMon_store (s : State) (f : Monitor → Monitor) : (s.modMon f).store = s.store := rfl
@[simp] theorem State.modMon_exch (s : State) (f : Monitor → Monitor) : (s.modMon f).exch = s.exch := rfl
@[simp] theorem State.modMon_mon (s : State) (f : Monitor → Monitor) : (s.modMon f).mon = f s.mon := rfl
@[simp] theorem State.modMon_route (s : State) (f : Monitor → Monitor) : (s.modMon f).route = s.route := rfl
@[simp] theorem State.modMon_lights (s : State) (f : Monitor → Monitor) : (s.modMon f).lights = s.lights := rfl
@[simp] theorem State.modMon_muster (s : State) (f : Monitor → Monitor) : (s.modMon f).muster = s.muster := rfl
@[simp] theorem State.modMon_chain (s : State) (f : Monitor → Monitor) : (s.modMon f).chain = s.chain := rfl
@[simp] theorem State.modMon_sched (s : State) (f : Monitor → Monitor) : (s.modMon f).sched = s.sched := rfl
@[simp] theorem State.modMon_supply (s : State) (f : Monitor → Monitor) : (s.modMon f).supply = s.supply := rfl
@[simp] theorem State.modMon_node (s : State) (f : Monitor → Monitor) : (s.modMon f).node = s.node := rfl
@[simp] theorem State.modMon_port (s : State) (f : Monitor → Monitor) : (s.modMon f).port = s.port := rfl
@[simp] theorem State.modMon_events (s : State) (f : Monitor → Monitor) : (s.modMon f).events = s.events := rfl
@[simp] theorem State.modMon_counters (s : State) (f : Monitor → Monitor) : (s.modMon f).counters = s.counters := rfl
@[simp] theorem State.modMon_pins (s : State) (f : Monitor → Monitor) : (s.modMon f).pins = s.pins := rfl
@[simp] theorem State.modMon_free (s : State) (f : Monitor → Monitor) : (s.modMon f).free = s.free := rfl
@[simp] theorem State.modMon_pending (s : State) (f : Monitor → Monitor) : (s.modMon f).pending = s.pending := rfl

@[simp] theorem State.modRoute_time (s : State) (f : RouteEngine → RouteEngine) : (s.modRoute f).time = s.time := rfl
@[simp] theorem State.modRoute_bus (s : State) (f : RouteEngine → RouteEngine) : (s.modRoute f).bus = s.bus := rfl
@[simp] theorem State.modRoute_store (s : State) (f : RouteEngine → RouteEngine) : (s.modRoute f).store = s.store := rfl
@[simp] theorem State.modRoute_exch (s : State) (f : RouteEngine → RouteEngine) : (s.modRoute f).exch = s.exch := rfl
@[simp] theorem State.modRoute_mon (s : State) (f : RouteEngine → RouteEngine) : (s.modRoute f).mon = s.mon := rfl
@[simp] theorem State.modRoute_route (s : State) (f : RouteEngine → RouteEngine) : (s.modRoute f).route = f s.route := rfl
@[simp] theorem State.modRoute_lights (s : State) (f : RouteEngine → RouteEngine) : (s.modRoute f).lights = s.lights := rfl
@[simp] theorem State.modRoute_muster (s : State) (f : RouteEngine → RouteEngine) : (s.modRoute f).muster = s.muster := rfl
@[simp] theorem State.modRoute_chain (s : State) (f : RouteEngine → RouteEngine) : (s.modRoute f).chain = s.chain := rfl
@[simp] theorem State.modRoute_sched (s : State) (f : RouteEngine → RouteEngine) : (s.modRoute f).sched = s.sched := rfl
@[simp] theorem State.modRoute_supply (s : State) (f : RouteEngine → RouteEngine) : (s.modRoute f).supply = s.supply := rfl
@[simp] theorem State.modRoute_node (s : State) (f : RouteEngine → RouteEngine) : (s.modRoute f).node = s.node := rfl
@[simp] theorem State.modRoute_port (s : State) (f : RouteEngine → RouteEngine) : (s.modRoute f).port = s.port := rfl
@[simp] theorem State.modRoute_events (s : State) (f : RouteEngine → RouteEngine) : (s.modRoute f).events = s.events := rfl
@[simp] theorem State.modRoute_counters (s : State) (f : RouteEngine → RouteEngine) : (s.modRoute f).counters = s.counters := rfl
@[simp] theorem State.modRoute_pins (s : State) (f : RouteEngine → RouteEngine) : (s.modRoute f).pins = s.pins := rfl
@[simp] theorem State.modRoute_free (s : State) (f : RouteEngine → RouteEngine) : (s.modRoute f).free = s.free := rfl
@[simp] theorem State.modRoute_pending (s : State) (f : RouteEngine → RouteEngine) : (s.modRoute f).pending = s.pending := rfl

@[simp] theorem State.modLights_time (s : State) (f : PathLights → PathLights) : (s.modLights f).time = s.time := rfl
@[simp] theorem State.modLights_bus (s : State) (f : PathLights → PathLights) : (s.modLights f).bus = s.bus := rfl
@[simp] theorem State.modLights_store (s : State) (f : PathLights → PathLights) : (s.modLights f).store = s.store := rfl
@[simp] theorem State.modLights_exch (s : State) (f : PathLights → PathLights) : (s.modLights f).exch = s.exch := rfl
@[simp] theorem State.modLights_mon (s : State) (f : PathLights → PathLights) : (s.modLights f).mon = s.mon := rfl
@[simp] theorem State.modLights_route (s : State) (f : PathLights → PathLights) : (s.modLights f).route = s.route := rfl
@[simp] theorem State.modLights_lights (s : State) (f : PathLights → PathLights) : (s.modLights f).lights = f s.lights := rfl
@[simp] theorem State.modLights_muster (s : State) (f : PathLights → PathLights) : (s.modLights f).muster = s.muster := rfl
@[simp] theorem State.modLights_chain (s : State) (f : PathLights → PathLights) : (s.modLights f).chain = s.chain := rfl
@[simp] theorem State.modLights_sched (s : State) (f : PathLights → PathLights) : (s.modLights f).sched = s.sched := rfl
@[simp] theorem State.modLights_supply (s : State) (f : PathLights → PathLights) : (s.modLights f).supply = s.supply := rfl
@[simp] theorem State.modLights_node (s : State) (f : PathLights → PathLights) : (s.modLights f).node = s.node := rfl
@[simp] theorem State.modLights_port (s : State) (f : PathLights → PathLights) : (s.modLights f).port = s.port := rfl
@[simp] theorem State.modLights_events (s : State) (f : PathLights → PathLights) : (s.modLights f).events = s.events := rfl
@[simp] theorem State.modLights_counters (s : State) (f : PathLights → PathLights) : (s.modLights f).counters = s.counters := rfl
@[simp] theorem State.modLights_pins (s : State) (f : PathLights → PathLights) : (s.modLights f).pins = s.pins := rfl
@[simp] theorem State.modLights_free (s : State) (f : PathLights → PathLights) : (s.modLights f).free = s.free := rfl
@[simp] theorem State.modLights_pending (s : State) (f : PathLights → PathLights) : (s.modLights f).pending = s.pending := rfl

@[simp] theorem State.modMuster_time (s : State) (f : MusterControl → MusterControl) : (s.modMuster f).time = s.time := rfl
@[simp] theorem State.modMuster_bus (s : State) (f : MusterControl → MusterControl) : (s.modMuster f).bus = s.bus := rfl
@[simp] theorem State.modMuster_store (s : State) (f : MusterControl → MusterControl) : (s.modMuster f).store = s.store := rfl
@[simp] theorem State.modMuster_exch (s : State) (f : MusterControl → MusterControl) : (s.modMuster f).exch = s.exch := rfl
@[simp] theorem State.modMuster_mon (s : State) (f : MusterControl → MusterControl) : (s.modMuster f).mon = s.mon := rfl
@[simp] theorem State.modMuster_route (s : State) (f : MusterControl → MusterControl) : (s.modMuster f).route = s.route := rfl
@[simp] theorem State.modMuster_lights (s : State) (f : MusterControl → MusterControl) : (s.modMuster f).lights = s.lights := rfl
@[simp] theorem State.modMuster_muster (s : State) (f : MusterControl → MusterControl) : (s.modMuster f).muster = f s.muster := rfl
@[simp] theorem State.modMuster_chain (s : State) (f : MusterControl → MusterControl) : (s.modMuster f).chain = s.chain := rfl
@[simp] theorem State.modMuster_sched (s : State) (f : MusterControl → MusterControl) : (s.modMuster f).sched = s.sched := rfl
@[simp] theorem State.modMuster_supply (s : State) (f : MusterControl → MusterControl) : (s.modMuster f).supply = s.supply := rfl
@[simp] theorem State.modMuster_node (s : State) (f : MusterControl → MusterControl) : (s.modMuster f).node = s.node := rfl
@[simp] theorem State.modMuster_port (s : State) (f : MusterControl → MusterControl) : (s.modMuster f).port = s.port := rfl
@[simp] theorem State.modMuster_events (s : State) (f : MusterControl → MusterControl) : (s.modMuster f).events = s.events := rfl
@[simp] theorem State.modMuster_counters (s : State) (f : MusterControl → MusterControl) : (s.modMuster f).counters = s.counters := rfl
@[simp] theorem State.modMuster_pins (s : State) (f : MusterControl → MusterControl) : (s.modMuster f).pins = s.pins := rfl
@[simp] theorem State.modMuster_free (s : State) (f : MusterControl → MusterControl) : (s.modMuster f).free = s.free := rfl
@[simp] theorem State.modMuster_pending (s : State) (f : MusterControl → MusterControl) : (s.modMuster f).pending = s.pending := rfl

@[simp] theorem State.modChain_time (s : State) (f : ChainControl → ChainControl) : (s.modChain f).time = s.time := rfl
@[simp] theorem State.modChain_bus (s : State) (f : ChainControl → ChainControl) : (s.modChain f).bus = s.bus := rfl
@[simp] theorem State.modChain_store (s : State) (f : ChainControl → ChainControl) : (s.modChain f).store = s.store := rfl
@[simp] theorem State.modChain_exch (s : State) (f : ChainControl → ChainControl) : (s.modChain f).exch = s.exch := rfl
@[simp] theorem State.modChain_mon (s : State) (f : ChainControl → ChainControl) : (s.modChain f).mon = s.mon := rfl
@[simp] theorem State.modChain_route (s : State) (f : ChainControl → ChainControl) : (s.modChain f).route = s.route := rfl
@[simp] theorem State.modChain_lights (s : State) (f : ChainControl → ChainControl) : (s.modChain f).lights = s.lights := rfl
@[simp] theorem State.modChain_muster (s : State) (f : ChainControl → ChainControl) : (s.modChain f).muster = s.muster := rfl
@[simp] theorem State.modChain_chain (s : State) (f : ChainControl → ChainControl) : (s.modChain f).chain = f s.chain := rfl
@[simp] theorem State.modChain_sched (s : State) (f : ChainControl → ChainControl) : (s.modChain f).sched = s.sched := rfl
@[simp] theorem State.modChain_supply (s : State) (f : ChainControl → ChainControl) : (s.modChain f).supply = s.supply := rfl
@[simp] theorem State.modChain_node (s : State) (f : ChainControl → ChainControl) : (s.modChain f).node = s.node := rfl
@[simp] theorem State.modChain_port (s : State) (f : ChainControl → ChainControl) : (s.modChain f).port = s.port := rfl
@[simp] theorem State.modChain_events (s : State) (f : ChainControl → ChainControl) : (s.modChain f).events = s.events := rfl
@[simp] theorem State.modChain_counters (s : State) (f : ChainControl → ChainControl) : (s.modChain f).counters = s.counters := rfl
@[simp] theorem State.modChain_pins (s : State) (f : ChainControl → ChainControl) : (s.modChain f).pins = s.pins := rfl
@[simp] theorem State.modChain_free (s : State) (f : ChainControl → ChainControl) : (s.modChain f).free = s.free := rfl
@[simp] theorem State.modChain_pending (s : State) (f : ChainControl → ChainControl) : (s.modChain f).pending = s.pending := rfl

@[simp] theorem State.modSched_time (s : State) (f : Scheduler → Scheduler) : (s.modSched f).time = s.time := rfl
@[simp] theorem State.modSched_bus (s : State) (f : Scheduler → Scheduler) : (s.modSched f).bus = s.bus := rfl
@[simp] theorem State.modSched_store (s : State) (f : Scheduler → Scheduler) : (s.modSched f).store = s.store := rfl
@[simp] theorem State.modSched_exch (s : State) (f : Scheduler → Scheduler) : (s.modSched f).exch = s.exch := rfl
@[simp] theorem State.modSched_mon (s : State) (f : Scheduler → Scheduler) : (s.modSched f).mon = s.mon := rfl
@[simp] theorem State.modSched_route (s : State) (f : Scheduler → Scheduler) : (s.modSched f).route = s.route := rfl
@[simp] theorem State.modSched_lights (s : State) (f : Scheduler → Scheduler) : (s.modSched f).lights = s.lights := rfl
@[simp] theorem State.modSched_muster (s : State) (f : Scheduler → Scheduler) : (s.modSched f).muster = s.muster := rfl
@[simp] theorem State.modSched_chain (s : State) (f : Scheduler → Scheduler) : (s.modSched f).chain = s.chain := rfl
@[simp] theorem State.modSched_sched (s : State) (f : Scheduler → Scheduler) : (s.modSched f).sched = f s.sched := rfl
@[simp] theorem State.modSched_supply (s : State) (f : Scheduler → Scheduler) : (s.modSched f).supply = s.supply := rfl
@[simp] theorem State.modSched_node (s : State) (f : Scheduler → Scheduler) : (s.modSched f).node = s.node := rfl
@[simp] theorem State.modSched_port (s : State) (f : Scheduler → Scheduler) : (s.modSched f).port = s.port := rfl
@[simp] theorem State.modSched_events (s : State) (f : Scheduler → Scheduler) : (s.modSched f).events = s.events := rfl
@[simp] theorem State.modSched_counters (s : State) (f : Scheduler → Scheduler) : (s.modSched f).counters = s.counters := rfl
@[simp] theorem State.modSched_pins (s : State) (f : Scheduler → Scheduler) : (s.modSched f).pins = s.pins := rfl
@[simp] theorem State.modSched_free (s : State) (f : Scheduler → Scheduler) : (s.modSched f).free = s.free := rfl
@[simp] theorem State.modSched_pending (s : State) (f : Scheduler → Scheduler) : (s.modSched f).pending = s.pending := rfl

@[simp] theorem State.modSupply_time (s : State) (f : Supply → Supply) : (s.modSupply f).time = s.time := rfl
@[simp] theorem State.modSupply_bus (s : State) (f : Supply → Supply) : (s.modSupply f).bus = s.bus := rfl
@[simp] theorem State.modSupply_store (s : State) (f : Supply → Supply) : (s.modSupply f).store = s.store := rfl
@[simp] theorem State.modSupply_exch (s : State) (f : Supply → Supply) : (s.modSupply f).exch = s.exch := rfl
@[simp] theorem State.modSupply_mon (s : State) (f : Supply → Supply) : (s.modSupply f).mon = s.mon := rfl
@[simp] theorem State.modSupply_route (s : State) (f : Supply → Supply) : (s.modSupply f).route = s.route := rfl
@[simp] theorem State.modSupply_lights (s : State) (f : Supply → Supply) : (s.modSupply f).lights = s.lights := rfl
@[simp] theorem State.modSupply_muster (s : State) (f : Supply → Supply) : (s.modSupply f).muster = s.muster := rfl
@[simp] theorem State.modSupply_chain (s : State) (f : Supply → Supply) : (s.modSupply f).chain = s.chain := rfl
@[simp] theorem State.modSupply_sched (s : State) (f : Supply → Supply) : (s.modSupply f).sched = s.sched := rfl
@[simp] theorem State.modSupply_supply (s : State) (f : Supply → Supply) : (s.modSupply f).supply = f s.supply := rfl
@[simp] theorem State.modSupply_node (s : State) (f : Supply → Supply) : (s.modSupply f).node = s.node := rfl
@[simp] theorem State.modSupply_port (s : State) (f : Supply → Supply) : (s.modSupply f).port = s.port := rfl
@[simp] theorem State.modSupply_events (s : State) (f : Supply → Supply) : (s.modSupply f).events = s.events := rfl
@[simp] theorem State.modSupply_counters (s : State) (f : Supply → Supply) : (s.modSupply f).counters = s.counters := rfl
@[simp] theorem State.modSupply_pins (s : State) (f : Supply → Supply) : (s.modSupply f).pins = s.pins := rfl
@[simp] theorem State.modSupply_free (s : State) (f : Supply → Supply) : (s.modSupply f).free = s.free := rfl
@[simp] theorem State.modSupply_pending (s : State) (f : Supply → Supply) : (s.modSupply f).pending = s.pending := rfl

@[simp] theorem State.modNode_time (s : State) (f : Sequencer → Sequencer) : (s.modNode f).time = s.time := rfl
@[simp] theorem State.modNode_bus (s : State) (f : Sequencer → Sequencer) : (s.modNode f).bus = s.bus := rfl
@[simp] theorem State.modNode_store (s : State) (f : Sequencer → Sequencer) : (s.modNode f).store = s.store := rfl
@[simp] theorem State.modNode_exch (s : State) (f : Sequencer → Sequencer) : (s.modNode f).exch = s.exch := rfl
@[simp] theorem State.modNode_mon (s : State) (f : Sequencer → Sequencer) : (s.modNode f).mon = s.mon := rfl
@[simp] theorem State.modNode_route (s : State) (f : Sequencer → Sequencer) : (s.modNode f).route = s.route := rfl
@[simp] theorem State.modNode_lights (s : State) (f : Sequencer → Sequencer) : (s.modNode f).lights = s.lights := rfl
@[simp] theorem State.modNode_muster (s : State) (f : Sequencer → Sequencer) : (s.modNode f).muster = s.muster := rfl
@[simp] theorem State.modNode_chain (s : State) (f : Sequencer → Sequencer) : (s.modNode f).chain = s.chain := rfl
@[simp] theorem State.modNode_sched (s : State) (f : Sequencer → Sequencer) : (s.modNode f).sched = s.sched := rfl
@[simp] theorem State.modNode_supply (s : State) (f : Sequencer → Sequencer) : (s.modNode f).supply = s.supply := rfl
@[simp] theorem State.modNode_node (s : State) (f : Sequencer → Sequencer) : (s.modNode f).node = f s.node := rfl
@[simp] theorem State.modNode_port (s : State) (f : Sequencer → Sequencer) : (s.modNode f).port = s.port := rfl
@[simp] theorem State.modNode_events (s : State) (f : Sequencer → Sequencer) : (s.modNode f).events = s.events := rfl
@[simp] theorem State.modNode_counters (s : State) (f : Sequencer → Sequencer) : (s.modNode f).counters = s.counters := rfl
@[simp] theorem State.modNode_pins (s : State) (f : Sequencer → Sequencer) : (s.modNode f).pins = s.pins := rfl
@[simp] theorem State.modNode_free (s : State) (f : Sequencer → Sequencer) : (s.modNode f).free = s.free := rfl
@[simp] theorem State.modNode_pending (s : State) (f : Sequencer → Sequencer) : (s.modNode f).pending = s.pending := rfl

@[simp] theorem State.modPort_time (s : State) (f : LocalPort → LocalPort) : (s.modPort f).time = s.time := rfl
@[simp] theorem State.modPort_bus (s : State) (f : LocalPort → LocalPort) : (s.modPort f).bus = s.bus := rfl
@[simp] theorem State.modPort_store (s : State) (f : LocalPort → LocalPort) : (s.modPort f).store = s.store := rfl
@[simp] theorem State.modPort_exch (s : State) (f : LocalPort → LocalPort) : (s.modPort f).exch = s.exch := rfl
@[simp] theorem State.modPort_mon (s : State) (f : LocalPort → LocalPort) : (s.modPort f).mon = s.mon := rfl
@[simp] theorem State.modPort_route (s : State) (f : LocalPort → LocalPort) : (s.modPort f).route = s.route := rfl
@[simp] theorem State.modPort_lights (s : State) (f : LocalPort → LocalPort) : (s.modPort f).lights = s.lights := rfl
@[simp] theorem State.modPort_muster (s : State) (f : LocalPort → LocalPort) : (s.modPort f).muster = s.muster := rfl
@[simp] theorem State.modPort_chain (s : State) (f : LocalPort → LocalPort) : (s.modPort f).chain = s.chain := rfl
@[simp] theorem State.modPort_sched (s : State) (f : LocalPort → LocalPort) : (s.modPort f).sched = s.sched := rfl
@[simp] theorem State.modPort_supply (s : State) (f : LocalPort → LocalPort) : (s.modPort f).supply = s.supply := rfl
@[simp] theorem State.modPort_node (s : State) (f : LocalPort → LocalPort) : (s.modPort f).node = s.node := rfl
@[simp] theorem State.modPort_port (s : State) (f : LocalPort → LocalPort) : (s.modPort f).port = f s.port := rfl
@[simp] theorem State.modPort_events (s : State) (f : LocalPort → LocalPort) : (s.modPort f).events = s.events := rfl
@[simp] theorem State.modPort_counters (s : State) (f : LocalPort → LocalPort) : (s.modPort f).counters = s.counters := rfl
@[simp] theorem State.modPort_pins (s : State) (f : LocalPort → LocalPort) : (s.modPort f).pins = s.pins := rfl
@[simp] theorem State.modPort_free (s : State) (f : LocalPort → LocalPort) : (s.modPort f).free = s.free := rfl
@[simp] theorem State.modPort_pending (s : State) (f : LocalPort → LocalPort) : (s.modPort f).pending = s.pending := rfl

@[simp] theorem State.modEvents_time (s : State) (f : EventUnit → EventUnit) : (s.modEvents f).time = s.time := rfl
@[simp] theorem State.modEvents_bus (s : State) (f : EventUnit → EventUnit) : (s.modEvents f).bus = s.bus := rfl
@[simp] theorem State.modEvents_store (s : State) (f : EventUnit → EventUnit) : (s.modEvents f).store = s.store := rfl
@[simp] theorem State.modEvents_exch (s : State) (f : EventUnit → EventUnit) : (s.modEvents f).exch = s.exch := rfl
@[simp] theorem State.modEvents_mon (s : State) (f : EventUnit → EventUnit) : (s.modEvents f).mon = s.mon := rfl
@[simp] theorem State.modEvents_route (s : State) (f : EventUnit → EventUnit) : (s.modEvents f).route = s.route := rfl
@[simp] theorem State.modEvents_lights (s : State) (f : EventUnit → EventUnit) : (s.modEvents f).lights = s.lights := rfl
@[simp] theorem State.modEvents_muster (s : State) (f : EventUnit → EventUnit) : (s.modEvents f).muster = s.muster := rfl
@[simp] theorem State.modEvents_chain (s : State) (f : EventUnit → EventUnit) : (s.modEvents f).chain = s.chain := rfl
@[simp] theorem State.modEvents_sched (s : State) (f : EventUnit → EventUnit) : (s.modEvents f).sched = s.sched := rfl
@[simp] theorem State.modEvents_supply (s : State) (f : EventUnit → EventUnit) : (s.modEvents f).supply = s.supply := rfl
@[simp] theorem State.modEvents_node (s : State) (f : EventUnit → EventUnit) : (s.modEvents f).node = s.node := rfl
@[simp] theorem State.modEvents_port (s : State) (f : EventUnit → EventUnit) : (s.modEvents f).port = s.port := rfl
@[simp] theorem State.modEvents_events (s : State) (f : EventUnit → EventUnit) : (s.modEvents f).events = f s.events := rfl
@[simp] theorem State.modEvents_counters (s : State) (f : EventUnit → EventUnit) : (s.modEvents f).counters = s.counters := rfl
@[simp] theorem State.modEvents_pins (s : State) (f : EventUnit → EventUnit) : (s.modEvents f).pins = s.pins := rfl
@[simp] theorem State.modEvents_free (s : State) (f : EventUnit → EventUnit) : (s.modEvents f).free = s.free := rfl
@[simp] theorem State.modEvents_pending (s : State) (f : EventUnit → EventUnit) : (s.modEvents f).pending = s.pending := rfl

@[simp] theorem State.modCounters_time (s : State) (f : Counters → Counters) : (s.modCounters f).time = s.time := rfl
@[simp] theorem State.modCounters_bus (s : State) (f : Counters → Counters) : (s.modCounters f).bus = s.bus := rfl
@[simp] theorem State.modCounters_store (s : State) (f : Counters → Counters) : (s.modCounters f).store = s.store := rfl
@[simp] theorem State.modCounters_exch (s : State) (f : Counters → Counters) : (s.modCounters f).exch = s.exch := rfl
@[simp] theorem State.modCounters_mon (s : State) (f : Counters → Counters) : (s.modCounters f).mon = s.mon := rfl
@[simp] theorem State.modCounters_route (s : State) (f : Counters → Counters) : (s.modCounters f).route = s.route := rfl
@[simp] theorem State.modCounters_lights (s : State) (f : Counters → Counters) : (s.modCounters f).lights = s.lights := rfl
@[simp] theorem State.modCounters_muster (s : State) (f : Counters → Counters) : (s.modCounters f).muster = s.muster := rfl
@[simp] theorem State.modCounters_chain (s : State) (f : Counters → Counters) : (s.modCounters f).chain = s.chain := rfl
@[simp] theorem State.modCounters_sched (s : State) (f : Counters → Counters) : (s.modCounters f).sched = s.sched := rfl
@[simp] theorem State.modCounters_supply (s : State) (f : Counters → Counters) : (s.modCounters f).supply = s.supply := rfl
@[simp] theorem State.modCounters_node (s : State) (f : Counters → Counters) : (s.modCounters f).node = s.node := rfl
@[simp] theorem State.modCounters_port (s : State) (f : Counters → Counters) : (s.modCounters f).port = s.port := rfl
@[simp] theorem State.modCounters_events (s : State) (f : Counters → Counters) : (s.modCounters f).events = s.events := rfl
@[simp] theorem State.modCounters_counters (s : State) (f : Counters → Counters) : (s.modCounters f).counters = f s.counters := rfl
@[simp] theorem State.modCounters_pins (s : State) (f : Counters → Counters) : (s.modCounters f).pins = s.pins := rfl
@[simp] theorem State.modCounters_free (s : State) (f : Counters → Counters) : (s.modCounters f).free = s.free := rfl
@[simp] theorem State.modCounters_pending (s : State) (f : Counters → Counters) : (s.modCounters f).pending = s.pending := rfl

@[simp] theorem State.modPins_time (s : State) (f : Pins → Pins) : (s.modPins f).time = s.time := rfl
@[simp] theorem State.modPins_bus (s : State) (f : Pins → Pins) : (s.modPins f).bus = s.bus := rfl
@[simp] theorem State.modPins_store (s : State) (f : Pins → Pins) : (s.modPins f).store = s.store := rfl
@[simp] theorem State.modPins_exch (s : State) (f : Pins → Pins) : (s.modPins f).exch = s.exch := rfl
@[simp] theorem State.modPins_mon (s : State) (f : Pins → Pins) : (s.modPins f).mon = s.mon := rfl
@[simp] theorem State.modPins_route (s : State) (f : Pins → Pins) : (s.modPins f).route = s.route := rfl
@[simp] theorem State.modPins_lights (s : State) (f : Pins → Pins) : (s.modPins f).lights = s.lights := rfl
@[simp] theorem State.modPins_muster (s : State) (f : Pins → Pins) : (s.modPins f).muster = s.muster := rfl
@[simp] theorem State.modPins_chain (s : State) (f : Pins → Pins) : (s.modPins f).chain = s.chain := rfl
@[simp] theorem State.modPins_sched (s : State) (f : Pins → Pins) : (s.modPins f).sched = s.sched := rfl
@[simp] theorem State.modPins_supply (s : State) (f : Pins → Pins) : (s.modPins f).supply = s.supply := rfl
@[simp] theorem State.modPins_node (s : State) (f : Pins → Pins) : (s.modPins f).node = s.node := rfl
@[simp] theorem State.modPins_port (s : State) (f : Pins → Pins) : (s.modPins f).port = s.port := rfl
@[simp] theorem State.modPins_events (s : State) (f : Pins → Pins) : (s.modPins f).events = s.events := rfl
@[simp] theorem State.modPins_counters (s : State) (f : Pins → Pins) : (s.modPins f).counters = s.counters := rfl
@[simp] theorem State.modPins_pins (s : State) (f : Pins → Pins) : (s.modPins f).pins = f s.pins := rfl
@[simp] theorem State.modPins_free (s : State) (f : Pins → Pins) : (s.modPins f).free = s.free := rfl
@[simp] theorem State.modPins_pending (s : State) (f : Pins → Pins) : (s.modPins f).pending = s.pending := rfl

@[simp] theorem State.modFree_time (s : State) (f : Nat → Nat) : (s.modFree f).time = s.time := rfl
@[simp] theorem State.modFree_bus (s : State) (f : Nat → Nat) : (s.modFree f).bus = s.bus := rfl
@[simp] theorem State.modFree_store (s : State) (f : Nat → Nat) : (s.modFree f).store = s.store := rfl
@[simp] theorem State.modFree_exch (s : State) (f : Nat → Nat) : (s.modFree f).exch = s.exch := rfl
@[simp] theorem State.modFree_mon (s : State) (f : Nat → Nat) : (s.modFree f).mon = s.mon := rfl
@[simp] theorem State.modFree_route (s : State) (f : Nat → Nat) : (s.modFree f).route = s.route := rfl
@[simp] theorem State.modFree_lights (s : State) (f : Nat → Nat) : (s.modFree f).lights = s.lights := rfl
@[simp] theorem State.modFree_muster (s : State) (f : Nat → Nat) : (s.modFree f).muster = s.muster := rfl
@[simp] theorem State.modFree_chain (s : State) (f : Nat → Nat) : (s.modFree f).chain = s.chain := rfl
@[simp] theorem State.modFree_sched (s : State) (f : Nat → Nat) : (s.modFree f).sched = s.sched := rfl
@[simp] theorem State.modFree_supply (s : State) (f : Nat → Nat) : (s.modFree f).supply = s.supply := rfl
@[simp] theorem State.modFree_node (s : State) (f : Nat → Nat) : (s.modFree f).node = s.node := rfl
@[simp] theorem State.modFree_port (s : State) (f : Nat → Nat) : (s.modFree f).port = s.port := rfl
@[simp] theorem State.modFree_events (s : State) (f : Nat → Nat) : (s.modFree f).events = s.events := rfl
@[simp] theorem State.modFree_counters (s : State) (f : Nat → Nat) : (s.modFree f).counters = s.counters := rfl
@[simp] theorem State.modFree_pins (s : State) (f : Nat → Nat) : (s.modFree f).pins = s.pins := rfl
@[simp] theorem State.modFree_free (s : State) (f : Nat → Nat) : (s.modFree f).free = f s.free := rfl
@[simp] theorem State.modFree_pending (s : State) (f : Nat → Nat) : (s.modFree f).pending = s.pending := rfl

@[simp] theorem State.modPending_time (s : State) (f : List Instr → List Instr) : (s.modPending f).time = s.time := rfl
@[simp] theorem State.modPending_bus (s : State) (f : List Instr → List Instr) : (s.modPending f).bus = s.bus := rfl
@[simp] theorem State.modPending_store (s : State) (f : List Instr → List Instr) : (s.modPending f).store = s.store := rfl
@[simp] theorem State.modPending_exch (s : State) (f : List Instr → List Instr) : (s.modPending f).exch = s.exch := rfl
@[simp] theorem State.modPending_mon (s : State) (f : List Instr → List Instr) : (s.modPending f).mon = s.mon := rfl
@[simp] theorem State.modPending_route (s : State) (f : List Instr → List Instr) : (s.modPending f).route = s.route := rfl
@[simp] theorem State.modPending_lights (s : State) (f : List Instr → List Instr) : (s.modPending f).lights = s.lights := rfl
@[simp] theorem State.modPending_muster (s : State) (f : List Instr → List Instr) : (s.modPending f).muster = s.muster := rfl
@[simp] theorem State.modPending_chain (s : State) (f : List Instr → List Instr) : (s.modPending f).chain = s.chain := rfl
@[simp] theorem State.modPending_sched (s : State) (f : List Instr → List Instr) : (s.modPending f).sched = s.sched := rfl
@[simp] theorem State.modPending_supply (s : State) (f : List Instr → List Instr) : (s.modPending f).supply = s.supply := rfl
@[simp] theorem State.modPending_node (s : State) (f : List Instr → List Instr) : (s.modPending f).node = s.node := rfl
@[simp] theorem State.modPending_port (s : State) (f : List Instr → List Instr) : (s.modPending f).port = s.port := rfl
@[simp] theorem State.modPending_events (s : State) (f : List Instr → List Instr) : (s.modPending f).events = s.events := rfl
@[simp] theorem State.modPending_counters (s : State) (f : List Instr → List Instr) : (s.modPending f).counters = s.counters := rfl
@[simp] theorem State.modPending_pins (s : State) (f : List Instr → List Instr) : (s.modPending f).pins = s.pins := rfl
@[simp] theorem State.modPending_free (s : State) (f : List Instr → List Instr) : (s.modPending f).free = s.free := rfl
@[simp] theorem State.modPending_pending (s : State) (f : List Instr → List Instr) : (s.modPending f).pending = f s.pending := rfl

end Sys2Proof.Machine
end

