-- ==== Sys2Proof/Laws/Steady.lean ====
section
/-! SUPPORT. What the rules at the end of a step, and the offers they make, leave alone (Safety's `steady`). -/

namespace Sys2Proof.Machine

@[simp] theorem steady_modSched (s : State) (f : Scheduler → Scheduler) : (s.modSched f).steady = s.steady := rfl

@[simp] theorem steady_modLights (s : State) (f : PathLights → PathLights) : (s.modLights f).steady = s.steady := rfl

@[simp] theorem steady_modFree (s : State) (f : Nat → Nat) : (s.modFree f).steady = s.steady := rfl

/-- An update of the bus keeps the steady parts when it keeps the receiver and the owner queues. -/
@[simp] theorem steady_modBus (s : State) (f : ZoneBus → ZoneBus) (h : f s.bus = { f s.bus with
    receiver := s.bus.receiver, timeQ := s.bus.timeQ, programmeQ := s.bus.programmeQ, routeQ := s.bus.routeQ,
    musterQ := s.bus.musterQ }) : (s.modBus f).steady = s.steady := by
  unfold State.steady State.modBus
  simp only
  rw [h]

/-- An update of the exchange keeps the steady parts when it keeps the records and the summary timers. -/
@[simp] theorem steady_modExch (s : State) (f : Exchange → Exchange) (h : f s.exch = { f s.exch with
    records := s.exch.records, summaryTimer := s.exch.summaryTimer, early := s.exch.early }) :
    (s.modExch f).steady = s.steady := by
  unfold State.steady State.modExch
  simp only
  rw [h]

/-- An update of the muster control keeps the steady parts when it touches the report list and its two marks alone. -/
@[simp] theorem steady_modMuster (s : State) (f : MusterControl → MusterControl) (h : f s.muster = { s.muster with
    pendingReports := (f s.muster).pendingReports, reportOutstanding := (f s.muster).reportOutstanding,
    builderWaits := (f s.muster).builderWaits }) : (s.modMuster f).steady = s.steady := by
  unfold State.steady State.modMuster
  simp only
  rw [h]

/-- An update of the chain keeps the steady parts when it touches the engine alone. -/
@[simp] theorem steady_modChain (s : State) (f : ChainControl → ChainControl) (h : f s.chain = { s.chain with
    engine := (f s.chain).engine }) : (s.modChain f).steady = s.steady := by
  unfold State.steady State.modChain
  simp only
  rw [h]

/-- An update of the events keeps the steady parts when it keeps flags and enables. -/
@[simp] theorem steady_modEvents (s : State) (f : EventUnit → EventUnit) (h : f s.events = { f s.events with
    flags := s.events.flags, enables := s.events.enables }) : (s.modEvents f).steady = s.steady := by
  unfold State.steady State.modEvents
  simp only
  rw [h]

@[simp] theorem steady_settleAttention (s : State) :
    (settleAttention s).steady = s.steady := by
  unfold settleAttention; (repeat' split) <;> simp

@[simp] theorem steady_drawn (s : State) :
    (drawn s).steady = s.steady := by
  rfl

@[simp] theorem steady_fillBuffer (s : State) :
    (fillBuffer s).steady = s.steady := by
  unfold fillBuffer; (repeat' split) <;> simp

@[simp] theorem steady_countRefusal (s : State) :
    (countRefusal s).steady = s.steady := by
  simp [countRefusal, setEvent, State.steady, BitVec.or_assoc]

@[simp] theorem steady_acceptOffer (queue : List TxFrame) (s : State) :
    (acceptOffer queue s).steady = s.steady := by
  unfold acceptOffer; simp

@[simp] theorem steady_offerBase (o : Offer) (s : State) :
    (offerBase o s).1.steady = s.steady := by
  unfold offerBase; dsimp only; (repeat' split) <;> simp

@[simp] theorem steady_endAnswer (s : State) :
    (endAnswer s).steady = s.steady := by
  rfl

@[simp] theorem steady_answerOffer (a : ActiveAnswer) (s : State) :
    (answerOffer a s).steady = s.steady := by
  unfold answerOffer
  extract_lets reply
  split
  · rename_i b _
    have h := steady_offerBase ⟨.programmeItem, 255, itemPayload (some b) (some (reply false 0)), [], true⟩ s
    split <;> simp_all
  · have h := steady_offerBase ⟨.programmeItem, 255, itemPayload none (some (reply true (highWaterOf a.entry.publisher s))), [], true⟩ s
    split <;> simp_all

@[simp] theorem steady_answerReported (f : TxFrame) (s : State) :
    (answerReported f s).steady = s.steady := by
  unfold answerReported; (repeat' split) <;> simp

@[simp] theorem steady_offer (o : Offer) (s : State) :
    (offer o s).1.steady = s.steady := by
  have h := steady_offerBase o s
  unfold offer
  split <;> simp_all

@[simp] theorem steady_offer_ (o : Offer) (s : State) :
    (offer' o s).steady = s.steady := by
  exact steady_offer o s

@[simp] theorem steady_settleAnswers (s : State) :
    (settleAnswers s).steady = s.steady := by
  unfold settleAnswers; (repeat' split) <;> simp

@[simp] theorem steady_settleLights (s : State) :
    (settleLights s).steady = s.steady := by
  rfl

@[simp] theorem steady_modPlate (i : Nat) (f : Plate → Plate) (s : State) :
    (modPlate i f s).steady = s.steady := by
  rfl

@[simp] theorem steady_startOne (s : State) :
    (startOne s).steady = s.steady := by
  unfold startOne; (repeat' split) <;> simp

@[simp] theorem steady_settleRefreshes (s : State) :
    (settleRefreshes s).steady = s.steady := by
  unfold settleRefreshes; simp

@[simp] theorem steady_buildReport (s : State) :
    (buildReport s).steady = s.steady := by
  have h := steady_offer ⟨.cabinReport, 128, cabinPayload (s.muster.pendingReports.take 6), [], false⟩
    (s.modMuster fun m => { m with pendingReports := m.pendingReports.drop 6 })
  unfold buildReport
  dsimp only
  split <;> simp_all

@[simp] theorem steady_settleReports (s : State) :
    (settleReports s).steady = s.steady := by
  unfold settleReports; split <;> simp

@[simp] theorem steady_startTransaction (position : Nat) (op : ChainOp) (s : State) :
    (startTransaction position op s).steady = s.steady := by
  rfl

@[simp] theorem steady_startPoll (position : Nat) (s : State) :
    (startPoll position s).steady = s.steady := by
  rfl

@[simp] theorem steady_arbitrate (s : State) :
    (arbitrate s).steady = s.steady := by
  unfold arbitrate; (repeat' split) <;> simp

@[simp] theorem steady_settle (s : State) :
    (settle s).steady = s.steady := by
  unfold settle; simp

@[simp] theorem steady_settleSend (s : State) :
    (settleSend s).steady = s.steady := by
  unfold settleSend; simp

/-! ### The Refresh Scheduler's operations and the reports they make -/

/-- A fold of steps that each keep the steady parts keeps them. -/
theorem steady_foldl {α : Type} (f : State → α → State) (h : ∀ s a, (f s a).steady = s.steady) (l : List α) (s : State) :
    (l.foldl f s).steady = s.steady := by
  induction l generalizing s with
  | nil => rfl
  | cons a l ih => exact (ih _).trans (h _ _)

@[simp] theorem steady_comparePlate (i : Nat) (s : State) :
    (comparePlate i s).steady = s.steady := by
  unfold comparePlate; (repeat' split) <;> simp

@[simp] theorem steady_retarget (i : Nat) (s : State) :
    (retarget i s).steady = s.steady := by
  unfold retarget; (repeat' split) <;> simp

@[simp] theorem steady_retargetAll (s : State) :
    (retargetAll s).steady = s.steady := by
  exact steady_foldl _ (fun s i => steady_retarget i s) _ _

@[simp] theorem steady_compareAll (s : State) :
    (compareAll s).steady = s.steady := by
  exact steady_foldl _ (fun s i => steady_comparePlate i s) _ _

@[simp] theorem steady_modRefresh (i : Nat) (f : Refresh → Refresh) (s : State) :
    (modRefresh i f s).steady = s.steady := by
  rfl

@[simp] theorem steady_leaveFlight (i : Nat) (s : State) :
    (leaveFlight i s).steady = s.steady := by
  rfl

@[simp] theorem steady_completeRefresh (r : Refresh) (s : State) :
    (completeRefresh r s).steady = s.steady := by
  unfold completeRefresh; (repeat' split) <;> simp

@[simp] theorem steady_failRefresh (i : Nat) (s : State) :
    (failRefresh i s).steady = s.steady := by
  unfold failRefresh; (repeat' split) <;> simp

@[simp] theorem steady_enterDrive (i : Nat) (s : State) :
    (enterDrive i s).steady = s.steady := by
  unfold enterDrive; (repeat' split) <;> simp

@[simp] theorem steady_requeueFront (i : Nat) (s : State) :
    (requeueFront i s).steady = s.steady := by
  unfold requeueFront; (repeat' split) <;> simp

@[simp] theorem steady_cancelOne (s : State) (i : Nat) :
    (cancelOne s i).steady = s.steady := by
  unfold cancelOne; split <;> simp

@[simp] theorem steady_cancelLoads (s : State) :
    (cancelLoads s).steady = s.steady := by
  exact steady_foldl _ (fun s i => steady_cancelOne s i) _ _

@[simp] theorem steady_loadOutcome (i : Nat) (ok : Bool) (s : State) :
    (loadOutcome i ok s).steady = s.steady := by
  unfold loadOutcome; (repeat' split) <;> simp

@[simp] theorem steady_driveReading (i : Nat) (d : DriveStatus) (s : State) :
    (driveReading i d s).steady = s.steady := by
  unfold driveReading; (repeat' split) <;> simp

@[simp] theorem steady_lossRefresh (i : Nat) (s : State) :
    (lossRefresh i s).steady = s.steady := by
  unfold lossRefresh; (repeat' split) <;> simp

@[simp] theorem steady_shortPressRefresh (i : Nat) (s : State) :
    (shortPressRefresh i s).steady = s.steady := by
  unfold shortPressRefresh; (repeat' split) <;> simp

@[simp] theorem steady_reportPlate (i : Nat) (s : State) :
    (reportPlate i s).steady = s.steady := by
  unfold reportPlate; (repeat' split) <;> simp

@[simp] theorem steady_reportAtMuster (i : Nat) (s : State) :
    (reportAtMuster i s).steady = s.steady := by
  unfold reportAtMuster; (repeat' split) <;> simp

@[simp] theorem steady_reportAll (s : State) :
    (reportAll s).steady = s.steady := by
  exact steady_foldl _ (fun s i => steady_reportPlate i s) _ _

end Sys2Proof.Machine
end

