-- ==== Sys2Proof/Laws/Ends.lean ====
section
/-! SUPPORT. What the operations that end a command, and the offer, can do: one statement each, to be cited in place of unfolding. -/

namespace Sys2Proof.Machine

/-- Settling the attention line writes the line and the last assertion alone. -/
theorem settleAttention_eq (s : State) : ∃ a l,
    settleAttention s = { s with events := { s.events with attention := a, lastAssert := l } } := by
  unfold settleAttention
  (repeat' split) <;> exact ⟨_, _, rfl⟩

/-- An occupied transmit buffer is not filled. -/
theorem fillBuffer_of_some {s : State} {u : TxBuffer} (h : s.bus.buffer = some u) : fillBuffer s = s := by
  simp [fillBuffer, h]

/-- An offer leaves an occupied transmit buffer as it is. -/
theorem offerBase_buffer (o : Offer) {s : State} {u : TxBuffer} (h : s.bus.buffer = some u) :
    (offerBase o s).1.bus.buffer = some u := by
  have a (q : List TxFrame) (t : State) (ht : t.bus.buffer = some u) : (acceptOffer q t).bus.buffer = some u := by
    unfold acceptOffer
    rw [fillBuffer_of_some (u := u) (by simpa using ht)]
    simpa using ht
  have c : (countRefusal s).bus.buffer = some u := by simpa [countRefusal, setEvent] using h
  unfold offerBase
  dsimp only
  (repeat' split) <;> first | exact h | exact c | exact a _ _ h | exact a _ _ c

/-- Placing a frame adds one. -/
theorem placeFrame_length (f : TxFrame) (q : List TxFrame) : (placeFrame f q).length = q.length + 1 := by
  induction q with
  | nil => rfl
  | cons g q ih =>
    unfold placeFrame
    split
    · simp [ih]
    · simp

/-- Replacing in place adds none. -/
theorem replaceFrame_length (f : TxFrame) (q : List TxFrame) : (replaceFrame f q).length = q.length := by
  induction q with
  | nil => rfl
  | cons g q ih =>
    unfold replaceFrame
    split
    · simp
    · simp [ih]

/-- Filling the buffer shortens the queue by at most one, or leaves it. -/
theorem fillBuffer_queue_length (s : State) : (fillBuffer s).bus.queue.length ≤ s.bus.queue.length := by
  unfold fillBuffer
  split
  · rename_i h
    split
    · simp [drawn, h]
    · exact Nat.le_refl _
  · exact Nat.le_refl _

/-- An offer keeps the transmit queue within 8 frames (R25, R26). -/
theorem offerBase_queue_length (o : Offer) (s : State) (h : s.bus.queue.length ≤ 8) :
    (offerBase o s).1.bus.queue.length ≤ 8 := by
  have a (q : List TxFrame) (t : State) (hq : q.length ≤ 8) : (acceptOffer q t).bus.queue.length ≤ 8 := by
    refine Nat.le_trans (fillBuffer_queue_length _) ?_
    simpa using hq
  have c : (countRefusal s).bus.queue.length ≤ 8 := by simpa [countRefusal, setEvent] using h
  unfold offerBase
  dsimp only
  (repeat' split)
  · exact h
  · exact a _ _ (by rw [replaceFrame_length]; exact h)
  · exact a _ _ (by rw [placeFrame_length]; omega)
  · exact a _ _ (by rw [placeFrame_length, List.length_dropLast]; omega)
  · exact c
  · exact c

/-- After an answer is dropped no frame of the send path is an answer's, and none is active (R69, R72). -/
theorem dropAnswer_frees (s : State) : (dropAnswer s).exch.active = none ∧ (∀ f ∈ (dropAnswer s).bus.queue, f.answer = false)
    ∧ ∀ u, (dropAnswer s).bus.buffer = some u → u.frame.answer = false := by
  refine ⟨by simp [dropAnswer, endAnswer], ?_, ?_⟩
  · intro f h
    obtain ⟨g, _, rfl⟩ : ∃ g ∈ s.bus.queue, { g with answer := false } = f := by
      simpa [dropAnswer, endAnswer] using h
    rfl
  · intro u h
    obtain ⟨v, _, rfl⟩ : ∃ v, s.bus.buffer = some v ∧ { v with frame := { v.frame with answer := false } } = u := by
      simpa [dropAnswer, endAnswer] using h
    rfl

/-- A frame that is not the active answer's moves no answer (R68). -/
theorem answerReported_of_other {f : TxFrame} (s : State) (h : f.answer = false) : answerReported f s = s := by
  unfold answerReported
  split <;> simp [h]

/-- The report builder stands idle unless it may run (R123). -/
theorem settleReports_idle {s : State} (h : s.muster.pendingReports = [] ∨ s.muster.reportOutstanding = true
    ∨ s.muster.builderWaits = true ∨ participates s = false) : settleReports s = s := by
  unfold settleReports
  rcases h with h | h | h | h <;> simp [h]

/-- A draw lies in its range (0.11). -/
theorem drawValue_range (lo hi : Nat) (s : State) (h : lo ≤ hi) : lo ≤ drawValue lo hi s ∧ drawValue lo hi s ≤ hi := by
  unfold drawValue
  have := Nat.mod_lt (Config.freeDraw s.free) (show 0 < hi - lo + 1 by omega)
  omega

end Sys2Proof.Machine
end

