-- ==== Sys2Proof/Laws/Kept.lean ====
section
/-! SUPPORT. What the shared operations leave alone: one equation for each, over the parts no shared operation writes. -/

namespace Sys2Proof.Machine

/-- The parts of State that none of the shared operations writes. -/
structure Kept where
  pending : List Instr
  pins : Pins
  node : Sequencer
  supply : Supply
  port : LocalPort
  now : Tick
  receiver : Receiver
  timeQ : List RxFrame
  programmeQ : List RxFrame
  routeQ : List RxFrame
  musterQ : List RxFrame
  record : OrderRecord
  highestSeen : Nat
  authorities : List Nat

/-- Those parts of a state. -/
def State.kept (s : State) : Kept :=
  { pending := s.pending, pins := s.pins, node := s.node, supply := s.supply, port := s.port, now := s.time.now,
    receiver := s.bus.receiver, timeQ := s.bus.timeQ, programmeQ := s.bus.programmeQ, routeQ := s.bus.routeQ,
    musterQ := s.bus.musterQ, record := s.muster.record, highestSeen := s.muster.highestSeen,
    authorities := s.muster.authorities }

/-- A fold of steps that each leave those parts alone leaves them alone. -/
theorem kept_foldl {α : Type} (f : State → α → State) (h : ∀ s a, (f s a).kept = s.kept) (l : List α) (s : State) :
    (l.foldl f s).kept = s.kept := by
  induction l generalizing s with
  | nil => rfl
  | cons a l ih => exact (ih _).trans (h _ _)

@[simp] theorem kept_modStore (s : State) (f : Store → Store) : (s.modStore f).kept = s.kept := rfl
@[simp] theorem kept_modExch (s : State) (f : Exchange → Exchange) : (s.modExch f).kept = s.kept := rfl
@[simp] theorem kept_modMon (s : State) (f : Monitor → Monitor) : (s.modMon f).kept = s.kept := rfl
@[simp] theorem kept_modRoute (s : State) (f : RouteEngine → RouteEngine) : (s.modRoute f).kept = s.kept := rfl
@[simp] theorem kept_modLights (s : State) (f : PathLights → PathLights) : (s.modLights f).kept = s.kept := rfl
@[simp] theorem kept_modChain (s : State) (f : ChainControl → ChainControl) : (s.modChain f).kept = s.kept := rfl
@[simp] theorem kept_modSched (s : State) (f : Scheduler → Scheduler) : (s.modSched f).kept = s.kept := rfl
@[simp] theorem kept_modEvents (s : State) (f : EventUnit → EventUnit) : (s.modEvents f).kept = s.kept := rfl
@[simp] theorem kept_modCounters (s : State) (f : Counters → Counters) : (s.modCounters f).kept = s.kept := rfl
@[simp] theorem kept_modFree (s : State) (f : Nat → Nat) : (s.modFree f).kept = s.kept := rfl

/-- An update of the bus keeps those parts when it keeps the receiver and the owner queues. -/
@[simp] theorem kept_modBus (s : State) (f : ZoneBus → ZoneBus) (h : f s.bus = { f s.bus with
    receiver := s.bus.receiver, timeQ := s.bus.timeQ, programmeQ := s.bus.programmeQ, routeQ := s.bus.routeQ,
    musterQ := s.bus.musterQ }) : (s.modBus f).kept = s.kept := by
  unfold State.kept State.modBus
  simp only
  rw [h]

/-- An update of the time keeps those parts when it keeps the local counter. -/
@[simp] theorem kept_modTime (s : State) (f : Timebase → Timebase) (h : (f s.time).now = s.time.now) :
    (s.modTime f).kept = s.kept := by
  unfold State.kept State.modTime
  simp only [h]

/-- An update of the muster control keeps those parts when it keeps the record, the highest-seen serial and the authorities. -/
@[simp] theorem kept_modMuster (s : State) (f : MusterControl → MusterControl) (h : f s.muster = { f s.muster with
    record := s.muster.record, highestSeen := s.muster.highestSeen, authorities := s.muster.authorities }) :
    (s.modMuster f).kept = s.kept := by
  unfold State.kept State.modMuster
  simp only
  rw [h]

@[simp] theorem kept_setEvent (e : Event) (s : State) : (setEvent e s).kept = s.kept := by
  rfl

@[simp] theorem kept_setEventIf (c : Bool) (e : Event) (s : State) : (setEventIf c e s).kept = s.kept := by
  unfold setEventIf; split <;> simp

@[simp] theorem kept_settleAttention (s : State) : (settleAttention s).kept = s.kept := by
  unfold settleAttention; (repeat' split) <;> simp

@[simp] theorem kept_drawn (s : State) : (drawn s).kept = s.kept := by
  rfl

@[simp] theorem kept_fillBuffer (s : State) : (fillBuffer s).kept = s.kept := by
  unfold fillBuffer; (repeat' split) <;> simp

@[simp] theorem kept_countRefusal (s : State) : (countRefusal s).kept = s.kept := by
  rfl

@[simp] theorem kept_acceptOffer (queue : List TxFrame) (s : State) : (acceptOffer queue s).kept = s.kept := by
  unfold acceptOffer; simp

@[simp] theorem kept_offerBase (o : Offer) (s : State) : (offerBase o s).1.kept = s.kept := by
  unfold offerBase; dsimp only; (repeat' split) <;> simp

@[simp] theorem kept_endAnswer (s : State) : (endAnswer s).kept = s.kept := by
  rfl

@[simp] theorem kept_answerOffer (a : ActiveAnswer) (s : State) : (answerOffer a s).kept = s.kept := by
  unfold answerOffer
  extract_lets reply
  split
  · rename_i b _
    have h := kept_offerBase ⟨.programmeItem, 255, itemPayload (some b) (some (reply false 0)), [], true⟩ s
    split <;> simp_all
  · have h := kept_offerBase ⟨.programmeItem, 255, itemPayload none (some (reply true (highWaterOf a.entry.publisher s))), [], true⟩ s
    split <;> simp_all

@[simp] theorem kept_answerReported (f : TxFrame) (s : State) : (answerReported f s).kept = s.kept := by
  unfold answerReported; (repeat' split) <;> simp

@[simp] theorem kept_offer (o : Offer) (s : State) : (offer o s).1.kept = s.kept := by
  have h := kept_offerBase o s
  unfold offer
  split <;> simp_all

@[simp] theorem kept_offer_ (o : Offer) (s : State) : (offer' o s).kept = s.kept := by
  exact kept_offer o s

@[simp] theorem kept_settleAnswers (s : State) : (settleAnswers s).kept = s.kept := by
  unfold settleAnswers; (repeat' split) <;> simp

@[simp] theorem kept_recompose (before : Shown) (replaced : Option (Nat × Nat)) (s : State) : (recompose before replaced s).kept = s.kept := by
  unfold recompose; simp

@[simp] theorem kept_armComparator (s : State) : (armComparator s).kept = s.kept := by
  rfl

@[simp] theorem kept_changeTable (table : List Entry) (s : State) : (changeTable table s).kept = s.kept := by
  rfl

@[simp] theorem kept_takeMatch (before : Shown) (s : State) : (takeMatch before s).kept = s.kept := by
  unfold takeMatch; dsimp only; (repeat' split) <;> simp

@[simp] theorem kept_reloadComparator (before : Shown) (s : State) : (reloadComparator before s).kept = s.kept := by
  unfold reloadComparator; dsimp only; (repeat' split) <;> simp

@[simp] theorem kept_commitTable (table : List Entry) (replaced : Option (Nat × Nat)) (s : State) : (commitTable table replaced s).kept = s.kept := by
  unfold commitTable; simp

@[simp] theorem kept_stepRephase (s : State) : (stepRephase s).kept = s.kept := by
  unfold stepRephase; dsimp only; (repeat' split) <;> simp

@[simp] theorem kept_ensureRecord (p : Nat) (s : State) : (ensureRecord p s).kept = s.kept := by
  unfold ensureRecord; split <;> simp

@[simp] theorem kept_modRecord (p : Nat) (f : PubRecord → PubRecord) (s : State) : (modRecord p f s).kept = s.kept := by
  rfl

@[simp] theorem kept_raiseHighWater (p revision : Nat) (s : State) : (raiseHighWater p revision s).kept = s.kept := by
  rfl

@[simp] theorem kept_countOutcome (o : StoreOutcome) (s : State) : (countOutcome o s).kept = s.kept := by
  unfold countOutcome; split <;> simp

@[simp] theorem kept_applyHeld (b : ItemBody) (e : Entry) (s : State) : (applyHeld b e s).1.kept = s.kept := by
  unfold applyHeld; split <;> simp

@[simp] theorem kept_applyNew (b : ItemBody) (s : State) : (applyNew b s).1.kept = s.kept := by
  unfold applyNew; (repeat' split) <;> simp

@[simp] theorem kept_applyBody (b : ItemBody) (s : State) : (applyBody b s).1.kept = s.kept := by
  unfold applyBody; dsimp only; (repeat' split) <;> simp

@[simp] theorem kept_offerSummary (s : State) : (offerSummary s).kept = s.kept := by
  unfold offerSummary; simp

@[simp] theorem kept_startSummaryTimer (s : State) : (startSummaryTimer s).kept = s.kept := by
  rfl

@[simp] theorem kept_promptSummary (s : State) : (promptSummary s).kept = s.kept := by
  unfold promptSummary; split <;> simp

@[simp] theorem kept_dropSequence (p : Nat) (seq : Octet) (s : State) : (dropSequence p seq s).kept = s.kept := by
  rfl

@[simp] theorem kept_markWaiting (p : Nat) (seq : Option Octet) (s : State) : (markWaiting p seq s).kept = s.kept := by
  rfl

@[simp] theorem kept_startCatchUp (p after : Nat) (s : State) : (startCatchUp p after s).kept = s.kept := by
  have h := kept_offer ⟨.itemRequest, 255, o8 p :: le16 after, [], false⟩ s
  unfold startCatchUp
  split <;> simp_all

@[simp] theorem kept_catchUpIfIdle (p after : Nat) (s : State) : (catchUpIfIdle p after s).kept = s.kept := by
  unfold catchUpIfIdle; (repeat' split) <;> simp

@[simp] theorem kept_raiseSettled (p revision : Nat) (s : State) : (raiseSettled p revision s).kept = s.kept := by
  rfl

@[simp] theorem kept_directItem (p r : Nat) (s : State) : (directItem p r s).kept = s.kept := by
  unfold directItem; (repeat' split) <;> simp

@[simp] theorem kept_matchAnswer (reply : ReplyPart) (s : State) : (matchAnswer reply s).kept = s.kept := by
  unfold matchAnswer; (repeat' split) <;> simp

@[simp] theorem kept_countSuppressed (s : State) : (countSuppressed s).kept = s.kept := by
  rfl

@[simp] theorem kept_suppressAnswer (reply : ReplyPart) (s : State) : (suppressAnswer reply s).kept = s.kept := by
  unfold suppressAnswer; dsimp only; (repeat' split) <;> simp

@[simp] theorem kept_finishItem (body : Option (ItemBody × StoreOutcome)) (reply : Option ReplyPart) (s : State) : (finishItem body reply s).kept = s.kept := by
  unfold finishItem; (repeat' split) <;> simp

@[simp] theorem kept_takeItem (payload : List Octet) (s : State) : (takeItem payload s).kept = s.kept := by
  unfold takeItem
  split
  · simp
  · split
    · simp
    · split
      · simp
      · rename_i b _
        have h := kept_applyBody b s
        split
        simp_all

@[simp] theorem kept_takePair (s : State) (pair : Nat × Nat) : (takePair s pair).kept = s.kept := by
  unfold takePair; dsimp only; (repeat' split) <;> simp

@[simp] theorem kept_takeSummary (payload : List Octet) (s : State) : (takeSummary payload s).kept = s.kept := by
  unfold takeSummary
  split
  · exact (kept_foldl _ (fun s a => kept_takePair s a) _ _).trans rfl
  · rfl

@[simp] theorem kept_takeRequest (f : RxFrame) (s : State) : (takeRequest f s).kept = s.kept := by
  unfold takeRequest; dsimp only; (repeat' split) <;> simp

@[simp] theorem kept_requestExpired (r : PubRecord) (s : State) : (requestExpired r s).kept = s.kept := by
  unfold requestExpired; (repeat' split) <;> simp

@[simp] theorem kept_publishBody (b : ItemBody) (s : State) : (publishBody b s).1.kept = s.kept := by
  have h := kept_applyBody b (ensureRecord b.publisher s)
  unfold publishBody
  simp_all

@[simp] theorem kept_doPublish (args : List Octet) (s : State) : (doPublish args s).1.kept = s.kept := by
  unfold doPublish; (repeat' split) <;> simp

@[simp] theorem kept_doWithdraw (args : List Octet) (s : State) : (doWithdraw args s).1.kept = s.kept := by
  unfold doWithdraw; (repeat' split) <;> simp

@[simp] theorem kept_idleRecords (s : State) : (idleRecords s).kept = s.kept := by
  rfl

@[simp] theorem kept_dropAnswer (s : State) : (dropAnswer s).kept = s.kept := by
  simp [dropAnswer]

@[simp] theorem kept_stopExchange (s : State) : (stopExchange s).kept = s.kept := by
  rfl

@[simp] theorem kept_exchangeLevel (old new : Level) (s : State) : (exchangeLevel old new s).kept = s.kept := by
  unfold exchangeLevel; (repeat' split) <;> simp

@[simp] theorem kept_stepTime (t : ShipTime) (s : State) : (stepTime t s).kept = s.kept := by
  unfold stepTime; simp

@[simp] theorem kept_adjustTime (t : ShipTime) (s : State) : (adjustTime t s).kept = s.kept := by
  unfold adjustTime; dsimp only; (repeat' split) <;> simp

@[simp] theorem kept_offerMark (s : State) : (offerMark s).kept = s.kept := by
  unfold offerMark; simp

@[simp] theorem kept_sendMark (s : State) : (sendMark s).kept = s.kept := by
  unfold sendMark; simp

@[simp] theorem kept_settleMarks (s : State) : (settleMarks s).kept = s.kept := by
  unfold settleMarks; (repeat' split) <;> simp

@[simp] theorem kept_applyMark (m : Mark) (newMs : Nat) (s : State) : (applyMark m newMs s).kept = s.kept := by
  unfold applyMark; split <;> simp

@[simp] theorem kept_acceptMark (m : Mark) (station : Nat) (capture : Tick) (s : State) : (acceptMark m station capture s).kept = s.kept := by
  unfold acceptMark; dsimp only; (repeat' split) <;> simp

@[simp] theorem kept_takeSetTime (t : ShipTime) (shift : Int) (s : State) : (takeSetTime t shift s).kept = s.kept := by
  unfold takeSetTime; dsimp only; (repeat' split) <;> simp

@[simp] theorem kept_offerSensed (s : State) : (offerSensed s).kept = s.kept := by
  unfold offerSensed; dsimp only; (repeat' split) <;> simp

@[simp] theorem kept_offerDeclared (l : List Declared) (s : State) : (offerDeclared l s).kept = s.kept := by
  unfold offerDeclared; split <;> simp

@[simp] theorem kept_offerSegments (s : State) : (offerSegments s).kept = s.kept := by
  unfold offerSegments; dsimp only; (repeat' split) <;> simp

@[simp] theorem kept_startAdvertTimer (l : Level) (s : State) : (startAdvertTimer l s).kept = s.kept := by
  rfl

@[simp] theorem kept_clearChanged (s : State) : (clearChanged s).kept = s.kept := by
  rfl

@[simp] theorem kept_advertAnswered (a : OfferAnswer) (s : State) : (advertAnswered a s).kept = s.kept := by
  unfold advertAnswered; split <;> simp

@[simp] theorem kept_offerAdvert (s : State) : (offerAdvert s).kept = s.kept := by
  have h := kept_offer ⟨.routeAdvert, 255, advertPayload s, [], false⟩ s
  unfold offerAdvert
  simp_all

@[simp] theorem kept_makeTriggerDue (s : State) : (makeTriggerDue s).kept = s.kept := by
  unfold makeTriggerDue; (repeat' split) <;> simp

@[simp] theorem kept_countUnknown (n : Nat) (s : State) : (countUnknown n s).kept = s.kept := by
  induction n generalizing s with
  | zero => rfl
  | succ n ih => exact (ih _).trans rfl

@[simp] theorem kept_endOfChange (w : RouteWork) (s : State) : (endOfChange w s).kept = s.kept := by
  unfold endOfChange; split <;> simp

@[simp] theorem kept_putTable (w : RouteWork) (s : State) : (putTable w s).kept = s.kept := by
  rfl

@[simp] theorem kept_invalidate (lost : List Nat) (s : State) : (invalidate lost s).kept = s.kept := by
  unfold invalidate; simp

@[simp] theorem kept_settleLights (s : State) : (settleLights s).kept = s.kept := by
  rfl

@[simp] theorem kept_hearAdvert (source : Nat) (s : State) : (hearAdvert source s).kept = s.kept := by
  unfold hearAdvert; simp

@[simp] theorem kept_promptEcho (s : State) : (promptEcho s).kept = s.kept := by
  unfold promptEcho; split <;> simp

@[simp] theorem kept_takeAdvert (source : Nat) (payload : List Octet) (s : State) : (takeAdvert source payload s).kept = s.kept := by
  unfold takeAdvert; dsimp only; (repeat' split) <;> simp

@[simp] theorem kept_doQueryRoute (args : List Octet) (s : State) : (doQueryRoute args s).1.kept = s.kept := by
  unfold doQueryRoute; dsimp only; split <;> rfl

@[simp] theorem kept_evaluate (choose : Neighbour → Nat → Bool) (s : State) : (evaluate choose s).kept = s.kept := by
  unfold evaluate; dsimp only; (repeat' split) <;> simp

@[simp] theorem kept_recordChanged (i : Nat) (s : State) : (recordChanged i s).kept = s.kept := by
  unfold recordChanged; simp

@[simp] theorem kept_loseNeighbour (i : Nat) (s : State) : (loseNeighbour i s).kept = s.kept := by
  unfold loseNeighbour; simp

@[simp] theorem kept_sensedChange (s : State) (i : Nat) : (sensedChange s i).kept = s.kept := by
  unfold sensedChange; dsimp only; (repeat' split) <;> simp

@[simp] theorem kept_acceptLevel (line : Fin 8) (accepted : LineLevel) (s : State) : (acceptLevel line accepted s).kept = s.kept := by
  unfold acceptLevel
  exact (kept_foldl _ (fun s a => kept_sensedChange s a) _ _).trans rfl

@[simp] theorem kept_segmentAgainst (e : SegmentEntry) (c : Closure) (s : State) (i : Nat) : (segmentAgainst e c s i).kept = s.kept := by
  unfold segmentAgainst; (repeat' split) <;> simp

@[simp] theorem kept_takeSegment (s : State) (e : SegmentEntry) : (takeSegment s e).kept = s.kept := by
  unfold takeSegment
  (repeat' split)
  · rfl
  · rfl
  · exact kept_foldl _ (fun s a => kept_segmentAgainst e _ s a) _ _

@[simp] theorem kept_declareTaken (segment : Nat) (blocked : Bool) (s : State) : (declareTaken segment blocked s).kept = s.kept := by
  unfold declareTaken
  simp only [kept_offer_]
  exact (kept_foldl _ (fun s a => kept_segmentAgainst _ _ s a) _ _).trans rfl

@[simp] theorem kept_doDeclare (args : List Octet) (s : State) : (doDeclare args s).1.kept = s.kept := by
  unfold doDeclare; dsimp only; (repeat' split) <;> simp

@[simp] theorem kept_voidNotes (segment : Nat) (s : State) : (voidNotes segment s).kept = s.kept := by
  rfl

@[simp] theorem kept_clearCompleted (s : State) (n : ClearNote) : (clearCompleted s n).kept = s.kept := by
  unfold clearCompleted; split <;> simp

@[simp] theorem kept_monitorLevel (old new : Level) (s : State) : (monitorLevel old new s).kept = s.kept := by
  unfold monitorLevel; (repeat' split) <;> simp

@[simp] theorem kept_routeLevel (old new : Level) (s : State) : (routeLevel old new s).kept = s.kept := by
  unfold routeLevel; split <;> simp

@[simp] theorem kept_doReadRoute (args : List Octet) (s : State) : (doReadRoute args s).1.kept = s.kept := by
  rfl

@[simp] theorem kept_modPlate (i : Nat) (f : Plate → Plate) (s : State) : (modPlate i f s).kept = s.kept := by
  rfl

@[simp] theorem kept_comparePlate (i : Nat) (s : State) : (comparePlate i s).kept = s.kept := by
  unfold comparePlate; (repeat' split) <;> simp

@[simp] theorem kept_retarget (i : Nat) (s : State) : (retarget i s).kept = s.kept := by
  unfold retarget; simp

@[simp] theorem kept_retargetAll (s : State) : (retargetAll s).kept = s.kept := by
  exact kept_foldl _ (fun s i => kept_retarget i s) _ _

@[simp] theorem kept_compareAll (s : State) : (compareAll s).kept = s.kept := by
  exact kept_foldl _ (fun s i => kept_comparePlate i s) _ _

@[simp] theorem kept_startOne (s : State) : (startOne s).kept = s.kept := by
  unfold startOne; (repeat' split) <;> simp

@[simp] theorem kept_settleRefreshes (s : State) : (settleRefreshes s).kept = s.kept := by
  unfold settleRefreshes; simp

@[simp] theorem kept_modRefresh (i : Nat) (f : Refresh → Refresh) (s : State) : (modRefresh i f s).kept = s.kept := by
  rfl

@[simp] theorem kept_leaveFlight (i : Nat) (s : State) : (leaveFlight i s).kept = s.kept := by
  rfl

@[simp] theorem kept_completeRefresh (r : Refresh) (s : State) : (completeRefresh r s).kept = s.kept := by
  unfold completeRefresh; simp

@[simp] theorem kept_failRefresh (i : Nat) (s : State) : (failRefresh i s).kept = s.kept := by
  unfold failRefresh; simp

@[simp] theorem kept_enterDrive (i : Nat) (s : State) : (enterDrive i s).kept = s.kept := by
  rfl

@[simp] theorem kept_requeueFront (i : Nat) (s : State) : (requeueFront i s).kept = s.kept := by
  unfold requeueFront; simp

@[simp] theorem kept_cancelOne (s : State) (i : Nat) : (cancelOne s i).kept = s.kept := by
  unfold cancelOne; split <;> simp

@[simp] theorem kept_cancelLoads (s : State) : (cancelLoads s).kept = s.kept := by
  exact kept_foldl _ (fun s i => kept_cancelOne s i) _ _

@[simp] theorem kept_loadOutcome (i : Nat) (ok : Bool) (s : State) : (loadOutcome i ok s).kept = s.kept := by
  unfold loadOutcome; (repeat' split) <;> simp

@[simp] theorem kept_driveReading (i : Nat) (d : DriveStatus) (s : State) : (driveReading i d s).kept = s.kept := by
  unfold driveReading; (repeat' split) <;> simp

@[simp] theorem kept_lossRefresh (i : Nat) (s : State) : (lossRefresh i s).kept = s.kept := by
  unfold lossRefresh; split <;> simp

@[simp] theorem kept_shortPressRefresh (i : Nat) (s : State) : (shortPressRefresh i s).kept = s.kept := by
  unfold shortPressRefresh; simp

@[simp] theorem kept_reportPlate (i : Nat) (s : State) : (reportPlate i s).kept = s.kept := by
  unfold reportPlate; split <;> simp

@[simp] theorem kept_reportAtMuster (i : Nat) (s : State) : (reportAtMuster i s).kept = s.kept := by
  unfold reportAtMuster; split <;> simp

@[simp] theorem kept_buildReport (s : State) : (buildReport s).kept = s.kept := by
  have h := kept_offer ⟨.cabinReport, 128, cabinPayload (s.muster.pendingReports.take 6), [], false⟩
    (s.modMuster fun m => { m with pendingReports := m.pendingReports.drop 6 })
  unfold buildReport
  simp only
  split <;> simp_all

@[simp] theorem kept_settleReports (s : State) : (settleReports s).kept = s.kept := by
  unfold settleReports; split <;> simp

@[simp] theorem kept_sweepByPress (i : Nat) (swept : Bool) (s : State) : (sweepByPress i swept s).kept = s.kept := by
  unfold sweepByPress; simp

@[simp] theorem kept_startTransaction (position : Nat) (op : ChainOp) (s : State) : (startTransaction position op s).kept = s.kept := by
  rfl

@[simp] theorem kept_startPoll (position : Nat) (s : State) : (startPoll position s).kept = s.kept := by
  rfl

@[simp] theorem kept_arbitrate (s : State) : (arbitrate s).kept = s.kept := by
  unfold arbitrate; (repeat' split) <;> simp

@[simp] theorem kept_settle (s : State) : (settle s).kept = s.kept := by
  unfold settle; simp

@[simp] theorem kept_losePlate (i : Nat) (s : State) : (losePlate i s).kept = s.kept := by
  unfold losePlate; simp

@[simp] theorem kept_healthFailed (i : Nat) (s : State) : (healthFailed i s).kept = s.kept := by
  unfold healthFailed; (repeat' split) <;> simp

@[simp] theorem kept_healthComplete (i : Nat) (s : State) : (healthComplete i s).kept = s.kept := by
  unfold healthComplete; (repeat' split) <;> simp

@[simp] theorem kept_pressAtMuster (i : Nat) (swept : Bool) (s : State) : (pressAtMuster i swept s).kept = s.kept := by
  unfold pressAtMuster; (repeat' split) <;> simp

@[simp] theorem kept_pressReport (i : Nat) (t : PressTaken) (s : State) : (pressReport i t s).kept = s.kept := by
  unfold pressReport; (repeat' split) <;> simp

@[simp] theorem kept_takeButton (i : Nat) (held : Bool) (s : State) : (takeButton i held s).kept = s.kept := by
  unfold takeButton; split <;> simp

@[simp] theorem kept_takeSwitches (i : Nat) (dnd mur : Bool) (s : State) : (takeSwitches i dnd mur s).kept = s.kept := by
  unfold takeSwitches; (repeat' split) <;> simp

@[simp] theorem kept_takeDrive (i : Nat) (d : DriveStatus) (s : State) : (takeDrive i d s).kept = s.kept := by
  unfold takeDrive; simp

@[simp] theorem kept_takeReadings (i : Nat) (r : Readings) (s : State) : (takeReadings i r s).kept = s.kept := by
  unfold takeReadings; simp

@[simp] theorem kept_nextPoll (t : Transaction) (s : State) : (nextPoll t s).kept = s.kept := by
  rfl

@[simp] theorem kept_engineIdle (s : State) : (engineIdle s).kept = s.kept := by
  rfl

@[simp] theorem kept_transactionFailed (t : Transaction) (s : State) : (transactionFailed t s).kept = s.kept := by
  unfold transactionFailed; split <;> simp

@[simp] theorem kept_transactionEnded (t : Transaction) (reply : List Octet) (s : State) : (transactionEnded t reply s).kept = s.kept := by
  unfold transactionEnded; (repeat' split) <;> simp

@[simp] theorem kept_loseAll (s : State) : (loseAll s).kept = s.kept := by
  exact kept_foldl _ (fun s i => kept_losePlate i s) _ _

@[simp] theorem kept_outOfService (r : ChainResult) (s : State) : (outOfService r s).kept = s.kept := by
  unfold outOfService; simp

@[simp] theorem kept_testPassed (s : State) : (testPassed s).kept = s.kept := by
  unfold testPassed; dsimp only; (repeat' split) <;> simp

@[simp] theorem kept_applyResult (r : ChainResult) (s : State) : (applyResult r s).kept = s.kept := by
  unfold applyResult; split <;> simp

@[simp] theorem kept_resetPulse (s : State) : (resetPulse s).kept = s.kept := by
  rfl

@[simp] theorem kept_requestTest (s : State) : (requestTest s).kept = s.kept := by
  unfold requestTest; simp

@[simp] theorem kept_doReadPlate (args : List Octet) (s : State) : (doReadPlate args s).1.kept = s.kept := by
  rfl

@[simp] theorem kept_purgeProgramme (s : State) : (purgeProgramme s).kept = s.kept := by
  unfold purgeProgramme; simp

@[simp] theorem kept_resetSweeps (s : State) : (resetSweeps s).kept = s.kept := by
  rfl

@[simp] theorem kept_clearRoll (s : State) : (clearRoll s).kept = s.kept := by
  unfold clearRoll; split <;> simp

@[simp] theorem kept_startSweepRefresh (s : State) : (startSweepRefresh s).kept = s.kept := by
  unfold startSweepRefresh; split <;> simp

@[simp] theorem kept_ownLevelWork (old new : Level) (s : State) : (ownLevelWork old new s).kept = s.kept := by
  unfold ownLevelWork; (repeat' split) <;> simp

@[simp] theorem kept_changeLevel (old new : Level) (s : State) : (changeLevel old new s).kept = s.kept := by
  unfold changeLevel; split <;> simp

@[simp] theorem kept_restartEcho (s : State) : (restartEcho s).kept = s.kept := by
  unfold restartEcho; split <;> simp

@[simp] theorem kept_offerOrder (o : Order) (echo : Bool) (s : State) : (offerOrder o echo s).kept = s.kept := by
  unfold offerOrder; simp

@[simp] theorem kept_offerEcho (s : State) : (offerEcho s).kept = s.kept := by
  unfold offerEcho; simp

@[simp] theorem kept_recordEffects (old new : OrderRecord) (s : State) : (recordEffects old new s).kept = s.kept := by
  unfold recordEffects; (repeat' split) <;> simp

@[simp] theorem kept_countConflict (s : State) : (countConflict s).kept = s.kept := by
  rfl

@[simp] theorem kept_refuseOrder (s : State) : (refuseOrder s).kept = s.kept := by
  rfl

@[simp] theorem kept_cancelPrompted (payload : List Octet) (s : State) : (cancelPrompted payload s).kept = s.kept := by
  unfold cancelPrompted; split <;> simp

@[simp] theorem kept_reportAll (s : State) : (reportAll s).kept = s.kept := by
  exact kept_foldl _ (fun s i => kept_reportPlate i s) _ _

@[simp] theorem kept_updateRoll (e q : RollEntry) (s : State) : (updateRoll e q s).kept = s.kept := by
  unfold updateRoll; simp

@[simp] theorem kept_putRoll (e : RollEntry) (s : State) : (putRoll e s).kept = s.kept := by
  unfold putRoll; (repeat' split) <;> simp

@[simp] theorem kept_takeCabin (station : Nat) (s : State) (c : CabinRecord) : (takeCabin station s c).kept = s.kept := by
  unfold takeCabin; (repeat' split) <;> simp

@[simp] theorem kept_takeCabins (station : Nat) (payload : List Octet) (s : State) : (takeCabins station payload s).kept = s.kept := by
  unfold takeCabins
  (repeat' split)
  · exact kept_foldl _ (fun s a => kept_takeCabin station s a) _ _
  · rfl
  · rfl

@[simp] theorem kept_doReadRoll (args : List Octet) (s : State) : (doReadRoll args s).1.kept = s.kept := by
  rfl

@[simp] theorem kept_holdTransmit (begun : Nat) (s : State) : (holdTransmit begun s).kept = s.kept := by
  rfl

@[simp] theorem kept_setPhase (p : TxPhase) (s : State) : (setPhase p s).kept = s.kept := by
  rfl

@[simp] theorem kept_enterWaiting (s : State) : (enterWaiting s).kept = s.kept := by
  rfl

@[simp] theorem kept_releaseTransmit (s : State) : (releaseTransmit s).kept = s.kept := by
  unfold releaseTransmit; (repeat' split) <;> simp

@[simp] theorem kept_supplyReformed (before : SupplyState) (begun : Nat) (s : State) : (supplyReformed before begun s).kept = s.kept := by
  unfold supplyReformed; dsimp only; (repeat' split) <;> simp

@[simp] theorem kept_startPresence (s : State) : (startPresence s).kept = s.kept := by
  rfl

@[simp] theorem kept_stopTimers (s : State) : (stopTimers s).kept = s.kept := by
  rfl

@[simp] theorem kept_countFraming (s : State) : (countFraming s).kept = s.kept := by
  rfl

@[simp] theorem kept_restartWait (s : State) : (restartWait s).kept = s.kept := by
  unfold restartWait; (repeat' split) <;> simp

@[simp] theorem kept_beginSending (u : TxBuffer) (s : State) : (beginSending u s).kept = s.kept := by
  rfl

@[simp] theorem kept_markCompleted (f : TxFrame) (s : State) : (markCompleted f s).kept = s.kept := by
  unfold markCompleted; dsimp only; (repeat' split) <;> simp

@[simp] theorem kept_reportDone (s : State) : (reportDone s).kept = s.kept := by
  rfl

@[simp] theorem kept_tellComplete (f : TxFrame) (s : State) : (tellComplete f s).kept = s.kept := by
  unfold tellComplete
  split <;> first | simp | rfl | exact kept_foldl _ (fun s a => kept_clearCompleted s a) _ _

@[simp] theorem kept_tellNotSent (f : TxFrame) (s : State) : (tellNotSent f s).kept = s.kept := by
  unfold tellNotSent; split <;> simp

@[simp] theorem kept_emptyBuffer (s : State) : (emptyBuffer s).kept = s.kept := by
  unfold emptyBuffer; simp

@[simp] theorem kept_settleSend (s : State) : (settleSend s).kept = s.kept := by
  unfold settleSend; simp

@[simp] theorem kept_enterBackoff (u : TxBuffer) (s : State) : (enterBackoff u s).kept = s.kept := by
  unfold enterBackoff; dsimp only; (repeat' split) <;> simp

@[simp] theorem kept_jamEnded (u : TxBuffer) (s : State) : (jamEnded u s).kept = s.kept := by
  unfold jamEnded; (repeat' split) <;> simp

end Sys2Proof.Machine
end

