-- ==== Sys2Proof/Laws/Lines.lean ====
section
/-! SUPPORT. What a sample does to a line filter, and how a step leaves the path lights and the attention line: one statement each, to be cited in place of unfolding. -/

namespace Sys2Proof.Machine

/-- A sample keeps a run count within 20 (R79). -/
theorem filterStep_run_le {α : Type} [DecidableEq α] (sample candidate : α) (run : Nat) (h : run ≤ 20) :
    (filterStep sample candidate run).2 ≤ 20 := by
  unfold filterStep Config.filterRun
  (repeat' split) <;> simp_all

/-- After a sample the candidate is the sample (R79). -/
theorem filterStep_candidate {α : Type} [DecidableEq α] (sample candidate : α) (run : Nat) :
    (filterStep sample candidate run).1 = sample := by
  unfold filterStep
  split
  · rename_i h
    exact h.symm
  · rfl

/-- A stopped filter takes no sample. -/
theorem Filter.tick_stopped (level : LineLevel) {f : Filter} (h : f.candidate = none) : f.tick level = f := by
  simp [Filter.tick, h]

/-- A filter that has had this millisecond's sample takes no second one (log entry 35). -/
theorem Filter.tick_sampled (level : LineLevel) {f : Filter} {c : LineLevel} (h : f.candidate = some c) (hs : f.sampled = true) :
    f.tick level = { f with sampled := false } := by
  simp [Filter.tick, h, hs]

/-- The accepted level changes by SENSE_LINE_ACCEPT alone, never by a tick. -/
theorem Filter.tick_accepted (level : LineLevel) (f : Filter) : (f.tick level).accepted = f.accepted := by
  unfold Filter.tick
  (repeat' split) <;> rfl

/-- The attention line after it has been settled: outside RESET it is asserted when an enabled flag is set and the pacing has passed (R172). -/
theorem attention_settled (s : State) (h : (settleAttention s).node.state ≠ .reset) (he : enabledFlag (settleAttention s) = true)
    (hp : pacingPassed (settleAttention s) = true) : (settleAttention s).events.attention = true := by
  unfold settleAttention at *
  (repeat' split at *) <;> simp_all [State.modEvents, enabledFlag]

/-- A line asserted by settling was asserted now, the pacing having passed since the last assertion (R172). -/
theorem attention_asserted (s : State) (h0 : s.events.attention = false) (h1 : (settleAttention s).events.attention = true) :
    (settleAttention s).events.lastAssert = some s.time.now ∧ pacingPassed s = true := by
  unfold settleAttention at *
  (repeat' split at *) <;> simp_all [State.modEvents]

/-- The attention line has no part in the path lights. -/
theorem lampsNow_settleAttention (s : State) : lampsNow (settleAttention s) = lampsNow s := by
  obtain ⟨a, l, h⟩ := settleAttention_eq s
  rw [h]
  rfl

/-- Re-evaluated path lights are sound, and settling the attention line after leaves them so (R106). -/
theorem lightsSound_settled (s : State) : (settleAttention (settleLights s)).lightsSound := by
  unfold State.lightsSound
  rw [lampsNow_settleAttention]
  obtain ⟨a, l, h⟩ := settleAttention_eq (settleLights s)
  rw [h]
  rfl

/-- The end of a step leaves the path lights sound, whatever the step did (R106). -/
theorem lightsSound_settle (s : State) : (settle s).lightsSound := lightsSound_settled _

end Sys2Proof.Machine
end

