-- ==== Sys2Proof/WellFormed.lean ====
section
/-! DEFINITION. WellFormed: the bounds a command's operands have in the manual.
No meaning rests on these checks: exec is total on every operand. -/

namespace Sys2Proof

/-- The station number lies in 1..127 (Table 2-2). -/
def stationOk (n : Nat) : Bool := decide (1 ≤ n ∧ n ≤ 127)

/-- A command block holds up to 32 octets, the code among them (Table 11-1). -/
def argsOk (args : List Octet) : Bool := decide (args.length ≤ 31)

/-- A whole command block holds up to 32 octets (Table 11-1). -/
def blockOk (block : List Octet) : Bool := decide (block.length ≤ 32)

/-- The operands are within the bounds the manual gives them. -/
def Instr.wf : Instr → Bool
  | .resetRelease mv _ => decide (15000 ≤ mv)
  | .imageLoadDone image => decide (image.length = 256)
  | .voltageCrossing _ begun => decide (begun ≤ 60)
  | .sourceHold st => stationOk st
  | .frameReceived payload _ _ => decide (payload.length ≤ 52)
  | .requestTimer p => stationOk p
  | .presenceTimer i => decide (i < 6)
  | .driveTimer p => decide (p < 12)
  | .transactionEnd reply => decide (reply.length = 2 ∨ reply.length = 3)
  | .publishItem a | .withdrawItem a | .declareSegment a | .queryRoute a | .issueOrder a | .readRoll a
  | .testChain a | .readPlate a | .readView a | .readItem a | .readRoute a | .readEvents a | .setEventMask a
  | .readCounters a | .clearCounters a | .setTime a | .restart a => argsOk a
  | .unknownCommand b | .commandOverrun b => blockOk b
  | .fullReset _ | .joinTimer | .sourceLineAccept | .dayWrap | .comparatorMatch | .timeMark | .markTimer
  | .frameHeader .. | .frameEndShort _ | .transmitBegin _ | .collision | .jamEnd | .backoffEnd
  | .transmitComplete | .abortedTailEnd | .programmeItem | .programmeSummary | .itemRequest | .summaryTimer
  | .earlySummary | .answerHold | .senseLineAccept _ | .segmentState | .routeAdvert | .advertTimer
  | .triggeredAdvert | .musterOrder | .standDownTimer | .echoTimer | .joinPromptEcho | .sweepRefreshTimer
  | .cabinReport | .pollDue _ | .busyReleaseStart | .chainStall | .chainTimeout | .chainResetPulseEnd
  | .lineTestStart | .lineTestEnd .. | .responseRead | .attentionPacing | .startOctet .. | .followedFrameEnd
  | .senseLineChange .. | .sourceLineChange _ => true

end Sys2Proof
end

