-- ==== Sys2Proof/Tests/Slice0.lean ====
section
/-! SUPPORT. Tests: what the well-formedness check refuses, small checks of the layouts and the commands,
and for each obligation with hypotheses a concrete state that meets them. -/

namespace Sys2Proof.Tests

open Sys2Proof.Machine

/-! ### Well-formedness: one term for each check that it refuses -/

theorem test_wf_voltage_below_15V : (Instr.resetRelease 14999 .mains).wf = false := by decide
theorem test_wf_image_length : (Instr.imageLoadDone [1, 2]).wf = false := by decide
theorem test_wf_octets_begun : (Instr.voltageCrossing .below18V0 61).wf = false := by decide
theorem test_wf_station_zero : (Instr.sourceHold 0).wf = false := by decide
theorem test_wf_station_over_127 : (Instr.requestTimer 128).wf = false := by decide
theorem test_wf_payload_over_52 : (Instr.frameReceived (List.replicate 53 0) 0 0).wf = false := by decide
theorem test_wf_neighbour_index : (Instr.presenceTimer 6).wf = false := by decide
theorem test_wf_chain_position : (Instr.driveTimer 12).wf = false := by decide
theorem test_wf_reply_length : (Instr.transactionEnd [0]).wf = false := by decide
theorem test_wf_arguments_over_31 : (Instr.readView (List.replicate 32 0)).wf = false := by decide
theorem test_wf_block_over_32 : (Instr.unknownCommand (List.replicate 33 0)).wf = false := by decide
theorem test_wf_bounds_are_let_in : (Instr.resetRelease 15000 .mains).wf = true ∧ (Instr.sourceHold 127).wf = true
    ∧ (Instr.presenceTimer 5).wf = true ∧ (Instr.driveTimer 11).wf = true := by decide

/-! ### A configured node -/

/-- A corridor to station 7. -/
def corridor : NeighbourConfig := ⟨7, 40, 2, .corridor, 3, .a, none⟩

/-- A fire closure to station 8 on sense line 2, closed when high. -/
def fireDoor : NeighbourConfig := ⟨8, 41, 1, .fireClosure, 0, .none, some (2, .high)⟩

/-- A configuration of station 5 in zone 3 that holds every role. -/
def cfg : Configuration :=
  { station := 5, zone := 3, deck := 2, roles := ⟨true, true, true, true, true⟩, authorities := [5, 9],
    neighbours := [corridor, fireDoor], destinations := [⟨100, .muster, false⟩, ⟨200, .muster, true⟩], venues := [300],
    pathCode := 100, chase := 0, plates := [⟨1201, 100⟩], pacing := 0 }

/-- The same with no role. -/
def plainCfg : Configuration := { cfg with roles := ⟨false, false, false, false, false⟩, plates := [] }

/-- A node of a configuration in a node state, at counter 100,000 and ship time 10/10:00:00.000. -/
def node (c : Configuration) (n : NodeState) : State :=
  let s := installConfig c { State.reset with
    time := { Timebase.reset with now := 100000, isSet := true, ship := ⟨10, 600, 0, 0⟩ } }
  { s with node := { s.node with state := n }, chain := { s.chain with service := .inService } }

/-- In RUN with every role. -/
def run : State := node cfg .run

/-- In RUN with no role. -/
def plain : State := node plainCfg .run

/-- A timer that has expired at counter 100,000. -/
def late : Option Timer := some ⟨0, 1000⟩

/-- A received frame. -/
def rx (kind : FrameKind) (source : Nat) (payload : List Octet) : RxFrame := ⟨kind, source, 255, 9, payload, 99000⟩

/-- An order for a zone mask under a serial. -/
def order (serial : Octet) (level zones : Octet) : List Octet := [9, serial, 0, level, 0, zones, 0]

/-- The node with an order record. -/
def under (serial : Nat) (l : Level) (s : State) : State :=
  { s with muster := { s.muster with
      record := { OrderRecord.reset with authority := some 9, serial := serial, level := l, zones := 8 }, highestSeen := serial } }

/-- The node with a frame in the transmit buffer. -/
def buffered (kind : FrameKind) (attempts : Nat) (p : TxPhase) (s : State) : State :=
  { s with bus := { s.bus with
      buffer := some { frame := ⟨kind, 255, 3, [0, 0, 0, 0, 0, 0, 0, 1], [], false⟩, attempts, phase := p, capture := none, condemned := false } } }

/-- The node with a frame at the head of an owner queue. -/
def heard (f : RxFrame) (s : State) : State := { s with bus := placeReceived f s.bus }

/-- What holds after a command. -/
def after (c : Instr) (s : State) (p : State → Bool) : Bool :=
  match exec c s with
  | .next t => p t
  | _ => false

/-- The port with a response for the command. -/
def answered (r : List Octet) (t : State) : Bool := decide (t.port.state = .ready ∧ t.port.response = r)

/-! ### Layouts -/

/-- The check of R173 on the nine octets 31h to 39h. -/
theorem test_check_value : check16 [0x31, 0x32, 0x33, 0x34, 0x35, 0x36, 0x37, 0x38, 0x39] = 0x29B1 := by decide +kernel

theorem test_item_body_octets : readBody [5, 1, 0, 2, 0, 0x02, 10, 60, 0, 30, 0, 44, 1, 7, 0, 0]
    = some ⟨5, 1, 2, .scheduled, .activity, 10, 60, 30, 300, 7, none⟩ := by decide

theorem test_order_octets : readOrder [9, 4, 0, 0x2A, 1, 8, 0, 10, 60, 0, 30, 100, 0, 200, 0]
    = some ⟨9, 4, .muster, true, 8, some ⟨10, 60, 30⟩, [⟨100, 200⟩]⟩ := by decide

theorem test_advert_octets : readAdvert [1, 100, 0x0C, 7] = some (true, [⟨100, 3, 7⟩]) := by decide

theorem test_mark_octets : readMark [10, 60, 0, 30, 0xE8, 0x00, 0xC4, 1] = some ⟨⟨10, 60, 30, 232⟩, -60⟩ := by decide

theorem test_day_offset_is_circular : offsetOf 368639 0 = 1 ∧ atOrBefore 0 368639 = true ∧ atOrBefore 368639 0 = false := by decide

theorem test_sensed_octets : sensedPayload [{ loadedNeighbour fireDoor with closure := .closed }] = [41, 0, 1] := by decide
/-! ### Commands, one small step each -/

theorem test_full_reset : after (.fullReset .brownOut) run (fun t => decide (t.node.state = .reset ∧ t.time.now = 0)) = true := by decide
theorem test_reset_release : after (.resetRelease 18999 .emergency) State.reset
    (fun t => decide (t.node.state = .loading ∧ supplyState t = .critical)) = true := by decide
theorem test_bad_image : after (.imageLoadDone []) (node cfg .loading)
    (fun t => decide (t.node.state = .fault ∧ t.node.loadResult = .badCheck)) = true := by decide +kernel
theorem test_join_timer : after .joinTimer { run with node := { run.node with state := .joining, joinTimer := late } }
    (fun t => decide (t.node.state = .run ∧ t.node.joinTimer = none)) = true := by decide
theorem test_voltage_crossing : after (.voltageCrossing .below20V0 0) run
    (fun t => decide (supplyState t = .low) && eventSet .supply t) = true := by decide
theorem test_source_change : after (.sourceLineChange .emergency) run
    (fun t => decide (t.supply.candidate = .emergency ∧ t.supply.run = 1)) = true := by decide
theorem test_source_accept : after .sourceLineAccept
    { run with supply := { run.supply with candidate := .emergency, run := 20 } }
    (fun t => decide (supplyState t = .emergency)) = true := by decide
theorem test_day_wrap : after .dayWrap { run with time := { run.time with ship := .last } }
    (fun t => decide (t.time.ship = ⟨0, 0, 0, 0⟩) && eventSet .time t) = true := by decide
theorem test_source_hold : after (.sourceHold 7) { run with time := { run.time with sources := [⟨7, ⟨0, 0, 0, 0⟩, 0⟩] } }
    (fun t => decide (t.time.sources = []) && eventSet .time t) = true := by decide
theorem test_time_mark_steps : after .timeMark (heard (rx .timeMark 3 [10, 60, 0, 30, 0, 0, 0, 1]) run)
    (fun t => decide (t.time.ship = ⟨10, 60, 31, 0⟩) && eventSet .time t) = true := by decide
theorem test_mark_timer : after .markTimer { run with time := { run.time with markTimer := late } }
    (fun t => decide (t.time.markTimer = some ⟨100000, 20000⟩)) = true := by decide
theorem test_set_time : after (.setTime [1, 2, 0, 3, 4, 0, 60]) run
    (fun t => decide (t.time.ship = ⟨1, 2, 3, 4⟩ ∧ t.time.pendingShift = 60) && answered [0] t) = true := by decide
theorem test_start_octet : after (.startOctet 12 0xC5 true) run
    (fun t => decide (t.bus.receiver = .frame 100000 none)) = true := by decide
theorem test_start_octet_too_soon : after (.startOctet 11 0xC5 true) run (fun t => decide (t = run)) = true := by decide
theorem test_header_kept : after (.frameHeader 6 9 255 1 7) { run with bus := { run.bus with receiver := .frame 5 none } }
    (fun t => decide (t.bus.receiver = .frame 5 (some ⟨.musterOrder, 9, 255, 1, 7⟩))) = true := by decide
theorem test_frame_cut : after (.frameEndShort .silence) { run with bus := { run.bus with receiver := .frame 5 none } }
    (fun t => decide (t.bus.receiver = .hunt ∧ t.counters.framingErrors = 1)) = true := by decide
theorem test_check_error : after (.frameReceived [] 0 0)
    { run with bus := { run.bus with receiver := .frame 5 (some ⟨.routeAdvert, 7, 255, 1, 0⟩) } }
    (fun t => decide (t.counters.checkErrors = 1 ∧ t.bus.routeQ = [])) = true := by decide +kernel
theorem test_bad_start_octet_restarts_the_wait : after (.frameEndShort .badStartOctet) (buffered .routeAdvert 0 (.waiting 6) run)
    (fun t => decide (t.counters.framingErrors = 1 ∧ t.free = 1)) = true := by decide
theorem test_followed_end : after .followedFrameEnd { run with bus := { run.bus with receiver := .follow 9 } }
    (fun t => decide (t.bus.receiver = .hunt)) = true := by decide
theorem test_transmit_waits_for_the_gap : after (.transmitBegin 33) (buffered .programmeItem 0 (.waiting 6) run)
    (fun t => decide (t.bus.buffer.map (·.phase) = some (.waiting 6))) = true := by decide
theorem test_collision : after .collision (buffered .routeAdvert 0 (.sending [0xC5] false) run)
    (fun t => decide (t.bus.buffer.map (·.attempts) = some 1 ∧ t.counters.collisions = 1)) = true := by decide
theorem test_eighth_collision : after .jamEnd (buffered .routeAdvert 8 .jamming run)
    (fun t => decide (t.bus.buffer = none ∧ t.counters.discards = 1) && eventSet .transmitLoss t) = true := by decide
theorem test_backoff_in_held : after .backoffEnd (buffered .routeAdvert 1 (.held (some 3)) run)
    (fun t => decide (t.bus.buffer.map (·.phase) = some (.held none))) = true := by decide
theorem test_transmit_complete : after .transmitComplete (buffered .routeAdvert 0 (.sending [0xC5] false) run)
    (fun t => decide (t.bus.buffer = none ∧ t.counters.framesSent = 1)) = true := by decide
theorem test_aborted_end : after .abortedTailEnd (buffered .routeAdvert 0 (.sending [0xC5] true) run)
    (fun t => decide (t.bus.buffer = none ∧ t.counters.aborted = 1)) = true := by decide

/-- An item that runs from 10/10:00 for thirty minutes. -/
def item : ItemBody := ⟨6, 1, 1, .scheduled, .activity, 10, 600, 30, 300, 7, none⟩

/-- The node with that item PENDING in its table and the comparator at its start. -/
def stocked : State :=
  { run with store := { run.store with table := [⟨item, .pending⟩], generation := 1, comparator := some 15000 },
             exch := { run.exch with records := [{ newRecord 6 with highWater := 1, settled := 1 }] } }

theorem test_comparator_match : after .comparatorMatch stocked
    (fun t => decide (t.store.table.map (·.phase) = [.onNow] ∧ t.store.generation = 2 ∧ t.store.comparator = some 15030)) = true := by decide
theorem test_item_received : after .programmeItem (heard (rx .programmeItem 6 (1 :: item.octets)) run)
    (fun t => decide (t.store.table.map (·.body) = [item] ∧ highWaterOf 6 t = 1)) = true := by decide
theorem test_bad_item : after .programmeItem (heard (rx .programmeItem 6 [1, 0]) run)
    (fun t => decide (t.counters.badItems = 1 ∧ t.bus.programmeQ = [])) = true := by decide
theorem test_summary_shows_a_gap : after .programmeSummary (heard (rx .programmeSummary 7 [6, 3, 0]) run)
    (fun t => decide ((recordOf 6 t).map (fun r => (r.waiting, r.attempts)) = some (true, 1))) = true := by decide
theorem test_request_kept : after .itemRequest (heard (rx .itemRequest 7 [6, 0, 0]) stocked)
    (fun t => decide (t.exch.active.map (·.entry) = some ⟨7, 6, 0, 9⟩)) = true := by decide
theorem test_summary_timer : after .summaryTimer { run with exch := { run.exch with summaryTimer := late } }
    (fun t => decide (t.exch.summaryTimer.map (·.start) = some 100000)) = true := by decide
theorem test_early_summary : after .earlySummary { run with exch := { run.exch with early := late } }
    (fun t => decide (t.exch.early = none)) = true := by decide

/-- The node with a WAITING record of station 6. -/
def waiting (attempts : Nat) : State :=
  { run with exch := { run.exch with records := [{ newRecord 6 with waiting := true, attempts, timer := late }] } }

theorem test_request_fails : after (.requestTimer 6) (waiting 3)
    (fun t => eventSet .catchUpFailed t && decide ((recordOf 6 t).map (·.waiting) = some false)) = true := by decide
theorem test_request_repeats : after (.requestTimer 6) (waiting 2)
    (fun t => decide ((recordOf 6 t).map (fun r => (r.attempts, r.reqSeq)) = some (3, some 0))) = true := by decide

/-- The node with an active answer whose hold has run out. -/
def holding : State :=
  { stocked with exch := { stocked.exch with active := some ⟨⟨7, 6, 0, 9⟩, .hold ⟨0, 400⟩, 0, false, false⟩ } }

theorem test_answer_hold : after .answerHold holding
    (fun t => decide (t.exch.active.map (fun a => (a.lastSent, a.outstanding)) = some (1, true))) = true := by decide

/-- The arguments of PUBLISH ITEM for that item. -/
def publishArgs : List Octet := [1, 0, 0x02, 10, 0x58, 0x02, 30, 0, 44, 1, 7, 0, 0]

theorem test_publish : after (.publishItem publishArgs) run
    (fun t => answered [0, 1, 0, 5] t && decide (t.store.table.length = 1)) = true := by decide
theorem test_publish_without_role : after (.publishItem publishArgs) plain (answered [2]) = true := by decide
theorem test_withdraw : after (.withdrawItem [1, 0])
    { run with store := { run.store with table := [⟨{ item with publisher := 5 }, .onNow⟩] } }
    (fun t => answered [0, 1, 0, 2] t) = true := by decide
theorem test_read_item_stale : after (.readItem [0, 0, 0]) stocked (answered [7]) = true := by decide
theorem test_read_item : after (.readItem [0, 1, 0]) stocked (answered (0 :: item.octets ++ [0])) = true := by decide

/-- The node with both neighbours UP, their timers expired, and the route to 100 over the first. -/
def routed : State :=
  { run with
    mon := { run.mon with neighbours := run.mon.neighbours.map fun n => { n with presence := .up, presenceTimer := late } },
    route := { run.route with table := run.route.table.map fun e =>
      if e.code = 100 then { e with state := .valid, distance := 2, nextHop := some 0 } else e } }

theorem test_presence_timer : after (.presenceTimer 0) routed
    (fun t => decide (t.route.table.map (·.state) = [.unreachable, .isLocal]) && eventSet .neighbour t && eventSet .route t)
    = true := by decide
theorem test_sense_change : after (.senseLineChange 2 .high) run
    (fun t => decide (t.mon.filters[2].candidate = some .high ∧ t.mon.filters[2].run = 1)) = true := by decide
theorem test_sense_accept : after (.senseLineAccept 2)
    { run with mon := { run.mon with filters := run.mon.filters.set 2 ⟨none, some .high, 20, false⟩ } }
    (fun t => decide (t.mon.neighbours.map (·.closure) = [.opened, .closed]) && eventSet .segment t) = true := by decide
theorem test_segment_state : after .segmentState (heard (rx .segmentState 7 [40, 0, 12]) run)
    (fun t => decide (t.mon.neighbours.map (·.passable) = [false, true])) = true := by decide
theorem test_declare : after (.declareSegment [40, 0, 1]) run
    (fun t => decide (t.mon.declared = [⟨40, true, 0⟩] ∧ t.mon.neighbours.map (·.blocked) = [true, false]) && answered [0] t)
    = true := by decide
theorem test_advert : after .routeAdvert (heard (rx .routeAdvert 7 [0, 100, 0x04, 9]) run)
    (fun t => decide (t.route.table.map (fun e => (e.distance, e.nextHop)) = [(3, some 0), (0, none)])) = true := by decide
theorem test_advert_over_itself : after .routeAdvert (heard (rx .routeAdvert 7 [0, 100, 0x04, 5]) run)
    (fun t => decide (t.route.table.map (·.distance) = [63, 0])) = true := by decide
theorem test_advert_timer : after .advertTimer { run with route := { run.route with advertTimer := late } }
    (fun t => decide (t.bus.buffer.map (·.frame.payload) = some [0, 100, 0xFC, 0, 200, 0, 0])) = true := by decide
theorem test_triggered_advert : after .triggeredAdvert { run with route := { run.route with trigger := late } }
    (fun t => decide (t.route.trigger = none ∧ t.route.lastOffer = some 100000)) = true := by decide
theorem test_query_route : after (.queryRoute [100, 0]) routed
    (answered [0, 100, 0, 100, 0, 0x10, 2, 7, 3, 0]) = true := by decide
theorem test_read_route : after (.readRoute [3]) run (answered [0, 0]) = true := by decide

theorem test_order_adopted : after .musterOrder (heard (rx .musterOrder 9 (order 1 2 8)) run)
    (fun t => decide (level t = .muster ∧ t.muster.highestSeen = 1 ∧ t.lights = ⟨.flash, .flash⟩) && eventSet .level t) = true := by decide
theorem test_order_of_other_zone : after .musterOrder (heard (rx .musterOrder 9 (order 1 2 4)) run)
    (fun t => decide (level t = .normal ∧ t.muster.highestSeen = 1)) = true := by decide
theorem test_stand_down : after .standDownTimer
    (let s := under 1 .standDown run; { s with muster := { s.muster with standDown := late } })
    (fun t => decide (level t = .normal ∧ t.muster.record.lapsed = true)) = true := by decide
theorem test_echo_timer : after .echoTimer
    (let s := under 1 .muster run; { s with muster := { s.muster with echoTimer := late } })
    (fun t => decide (t.bus.buffer.map (·.frame.payload) = some [9, 1, 0, 0x12, 0, 8, 0])) = true := by decide
theorem test_join_prompt_echo : after .joinPromptEcho { run with muster := { run.muster with joinEcho := late } }
    (fun t => decide (t.muster.joinEcho = none)) = true := by decide
theorem test_issue_order : after (.issueOrder [2, 0, 8, 0]) run
    (fun t => answered [0, 1, 0, 1] t && decide (level t = .muster)) = true := by decide
theorem test_sweep_refresh : after .sweepRefreshTimer { run with muster := { run.muster with sweepRefresh := late } }
    (fun t => decide (t.muster.reportOutstanding = true ∧ t.muster.pendingReports = [])) = true := by decide
theorem test_cabin_report : after .cabinReport (heard (rx .cabinReport 7 [0xB1, 0x04, 0x03]) run)
    (fun t => decide (t.muster.roll = [⟨1201, true, false, false, .ok, 7, some ⟨10, 600, 0⟩⟩])) = true := by decide
theorem test_read_roll : after (.readRoll [0, 0]) run (answered [3, 0, 0]) = true := by decide

/-- The node with a transaction on the chain. -/
def onTheChain (op : ChainOp) (p : ChainPhase) (s : State) : State :=
  { s with chain := { s.chain with engine := .transaction ⟨0, op, p, 99900, 99900⟩ } }

/-- A sound reply to a poll: the button held, the drive idle. -/
def heldReply : List Octet := let c := check16 [1]; [1, checkHigh c, checkLow c]

theorem test_poll_due : after (.pollDue true)
    { run with sched := { run.sched with plates := run.sched.plates.map fun p => { p with pollDue := late } } }
    (fun t => decide (t.chain.engine = .transaction ⟨0, .poll, .start, 100000, 100000⟩)) = true := by decide
theorem test_busy_release : after .busyReleaseStart (onTheChain .poll .start run)
    (fun t => decide (t.chain.engine = .transaction ⟨0, .poll, .finish, 99900, 100000⟩)) = true := by decide
theorem test_stall : after .chainStall (onTheChain .poll .start run)
    (fun t => decide (t.chain.service = .outOfService ∧ t.chain.lastResult = .busyStuck
      ∧ t.sched.plates.map (·.health) = [.notResponding])) = true := by decide
theorem test_poll_ends : after (.transactionEnd heldReply) (onTheChain .poll .finish run)
    (fun t => decide (t.sched.plates.map (fun p => (p.health, p.press)) = [(.responding, .pressed 1)])) = true := by decide +kernel
theorem test_idle_reply_is_bad : after (.transactionEnd [0xFF, 0xFF, 0xFF]) (onTheChain .poll .finish run)
    (fun t => decide (t.sched.plates.map (·.failureRun) = [1])) = true := by decide +kernel
theorem test_chain_timeout : after .chainTimeout (onTheChain .poll .finish run)
    (fun t => decide (t.counters.chainTimeouts = 1 ∧ t.chain.chainReset = true)) = true := by decide
theorem test_pulse_end : after .chainResetPulseEnd { run with chain := { run.chain with pulse := late, engine := .test none } }
    (fun t => decide (t.chain.chainReset = false ∧ t.chain.engine = .test (some ⟨100000, 20⟩))) = true := by decide
theorem test_line_test_start : after .lineTestStart { run with chain := { run.chain with testPending := true } }
    (fun t => decide (t.chain.engine = .test none ∧ t.chain.testPending = false)) = true := by decide
theorem test_line_test_end : after (.lineTestEnd false true true) { run with chain := { run.chain with engine := .test late } }
    (fun t => decide (t.chain.lastResult = .dataStuckHigh) && eventSet .chainFault t) = true := by decide
theorem test_test_chain : after (.testChain []) run
    (fun t => decide (t.chain.testPending = true ∧ t.port.state = .busy)) = true := by decide

/-- The node with a refresh of its plate in DRIVE whose timer has expired. -/
def driving : State :=
  { run with sched := { run.sched with
      plates := run.sched.plates.map fun p => { p with refresh := .drive, partialCount := 4 },
      flight := run.sched.plates.map fun p => { p.newRefresh 0 with next := .drive, driveTimer := late } } }

theorem test_drive_timer : after (.driveTimer 0) driving
    (fun t => decide (t.sched.plates.map (fun p => (p.shown, p.partialCount)) = [(none, 4)])) = true := by decide
theorem test_read_plate : after (.readPlate [1]) run (answered [3]) = true := by decide
theorem test_read_view : after (.readView [0]) run (answered [0, 4, 5, 3, 2, 31, 1, 0]) = true := by decide
theorem test_read_events : after (.readEvents [1, 0]) (setEvent .level run)
    (fun t => answered [0, 1, 0, 0] t && !eventSet .level t) = true := by decide
theorem test_event_mask : after (.setEventMask [0, 0]) (setEvent .level run)
    (fun t => answered [0, 0, 0] t && !t.events.attention) = true := by decide
theorem test_read_counters : after (.readCounters []) run (answered (0 :: List.replicate 44 0)) = true := by decide
theorem test_clear_counters : after (.clearCounters []) { run with counters := { Counters.zero with shed := 7 } }
    (fun t => decide (t.counters = Counters.zero)) = true := by decide
theorem test_restart : after (.restart []) run
    (fun t => decide (t.node.state = .reset ∧ t.time.now = 100000 ∧ t.port.state = .busy)) = true := by decide
theorem test_unknown_command : after (.unknownCommand [0x12]) run (answered [3]) = true := by decide
theorem test_overrun : after (.commandOverrun [1]) { run with port := { run.port with state := .ready } }
    (fun t => t.port.overrun) = true := by decide
theorem test_response_read : after .responseRead { run with port := { run.port with state := .ready } }
    (fun t => decide (t.port.state = .idle)) = true := by decide
theorem test_attention : after .attentionPacing (setEvent .level run)
    (fun t => t.events.attention && decide (t.events.lastAssert = some 100000)) = true := by decide
theorem test_tick : (match step run with | .next t => decide (t.time.now = 100001 ∧ t.time.ship.ms = 1) | _ => false) = true := by decide
/-- A level read at load is that of the coming millisecond: twenty samples later it has stood for 20 ms, and no sooner (R79). -/
theorem test_filter_counts_milliseconds : (Filter.tick .low)^[19] (loadedFilter run.mon.neighbours State.reset.pins.sense 2) = ⟨none, some .low, 19, false⟩
    ∧ ((Filter.tick .low)^[20] (loadedFilter run.mon.neighbours State.reset.pins.sense 2)).ready = true := by decide
/-- A pulse of 19 ms leaves a filter with a fresh candidate (R79). -/
theorem test_pulse_of_19_ms_is_not_accepted :
    (Filter.tick .high)^[19] ⟨some .low, some .high, 1, true⟩ = ⟨some .low, some .high, 19, false⟩
    ∧ Filter.tick .low ⟨some .low, some .high, 19, false⟩ = ⟨some .low, some .low, 1, false⟩ := by decide
/-- The advance past the last millisecond is DAY_WRAP's alone: no millisecond is gained, none lost (R3, R4). -/
theorem test_wrap_is_one_advance :
    (match step { run with time := { run.time with ship := .last } } with
     | .next t => decide (t.time.now = 100001 ∧ t.time.ship = .last ∧ t.pending.head? = some .dayWrap) && (match step t with
        | .next u => decide (u.time.now = 100001 ∧ u.time.ship = ⟨0, 0, 0, 0⟩)
        | _ => false)
     | _ => false) = true := by decide
theorem test_busy_released_at_an_idle_engine : after .busyReleaseStart { run with pins := { run.pins with busy := true } }
    (fun t => !t.pins.busy) = true := by decide
theorem test_empty_half_is_the_count : after (.readRoute [2]) run (answered [0, 2]) = true := by decide
theorem test_short_read_roll : after (.readRoll [0]) run (answered [3, 0, 0]) = true := by decide
theorem test_unloaded_fault_reads_are_invalid :
    (let s := { State.reset with node := { State.reset.node with state := .fault } }
     after (.readRoll [0, 0]) s (answered [3, 0, 0]) && after (.readItem [0, 1, 0]) s (answered [3])) = true := by decide
theorem test_refresh_starts_with_the_line_test : after .lineTestStart
    { run with chain := { run.chain with testPending := true },
               sched := { run.sched with queue := [0], plates := run.sched.plates.map fun p => { p with refresh := .queued } } }
    (fun t => decide (t.sched.flight.map (·.position) = [0] ∧ t.chain.engine = .test none)) = true := by decide
theorem test_no_word_spells : decodeTableWord 8 1 = none ∧ run.withFetchWord 8 1 = run := by decide
/-! ### For each obligation with hypotheses, states and operands that meet them, clause by clause -/

theorem test_witness_StepRunsFrontCommand : { run with pending := [.responseRead, .jamEnd] }.pending = .responseRead :: [.jamEnd] := by
  decide
theorem test_witness_EmptyQueueIsOneMillisecond : run.pending = [] ∧ State.reset.time.isSet = false
    ∧ run.time.isSet = true ∧ run.time.ship ≠ .last ∧ { run.time with ship := .last }.ship = .last := by decide
theorem test_witness_RestartKeepsItsColumn : run.node.state ≠ .reset ∧ run.port.state = .idle := by decide
theorem test_witness_ResetReleaseEntersLoading : State.reset.node.state = .reset ∧ 15000 ≤ 15000
    ∧ { State.reset with port := { State.reset.port with state := .busy } }.port.state = .busy
    ∧ State.reset.port.state ≠ .busy := by decide
theorem test_witness_ImageIsJudged : (node cfg .loading).node.state = .loading := by decide
/-- The tables of a valid image: one route for each code, a record and a filter for the fire closure (R79, R89, R90). -/
theorem test_tables_of_an_image :
    (installConfig { cfg with destinations := cfg.destinations ++ cfg.destinations } State.reset).route.table.map (·.code) = [100, 200]
    ∧ run.mon.neighbours.map (fun n => (n.closure, n.remote, n.passable)) = [(.opened, false, true), (.unknown, false, true)]
    ∧ run.mon.filters[2] = ⟨none, some .low, 1, true⟩ ∧ run.mon.filters[3] = ⟨none, none, 0, false⟩ := by decide

/-- An image of station 5 in zone 3 on deck 2 of a version, with a roles octet: authority 9, a corridor to station 7, the muster destination 100, and a pacing. -/
def imageOf (version roles pacingHigh : Octet) : List Octet :=
  let body := [version, 5, 3, 2, roles, 1, 9, 1, 7, 40, 0, 2, 0, 3, 1, 0xFF, 1, 100, 0, 0, 0, 100, 0, 0, 0, 0, 0, pacingHigh]
  body ++ [checkHigh (check16 body), checkLow (check16 body)]

/-- The reading of an image: agreement of the check, the version, and whether the contents pass. -/
def judged (image : List Octet) : Option (Bool × Octet × Bool) :=
  (readImage (imageOctets image)).map fun r => (r.agrees, r.version, match judgeContents r with | .ok _ => true | .error _ => false)

/-- Every branch of the judgement has an image: none readable, a check that disagrees, a version, a content, and a valid one (R160, R161). -/
theorem test_witness_images : readImage (imageOctets []) = none ∧ judged (imageOf 1 4 0 ++ [0]) = some (true, 1, true)
    ∧ (judged ((imageOf 1 4 0).set 1 6)).map (·.1) = some false ∧ (judged (imageOf 2 4 0)).map (fun j => (j.1, j.2.1)) = some (true, 2)
    ∧ judged (imageOf 1 4 4) = some (true, 1, false) ∧ judged (imageOf 1 0x14 0) = some (true, 1, true) := by decide +kernel
/-- A valid image without PLATES: JOINING, the join and presence timers run, CHAIN RESET is released, the advert with its JOINING flag and the mark of a
TIME SOURCE node that is SET are offered (R162, R163). -/
theorem test_image_without_plates : after (.imageLoadDone (imageOf 1 4 0)) { node cfg .loading with chain := State.reset.chain }
    (fun t => decide (t.node.state = .joining ∧ t.node.joinTimer = some ⟨100000, 8000⟩ ∧ t.chain.chainReset = false
      ∧ t.mon.neighbours.map (·.presenceTimer) = [some ⟨100000, 32000⟩] ∧ t.route.lastOffer = some 100000
      ∧ t.route.advertTimer.isSome = true ∧ t.time.markTimer = some ⟨100000, 20000⟩
      ∧ t.bus.buffer.map (fun u => (u.frame.kind, u.frame.payload)) = some (.routeAdvert, [1, 100, 0xFC, 0])
      ∧ t.bus.queue.map (·.kind) = [.timeMark])) = true := by decide +kernel
/-- A valid image with PLATES: CHAIN TEST, a test pending, nothing offered; LINE_TEST_START then starts it (R138, R139, R160). -/
theorem test_image_with_plates : after (.imageLoadDone (imageOf 1 0x14 0)) (node cfg .loading)
    (fun t => decide (t.node.state = .chainTest ∧ t.chain.testPending = true ∧ t.node.joinTimer = none ∧ t.bus.buffer = none)
      && after .lineTestStart t (fun u => decide (u.chain.engine = .test none ∧ u.chain.testPending = false
        ∧ u.chain.pulse = some ⟨100000, 1⟩))) = true := by decide +kernel
theorem test_bad_version_and_content : after (.imageLoadDone (imageOf 2 4 0)) (node cfg .loading)
      (fun t => decide (t.node.state = .fault ∧ t.node.loadResult = .badVersion)) = true
    ∧ after (.imageLoadDone (imageOf 1 4 4)) (node cfg .loading)
      (fun t => decide (t.node.state = .fault ∧ t.node.loadResult = .badContent ∧ t.node.firstFailed = 10)) = true := by decide +kernel

/-- A node in JOINING whose join window has passed. -/
def joining : State := { run with node := { run.node with state := .joining, joinTimer := late } }

theorem test_witness_JoinTimerEntersRun : joining.node.state = .joining ∧ timerDue joining.node.joinTimer joining = true
    ∧ (level joining).calm = true ∧ (under 1 .muster joining).muster.record.serial ≠ 0
    ∧ sensedPayload (joining.mon.neighbours.map fun n => { n with closure := .closed }) ≠ []
    ∧ hasRoom .segmentState joining.bus.queue = true ∧ joining.bus.queue = [] := by decide
/-- At entry to RUN the plate is refreshed FULL and the marks begin (R11, R155). -/
theorem test_entry_to_run : after .joinTimer joining
    (fun t => decide (t.sched.flight.map (fun r => (r.position, r.full)) = [(0, true)] ∧ t.sched.plates.map (·.refresh) = [.load]
      ∧ t.time.markTimer = some ⟨100000, 20000⟩ ∧ t.bus.buffer.map (·.frame.kind) = some .timeMark)) = true := by decide
theorem test_witness_marks : (roles joining).timeSource = true ∧ joining.time.isSet = true ∧ participates joining = true
    ∧ ownStation joining = some 5 ∧ joining.time.sources = [] ∧ joining.time.markTimer = none ∧ joining.bus.queue.length ≤ 5
    ∧ { joining.time with markTimer := late }.markTimer ≠ none ∧ (roles plain).timeSource = false
    ∧ joining.sched.queue = [] ∧ joining.sched.flight = []
    ∧ joining.sched.plates.map (fun p => (p.refresh, p.shown, p.health)) = [(.idle, none, .unknown)] := by decide
/-- The empty transmit queue is sound. -/
theorem test_witness_empty_queue_is_sound : run.queueSound := ⟨by decide, trivial, by intro k _; cases k <;> decide⟩
theorem test_witness_SupplyFollowsItsLines : run.node.state ≠ .reset ∧ run.supply.candidate ≠ .emergency
    ∧ (let s := { run with supply := { run.supply with candidate := .emergency, run := 20 } }
       20 ≤ s.supply.run ∧ s.supply.candidate ≠ s.supply.accepted ∧ s.node.state ≠ .reset)
    ∧ supplyState run ≠ .critical ∧ supplyOf (bandAfter .below18V0 run.supply.band) run.supply.accepted = .critical := by decide

/-- The node in the CRITICAL supply state. -/
def critical (s : State) : State := { s with supply := { s.supply with band := .critical } }

theorem test_witness_supply_leaves_CRITICAL : supplyState (critical run) = .critical
    ∧ supplyOf (bandAfter .above19V0 (critical run).supply.band) run.supply.accepted ≠ .critical
    ∧ ((buffered .routeAdvert 1 (.held none) (critical run)).bus.buffer.map (·.phase)) = some (.held none)
    ∧ ((buffered .routeAdvert 1 (.held (some 3)) (critical run)).bus.buffer.map (·.phase)) = some (.held (some 3))
    ∧ 8 ≤ [(0xC5 : Octet), 2, 7, 255, 1, 0, 3, 4].length := by decide
/-- A frame cut after its first payload octet: the second is FFh, the check the complement of that over what was sent (R32). -/
theorem test_aborted_tail : abortedOctets 7 [0xC5, 2, 7, 255, 1, 2, 9, 8, 0, 0]
    = [0xC5, 2, 7, 255, 1, 2, 9, 0xFF] ++ (let c := check16 [2, 7, 255, 1, 2, 9, 0xFF]; [~~~ checkHigh c, ~~~ checkLow c]) := by
  decide +kernel
theorem test_witness_DayWrapAndMarkTimer : { run with time := { run.time with ship := .last } }.time.isSet = true
    ∧ ShipTime.last = ⟨255, 1439, 59, 999⟩ ∧ (let s := { run with time := { run.time with markTimer := late } }
       timerDue s.time.markTimer s = true) ∧ participates run = true ∧ hasRoom .timeMark run.bus.queue = true := by decide

/-- A mark of station 3 at the head of the TIME queue. -/
def marked : State := heard (rx .timeMark 3 [10, 60, 0, 30, 0, 0, 0, 1]) run

theorem test_witness_TimeSourcesAreFollowed : marked.bus.timeQ = [rx .timeMark 3 [10, 60, 0, 30, 0, 0, 0, 1]]
    ∧ participates marked = true ∧ (readMark [10, 60, 0, 30, 0, 0, 0, 1]).isSome = true ∧ readMark [] = none
    ∧ preferredSource { run with time := { run.time with sources := [⟨3, ⟨0, 0, 0, 0⟩, 0⟩] } } = some 3
    ∧ preferredSource { run with time := { run.time with sources := [⟨9, ⟨0, 0, 0, 0⟩, 0⟩] } } ≠ some 9
    ∧ (let s := { run with time := { run.time with sources := [⟨7, ⟨0, 0, 0, 0⟩, 40000⟩] } }
       ∃ r ∈ s.time.sources, 60000 ≤ (s.time.now - r.heardAt).toNat)
    ∧ markSteps ⟨run.time.ship, 60⟩ run.time.ship.toMs run = true ∧ markSteps ⟨run.time.ship, 0⟩ run.time.ship.toMs run = false := by decide
/-- A station between two of a full list takes the place of the highest; one above all of them is not kept (R6). -/
theorem test_time_source_list :
    let at_ (n : Nat) : SourceRecord := ⟨n, ⟨0, 0, 0, 0⟩, 0⟩
    (updateSources (at_ 2) [at_ 1, at_ 3, at_ 5, at_ 7]).map (·.station) = [1, 2, 3, 5]
    ∧ updateSources (at_ 9) [at_ 1, at_ 3, at_ 5, at_ 7] = [at_ 1, at_ 3, at_ 5, at_ 7]
    ∧ (updateSources (at_ 4) [at_ 3, at_ 5]).map (·.station) = [3, 4, 5]
    ∧ (updateSources { at_ 3 with heardAt := 8 } [at_ 3]).map (·.heardAt) = [8] := by decide
theorem test_witness_SetTimeSteps : participates run = true ∧ run.port.state = .idle ∧ 7 ≤ [1, 2, 0, 3, 4, 0, 120].length
    ∧ (roles run).timeSource = true ∧ (readShipTime [1, 2, 0, 3, 4, 0, 120]).inRange = true
    ∧ (octetAt [1, 2, 0, 3, 4, 0, 120] 6).toInt = 120 ∧ (octetAt [1, 2, 0, 3, 4, 0, 0x88] 6).toInt = -120
    ∧ run.time.isSet = true ∧ participates plain = true ∧ plain.port.state = .idle ∧ (roles plain).timeSource = false
    ∧ (∀ r ∈ run.time.sources, 5 ≤ r.station) ∧ run.bus.queue.length ≤ 6 := by decide
theorem test_witness_set_time_out_of_range : 7 ≤ [1, 0xA0, 5, 3, 4, 0, 0].length ∧ (readShipTime [1, 0xA0, 5, 3, 4, 0, 0]).inRange = false
    ∧ 120 < (octetAt [1, 2, 0, 3, 4, 0, 121] 6).toInt ∧ (octetAt [1, 2, 0, 3, 4, 0, 0x87] 6).toInt < -120
    ∧ (octetAt [1, 2, 0, 3, 4, 0, 1] 6).toInt ≠ 0 ∧ { run.time with isSet := false }.isSet = false := by decide

/-- The node with frames of kinds in its transmit queue, and a frame in the buffer. -/
def queueing (kinds : List FrameKind) (s : State) : State :=
  buffered .timeMark 0 (.waiting 0) { s with bus := { s.bus with queue := kinds.map fun k => ⟨k, 255, 1, [], [], false⟩ } }

/-- A queue of eight, the last of a lower class than URGENT. -/
def fullQueue : List FrameKind := List.replicate 7 .cabinReport ++ [.programmeItem]

theorem test_witness_OffersAreQueued : participates (node cfg .fault) = false ∧ level (under 1 .muster run) = .muster
    ∧ FrameKind.programmeItem.programme = true ∧ FrameKind.routeAdvert.single = true
    ∧ (∃ g ∈ (queueing [.segmentState, .routeAdvert] run).bus.queue, g.kind = .routeAdvert)
    ∧ (queueing [.segmentState, .routeAdvert] run).bus.queue.length < 8 ∧ FrameKind.cabinReport.single = false
    ∧ 8 ≤ (queueing fullQueue run).bus.queue.length
    ∧ ((queueing fullQueue run).bus.queue.getLast?.map (·.kind)) = some .programmeItem
    ∧ FrameKind.programmeItem.rank < FrameKind.segmentState.rank ∧ FrameKind.itemRequest.rank ≤ FrameKind.programmeItem.rank
    ∧ run.bus.buffer = none ∧ supplyState run ≠ .critical := by decide
theorem test_witness_sound_queue : classOrdered (queueing fullQueue run).bus.queue ∧ (queueing fullQueue run).bus.queue.length ≤ 8
    ∧ ∀ k : FrameKind, k.single = true → ((queueing fullQueue run).bus.queue.filter (·.kind = k)).length ≤ 1 := by
  refine ⟨by simp [classOrdered, queueing, buffered, fullQueue, FrameKind.rank, FrameKind.cls, FrameClass.rank, List.replicate], by decide, ?_⟩
  intro k; cases k <;> decide
/-- The four answers to an offer: refused by state, in place of its kind, behind its class, by eviction; and refused when full (R25, R26). -/
theorem test_offers :
    (offerBase ⟨.itemRequest, 255, [], [], false⟩ (under 1 .muster run)).2 = .refusedState
    ∧ (offerBase ⟨.routeAdvert, 255, [7], [], false⟩ (queueing [.routeAdvert, .programmeItem] run)).1.bus.queue.map (·.payload) = [[7], []]
    ∧ (offerBase ⟨.cabinReport, 128, [7], [], false⟩ (queueing [.segmentState, .routeAdvert] run)).1.bus.queue.map (·.kind)
        = [.segmentState, .cabinReport, .routeAdvert]
    ∧ (offerBase ⟨.segmentState, 255, [7], [], false⟩ (queueing fullQueue run)).1.bus.queue.map (·.kind)
        = List.replicate 7 .cabinReport ++ [.segmentState]
    ∧ (offerBase ⟨.itemRequest, 255, [7], [], false⟩ (queueing fullQueue run)).2 = .refusedFull
    ∧ (offerBase ⟨.itemRequest, 255, [7], [], false⟩ (queueing fullQueue run)).1.counters.queueRefusals = 1 := by decide
/-- The node with its receiver in a state. -/
def receiving (r : Receiver) (s : State) : State := { s with bus := { s.bus with receiver := r } }

theorem test_witness_FramesBeginAndAreCut : participates run = true ∧ sendingNow run = false ∧ run.bus.receiver = .hunt ∧ 12 ≤ 12
    ∧ participates (receiving (.frame 5 none) run) = true ∧ (receiving (.frame 5 none) run).bus.receiver = .frame 5 none
    ∧ (receiving (.follow 52) run).bus.receiver = .follow 52
    ∧ ((buffered .routeAdvert 0 (.waiting 6) run).bus.buffer.map (·.phase)) = some (.waiting 6) := by decide
theorem test_witness_FrameHeaderIsSorted : participates (receiving (.frame 5 none) run) = true
    ∧ (receiving (.frame 5 none) run).bus.receiver = .frame 5 none := by decide

/-- An advert's header from a station. -/
def headFrom (source : Nat) : FrameHead := ⟨.routeAdvert, source, 255, 1, 1⟩

/-- The check octets of that advert with the one payload octet 0. -/
def checkFrom (source : Nat) : Half := check16 (headerOctets .routeAdvert source 255 1 1 ++ [0])

theorem test_witness_FrameReceivedIsPlaced : participates (receiving (.frame 5 (some (headFrom 7))) run) = true
    ∧ (receiving (.frame 5 (some (headFrom 7))) run).bus.receiver = .frame 5 (some (headFrom 7))
    ∧ participates (receiving (.frame 5 (some (headFrom 5))) joining) = true
    ∧ (receiving (.frame 5 (some (headFrom 5))) joining).node.state = .joining ∧ [(0 : Octet)].length = (headFrom 7).len
    ∧ checkAgrees (headFrom 7) [0] 0 0 = false
    ∧ checkAgrees (headFrom 5) [0] (checkHigh (checkFrom 5)) (checkLow (checkFrom 5)) = true ∧ ownStation run = some 5
    ∧ checkAgrees (headFrom 7) [0] (checkHigh (checkFrom 7)) (checkLow (checkFrom 7)) = true ∧ ownStation run ≠ some 7 := by
  decide +kernel
/-- A clash in JOINING gives every plate the OUT OF SERVICE target, queues it and stops the timers (R155, R164). -/
theorem test_clash_in_joining : after (.frameReceived [0] (checkHigh (checkFrom 5)) (checkLow (checkFrom 5)))
    (receiving (.frame 5 (some (headFrom 5))) { joining with route := { joining.route with advertTimer := late } })
    (fun t => decide (t.node.state = .fault ∧ t.route.advertTimer = none ∧ t.time.markTimer = none
      ∧ t.sched.plates.map (·.target.layout) = [.outOfService] ∧ t.sched.flight.map (·.position) = [0])) = true := by decide +kernel
theorem test_witness_SendingBeginsAndCollides : participates run = true ∧ ownStation run = some 5
    ∧ ((buffered .routeAdvert 0 (.waiting 7) run).bus.buffer.map (·.phase)) = some (.waiting 7) ∧ FrameClass.route.gap + 7 ≤ 27
    ∧ ((buffered .routeAdvert 0 (.sending [] false) run).bus.buffer.map (·.phase)) = some (.sending [] false) := by decide
theorem test_witness_JamsAndBackoffsEnd :
    ((buffered .routeAdvert 8 .jamming run).bus.buffer.map fun u => (u.phase, u.attempts)) = some (.jamming, 8)
    ∧ ((buffered .routeAdvert 7 .jamming run).bus.buffer.map fun u => (u.phase, u.attempts, u.condemned)) = some (.jamming, 7, false)
    ∧ (((buffered .programmeItem 7 .jamming run).bus.buffer.bind purgeBuffer).map fun u => (u.phase, u.attempts, u.condemned))
        = some (.jamming, 7, true)
    ∧ ((buffered .routeAdvert 1 (.backoff 1) run).bus.buffer.map (·.phase)) = some (.backoff 1)
    ∧ ((buffered .routeAdvert 1 (.held (some 1)) run).bus.buffer.map (·.phase)) = some (.held (some 1)) := by decide

/-- The node walking an answer whose outstanding frame is on the line. -/
def walking (closing : Bool) : State :=
  let s := buffered .programmeItem 0 (.sending [] false) { stocked with exch := { stocked.exch with
    active := some ⟨⟨7, 6, 0, 9⟩, .walk, 0, true, closing⟩, answers := [⟨8, 6, 0, 9⟩] } }
  { s with bus := { s.bus with buffer := s.bus.buffer.map fun u => { u with frame := { u.frame with answer := true } } } }

theorem test_witness_FrameEndsAreCounted :
    ((buffered .timeMark 0 (.sending [] false) run).bus.buffer.map (·.phase)) = some (.sending [] false)
    ∧ ((buffered .timeMark 0 (.sending [] true) run).bus.buffer.map (·.phase)) = some (.sending [] true)
    ∧ ((walking true).bus.buffer.map fun u => (u.phase, u.frame.kind, u.frame.answer)) = some (.sending [] false, .programmeItem, true)
    ∧ ((walking true).exch.active.map fun a => (a.outstanding, a.closing)) = some (true, true)
    ∧ ((walking false).exch.active.map fun a => (a.outstanding, a.closing)) = some (true, false)
    ∧ participates (walking false) = true ∧ level (walking false) ≠ .muster ∧ (walking false).bus.queue.length ≤ 6
    ∧ (walking false).node.state = .run ∧ (level (walking false)).calm = true := by decide
/-- The walk goes on with the item, and a closed answer gives way to the next request (R66, R68, R69). -/
theorem test_answer_walks : after .transmitComplete (walking false)
      (fun t => decide (t.exch.active.map (·.lastSent) = some 1 ∧ t.bus.buffer.map (·.frame.seq) = some 0)) = true
    ∧ after .transmitComplete (walking true) (fun t => decide (t.exch.active.map (·.entry.requester) = some 8)) = true := by decide
/-- A frame that is not the answer's does not move it on, whatever its sequence, and the report of a dropped answer's frame is ignored (R68, R69, R72). -/
theorem test_other_frames_leave_the_answer :
    after .transmitComplete { walking true with bus := (buffered .programmeItem 0 (.sending [] false) (walking true)).bus }
      (fun t => decide (t.exch.active = (walking true).exch.active)) = true
    ∧ ((dropAnswer (walking true)).bus.buffer.map (·.frame.answer)) = some false
    ∧ (dropAnswer (walking true)).exch.active = none := by decide
/-- A completed CLEAR declaration leaves the list when its issue still stands (R84). -/
theorem test_clear_is_removed :
    (clearCompleted { run with mon := { run.mon with declared := [⟨40, false, 2⟩] } } ⟨40, 2⟩).mon.declared = []
    ∧ (clearCompleted { run with mon := { run.mon with declared := [⟨40, false, 3⟩] } } ⟨40, 2⟩).mon.declared = [⟨40, false, 3⟩]
    ∧ clearedBy [⟨40, 2⟩] [⟨40, false, 2⟩] = [] := by decide
theorem test_witness_ComparatorMatchRephases : matchDue stocked = true
    ∧ rephased false (nowMinute stocked) stocked.store.table ≠ stocked.store.table
    ∧ matchDue { stocked with store := { stocked.store with table := [] } } = true
    ∧ rephased false (nowMinute stocked) [] = [] := by decide
/-- PROGRAMME is set when an item comes ON NOW or joins the view, and when a replaced item is named in it; not by a body that is STALE (R54). -/
theorem test_programme_event :
    (let s := { stocked with store := { stocked.store with view := composedView stocked } }
     after .comparatorMatch s (eventSet .programme) = true
     ∧ eventSet .programme (applyBody { item with revision := 2, titleKey := 8 } s).1 = true
     ∧ shownNow (applyBody { item with revision := 2, titleKey := 8, status := .cancelled } s).1 ≠ shownNow s
     ∧ (applyBody { item with revision := 2 } { s with store := { s.store with table := [⟨item, .onNow⟩], view := ⟨[0], [], [(some 0, none)], 1⟩ } }).2
        = .replaced
     ∧ eventSet .programme (applyBody { item with revision := 2 } { s with store := { s.store with table := [⟨item, .onNow⟩], view := ⟨[0], [], [(some 0, none)], 1⟩ } }).1
        = true
     ∧ eventSet .programme (applyBody item s).1 = false) := by decide
theorem test_witness_ProgrammeFramesAreTaken : participates run = true
    ∧ (heard (rx .programmeItem 6 []) run).bus.programmeQ = [rx .programmeItem 6 []]
    ∧ (heard (rx .programmeSummary 6 []) run).bus.programmeQ = [rx .programmeSummary 6 []]
    ∧ (heard (rx .itemRequest 6 []) run).bus.programmeQ = [rx .itemRequest 6 []] := by decide
theorem test_witness_ItemsAreApplied : run.exch.records.length < 8
    ∧ (recordOf 6 stocked).isSome = true
    ∧ stocked.store.table.find? (·.body.key = item.key) = some ⟨item, .pending⟩ ∧ item.revision ≤ item.revision
    ∧ (recordOf 6 { run with exch := { run.exch with records := List.replicate 8 (newRecord 7) } }).isNone = true
    ∧ 8 ≤ (List.replicate 8 (newRecord 7)).length ∧ readItemParts [1, 0] = none
    ∧ stocked.store.table.find? (·.body.key = (6, 2)) = none ∧ item.revision < { item with revision := 2 }.revision
    ∧ stocked.store.table.length < 192 ∧ classify (nowMinute stocked) { item with day := 9 } = .ended
    ∧ classify (nowMinute stocked) item = .running := by decide

/-- A full table of one item after another. -/
def fullTable : List Entry := List.replicate 192 ⟨item, .onNow⟩

theorem test_witness_full_table : 192 ≤ fullTable.length ∧ fullTable.getLast? = some ⟨item, .onNow⟩
    ∧ ItemBody.before { item with publisher := 5 } item = true ∧ ItemBody.before { item with item := 2 } item = false
    ∧ fullTable.find? (·.body.key = (6, 2)) = none := by decide +kernel
/-- An item that has ended is PAST when new and removes the entry it replaces (R42, R43). -/
theorem test_ended_items : (applyBody { item with item := 2, day := 9 } stocked).2 = .past
    ∧ (applyBody { item with revision := 2, day := 9 } stocked).2 = .replaced
    ∧ (applyBody { item with revision := 2, day := 9 } stocked).1.store.table = [] := by decide
/-- An entry of a full table gives way to one that sorts before it, and to no other (R44). -/
theorem test_full_table :
    (applyBody { item with publisher := 5 } { run with store := { run.store with table := fullTable } }).2 = .insertedEvicting
    ∧ (applyBody { item with item := 2 } { run with store := { run.store with table := fullTable } }).2 = .refusedFull := by
  decide +kernel
theorem test_witness_valid_bodies : readItemParts (itemPayload (some item) none) = some ⟨some item.octets, none⟩
    ∧ readBody item.octets = some item ∧ readItemParts (1 :: List.replicate 16 0) = some ⟨some (List.replicate 16 0), none⟩
    ∧ readBody (List.replicate 16 0) = none
    ∧ (readItemParts (itemPayload (some item) (some ⟨7, 9, false, 0⟩))).map (·.body) = some (some item.octets)
    ∧ ((readItemParts (itemPayload (some item) (some ⟨7, 9, false, 0⟩))).map fun x => x.reply.isSome) = some true ∧ ownStation run ≠ some 7
    ∧ (applyBody item { run with exch := { run.exch with records := List.replicate 8 (newRecord 7) } }).2 = .refusedPublisher
    ∧ (recordOf 6 (applyBody item run).1).map (·.settled) = some 0 ∧ item.revision = 0 + 1 ∧ 0 + 1 < { item with revision := 2 }.revision
    ∧ (recordOf 6 (applyBody item stocked).1).map (·.settled) = some 1 ∧ (level run).calm = true ∧ hasRoom .itemRequest run.bus.queue = true := by
  decide
/-- A direct item in order settles its revision; one further ahead starts a catch-up from the revision settled (R61, R62). -/
theorem test_direct_items :
    after .programmeItem (heard (rx .programmeItem 6 (itemPayload (some item) none)) run)
      (fun t => decide ((recordOf 6 t).map (fun r => (r.settled, r.waiting)) = some (1, false))) = true
    ∧ after .programmeItem (heard (rx .programmeItem 6 (itemPayload (some { item with revision := 4 }) none)) stocked)
      (fun t => decide ((recordOf 6 t).map (fun r => (r.highWater, r.settled, r.waiting, r.reqSeq)) = some (4, 1, true, some 0)
        ∧ t.bus.buffer.map (fun u => (u.frame.kind, u.frame.payload)) = some (.itemRequest, [6, 1, 0]))) = true := by decide
theorem test_witness_SummaryAndRequestAreTaken : participates holding = true ∧ holding.exch.active.isSome = true
    ∧ (heard (rx .itemRequest 6 []) holding).bus.programmeQ = [rx .itemRequest 6 []]
    ∧ (heard (rx .programmeSummary 6 []) run).bus.programmeQ = [rx .programmeSummary 6 []]
    ∧ readPairs [6, 3, 0] = some [(6, 3)] ∧ readPairs [127, 0, 0] = some [(127, 0)] ∧ readPairs [128, 3, 0] = some [(128, 3)]
    ∧ run.exch.records.length < 8 ∧ (newRecord 6).settled < 3 ∧ (level run).calm = true ∧ hasRoom .itemRequest run.bus.queue = true
    ∧ run.exch.active = none ∧ run.exch.answers = [] ∧ 0 < highWaterOf 6 stocked ∧ stocked.exch.active = none := by decide
/-- A request of the same requester and publisher is merged with the lower after-revision, another is appended, a fifth is not kept (R65). -/
theorem test_requests_kept :
    keepRequest ⟨7, 6, 2, 9⟩ [⟨7, 6, 4, 1⟩] = [⟨7, 6, 2, 9⟩] ∧ keepRequest ⟨8, 6, 2, 9⟩ [⟨7, 6, 4, 1⟩] = [⟨7, 6, 4, 1⟩, ⟨8, 6, 2, 9⟩]
    ∧ keepRequest ⟨8, 6, 2, 9⟩ (List.replicate 4 ⟨7, 6, 4, 1⟩) = List.replicate 4 ⟨7, 6, 4, 1⟩ := by decide

/-- A reply part alone. -/
def replyOf (requester : Nat) (final : Bool) : ReplyPart := ⟨requester, 9, final, if final then 4 else 0⟩

/-- A record of the own request of that sequence. -/
def asking : State :=
  { run with exch := { run.exch with records := [{ newRecord 6 with waiting := true, attempts := 1, timer := late, reqSeq := some 9 }] } }

theorem test_witness_reply_part : readItemParts (itemPayload none (some (replyOf 7 true))) = some ⟨none, some (replyOf 7 true)⟩
    ∧ ownStation asking = some 5 ∧ (asking.exch.records.find? (fun q => q.waiting && q.reqSeq = some 9)).isSome = true
    ∧ ownStation asking ≠ some 7 ∧ (holding.exch.active.map (·.entry)) = some ⟨7, 6, 0, 9⟩ ∧ holding.exch.answers = []
    ∧ (walking false).exch.active.isSome = true := by decide
/-- Another node's close drops the answer in HOLD and leaves one in WALK (R67); the own final closes the catch-up (R63). -/
theorem test_reply_parts :
    after .programmeItem (heard (rx .programmeItem 8 (itemPayload none (some (replyOf 7 true)))) holding)
      (fun t => decide (t.exch.active = none ∧ t.counters.answersSuppressed = 1)) = true
    ∧ after .programmeItem (heard (rx .programmeItem 8 (itemPayload none (some (replyOf 7 true)))) (walking false))
      (fun t => t.exch.active.isSome) = true
    ∧ after .programmeItem (heard (rx .programmeItem 8 (itemPayload none (some (replyOf 5 true)))) asking)
      (fun t => decide ((recordOf 6 t).map (fun r => (r.waiting, r.highWater, r.settled)) = some (false, 4, 4))) = true := by decide
theorem test_witness_ExchangeTimersRun :
    (let s := { run with exch := { run.exch with summaryTimer := late, early := late } }
     timerDue s.exch.summaryTimer s = true ∧ timerDue s.exch.early s = true) ∧ participates holding = true ∧ level holding ≠ .muster
    ∧ holding.bus.queue.length < 8 ∧ (holding.exch.active.map (·.phase)) = some (.hold ⟨0, 400⟩)
    ∧ (⟨0, 400⟩ : Timer).expired holding.time.now = true := by decide
theorem test_witness_RequestTimerDecides :
    ((recordOf 6 (waiting 3)).map fun r => (r.waiting, r.attempts, r.timer)) = some (true, 3, late)
    ∧ ((recordOf 6 (waiting 2)).map fun r => (r.waiting, r.attempts, r.timer)) = some (true, 2, late)
    ∧ participates (waiting 2) = true ∧ hasRoom .itemRequest (waiting 2).bus.queue = true
    ∧ hasRoom .itemRequest (queueing fullQueue run).bus.queue = false
    ∧ timerDue late run = true ∧ (level (waiting 2)).calm = true ∧ (level (under 1 .muster (waiting 2))).calm = false := by decide

/-- A request timer sends the request anew under a fresh sequence (R62, R64). -/
theorem test_request_is_sent_again : after (.requestTimer 6) (waiting 2) (fun t =>
    decide (t.bus.buffer.map (fun u => (u.frame.kind, u.frame.seq, u.frame.payload)) = some (.itemRequest, 0, [6, 0, 0]))) = true := by decide

/-- The node with an own item to withdraw. -/
def publisher : State :=
  { run with store := { run.store with table := [⟨{ item with publisher := 5 }, .onNow⟩] } }

theorem test_witness_PublishTakesNextRevision : publisher.node.state = .run ∧ publisher.port.state = .idle
    ∧ ownStation publisher = some 5 ∧ (roles publisher).publisher = true ∧ level publisher ≠ .muster
    ∧ highWaterOf 5 publisher < 65535 ∧ publisher.exch.records.length < 8 ∧ hasRoom .programmeItem publisher.bus.queue = true
    ∧ 13 ≤ publishArgs.length ∧ (readBody (publishOctets 5 1 publishArgs)).isSome = true
    ∧ (∃ e ∈ publisher.store.table, e.body.key = (5, rd16At [1, 0] 0))
    ∧ (roles plain).publisher = false ∧ plain.node.state = .run ∧ ownStation plain = some 5 ∧ plain.port.state = .idle
    ∧ level (under 1 .muster publisher) = .muster ∧ publisher.bus.queue.length ≤ 5
    ∧ (publisher.store.table.find? (·.body.key = (5, rd16At [1, 0] 0))).isSome = true := by decide
theorem test_witness_publish_refusals : participates joining = true ∧ joining.node.state = .joining ∧ joining.port.state = .idle
    ∧ ownStation joining = some 5 ∧ (roles joining).publisher = true ∧ participates publisher = true ∧ participates plain = true
    ∧ readBody (publishOctets 5 1 (List.replicate 13 0)) = none ∧ run.store.table.find? (·.body.key = (5, rd16At [1, 0] 0)) = none
    ∧ highWaterOf 5 { run with exch := { run.exch with records := [{ newRecord 5 with highWater := 65535 }] } } = 65535
    ∧ (recordOf 5 { run with exch := { run.exch with records := List.replicate 8 (newRecord 7) } }).isSome = false
    ∧ ¬ (List.replicate 8 (newRecord 7)).length < 8 ∧ hasRoom .programmeItem (queueing fullQueue run).bus.queue = false
    ∧ (recordOf 5 (applyBody { item with publisher := 5 } run).1).map (·.settled) = some (highWaterOf 5 run) := by decide
theorem test_witness_PresenceTimerLosesNeighbour : (routed.mon.neighbours[0]?.map (·.presenceTimer)) = some late
    ∧ timerDue late routed = true := by decide
theorem test_witness_SenseLinesAreFiltered :
    (let f := run.mon.filters.set 2 ⟨some .low, some .high, 20, false⟩
     f[(2 : Fin 8)].candidate = some .high ∧ 20 ≤ f[(2 : Fin 8)].run ∧ f[(2 : Fin 8)].accepted ≠ some .high)
    ∧ run.mon.filters[(2 : Fin 8)].candidate = some .low ∧ LineLevel.low ≠ .high := by decide
/-- The fire closure on line 2, closed when high (R80). -/
theorem test_closure_line : (loadedNeighbour fireDoor).onLine 2 = true ∧ (loadedNeighbour fireDoor).onLine 3 = false
    ∧ (loadedNeighbour corridor).onLine 2 = false ∧ (loadedNeighbour fireDoor).closureAt .high = .closed
    ∧ (loadedNeighbour fireDoor).closureAt .low = .opened ∧ (loadedNeighbour fireDoor).fixed.sense = some (2, .high) := by decide
theorem test_witness_SegmentStateIsTaken : participates run = true
    ∧ (heard (rx .segmentState 7 []) run).bus.routeQ = [rx .segmentState 7 []] ∧ readSegments [] = none
    ∧ ((readSegments [40, 0, 12]).map fun es => es.map fun e => (e.segment, e.isDeclared, e.blocked)) = some [(40, true, true)]
    ∧ (routed.mon.neighbours[0]?.map (·.passable)) = some true := by decide
/-- A SENSED entry moves a REMOTE record; a DECLARED one that blocks a segment withdraws the routes over it (R82, R86). -/
theorem test_segment_entries :
    (let s := { run with mon := { run.mon with neighbours := run.mon.neighbours.map fun n => { n with remote := true } } }
     after .segmentState (heard (rx .segmentState 7 [41, 0, 1]) s) (fun t => decide (t.mon.neighbours.map (·.closure) = [.opened, .closed])))
      = true
    ∧ after .segmentState (heard (rx .segmentState 7 [40, 0, 12]) routed)
      (fun t => decide (t.route.table.map (·.state) = [.unreachable, .isLocal]) && eventSet .segment t) = true := by decide
theorem test_witness_DeclareSegmentBlocks : participates run = true ∧ run.port.state = .idle ∧ (roles run).console = true
    ∧ 3 ≤ [0xFF, 3, 1].length ∧ rd16At [0xFF, 3, 1] 0 = 1023 ∧ rd16At [1, 0, 0] 0 = 1 ∧ (octetAt [0xFF, 3, 1] 2).toNat ≤ 1
    ∧ run.mon.declared.length < 8 ∧ (roles plain).console = false ∧ participates plain = true ∧ plain.port.state = .idle
    ∧ (∀ n ∈ run.mon.neighbours, n.fixed.segment = rd16At [0xFF, 3, 1] 0 → n.blocked = decide ((octetAt [0xFF, 3, 1] 2).toNat = 1))
    ∧ hasRoom .segmentState run.bus.queue = true := by decide
/-- A declaration keeps its place under the next issue; a number or a state out of range is INVALID, a ninth segment FULL (R83, R84). -/
theorem test_declarations : declareIn 40 false [⟨40, true, 2⟩, ⟨41, true, 0⟩] = [⟨40, false, 3⟩, ⟨41, true, 0⟩]
    ∧ declareIn 42 true [⟨40, true, 2⟩] = [⟨40, true, 2⟩, ⟨42, true, 0⟩]
    ∧ after (.declareSegment [0, 4, 1]) run (answered [3]) = true ∧ after (.declareSegment [40, 0, 2]) run (answered [3]) = true
    ∧ after (.declareSegment [40, 0, 1]) { run with mon := { run.mon with declared := List.replicate 8 ⟨41, true, 0⟩ } } (answered [4]) = true := by
  decide
theorem test_witness_RouteAdvertSettlesPresence : participates run = true
    ∧ (heard (rx .routeAdvert 7 []) run).bus.routeQ = [rx .routeAdvert 7 []] ∧ readAdvert [] = none
    ∧ (let ns := run.mon.neighbours.map fun n => { n with presence := .down }
       ∃ n ∈ ns, n.fixed.station = 7 ∧ n.presence = .down)
    ∧ (readAdvert [1, 100, 0x04, 9]).isSome = true
    ∧ (let nbs := run.mon.neighbours.zipIdx.filter fun p => p.1.fixed.station = 7
       let w := nbs.foldl (advertAgainst (ownStation run) [⟨100, 1, 9⟩, ⟨300, 1, 9⟩]) (⟨run.route.table, false, false⟩, 0)
       nbs ≠ [] ∧ w.1.touched = true ∧ w.1.turned = true ∧ w.2 = 1) := by decide

/-- A join prompt makes an early summary and, with a serial, an echo pending; one that pends keeps its hold (R60, R116). -/
theorem test_join_prompt :
    after .routeAdvert (heard (rx .routeAdvert 9 [1]) (under 1 .normal run))
      (fun t => t.exch.early.isSome && t.muster.joinEcho.isSome) = true
    ∧ after .routeAdvert (heard (rx .routeAdvert 9 [1]) run) (fun t => t.exch.early.isSome && t.muster.joinEcho.isNone) = true
    ∧ after .routeAdvert (heard (rx .routeAdvert 9 [0]) (under 1 .normal run)) (fun t => t.exch.early.isNone && t.muster.joinEcho.isNone) = true
    ∧ after .routeAdvert (heard (rx .routeAdvert 9 [1]) { run with exch := { run.exch with early := late } })
      (fun t => decide (t.exch.early = late)) = true := by decide
theorem test_witness_join_prompt : readAdvert [1] = some (true, []) ∧ readAdvert [0] = some (false, []) ∧ run.node.state = .run
    ∧ (level run).calm = true ∧ run.exch.early = none ∧ run.muster.joinEcho = none ∧ (under 1 .normal run).muster.record.serial ≠ 0 := by decide

/-- A route entry over the first neighbour. -/
def overFirst : RouteEntry := ⟨100, .muster, .valid, 10, some 0, false⟩

theorem test_witness_RoutesAreChosen : RouteState.isLocal = .isLocal ∧ overFirst.state ≠ .isLocal ∧ overFirst.nextHop = some 0
    ∧ 62 < 63 ∧ 63 ≤ 63 ∧ overFirst.nextHop ≠ some 1 ∧ 9 < overFirst.distance ∧ overFirst.distance ≤ 10
    ∧ routeOf run.route.table 100 ≠ none ∧ ([] : List Redirect).find? (·.closed = 100) = none
    ∧ [(⟨100, 200⟩ : Redirect)].find? (·.closed = 100) = some ⟨100, 200⟩ ∧ routeOf run.route.table 200 ≠ none
    ∧ (routeOf run.route.table 100).map (·.cls) = some .muster
    ∧ (∃ nb ∈ run.mon.neighbours, nb.passable = true ∧ candidate (some 5) nb ⟨100, 62, 9⟩ = 63 ∧ candidate (some 5) nb ⟨100, 1, 5⟩ = 63)
    ∧ overFirst.code = 100 ∧ overFirst.state = .valid := by decide
theorem test_witness_AdvertsAreOffered :
    let s := { run with route := { run.route with advertTimer := late, trigger := late } }
    timerDue s.route.advertTimer s = true ∧ timerDue s.route.trigger s = true ∧ participates s = true ∧ s.bus.queue.length < 8
      ∧ s.bus.queue.length ≤ 4 ∧ s.node.state = .run ∧ (roles s).console = true
      ∧ sensedPayload (s.mon.neighbours.map fun n => { n with closure := .closed }) ≠ []
      ∧ [(⟨40, false, 0⟩ : Declared)].take 6 ≠ [] ∧ (List.replicate 7 (⟨40, false, 0⟩ : Declared)).drop 6 ≠ [] := by decide
theorem test_witness_QueryRouteAnswers : run.node.state ≠ .reset ∧ run.port.state = .idle ∧ 2 ≤ [0, 4].length
    ∧ rd16At [0, 0] 0 < 1 ∧ 1023 < rd16At [0, 4] 0 ∧ rd16At [0xFF, 3] 0 = 1023 := by decide
theorem test_witness_ReadsChangeThePortAlone : run.node.state ≠ .reset ∧ run.port.state = .idle ∧ 2 ≤ [4, 0].length
    ∧ (octetAt [4, 0] 0).toNat ≤ 4 ∧ 3 < (octetAt [4, 0] 0).toNat ∧ (octetAt [3, 0] 0).toNat = 3
    ∧ (roles plain).console = false ∧ (octetAt [2, 0] 0).toNat = 2 ∧ run.route.table.length ≤ 8 ∧ [(0 : Octet)].length < 2
    ∧ stocked.node.state ≠ .reset ∧ stocked.port.state = .idle ∧ 3 ≤ [0, 1, 0].length ∧ octetAt [3] 0 = 3
    ∧ (let n := { State.reset.node with state := .fault }; n.state = .fault ∧ n.config = none) := by decide
theorem test_witness_reads_find_entries : (octetAt [0] 0).toNat = 0 ∧ run.sched.plates[(octetAt [0] 0).toNat]?.isSome = true
    ∧ run.sched.plates[(octetAt [1] 0).toNat]? = none ∧ run.muster.roll[rd16At [0, 0] 0]? = none ∧ State.reset.route.table = []
    ∧ [(⟨1201, true, false, false, .ok, 7, none⟩ : RollEntry)][rd16At [0, 0] 0]?.isSome = true := by decide

/-- An order of station 9 in the node's zone at the head of the MUSTER queue. -/
def ordered (serial level : Octet) (s : State) : State := heard (rx .musterOrder 9 (order serial level 8)) s

/-- The node at MUSTER with the route to its path code over its first neighbour. -/
def mustered : State := under 1 .muster routed

theorem test_witness_PathLightsShowTheWay : RouteState.unreachable ≠ .isLocal ∧ overFirst.state = .valid ∧ overFirst.nextHop = some 0
    ∧ (routed.mon.neighbours[0]?.map (·.fixed.side)) = some .a ∧ participates mustered = true ∧ level mustered = .muster
    ∧ mustered.node.config = some cfg ∧ cfg.pathCode ≠ 0
    ∧ (effectiveRoute mustered.route.table mustered.muster.record.redirects cfg.pathCode).isSome = true
    ∧ participates (node cfg .fault) = false ∧ level run ≠ .muster ∧ State.reset.node.config = none
    ∧ { cfg with pathCode := 0 }.pathCode = 0 ∧ routeOf run.route.table 999 = none
    ∧ (ordered 1 2 run).bus.musterQ = [rx .musterOrder 9 (order 1 2 8)]
    ∧ (heard (rx .routeAdvert 7 []) run).bus.routeQ = [rx .routeAdvert 7 []] := by decide
/-- Over a corridor of side A channel A alone flashes, and is lit for the first 300 ms of a second (R104, R105). -/
theorem test_path_lights : lampsNow mustered = ⟨.flash, .off⟩
    ∧ lampLit .flash { mustered with time := { mustered.time with ship := ⟨10, 600, 0, 299⟩ } } = true
    ∧ lampLit .flash { mustered with time := { mustered.time with ship := ⟨10, 600, 0, 300⟩ } } = false := by decide

/-- That order as read. -/
def asRead (serial : Nat) (l : Level) : Order := ⟨9, serial, l, false, 8, none, []⟩

theorem test_witness_GreaterOrderIsAdopted : (ordered 2 3 (under 1 .muster run)).bus.musterQ = [rx .musterOrder 9 (order 2 3 8)]
    ∧ participates run = true ∧ readOrder (order 2 3 8) = some (asRead 2 .standDown) ∧ orderOk run (asRead 2 .standDown) = true
    ∧ inZone 8 run = true ∧ (under 1 .muster run).muster.record.serial < 2
    ∧ identicalTo (asRead 1 .muster) (under 1 .standby run).muster.record = false
    ∧ (under 1 .standby run).muster.record.level.rank < Level.muster.rank := by decide
/-- Of two orders of one serial the level of higher rank is taken, as a conflict (R112). -/
theorem test_conflict_of_higher_rank : after .musterOrder (ordered 1 2 (under 1 .standby run))
    (fun t => decide (level t = .muster ∧ t.counters.orderConflicts = 1) && eventSet .orderFault t) = true := by decide
/-- Entry to MUSTER: the queue is purged, the answer dropped, the plate given its MUSTER target and the sweep refresh started (Table 7-3). -/
theorem test_entry_to_muster : after .musterOrder (ordered 1 2 { walking false with bus :=
      { (walking false).bus with queue := [⟨.programmeSummary, 255, 1, [], [], false⟩] } })
    (fun t => decide (t.bus.queue = [] ∧ t.bus.buffer.map (fun u => (u.condemned, u.frame.answer)) = some (true, false)
      ∧ t.exch.active = none ∧ t.exch.answers = [] ∧ t.sched.plates.map (·.target.layout) = [.muster]
      ∧ t.muster.sweepRefresh = some ⟨100000, 30000⟩)) = true := by decide
/-- A store re-phased at a STEP back in time: an ON NOW entry that is future returns to PENDING (R50). -/
theorem test_step_back_returns_to_pending : after (.setTime [10, 0, 0, 0, 0, 0, 0])
    { stocked with store := { stocked.store with table := [⟨item, .onNow⟩] } }
    (fun t => decide (t.store.table = [⟨item, .pending⟩] ∧ t.store.generation = 2 ∧ t.store.comparator = some 15000)) = true := by decide
theorem test_witness_OtherOrdersLeaveTheRecord : readOrder [] = none ∧ orderOk run (asRead 0 .muster) = false
    ∧ readOrder (order 1 2 8) = some (asRead 1 .muster) ∧ orderOk run (asRead 1 .muster) = true ∧ inZone 4 run = false
    ∧ 1 < (under 2 .muster run).muster.record.serial ∧ identicalTo (asRead 1 .muster) (under 1 .muster run).muster.record = true
    ∧ identicalTo (asRead 1 .standby) (under 1 .muster run).muster.record = false
    ∧ Level.standby.rank ≤ Level.muster.rank := by decide
theorem test_witness_StandDownAndEchoTimers :
    let u := under 1 .standDown run
    let s := { u with muster := { u.muster with standDown := late, echoTimer := late, joinEcho := late } }
    timerDue s.muster.standDown s = true ∧ timerDue s.muster.echoTimer s = true ∧ timerDue s.muster.joinEcho s = true
      ∧ s.muster.record.level = .standDown ∧ s.node.state = .run ∧ s.muster.record.serial ≠ 0
      ∧ hasRoom .musterOrder s.bus.queue = true ∧ participates s = true := by decide
theorem test_witness_IssueOrderTakesNextSerial : run.node.state = .run ∧ run.port.state = .idle
    ∧ issueArgsShort [2, 0, 8, 0] = false ∧ ownStation run = some 5 ∧ (roles run).authority = true ∧ 5 ∈ run.muster.authorities
    ∧ ((issuedOrder 5 [2, 0, 8, 0] run).map fun o => (o.zones, o.redirects)) = some (8, [])
    ∧ (octetAt [2, 0, 8, 0] 1).toNat ≤ 4 ∧ redirectsOk run.route.table [] = true ∧ run.muster.highestSeen < 65535
    ∧ run.muster.record.serial ≤ run.muster.highestSeen ∧ inZone 8 run = true ∧ inZone 4 run = false
    ∧ (under 65535 .normal run).muster.highestSeen = 65535 ∧ (roles plain).authority = false ∧ plain.node.state = .run
    ∧ plain.port.state = .idle ∧ ownStation plain = some 5 ∧ run.bus.queue.length ≤ 2
    ∧ joining.node.state = .joining ∧ participates joining = true ∧ joining.port.state = .idle
    ∧ levelOf ((octetAt [7, 0, 8, 0] 0).toNat % 8) = none ∧ ((issuedOrder 5 [2, 0, 0, 0] run).map (·.zones)) = some 0
    ∧ 4 < (octetAt [2, 5, 8, 0] 1).toNat ∧ redirectsOk run.route.table [⟨100, 999⟩] = false := by decide
theorem test_witness_CabinsAreKept :
    let s := { run with muster := { run.muster with sweepRefresh := late, reportOutstanding := true } }
    timerDue s.muster.sweepRefresh s = true ∧ s.muster.reportOutstanding = true ∧ s.sched.plates[0]?.isSome = true
      ∧ participates { s with node := { s.node with state := .fault } } = false ∧ participates s = true
      ∧ s.muster.pendingReports = [] ∧ s.sched.plates ≠ [] ∧ hasRoom .cabinReport s.bus.queue = true
      ∧ hasRoom .cabinReport (List.replicate 8 (⟨.cabinReport, 128, 1, [], [], false⟩ : TxFrame)) = false := by decide

/-- The node with a report pending. -/
def reporting : State := reportPlate 0 run

theorem test_witness_report_builder : participates reporting = true ∧ reporting.muster.pendingReports ≠ []
    ∧ reporting.muster.reportOutstanding = false ∧ reporting.muster.builderWaits = false
    ∧ hasRoom .cabinReport reporting.bus.queue = true := by decide

/-- A CABIN REPORT on the line, or jammed for the eighth time, with a report pending. -/
def reportSent (attempts : Nat) (p : TxPhase) (s : State) : State :=
  let u := buffered .cabinReport attempts p s
  { u with muster := { u.muster with reportOutstanding := true } }

/-- A report that has had its outcome is no longer outstanding, and the next goes out at once (R123). -/
theorem test_report_outcomes :
    after .transmitComplete (reportSent 0 (.sending [] false) run) (fun t => !t.muster.reportOutstanding) = true
    ∧ after .transmitComplete (reportSent 0 (.sending [] false) reporting)
      (fun t => decide (t.muster.reportOutstanding = true ∧ t.muster.pendingReports = [] ∧ t.bus.buffer.map (·.frame.dest) = some 128)) = true
    ∧ after .abortedTailEnd (reportSent 0 (.sending [] true) run) (fun t => !t.muster.reportOutstanding) = true
    ∧ after .jamEnd (reportSent 8 .jamming run) (fun t => !t.muster.reportOutstanding) = true
    ∧ after .abortedTailEnd (critical { reportSent 0 (.sending [] true) reporting with bus :=
          { (reportSent 0 (.sending [] true) reporting).bus with queue := (queueing (List.replicate 8 .cabinReport) run).bus.queue } })
      (fun t => decide (t.muster.reportOutstanding = false ∧ t.muster.builderWaits = true ∧ t.muster.pendingReports = [])) = true := by decide
theorem test_witness_report_outcomes :
    ((reportSent 0 (.sending [] false) reporting).bus.buffer.map fun u => (u.phase, u.frame.kind)) = some (.sending [] false, .cabinReport)
    ∧ ((reportSent 8 .jamming reporting).bus.buffer.map fun u => (u.phase, u.attempts, u.frame.kind)) = some (.jamming, 8, .cabinReport)
    ∧ participates reporting = true ∧ reporting.muster.pendingReports ≠ [] ∧ reporting.muster.builderWaits = false
    ∧ reporting.bus.queue.length < 8 ∧ (queueing fullQueue run).bus.queue.length = 8 ∧ supplyState run ≠ .critical
    ∧ supplyState (critical reporting) = .critical
    ∧ hasRoom .cabinReport (queueing (List.replicate 8 .cabinReport) run).bus.queue = false
    ∧ reportPlate 0 (reportSent 0 (.sending [] true) run) = reportSent 0 (.sending [] true) reporting := by decide

/-- The node with the cabin in its roll. -/
def enrolled (swept : Bool) : State := { run with muster := { run.muster with roll := [⟨1201, swept, false, false, .ok, 7, none⟩] } }

/-- ROLL is set by a new cabin and by a change of one, and not by a report that repeats (R124). -/
theorem test_roll_event : after .cabinReport (heard (rx .cabinReport 7 [0xB1, 0x04, 0x03]) run) (eventSet .roll) = true
    ∧ after .cabinReport (heard (rx .cabinReport 8 [0xB1, 0x04, 0x03]) (enrolled false)) (eventSet .roll) = true
    ∧ after .cabinReport (heard (rx .cabinReport 8 [0xB1, 0x04, 0x03]) (enrolled true))
      (fun t => !eventSet .roll t && decide (t.muster.roll.map (·.station) = [8])) = true
    ∧ ((enrolled true).muster.roll.find? (·.cabin = 1201)).map (·.swept) = some true := by decide

/-- One cabin of a report. -/
def cabin : CabinRecord := ⟨1201, true, some .ok, false, false⟩

theorem test_witness_CabinsAreReported : (heard (rx .cabinReport 7 []) run).bus.musterQ = [rx .cabinReport 7 []]
    ∧ participates run = true ∧ (roles plain).console = false ∧ readCabins [] = none ∧ (roles run).console = true
    ∧ readCabins [0xB1, 0x04, 0x03] = some [cabin] ∧ run.muster.roll.length < 256
    ∧ (∃ q ∈ [(⟨1201, true, false, false, .ok, 7, none⟩ : RollEntry)], q.cabin = cabin.cabin)
    ∧ 256 ≤ (List.replicate 256 (⟨1, true, false, false, .ok, 7, none⟩ : RollEntry)).length := by decide +kernel
theorem test_witness_full_roll_without_the_cabin :
    ∀ q ∈ List.replicate 256 (⟨1, true, false, false, .ok, 7, none⟩ : RollEntry), q.cabin ≠ cabin.cabin := by
  intro q h
  rw [List.eq_of_mem_replicate h]
  decide

/-- The node with its plate's poll due. -/
def pollIsDue : State :=
  { run with sched := { run.sched with plates := run.sched.plates.map fun p => { p with pollDue := late } } }

theorem test_witness_PollDueAndBusyRelease : duePoll pollIsDue = some 0
    ∧ (onTheChain .poll .start run).chain.engine = .transaction ⟨0, .poll, .start, 99900, 99900⟩ ∧ run.chain.engine = .idle
    ∧ (onTheChain .poll .finish run).chain.engine = .transaction ⟨0, .poll, .finish, 99900, 99900⟩ := by decide
/-- Of plates whose polls are due the one due longest is polled, the lower position at equal times (R131). -/
theorem test_poll_choice :
    let with_ (l : List (Option Timer)) : State := { pollIsDue with sched := { pollIsDue.sched with
      plates := l.flatMap fun x => pollIsDue.sched.plates.map fun p => { p with pollDue := x } } }
    duePoll (with_ [some ⟨99000, 100⟩, some ⟨98000, 100⟩, none]) = some 1 ∧ duePoll (with_ [none, some ⟨99000, 100⟩, some ⟨99000, 100⟩]) = some 1
    ∧ duePoll (with_ [none, some ⟨99950, 100⟩]) = none := by decide
theorem test_witness_BusyLimitsEndTransactions : 20 ≤ (run.time.now - (99900 : Tick)).toNat
    ∧ (onTheChain .poll .start run).chain.engine = .transaction ⟨0, .poll, .start, 99900, 99900⟩
    ∧ (onTheChain .poll .finish run).chain.engine = .transaction ⟨0, .poll, .finish, 99900, 99900⟩ := by decide
theorem test_witness_PollEndsWithItsReadings : (onTheChain .poll .finish run).sched.plates[0]?.isSome = true
    ∧ readPoll heldReply = some ⟨true, false, false, .idle⟩ ∧ readPoll [] = none
    ∧ (run.sched.plates.map fun p => (p.failureRun, p.health)) = [(0, .unknown)] ∧ 2 ≤ 2 := by decide +kernel
/-- The node at MUSTER, or another level, whose plate has a press state and whose poll is in FINISH. -/
def pressed (p : Press) (l : Level) : State :=
  onTheChain .poll .finish (under 1 l { run with sched := { run.sched with
    plates := run.sched.plates.map fun q => { q with press := p, health := .responding, shown := some (q.target, 0) } } })

/-- A sound reply to a poll: the button released, the drive status DONE. -/
def releasedReply : List Octet := let c := check16 [0x20]; [0x20, checkHigh c, checkLow c]

theorem test_witness_presses : (pressed (.pressed 14) .muster).sched.plates.map (fun p => (p.press, p.swept)) = [(.pressed 14, false)]
    ∧ readPoll releasedReply = some ⟨false, false, false, .done⟩ ∧ pressStep false (.pressed 5) = (.released, .short)
    ∧ pressStep false (.pressed 11) = (.released, .ignored) ∧ level (pressed (.pressed 5) .normal) ≠ .muster
    ∧ ((refreshOf 0 driving).map (·.driveTimer.isSome)) = some true ∧ (pressed .released .muster).muster.pendingReports = []
    ∧ (pressed .released .muster).muster.reportOutstanding = false := by decide +kernel
/-- By TRANSACTION_END: a long press at MUSTER sweeps the plate and its report is sent; a short one elsewhere has the plate drawn anew; an ignored one is counted;
DONE completes a refresh; the next poll falls due 100 ms after the ended one began (R119, R123, R133, R136, R150, R154). -/
theorem test_poll_reports :
    after (.transactionEnd heldReply) (pressed (.pressed 14) .muster) (fun t => eventSet .sweep t && decide (t.sched.plates.map (·.swept) = [true]
      ∧ t.muster.reportOutstanding = true ∧ t.bus.buffer.map (·.frame.kind) = some .cabinReport)) = true
    ∧ after (.transactionEnd releasedReply) (pressed (.pressed 5) .normal) (fun t => decide (t.sched.plates.map (·.shown) = [none]
      ∧ t.sched.flight.map (fun r => (r.position, r.full)) = [(0, true)])) = true
    ∧ after (.transactionEnd releasedReply) (pressed (.pressed 11) .normal) (fun t => decide (t.counters.ignoredPresses = 1)) = true
    ∧ after (.transactionEnd releasedReply) (onTheChain .poll .finish driving) (fun t => decide (t.sched.plates.map (fun p => (p.shown.isSome, p.partialCount))
      = [(true, 0)] ∧ t.sched.flight = [])) = true
    ∧ after (.transactionEnd heldReply) (onTheChain .poll .finish { run with time := { run.time with now := 99990 } }) (fun t =>
        decide (t.sched.plates.map (·.pollDue) = [some ⟨99900, 100⟩])) = true := by decide +kernel

/-- The node with a refresh of its plate in LOAD whose write is in FINISH. -/
def loadingPlate (op : ChainOp) : State :=
  onTheChain op .finish { run with sched := { run.sched with
    plates := run.sched.plates.map fun p => { p with refresh := .load },
    flight := run.sched.plates.map fun p => { p.newRefresh 0 with next := op } } }

/-- The check a plate replies with to the DRIVE write of a FULL refresh. -/
def driveReply : List Octet := [checkHigh (check16 [1]), checkLow (check16 [1])]

theorem test_witness_LoadTransactionEnds :
    ((refreshOf 0 (loadingPlate .drive)).map fun r => (r.next, r.driveTimer, r.cancelled)) = some (.drive, none, false)
    ∧ writeReplyOk [1] driveReply = true ∧ writeReplyOk [1] [0xFF, 0xFF] = false
    ∧ writeOctets .drive 1201 ⟨.normal, 100, false, .none, false, false⟩ true = [1]
    ∧ (loadingPlate .drive).sched.plates[0]?.isSome = true := by decide +kernel
/-- The node with a cancelled refresh whose write is in FINISH. -/
def cancelledPlate (op : ChainOp) : State :=
  { loadingPlate op with sched := { (loadingPlate op).sched with
      flight := (loadingPlate op).sched.flight.map fun r => { r with cancelled := true },
      plates := (loadingPlate op).sched.plates.map fun p => { p with shown := some (⟨.standDown, 100, false, .none, false, false⟩, 0) } } }

theorem test_witness_cancelled_refresh :
    ((refreshOf 0 (cancelledPlate .drive)).map fun r => (r.next, r.driveTimer, r.cancelled)) = some (.drive, none, true)
    ∧ ((refreshOf 0 (cancelledPlate .status)).map fun r => (r.next, r.driveTimer, r.cancelled)) = some (.status, none, true)
    ∧ (cancelledPlate .drive).chain.engine = .transaction ⟨0, .drive, .finish, 99900, 99900⟩
    ∧ (cancelledPlate .drive).sched.plates[0]?.isSome = true := by decide
/-- A cancelled refresh by the outcome of its last transaction (R152). -/
theorem test_cancelled_outcomes :
    ((loadOutcome 0 true (cancelledPlate .status)).sched.plates.map fun p => (p.shown.isSome, p.refresh)) = [(true, .queued)]
    ∧ ((loadOutcome 0 true (cancelledPlate .drive)).sched.plates.map fun p => (p.shown.isSome, p.refresh)) = [(true, .drive)]
    ∧ ((loadOutcome 0 false (cancelledPlate .drive)).sched.plates.map fun p => (p.shown.isSome, p.refresh)) = [(false, .queued)]
    ∧ (loadOutcome 0 false (cancelledPlate .drive)).sched.queue = [0] := by decide
theorem test_witness_PressesAreClassified : run.sched.plates[0]?.isSome = true ∧ level (under 1 .muster run) = .muster
    ∧ level run ≠ .muster := by decide
theorem test_witness_LineTestsAreStarted : participates run = true ∧ run.port.state = .idle ∧ (roles run).plates = true
    ∧ (roles plain).plates = false ∧ participates plain = true ∧ plain.port.state = .idle
    ∧ (let s := { run with chain := { run.chain with pulse := late } }
       timerDue s.chain.pulse s = true)
    ∧ run.chain.engine = .idle ∧ (∀ r ∈ run.sched.flight, r.driveTimer.isSome = true)
    ∧ { run.chain with testPending := true }.testPending = true := by decide
/-- TEST CHAIN cancels the refreshes in LOAD: at once, or marked while a write is on the chain (R139, R152). -/
theorem test_line_test_cancels :
    let s := { loadingPlate .status with chain := { run.chain with engine := .idle } }
    after (.testChain []) s (fun t => decide (t.sched.flight = [] ∧ t.sched.queue = [0] ∧ t.sched.plates.map (·.refresh) = [.queued])) = true
    ∧ after (.testChain []) (loadingPlate .status) (fun t => decide (t.sched.flight.map (fun r => (r.position, r.cancelled)) = [(0, true)])) = true
    ∧ (s.sched.flight.map fun r => (r.position, r.driveTimer, onChain r.position s)) = [(0, none, false)] := by decide
theorem test_witness_LineTestEndGivesResult : { run.chain with engine := .test (some ⟨0, 20⟩) }.engine = .test (some ⟨0, 20⟩)
    ∧ (⟨0, 20⟩ : Timer).expired run.time.now = true := by decide
/-- The end of the start-up test: the node enters JOINING, whatever the result (R139, R162). -/
theorem test_start_up_test_ends :
    let s := { node cfg .chainTest with chain := { run.chain with engine := .test late, service := .untested } }
    s.node.state = .chainTest ∧ s.bus.queue.length ≤ 5
      ∧ after (.lineTestEnd true false false) s (fun t => decide (t.node.state = .joining ∧ t.node.joinTimer = some ⟨100000, 8000⟩
        ∧ t.route.lastOffer = some 100000 ∧ t.time.markTimer = some ⟨100000, 20000⟩ ∧ t.bus.buffer.map (·.frame.kind) = some .routeAdvert)) = true
      ∧ after (.lineTestEnd false false false) s (fun t => decide (t.node.state = .joining ∧ t.chain.service = .inService)) = true := by decide
/-- A test that passes starts the polls of a chain it brings IN SERVICE; one that fails loses the plates (R140). -/
theorem test_line_test_and_plates :
    let s := { run with chain := { run.chain with engine := .test late, service := .untested } }
    after (.lineTestEnd false false false) s (fun t => decide (t.chain.engine = .transaction ⟨0, .poll, .finish, 100000, 100000⟩)) = true
    ∧ after (.lineTestEnd true false false) s (fun t => eventSet .plate t && decide (t.sched.plates.map (fun p => (p.health, p.pollDue))
        = [(.notResponding, none)])) = true := by decide
theorem test_witness_DriveTimerFailsRefresh : ((refreshOf 0 driving).map (·.driveTimer)) = some late
    ∧ timerDue late driving = true ∧ driving.sched.plates[0]?.isSome = true ∧ refreshing driving = true
    ∧ refreshing { driving with node := { driving.node with state := .joining } } = false ∧ refreshOf 0 run = none := by decide
/-- A DONE drive status shows what the refresh loaded and counts a PARTIAL refresh; an IDLE one fails it, and the plate is queued (R150, R151). -/
theorem test_drive_readings :
    (let s := { driving with sched := { driving.sched with flight := driving.sched.flight.map fun r => { r with full := false } } }
     ((driveReading 0 .done s).sched.plates.map fun p => (p.shown.isSome, p.partialCount, p.refresh)) = [(true, 5, .idle)]
      ∧ ((driveReading 0 .idle s).sched.plates.map fun p => (p.shown.isSome, p.partialCount, p.refresh)) = [(false, 4, .queued)]
      ∧ (driveReading 0 .idle s).sched.queue = [0]) := by decide
/-- A failed refresh starts again at once, FULL (R148, R151). -/
theorem test_failed_refresh_restarts : after (.driveTimer 0) driving
    (fun t => decide (t.sched.flight.map (fun r => (r.position, r.full, r.driveTimer)) = [(0, true, none)])) = true := by decide

/-- The node with its plate in a refresh state, showing a content or none, and waiting. -/
def platesIn (r : RefreshState) (shown : Option (Content × Half)) : State :=
  { run with sched := { run.sched with plates := run.sched.plates.map fun p => { p with refresh := r, shown := shown }, queue := [0] } }

/-- What the plate of the configuration has as its target. -/
def plateTarget : Content := ⟨.normal, 100, false, .none, false, false⟩

theorem test_witness_RefreshesAreQueuedAndStarted : refreshing run = true
    ∧ (run.sched.plates.map fun p => (p.refresh, p.shown, p.target)) = [(.idle, none, plateTarget)]
    ∧ ((platesIn .queued (some (plateTarget, 0))).sched.plates.map fun p => (p.refresh, p.shown)) = [(.queued, some (plateTarget, 0))]
    ∧ refreshing (node cfg .chainTest) = false ∧ startAllowed (platesIn .queued none) = true
    ∧ (queueOrder (platesIn .queued none)).find? (startable (platesIn .queued none)) = some 0
    ∧ startAllowed (settle run) = true := by decide
/-- An absent shown content is refreshed FULL, one of the same layout PARTIAL, until the twentieth (R148). -/
theorem test_full_and_partial :
    ((startOne (platesIn .queued none)).sched.flight.map (·.full)) = [true]
    ∧ ((startOne (platesIn .queued (some ({ plateTarget with dnd := true }, 0)))).sched.flight.map (·.full)) = [false]
    ∧ (comparePlate 0 (platesIn .queued (some (plateTarget, 0)))).sched.queue = []
    ∧ (startOne (critical (platesIn .queued none))).sched.flight = [] := by decide
theorem test_witness_EventCommands : run.node.state ≠ .reset ∧ run.port.state = .idle ∧ 2 ≤ [0, 0].length
    ∧ participates run = true := by decide
/-- The line is asserted as an enable is set over a flag, once more only after the pacing, and released with the last enabled flag (R172). -/
theorem test_attention_follows :
    let s := setEvent .level { run with events := { run.events with enables := 0, lastAssert := some 99000 } }
    after (.setEventMask [1, 0]) s (fun t => t.events.attention && decide (t.events.lastAssert = some 100000)) = true
    ∧ after (.setEventMask [1, 0]) { s with node := { s.node with config := some { cfg with pacing := 1000 } } } (fun t => t.events.attention) = true
    ∧ after (.setEventMask [1, 0]) { s with events := { s.events with lastAssert := some 99001 }, node := { s.node with config := some { cfg with pacing := 1000 } } }
      (fun t => !t.events.attention && decide (t.events.lastAssert = some 99001)) = true
    ∧ after (.readEvents [1, 0]) { s with events := { s.events with enables := 1, attention := true } } (fun t => !t.events.attention) = true := by decide
theorem test_witness_attention_given :
    (let s := setEvent .level run
     s.node.state ≠ .reset ∧ enabledFlag s = true ∧ pacingPassed s = true ∧ { s with pending := [.attentionPacing] }.pending = [.attentionPacing]
      ∧ { s.events with attention := true }.attention = true) ∧ State.reset.node.state = .reset := by decide
theorem test_witness_CountersAreReadAndCleared : run.node.state ≠ .reset ∧ run.port.state = .idle ∧ participates run = true
    ∧ (node cfg .loading).node.state = .loading ∧ (node cfg .loading).port.state = .idle := by decide
theorem test_witness_BlocksAtThePort : participates run = true ∧ run.port.state = .idle ∧ (0x00 : Octet).toNat = 0
    ∧ 0x11 < (0x12 : Octet).toNat ∧ argsNeeded 2 = some 3 ∧ [(0 : Octet), 0].length < 3
    ∧ { run.port with state := .busy }.state ≠ .idle ∧ { run.port with state := .ready }.state = .ready
    ∧ enabledFlag (setEvent .level run) = true ∧ (setEvent .level run).events.attention = false
    ∧ pacingPassed (setEvent .level run) = true ∧ run.node.state ≠ .reset := by decide
theorem test_witness_blocks_in_other_states : (node cfg .chainTest).node.state = .chainTest ∧ (node cfg .chainTest).port.state = .idle
    ∧ (node cfg .loading).node.state = .loading ∧ (node cfg .fault).node.state = .fault ∧ argsNeeded 0x0F = some 3 ∧ argsNeeded 6 = some 2
    ∧ [(40 : Octet), 0].length < 3 ∧ (octetAt [2, 4, 8, 0] 1).toNat ≤ 4 ∧ [(2 : Octet), 4, 8, 0].length < 4 + 4 * 4 := by decide
/-- NOT READY in CHAIN TEST and FAULT; an ISSUE ORDER without the octets of its pairs is INVALID, one of five pairs goes to its owner (R167, R169; log entry 48). -/
theorem test_refused_blocks : after (.testChain []) (node cfg .chainTest) (answered [1]) = true
    ∧ after (.setEventMask [0, 0]) (node cfg .fault) (answered [1]) = true ∧ after (.issueOrder [2, 4, 8, 0]) plain (answered [3]) = true
    ∧ after (.issueOrder [2, 5, 8, 0]) plain (answered [2]) = true ∧ after (.unknownCommand [0x0F, 1]) (node cfg .fault) (answered [1]) = true
    ∧ after (.unknownCommand [0x0E, 2, 4, 8, 0]) run (answered [3]) = true := by decide
theorem test_witness_invariants : step run = .next (tick run) ∧ run.muster.record.serial ≤ run.muster.highestSeen
    ∧ heldSlots run.bus ≤ poolSize ∧ run.bus.receiver = .hunt ∧ run.bus.queue = [] ∧ run.sched.flight.length ≤ 2
    ∧ run.events.attention = false ∧ run.muster.record.level = .normal ∧ run.muster.record.authority = none
    ∧ run.muster.record.redirects = [] ∧ run.lights = lampsNow run := by
  refine ⟨rfl, ?_⟩
  decide

end Sys2Proof.Tests
end

