-- ==== Sys2Proof/Proofs/Passability.lean ====
section
/-! PROOFS. When a segment is passable (R85): one equation per row of the table of kinds, and the obligation assembled from them. -/

namespace Sys2Proof.Machine

/-- The block state decides first, whatever the kind. -/
@[simp] theorem passableAt_blocked (l : Level) (kind : SegKind) (closure : Closure) :
    passableAt l kind closure true = false := rfl

@[simp] theorem passableAt_corridor_clear (l : Level) (closure : Closure) :
    passableAt l .corridor closure false = true := rfl

@[simp] theorem passableAt_stair_clear (l : Level) (closure : Closure) :
    passableAt l .stair closure false = true := rfl

/-- A fire door holds smoke, not people: its closure state plays no part. -/
@[simp] theorem passableAt_fireClosure_clear (l : Level) (closure : Closure) :
    passableAt l .fireClosure closure false = true := rfl

/-- A watertight door must be known to be open. -/
@[simp] theorem passableAt_watertightClosure_clear (l : Level) (closure : Closure) :
    passableAt l .watertightClosure closure false = decide (closure = .opened) := rfl

/-- A lift is the one kind whose passability hangs on the level. -/
@[simp] theorem passableAt_lift_clear (l : Level) (closure : Closure) :
    passableAt l .lift closure false = decide (l ≠ .muster) := rfl

/-- Settles O27: a blocked segment is impassable by `passableAt_blocked`; over a clear one, the row of each kind. -/
theorem segmentIsPassable : Obligations.SegmentIsPassable := by
  unfold Obligations.SegmentIsPassable
  intro l kind closure blocked
  cases blocked with
  | true => simp
  | false =>
    cases kind with
    | corridor => simp
    | stair => simp
    | fireClosure => simp
    | watertightClosure => simp
    | lift => simp

end Sys2Proof.Machine
end

