-- ==== Sys2Proof/Proofs/Counters.lean ====
section
/-! PROOFS. The counters at the local port (R170): what an idle port does with a block that the node state allows and with one that it
refuses, what the two owners and the two resets do to the counters, and the obligation assembled from them. -/

namespace Sys2Proof.Machine

/-! ### A block at an idle port (R166, R167) -/

/-- A node that takes part in the zone is not in RESET. -/
theorem not_reset_of_participates {s : State} (h : participates s = true) : s.node.state ≠ .reset := by
  intro hreset
  simp [participates, hreset] at h

/-- In LOADING, CHAIN TEST and FAULT the node state allows the codes of the reads and no other (R167). -/
theorem stateAllows_of_aside {s : State} (code : Nat)
    (h : s.node.state = .loading ∨ s.node.state = .chainTest ∨ s.node.state = .fault) :
    stateAllows code s = readCode code := by
  rcases h with h | h | h <;> simp [stateAllows, participates, h]

theorem stateAllows_of_readCode {code : Nat} (s : State) (h : readCode code = true) : stateAllows code s = true := by
  simp [stateAllows, h]

theorem stateAllows_of_participates {s : State} (code : Nat) (h : participates s = true) : stateAllows code s = true := by
  simp [stateAllows, h]

/-- A command other than ISSUE ORDER that needs no argument has no short block. -/
theorem tooShort_of_argsNeeded_zero {code : Nat} (args : List Octet) (hneeds : argsNeeded code = some 0) (horder : code ≠ 0x0E) :
    tooShort code args = false := by
  simp [tooShort, hneeds, horder]

/-- An idle port hands a block that is allowed and long enough to its owner. -/
theorem portTake_owner {code : Nat} {args : List Octet} {s : State} (owner : State → State) (hnode : s.node.state ≠ .reset)
    (hport : s.port.state = .idle) (hallow : stateAllows code s = true) (hlong : tooShort code args = false) :
    portTake code args owner s = owner s := by
  simp [portTake, hnode, hport, hallow, hlong]

/-- An idle port answers a block that the node state refuses NOT READY, whoever its owner is. -/
theorem portTake_notReady {code : Nat} {s : State} (args : List Octet) (owner : State → State) (hnode : s.node.state ≠ .reset)
    (hport : s.port.state = .idle) (hrefuse : stateAllows code s = false) :
    portTake code args owner s = answer (o8 code :: args) (respond .notReady []) s := by
  simp [portTake, hnode, hport, hrefuse]

theorem portRun_owner {code : Nat} {args : List Octet} {s : State} (owner : State → State × List Octet) (hnode : s.node.state ≠ .reset)
    (hport : s.port.state = .idle) (hallow : stateAllows code s = true) (hlong : tooShort code args = false) :
    portRun code args owner s = answer (o8 code :: args) (owner s).2 (owner s).1 :=
  portTake_owner _ hnode hport hallow hlong

theorem portRun_notReady {code : Nat} {s : State} (args : List Octet) (owner : State → State × List Octet)
    (hnode : s.node.state ≠ .reset) (hport : s.port.state = .idle) (hrefuse : stateAllows code s = false) :
    portRun code args owner s = answer (o8 code :: args) (respond .notReady []) s :=
  portTake_notReady args _ hnode hport hrefuse

/-! ### The counters' commands and the resets (R165, R170) -/

/-- Outside RESET an idle port reads the counters, whatever the node state. -/
theorem exec_readCounters_idle {s : State} (args : List Octet) (hnode : s.node.state ≠ .reset) (hport : s.port.state = .idle) :
    exec (.readCounters args) s = .next (answer (0x09 :: args) (respond .done (counterOctets s.counters)) s) := by
  have hrun := portRun_owner (args := args) doReadCounters hnode hport (stateAllows_of_readCode (code := 0x09) s rfl)
    (tooShort_of_argsNeeded_zero args rfl (by decide))
  exact congrArg Host.Outcome.next hrun

/-- The response of CLEAR COUNTERS holds the counters as they were before the clear. -/
theorem exec_clearCounters_participating {s : State} (args : List Octet) (hpart : participates s = true)
    (hport : s.port.state = .idle) :
    exec (.clearCounters args) s = .next (answer (0x0A :: args) (respond .done (counterOctets s.counters))
      (s.modCounters fun _ => Counters.zero)) := by
  have hrun := portRun_owner (args := args) doClearCounters (not_reset_of_participates hpart) hport
    (stateAllows_of_participates 0x0A hpart) (tooShort_of_argsNeeded_zero args rfl (by decide))
  exact congrArg Host.Outcome.next hrun

/-- CLEAR COUNTERS is none of the reads: in LOADING, CHAIN TEST and FAULT it is refused before its owner sees it. -/
theorem exec_clearCounters_aside {s : State} (args : List Octet)
    (hnode : s.node.state = .loading ∨ s.node.state = .chainTest ∨ s.node.state = .fault) (hport : s.port.state = .idle) :
    exec (.clearCounters args) s = .next (answer (0x0A :: args) (respond .notReady []) s) := by
  have houtside : s.node.state ≠ .reset := by
    rcases hnode with h | h | h <;> simp [h]
  have hrefuse : stateAllows 0x0A s = false := (stateAllows_of_aside 0x0A hnode).trans rfl
  exact congrArg Host.Outcome.next (portRun_notReady args doClearCounters houtside hport hrefuse)

@[simp] theorem Counters.zero_list : Counters.zero.list = List.replicate 22 0 := rfl

@[simp] theorem afterReset_counters (s : State) : (afterReset s).counters = Counters.zero := rfl

@[simp] theorem afterRestart_counters (block : List Octet) (s : State) : (afterRestart block s).counters = s.counters := rfl

theorem exec_fullReset (cause : ResetCause) (s : State) : exec (.fullReset cause) s = .next (afterReset s) := rfl

/-- Outside RESET an idle port takes a RESTART, whatever the node state. -/
theorem exec_restart_idle {s : State} (args : List Octet) (hnode : s.node.state ≠ .reset) (hport : s.port.state = .idle) :
    exec (.restart args) s = .next (afterRestart (0x11 :: args) s) := by
  have htake := portTake_owner (args := args) (afterRestart (0x11 :: args)) hnode hport
    (stateAllows_of_readCode (code := 0x11) s rfl) (tooShort_of_argsNeeded_zero args rfl (by decide))
  exact congrArg Host.Outcome.next htake

/-- Settles O53: one clause for each of the five equations above. -/
theorem countersAreReadAndCleared : Obligations.CountersAreReadAndCleared := by
  unfold Obligations.CountersAreReadAndCleared
  intro args cause s
  refine ⟨?read, ?clear, ?refuse, ?fullReset, ?restart⟩
  case read => exact exec_readCounters_idle args
  case clear => exact exec_clearCounters_participating args
  case refuse => exact exec_clearCounters_aside args
  case fullReset => exact ⟨afterReset s, exec_fullReset cause s, by simp⟩
  case restart =>
    intro hnode hport
    exact ⟨_, exec_restart_idle args hnode hport, afterRestart_counters _ s⟩

end Sys2Proof.Machine
end

