-- ==== Sys2Proof/Proofs/Outcomes.lean ====
section
/-! PROOFS. What a command and a step lead to: the one way to state and to cite it, that nothing stops (O60), and the front command's step (O1). -/

namespace Sys2Proof.Machine

/-- The outcome is a next state. -/
def Proceeds (o : Host.Outcome State Fault Refusal) : Prop := ∃ t, o = .next t

@[simp] theorem proceeds_next (t : State) : Proceeds (.next t) := ⟨t, rfl⟩

/-- Every state the outcome leads to has the property. -/
def Yields (P : State → Prop) (o : Host.Outcome State Fault Refusal) : Prop := ∀ t, o = .next t → P t

@[simp] theorem yields_next (P : State → Prop) (t : State) : Yields P (.next t) ↔ P t := by
  constructor
  · intro h
    exact h t rfl
  · rintro h _ ⟨⟩
    exact h

/-- The two kinds of step: the front command on the queue's rest, or a millisecond. -/
theorem step_cases {s t : State} (h : step s = .next t) :
    (∃ c rest, s.pending = c :: rest ∧ exec c (s.modPending fun _ => rest) = .next t) ∨ (s.pending = [] ∧ t = tick s) := by
  unfold step at h
  split at h
  · exact .inl ⟨_, _, ‹_›, h⟩
  · cases h
    exact .inr ⟨‹_›, rfl⟩

/-- What a millisecond keeps, and every command keeps whatever the queue of commands holds, every step keeps. -/
theorem step_keeps {P : State → Prop} (hpending : ∀ s f, P s → P (s.modPending f)) (htick : ∀ s, P s → P (tick s))
    (hexec : ∀ c s, P s → Yields P (exec c s)) {s t : State} (hs : P s) (h : step s = .next t) : P t := by
  obtain ⟨c, rest, -, hc⟩ | ⟨-, rfl⟩ := step_cases h
  · exact hexec c _ (hpending s _ hs) t hc
  · exact htick s hs

/-- Settles O1. -/
theorem stepRunsFrontCommand : Obligations.StepRunsFrontCommand := by
  unfold Obligations.StepRunsFrontCommand
  intro c rest s h
  simp only [step, h]
  rfl

/-- Settles O60: a meaning that first looks at a frame, an entry or a phase leads to a next state in each branch; every other meaning is a next
state as it stands. -/
theorem nothingStops : Obligations.NothingStops := by
  unfold Obligations.NothingStops
  intro c s
  change Proceeds (exec c s)
  cases c with
  | timeMark => dsimp only [exec, execTimeMark]; (repeat' split) <;> exact proceeds_next _
  | frameHeader => dsimp only [exec, execFrameHeader]; (repeat' split) <;> exact proceeds_next _
  | frameReceived => dsimp only [exec, execFrameReceived]; (repeat' split) <;> exact proceeds_next _
  | followedFrameEnd => dsimp only [exec, execFollowedFrameEnd]; (repeat' split) <;> exact proceeds_next _
  | transmitBegin => dsimp only [exec, execTransmitBegin]; (repeat' split) <;> exact proceeds_next _
  | collision => dsimp only [exec, execCollision]; (repeat' split) <;> exact proceeds_next _
  | jamEnd => dsimp only [exec, execJamEnd]; (repeat' split) <;> exact proceeds_next _
  | backoffEnd => dsimp only [exec, execBackoffEnd]; (repeat' split) <;> exact proceeds_next _
  | transmitComplete => dsimp only [exec, execTransmitComplete]; (repeat' split) <;> exact proceeds_next _
  | abortedTailEnd => dsimp only [exec, execAbortedTailEnd]; (repeat' split) <;> exact proceeds_next _
  | programmeItem => dsimp only [exec, execProgrammeItem]; (repeat' split) <;> exact proceeds_next _
  | programmeSummary => dsimp only [exec, execProgrammeSummary]; (repeat' split) <;> exact proceeds_next _
  | itemRequest => dsimp only [exec, execItemRequest]; (repeat' split) <;> exact proceeds_next _
  | requestTimer => dsimp only [exec, execRequestTimer]; (repeat' split) <;> exact proceeds_next _
  | answerHold => dsimp only [exec, execAnswerHold]; (repeat' split) <;> exact proceeds_next _
  | presenceTimer => dsimp only [exec, execPresenceTimer]; (repeat' split) <;> exact proceeds_next _
  | senseLineAccept => dsimp only [exec, execSenseLineAccept]; (repeat' split) <;> exact proceeds_next _
  | senseLineChange => dsimp only [exec, execSenseLineChange]; (repeat' split) <;> exact proceeds_next _
  | segmentState => dsimp only [exec, execSegmentState]; (repeat' split) <;> exact proceeds_next _
  | routeAdvert => dsimp only [exec, execRouteAdvert]; (repeat' split) <;> exact proceeds_next _
  | musterOrder => dsimp only [exec, execMusterOrder]; (repeat' split) <;> exact proceeds_next _
  | cabinReport => dsimp only [exec, execCabinReport]; (repeat' split) <;> exact proceeds_next _
  | busyReleaseStart => dsimp only [exec, execBusyReleaseStart]; (repeat' split) <;> exact proceeds_next _
  | chainStall => dsimp only [exec, execChainStall]; (repeat' split) <;> exact proceeds_next _
  | transactionEnd => dsimp only [exec, execTransactionEnd]; (repeat' split) <;> exact proceeds_next _
  | chainTimeout => dsimp only [exec, execChainTimeout]; (repeat' split) <;> exact proceeds_next _
  | lineTestEnd => dsimp only [exec, execLineTestEnd]; (repeat' split) <;> exact proceeds_next _
  | unknownCommand => dsimp only [exec, execUnknownCommand]; (repeat' split) <;> exact proceeds_next _
  | _ => exact proceeds_next _

end Sys2Proof.Machine
end

