-- ==== Sys2Proof/Proofs/KeptEnds.lean ====
section
/-! PROOFS. What the updates, the entries to the node states, the image and the port do to the parts of `Kept`: the rules that the invariants of
the order (O56) and of the receive pool (O57) are read from. -/

namespace Sys2Proof.Machine

/-! ### The updates that write one of those parts -/

theorem kept_modNode (s : State) (f : Sequencer → Sequencer) : (s.modNode f).kept = { s.kept with node := f s.node } := rfl
theorem kept_modPort (s : State) (f : LocalPort → LocalPort) : (s.modPort f).kept = { s.kept with port := f s.port } := rfl
theorem kept_modPins (s : State) (f : Pins → Pins) : (s.modPins f).kept = { s.kept with pins := f s.pins } := rfl
theorem kept_modSupply (s : State) (f : Supply → Supply) : (s.modSupply f).kept = { s.kept with supply := f s.supply } := rfl
theorem kept_modPending (s : State) (f : List Instr → List Instr) : (s.modPending f).kept = { s.kept with pending := f s.pending } := rfl

theorem kept_modBus_eq (s : State) (f : ZoneBus → ZoneBus) : (s.modBus f).kept = { s.kept with
    receiver := (f s.bus).receiver, timeQ := (f s.bus).timeQ, programmeQ := (f s.bus).programmeQ, routeQ := (f s.bus).routeQ,
    musterQ := (f s.bus).musterQ } := rfl

theorem kept_modMuster_eq (s : State) (f : MusterControl → MusterControl) : (s.modMuster f).kept = { s.kept with
    record := (f s.muster).record, highestSeen := (f s.muster).highestSeen, authorities := (f s.muster).authorities } := rfl

theorem kept_setReceiver (r : Receiver) (s : State) : (setReceiver r s).kept = { s.kept with receiver := r } := rfl

/-! ### The node states and the image -/

theorem kept_enterFault (s : State) : (enterFault s).kept = { s.kept with
    node := { s.node with state := .fault, joinTimer := none }, receiver := .hunt } := by
  simp only [enterFault, silenceBus, kept_compareAll, kept_retargetAll, kept_settleMarks, kept_stopTimers, kept_stopExchange]
  rfl

theorem kept_enterJoining (s : State) : (enterJoining s).kept = { s.kept with
    node := { s.node with state := .joining, joinTimer := startTimer s Config.joinTime } } := by
  simp [enterJoining, kept_modNode]

theorem kept_enterRun (s : State) : (enterRun s).kept = { s.kept with node := { s.node with state := .run, joinTimer := none } } := by
  simp only [enterRun, kept_settleMarks, kept_compareAll, kept_offerSensed, kept_restartEcho]
  split <;> simp [kept_modNode]

/-- An image that is judged may write the node's part, the authorities and, by entry to FAULT, the receiver. -/
theorem kept_judgeImage (image : List Octet) (s : State) : (judgeImage image s).kept = { s.kept with
    node := (judgeImage image s).node, receiver := s.kept.receiver, authorities := (judgeImage image s).kept.authorities }
    ∨ (judgeImage image s).kept = { s.kept with node := (judgeImage image s).node, receiver := .hunt } := by
  have invalid (r : LoadResult) (n : Nat) : (loadInvalid r n s).kept = { s.kept with
      node := (loadInvalid r n s).node, receiver := .hunt } := by
    have h := kept_enterFault (s.modNode fun n' => { n' with loadResult := r, firstFailed := n, config := none })
    have hnode : (loadInvalid r n s).node = (loadInvalid r n s).kept.node := rfl
    rw [hnode, loadInvalid, h, kept_modNode]
  have valid (c : Configuration) : (loadValid c s).kept = { s.kept with
      node := (loadValid c s).node, authorities := (loadValid c s).kept.authorities } := by
    have hnode : (loadValid c s).node = (loadValid c s).kept.node := rfl
    rw [hnode]
    unfold loadValid
    split <;> simp [installConfig, kept_enterJoining, kept_modNode, kept_modMuster_eq] <;> exact ⟨rfl, rfl⟩
  unfold judgeImage
  (repeat' split) <;> first | exact .inr (invalid _ _) | exact .inl (valid _)

/-! ### Frames taken -/

theorem kept_freeProgramme (s : State) : (freeProgramme s).kept = { s.kept with programmeQ := s.bus.programmeQ.drop 1 } := rfl

theorem kept_freeMuster (s : State) : (freeMuster s).kept = { s.kept with musterQ := s.bus.musterQ.drop 1 } := rfl

theorem kept_takeSegments (es : List SegmentEntry) (s : State) : (es.foldl takeSegment s).kept = s.kept :=
  kept_foldl _ kept_takeSegment es s

theorem kept_takeStart (octet : Octet) (good : Bool) (s : State) : (takeStart octet good s).kept = { s.kept with
    receiver := (takeStart octet good s).bus.receiver } := by
  unfold takeStart
  split <;> rfl

/-- A header moves the receiver alone. -/
theorem kept_takeHeader (capture : Tick) (h : Option FrameHead) (s : State) : (takeHeader capture h s).kept = { s.kept with
    receiver := (takeHeader capture h s).bus.receiver } := by
  unfold takeHeader shedOrKeep
  (repeat' split) <;> rfl

/-- The owner queues with a received frame placed on the one of its kind. -/
theorem kept_placeReceived (f : RxFrame) (s : State) : (s.modBus (placeReceived f)).kept = { s.kept with
    timeQ := (placeReceived f s.bus).timeQ, programmeQ := (placeReceived f s.bus).programmeQ,
    routeQ := (placeReceived f s.bus).routeQ, musterQ := (placeReceived f s.bus).musterQ } := by
  unfold placeReceived
  cases f.kind <;> simp [kept_modBus_eq] <;> rfl

/-! ### The chain and the port -/

theorem kept_readBusy (busy : Bool) (s : State) : (readBusy busy s).kept = { s.kept with pins := { s.pins with busy := busy } } := rfl

theorem kept_startTest (s : State) : (startTest s).kept = s.kept := by simp [startTest]

theorem kept_answerTest (r : ChainResult) (s : State) : (answerTest r s).kept = { s.kept with port := (answerTest r s).port } := rfl

theorem kept_overrunPort (s : State) : (overrunPort s).kept = { s.kept with port := (overrunPort s).port } := rfl

theorem kept_answer (block response : List Octet) (s : State) :
    (answer block response s).kept = { s.kept with port := (answer block response s).port } := rfl

theorem kept_answerBad (block : List Octet) (code : Option Nat) (s : State) :
    (answerBad block code s).kept = { s.kept with port := (answerBad block code s).port } := by
  unfold answerBad
  (repeat' split) <;> rfl

/-- The end of a line test moves the port and, in CHAIN TEST, the node. -/
theorem kept_testEnded (r : ChainResult) (s : State) :
    (testEnded r s).kept = { s.kept with node := (testEnded r s).node, port := (testEnded r s).port } := by
  have h : (answerTest r (applyResult r (engineIdle s))).kept =
      { s.kept with port := (answerTest r (applyResult r (engineIdle s))).port } := by
    rw [kept_answerTest, kept_applyResult, kept_engineIdle]
  unfold testEnded
  dsimp only
  split
  · have hnode (u : State) : u.node = u.kept.node := rfl
    have hport (u : State) : u.port = u.kept.port := rfl
    rw [hnode, hport, kept_enterJoining, h]
  · have hsame : (answerTest r (applyResult r (engineIdle s))).node = s.kept.node := congrArg Kept.node h
    rw [h, hsame]


/-- Whatever the port does with a block: the port alone changes, or the owner carries the command out. -/
theorem portTake_cases (code : Nat) (args : List Octet) (owner : State → State) (s : State) :
    (∃ f, portTake code args owner s = s.modPort f) ∨ portTake code args owner s = owner s := by
  unfold portTake
  dsimp only
  split
  · exact .inl ⟨id, rfl⟩
  · split
    · exact .inl ⟨_, rfl⟩
    · split
      · exact .inl ⟨_, rfl⟩
      · split
        · exact .inl ⟨_, rfl⟩
        · exact .inr rfl

theorem portRun_cases (code : Nat) (args : List Octet) (owner : State → State × List Octet) (s : State) :
    (∃ f, portRun code args owner s = s.modPort f) ∨ ∃ f, portRun code args owner s = (owner s).1.modPort f := by
  obtain ⟨f, h⟩ | h := portTake_cases code args (fun s => match owner s with | (s, r) => answer (o8 code :: args) r s) s
  · exact .inl ⟨f, h⟩
  · exact .inr ⟨_, h⟩

/-- A property of the state that the port has no part in stands over a command at the port when the owner keeps it. -/
theorem portTake_keeps {P : State → Prop} (hport : ∀ u f, P u → P (State.modPort u f)) {code : Nat} {args : List Octet}
    {owner : State → State} {s : State} (hs : P s) (howner : P (owner s)) : P (portTake code args owner s) := by
  obtain ⟨f, h⟩ | h := portTake_cases code args owner s
  · exact h ▸ hport s f hs
  · exact h ▸ howner

theorem portRun_keeps {P : State → Prop} (hport : ∀ u f, P u → P (State.modPort u f)) {code : Nat} {args : List Octet}
    {owner : State → State × List Octet} {s : State} (hs : P s) (howner : P (owner s).1) : P (portRun code args owner s) := by
  obtain ⟨f, h⟩ | ⟨f, h⟩ := portRun_cases code args owner s
  · exact h ▸ hport s f hs
  · exact h ▸ hport _ f howner

end Sys2Proof.Machine
end

