-- ==== Sys2Proof/Proofs/QuietCommands.lean ====
section
/-! PROOFS. The commands that are quiet for the order and the receive pool: every one but seven leaves the order record and the highest-seen serial,
takes slots of the pool at most away, and keeps no header it did not find kept. -/

namespace Sys2Proof.Machine

/-- The order stands: record and highest-seen serial are as they were. -/
def SameOrder (s t : State) : Prop := t.kept.record = s.kept.record ∧ t.kept.highestSeen = s.kept.highestSeen

theorem SameOrder.of_kept {s t : State} (h : t.kept = s.kept) : SameOrder s t := by simp [SameOrder, h]

/-- Slots of the receive pool held on the four owner queues. -/
def Kept.held (k : Kept) : Nat := k.timeQ.length + k.programmeQ.length + k.routeQ.length + k.musterQ.length

/-- No slot more is held, and a frame being assembled was so before. -/
def PoolShrinks (s t : State) : Prop :=
  t.kept.held ≤ s.kept.held ∧ ∀ c h, t.kept.receiver = .frame c (some h) → s.kept.receiver = .frame c (some h)

/-- The order stands and the pool shrinks. -/
def Quiet (s t : State) : Prop := SameOrder s t ∧ PoolShrinks s t

@[refl] theorem Quiet.refl (s : State) : Quiet s s := ⟨⟨rfl, rfl⟩, Nat.le_refl _, fun _ _ h => h⟩

/-- The end of a step, and every shared operation, is quiet after what was quiet. -/
theorem Quiet.then {s t u : State} (h : Quiet s t) (hu : u.kept = t.kept) : Quiet s u := by
  rw [Quiet, SameOrder, PoolShrinks, hu]
  exact h

theorem Quiet.of_kept {s t : State} (h : t.kept = s.kept) : Quiet s t := (Quiet.refl s).then h

theorem Quiet.modPort (s u : State) (f : LocalPort → LocalPort) (h : Quiet s u) : Quiet s (u.modPort f) := h

theorem quiet_portTake {code : Nat} {args : List Octet} {owner : State → State} {s : State} (h : Quiet s (owner s)) :
    Quiet s (portTake code args owner s) :=
  portTake_keeps (P := Quiet s) (Quiet.modPort s) (.refl s) h

theorem quiet_portRun {code : Nat} {args : List Octet} {owner : State → State × List Octet} {s : State} (h : Quiet s (owner s).1) :
    Quiet s (portRun code args owner s) :=
  portRun_keeps (P := Quiet s) (Quiet.modPort s) (.refl s) h

/-- The end of a command that takes a frame to be applied at once. -/
theorem kept_taken (s : State) : (settleAttention (settleAnswers s)).kept = s.kept := by simp

/-- The same with the path lights. -/
theorem kept_takenLit (s : State) : (settleAttention (settleLights (settleAnswers s))).kept = s.kept := by simp

/-! ### The operations that write a part of `Kept` -/

theorem quiet_enterFault (s : State) : Quiet s (enterFault s) := by
  simp [Quiet, SameOrder, PoolShrinks, kept_enterFault, Kept.held]

theorem quiet_enterRun (s : State) : Quiet s (enterRun s) := by
  simp [Quiet, SameOrder, PoolShrinks, kept_enterRun, Kept.held]

theorem quiet_judgeImage (image : List Octet) (s : State) : Quiet s (judgeImage image s) := by
  obtain h | h := kept_judgeImage image s <;> rw [Quiet, SameOrder, PoolShrinks, h] <;> simp [Kept.held]

theorem quiet_takeStart (octet : Octet) (good : Bool) (s : State) : Quiet s (takeStart octet good s) := by
  unfold takeStart
  split <;> simp [Quiet, SameOrder, PoolShrinks, kept_setReceiver, Kept.held]

theorem quiet_testEnded (r : ChainResult) (s : State) : Quiet s (testEnded r s) := by
  rw [Quiet, SameOrder, PoolShrinks, kept_testEnded]
  exact Quiet.refl s

theorem quiet_answerBad (block : List Octet) (code : Option Nat) (s : State) : Quiet s (answerBad block code s) := by
  rw [Quiet, SameOrder, PoolShrinks, kept_answerBad]
  exact Quiet.refl s

theorem quiet_freeProgramme {s t : State} (h : t.kept = s.kept) : Quiet s (freeProgramme t) := by
  have hq : t.bus.programmeQ = s.kept.programmeQ := congrArg Kept.programmeQ h
  simp [Quiet, SameOrder, PoolShrinks, kept_freeProgramme, h, hq, Kept.held]

theorem quiet_freeMuster {s t : State} (h : t.kept = s.kept) : Quiet s (freeMuster t) := by
  have hq : t.bus.musterQ = s.kept.musterQ := congrArg Kept.musterQ h
  simp [Quiet, SameOrder, PoolShrinks, kept_freeMuster, h, hq, Kept.held]

theorem quiet_freeTime {s t : State} {f : RxFrame} {rest : List RxFrame} (h : t.kept = s.kept) (hq : s.bus.timeQ = f :: rest) :
    Quiet s (t.modBus fun b => { b with timeQ := rest }) := by
  have hlen : s.kept.timeQ.length = rest.length + 1 := congrArg List.length hq
  have hkept : (t.modBus fun b => { b with timeQ := rest }).kept = { t.kept with timeQ := rest } := rfl
  rw [Quiet, SameOrder, PoolShrinks, hkept, h]
  simp [Kept.held]
  omega

theorem quiet_freeRoute {s t : State} {f : RxFrame} {rest : List RxFrame} (h : t.kept = s.kept) (hq : s.bus.routeQ = f :: rest) :
    Quiet s (t.modBus fun b => { b with routeQ := rest }) := by
  have hlen : s.kept.routeQ.length = rest.length + 1 := congrArg List.length hq
  have hkept : (t.modBus fun b => { b with routeQ := rest }).kept = { t.kept with routeQ := rest } := rfl
  rw [Quiet, SameOrder, PoolShrinks, hkept, h]
  simp [Kept.held]
  omega

/-- SET TIME's owner writes the time, the store and what an offer writes. -/
theorem kept_doSetTime (args : List Octet) (s : State) : (doSetTime args s).1.kept = s.kept := by
  unfold doSetTime
  dsimp only
  (repeat' split) <;> simp

theorem quiet_doTestChain (block : List Octet) (s : State) : Quiet s (doTestChain block s) := by
  unfold doTestChain
  split
  · exact Quiet.modPort s s _ (.refl s)
  · exact (Quiet.modPort s s _ (.refl s)).then (kept_requestTest _)

/-! ### The commands -/

/-- The commands that may write the order, place a frame in the pool, or keep a header. -/
def loud : Instr → Bool
  | .fullReset _ | .restart _ | .musterOrder | .standDownTimer | .issueOrder _ | .frameHeader .. | .frameReceived .. => true
  | _ => false

/-- Every command but the seven is quiet. -/
theorem quiet_exec {c : Instr} (hc : loud c = false) (s : State) : Yields (Quiet s) (exec c s) := by
  cases c with
  | fullReset | restart | musterOrder | standDownTimer | issueOrder | frameHeader | frameReceived => cases hc
  | imageLoadDone image =>
    dsimp only [exec, execImageLoadDone]
    rw [yields_next]
    split
    · exact (quiet_judgeImage image s).then (kept_settle _)
    · rfl
  | joinTimer =>
    dsimp only [exec, execJoinTimer]
    rw [yields_next]
    split
    · exact (quiet_enterRun s).then (kept_settle _)
    · rfl
  | timeMark =>
    dsimp only [exec, execTimeMark]
    split
    · split
      · split <;> exact (yields_next _ _).2 ((quiet_freeTime (by simp) ‹_›).then (kept_taken _))
      · simp [Quiet.refl]
    · simp [Quiet.refl]
  | programmeItem | programmeSummary | itemRequest =>
    dsimp only [exec, execProgrammeItem, execProgrammeSummary, execItemRequest]
    split
    · split
      · exact (yields_next _ _).2 ((quiet_freeProgramme (by simp)).then (kept_taken _))
      · simp [Quiet.refl]
    · simp [Quiet.refl]
  | segmentState =>
    dsimp only [exec, execSegmentState]
    split
    · split
      · split <;> exact (yields_next _ _).2 ((quiet_freeRoute (by simp [kept_takeSegments]) ‹_›).then (kept_takenLit _))
      · simp [Quiet.refl]
    · simp [Quiet.refl]
  | routeAdvert =>
    dsimp only [exec, execRouteAdvert]
    split
    · split
      · exact (yields_next _ _).2 ((quiet_freeRoute (by simp) ‹_›).then (kept_takenLit _))
      · simp [Quiet.refl]
    · simp [Quiet.refl]
  | cabinReport =>
    dsimp only [exec, execCabinReport]
    split
    · split
      · exact (yields_next _ _).2 ((quiet_freeMuster (by simp)).then (kept_settle _))
      · simp [Quiet.refl]
    · simp [Quiet.refl]
  | startOctet idle octet good =>
    dsimp only [exec, execStartOctet]
    rw [yields_next]
    split
    · split
      · have h := quiet_takeStart octet good (restartWait s)
        rw [Quiet, SameOrder, PoolShrinks, kept_restartWait] at h
        exact h
      · exact .of_kept (by simp)
    · rfl
  | lineTestEnd busy low high =>
    dsimp only [exec, execLineTestEnd]
    split
    · split
      · simp [Quiet.refl]
      · exact (yields_next _ _).2 ((quiet_testEnded _ (readBusy busy s)).then (kept_settle _))
    · simp [Quiet.refl]
  | unknownCommand block =>
    dsimp only [exec, execUnknownCommand]
    split
    · rw [yields_next]
      split
      · rfl
      · split
        · exact Quiet.modPort s s _ (.refl s)
        · exact quiet_answerBad _ _ s
    · simp [Quiet.refl]
  | readView | readItem | readRoute | queryRoute | readPlate | readRoll | readCounters | clearCounters =>
    exact (yields_next _ _).2 (quiet_portRun
      (.of_kept (by simp [doReadView, doReadItem, doReadCounters, doClearCounters])))
  | readEvents | setEventMask =>
    exact (yields_next _ _).2 ((quiet_portRun (.refl s)).then (kept_settleAttention _))
  | publishItem | withdrawItem | setTime =>
    exact (yields_next _ _).2 ((quiet_portRun (.of_kept (by simp [kept_doSetTime]))).then (kept_settleSend _))
  | declareSegment =>
    exact (yields_next _ _).2 ((quiet_portRun (.of_kept (by simp))).then (kept_settle _))
  | testChain args =>
    exact (yields_next _ _).2 ((quiet_portTake (quiet_doTestChain _ s)).then (kept_settle _))
  | _ =>
    dsimp only [exec, execResetRelease, execVoltageCrossing, execSourceLineAccept, execDayWrap, execComparatorMatch, execSourceHold, execMarkTimer,
      execFrameEndShort, execTransmitBegin, execCollision, execJamEnd, execBackoffEnd, execTransmitComplete, execAbortedTailEnd, execSummaryTimer,
      execEarlySummary, execRequestTimer, execAnswerHold, execPresenceTimer, execSenseLineAccept, execAdvertTimer, execTriggeredAdvert, execEchoTimer,
      execJoinPromptEcho, execSweepRefreshTimer, execPollDue, execBusyReleaseStart, execChainStall, execTransactionEnd, execChainTimeout,
      execChainResetPulseEnd, execLineTestStart, execDriveTimer, execCommandOverrun, execResponseRead, execAttentionPacing, execFollowedFrameEnd,
      execSenseLineChange, execSourceLineChange]
    (repeat' split) <;> simp [Quiet, SameOrder, PoolShrinks, Kept.held, kept_modNode, kept_modPort, kept_modPins, kept_modSupply,
      kept_setReceiver, kept_readBusy, kept_startTest, kept_overrunPort]

end Sys2Proof.Machine
end

