-- ==== Sys2Proof/Proofs/OrderSound.lean ====
section
/-! PROOFS. Every step keeps the order sound (O56): what a received and an issued order leave of the record and the highest-seen serial, and that every
other command keeps both or resets them. -/

namespace Sys2Proof.Machine

/-- R109 and R111 of a record and a highest-seen serial: what `orderSound` says of a state's. -/
def OrderRecord.sound (r : OrderRecord) (seen : Nat) : Prop :=
  r.serial ≤ seen ∧ seen ≤ 65535 ∧ (r.serial = 0 → r.level = .normal ∧ r.authority = none)
    ∧ ∀ p ∈ r.redirects, ∀ q ∈ r.redirects, q.closed ≠ p.alternate

theorem orderSound_iff (s : State) : s.orderSound ↔ s.kept.record.sound s.kept.highestSeen := Iff.rfl

theorem SameOrder.sound {s t : State} (h : SameOrder s t) (hs : s.orderSound) : t.orderSound := by
  obtain ⟨hrecord, hseen⟩ := h
  rw [orderSound_iff, hrecord, hseen]
  exact hs

/-! ### Orders adopted -/

theorem rd16_le (lo hi : Octet) : rd16 lo hi ≤ 65535 := by
  have := lo.isLt
  have := hi.isLt
  unfold rd16
  omega

/-- An order read from a frame has a serial of 16 bits. -/
theorem serial_le_of_readOrder {l : List Octet} {o : Order} (h : readOrder l = some o) : o.serial ≤ 65535 := by
  simp only [readOrder, Option.ite_none_right_eq_some] at h
  obtain ⟨-, h⟩ := h
  split at h
  · contradiction
  · cases h
    exact rd16_le _ _

/-- What R110 asks of the redirects keeps every alternate open. -/
theorem redirects_open {table : List RouteEntry} {rs : List Redirect} (h : redirectsOk table rs = true) :
    ∀ p ∈ rs, ∀ q ∈ rs, q.closed ≠ p.alternate := by
  intro p hp q hq
  simp only [redirectsOk, List.all_eq_true, Bool.and_eq_true, decide_eq_true_eq] at h
  obtain ⟨⟨-, hopen⟩, -⟩ := h p hp
  simpa using hopen q hq

theorem kept_adoptOrder (o : Order) (s : State) : (adoptOrder o s).kept = { s.kept with record := recordFor s o } := by
  simp only [adoptOrder, kept_recordEffects]
  rfl

theorem kept_lapse (s : State) : (lapse s).kept = { s.kept with record := { s.muster.record with level := .normal, lapsed := true } } := by
  simp only [lapse, kept_restartEcho, kept_changeLevel]
  rfl

/-! An order at the Muster Controller writes the record and the highest-seen serial, and no other of the kept parts. -/

theorem kept_acceptOrder (o : Order) (s : State) : ∃ r n, (acceptOrder o s).kept = { s.kept with record := r, highestSeen := n } := by
  unfold acceptOrder compareOrder
  dsimp only
  split
  · split
    · exact ⟨_, _, kept_adoptOrder _ _⟩
    · split
      · exact ⟨_, _, rfl⟩
      · split
        · exact ⟨_, _, rfl⟩
        · split
          · exact ⟨_, _, by rw [kept_adoptOrder, kept_countConflict]; rfl⟩
          · exact ⟨_, _, rfl⟩
  · exact ⟨_, _, rfl⟩

theorem kept_takeOrder (payload : List Octet) (s : State) :
    ∃ r n, (takeOrder payload s).kept = { s.kept with record := r, highestSeen := n } := by
  have hu := kept_cancelPrompted payload s
  unfold takeOrder
  dsimp only
  split
  · split
    · rename_i o _ _
      obtain ⟨r, n, h⟩ := kept_acceptOrder o (cancelPrompted payload s)
      exact ⟨r, n, by rw [h, hu]⟩
    · exact ⟨_, _, hu⟩
  · exact ⟨_, _, hu⟩

theorem kept_doIssueOrder (args : List Octet) (s : State) :
    ∃ r n, (doIssueOrder args s).1.kept = { s.kept with record := r, highestSeen := n } := by
  unfold doIssueOrder issueTaken
  (repeat' split) <;> first
    | exact ⟨_, _, rfl⟩
    | simpa using kept_acceptOrder _ s

/-- The record of an order with a serial not 0, within the highest-seen, whose redirects are open, is sound. -/
theorem recordFor_sound {s : State} {o : Order} {seen : Nat} (hzero : o.serial ≠ 0) (hle : o.serial ≤ seen) (hseen : seen ≤ 65535)
    (hopen : ∀ p ∈ o.redirects, ∀ q ∈ o.redirects, q.closed ≠ p.alternate) : (recordFor s o).sound seen :=
  ⟨hle, hseen, fun h => absurd h hzero, hopen⟩

/-- R112: the comparison adopts the order or leaves the record. -/
theorem compareOrder_cases (o : Order) (s : State) :
    SameOrder s (compareOrder o s) ∨ ((compareOrder o s).kept.record = recordFor s o
      ∧ (compareOrder o s).kept.highestSeen = s.kept.highestSeen) := by
  unfold compareOrder
  dsimp only
  split
  · exact .inr (by simp [kept_adoptOrder])
  · split
    · exact .inl ⟨rfl, rfl⟩
    · split
      · exact .inl ⟨rfl, rfl⟩
      · split
        · exact .inr (by simp only [kept_adoptOrder, kept_countConflict, and_true]; rfl)
        · exact .inl ⟨rfl, rfl⟩

theorem acceptOrder_sound {o : Order} {s : State} (hs : s.orderSound) (hzero : o.serial ≠ 0) (hserial : o.serial ≤ 65535)
    (hopen : ∀ p ∈ o.redirects, ∀ q ∈ o.redirects, q.closed ≠ p.alternate) : (acceptOrder o s).orderSound := by
  obtain ⟨hle, hseen, hnormal, hred⟩ := hs
  let u := s.modMuster fun m => { m with highestSeen := max m.highestSeen o.serial }
  have hu : u.orderSound := ⟨hle.trans (le_max_left _ _), max_le hseen hserial, hnormal, hred⟩
  unfold acceptOrder
  dsimp only
  split
  · obtain h | ⟨hrecord, hsame⟩ := compareOrder_cases o u
    · exact h.sound hu
    · rw [orderSound_iff]
      change (compareOrder o u).kept.record.sound (compareOrder o u).kept.highestSeen
      rw [hrecord, hsame]
      exact recordFor_sound hzero (le_max_right _ _) (max_le hseen hserial) hopen
  · exact hu

theorem takeOrder_sound {payload : List Octet} {s : State} (hs : s.orderSound) : (takeOrder payload s).orderSound := by
  have hu : (cancelPrompted payload s).orderSound := SameOrder.sound (.of_kept (kept_cancelPrompted payload s)) hs
  unfold takeOrder
  dsimp only
  split
  · rename_i o hread
    split
    · rename_i hok
      simp only [orderOk, Bool.and_eq_true, decide_eq_true_eq] at hok
      obtain ⟨⟨⟨⟨-, hzero⟩, -⟩, -⟩, hred⟩ := hok
      exact acceptOrder_sound hu hzero (serial_le_of_readOrder hread) (redirects_open hred)
    · exact hu
  · exact hu

theorem doIssueOrder_sound {args : List Octet} {s : State} (hs : s.orderSound) : (doIssueOrder args s).1.orderSound := by
  unfold doIssueOrder
  split
  · exact hs
  · split
    · exact hs
    · split
      · exact hs
      · rename_i o hissued
        split
        · exact hs
        · rename_i hchecks
          split
          · exact hs
          · rename_i hseen
            obtain ⟨l, -, rfl⟩ : ∃ l, levelOf _ = some l ∧ _ = o := by simpa [issuedOrder] using hissued
            have hlt : s.muster.highestSeen ≤ 65535 := hs.2.1
            refine SameOrder.sound (.of_kept (kept_offerOrder _ _ _)) (acceptOrder_sound hs (Nat.succ_ne_zero _) (by dsimp only; omega) ?_)
            exact redirects_open (table := s.route.table) (by simpa using fun h => hchecks (.inr (.inr h)))

/-! ### Every command -/

theorem order_frameHeader (kind source dest seq len : Octet) (s : State) :
    Yields (SameOrder s) (exec (.frameHeader kind source dest seq len) s) := by
  dsimp only [exec, execFrameHeader]
  split
  · rw [yields_next]
    split
    · rw [SameOrder, kept_takeHeader]
      exact ⟨rfl, rfl⟩
    · exact .of_kept rfl
  · exact (yields_next _ _).2 (.of_kept rfl)

theorem sameOrder_takeFrame (capture : Tick) (h : FrameHead) (payload : List Octet) (high low : Octet) (s : State) :
    SameOrder s (takeFrame capture h payload high low s) := by
  unfold takeFrame stationClash
  dsimp only
  split
  · exact ⟨rfl, rfl⟩
  · split
    · split
      · exact (quiet_enterFault (setReceiver .hunt s)).1
      · exact ⟨rfl, rfl⟩
    · rw [SameOrder, kept_modCounters, kept_placeReceived]
      exact ⟨rfl, rfl⟩

theorem order_frameReceived (payload : List Octet) (high low : Octet) (s : State) :
    Yields (SameOrder s) (exec (.frameReceived payload high low) s) := by
  dsimp only [exec, execFrameReceived]
  split
  · rw [yields_next]
    split
    · rw [SameOrder, kept_settle]
      exact sameOrder_takeFrame _ _ _ _ _ s
    · exact .of_kept rfl
  · exact (yields_next _ _).2 (.of_kept rfl)

theorem orderSound_reset : (State.reset).orderSound := by
  unfold State.orderSound
  decide

theorem orderSound_lapse {s : State} (hs : s.orderSound) (hlevel : level s = .standDown) : (lapse s).orderSound := by
  obtain ⟨hle, hseen, hnormal, hred⟩ := hs
  rw [orderSound_iff, kept_lapse]
  refine ⟨hle, hseen, fun hzero => ?_, hred⟩
  have hstands := (hnormal hzero).1
  rw [level] at hlevel
  rw [hlevel] at hstands
  cases hstands

/-- Every command keeps the order sound: the five that may write it by what R109 to R117 let them adopt, the others by leaving it. -/
theorem exec_keeps_orderSound (c : Instr) (s : State) (hs : s.orderSound) : Yields State.orderSound (exec c s) := by
  have of_kept {u t : State} (hu : u.orderSound) (h : t.kept = u.kept) : t.orderSound := (SameOrder.of_kept h).sound hu
  cases c with
  | fullReset => exact (yields_next _ _).2 orderSound_reset
  | restart args =>
    exact (yields_next _ _).2 (portTake_keeps (P := State.orderSound) (fun _ _ h => h) hs orderSound_reset)
  | musterOrder =>
    dsimp only [exec, execMusterOrder]
    split
    · split
      · rw [yields_next]
        exact of_kept (u := freeMuster (takeOrder _ s)) (takeOrder_sound hs) (kept_settle _)
      · exact (yields_next _ _).2 hs
    · exact (yields_next _ _).2 hs
  | standDownTimer =>
    dsimp only [exec, execStandDownTimer]
    rw [yields_next]
    split
    · rename_i hdue
      simp only [Bool.and_eq_true, decide_eq_true_eq] at hdue
      exact of_kept (orderSound_lapse hs hdue.2) (kept_settle _)
    · exact hs
  | issueOrder args =>
    refine (yields_next _ _).2 (of_kept ?_ (kept_settle _))
    exact portRun_keeps (P := State.orderSound) (fun _ _ h => h) hs (doIssueOrder_sound hs)
  | frameHeader => exact fun t ht => (order_frameHeader _ _ _ _ _ s t ht).sound hs
  | frameReceived => exact fun t ht => (order_frameReceived _ _ _ s t ht).sound hs
  | _ => exact fun t ht => (quiet_exec rfl s t ht).1.sound hs

/-- Settles O56: a millisecond writes neither the record nor the highest-seen serial. -/
theorem stepKeepsOrderSound : Obligations.StepKeepsOrderSound := by
  unfold Obligations.StepKeepsOrderSound
  intro s t hs h
  exact step_keeps (P := State.orderSound) (fun _ _ h => h) (fun _ h => h) exec_keeps_orderSound hs h

end Sys2Proof.Machine
end

