-- ==== Sys2Proof/Proofs/PoolSound.lean ====
section
/-! PROOFS. Every step keeps the receive pool sound (O57): the class limits of R20 keep a slot free for the frame whose header is kept, and R21 gives it that one. -/

namespace Sys2Proof.Machine

theorem poolSound_iff (s : State) : s.poolSound ↔ s.kept.held ≤ poolSize
    ∧ ∀ c h, s.kept.receiver = .frame c (some h) → s.kept.held < poolSize := Iff.rfl

theorem PoolShrinks.sound {s t : State} (h : PoolShrinks s t) (hs : s.poolSound) : t.poolSound := by
  obtain ⟨hheld, hframe⟩ := h
  obtain ⟨hle, hfree⟩ := hs
  exact ⟨hheld.trans hle, fun c f hf => hheld.trans_lt (hfree c f (hframe c f hf))⟩

/-- With the slots held as they were and no header kept, the pool stays sound. -/
theorem poolSound_of_held {s t : State} (hs : s.poolSound) (hheld : t.kept.held = s.kept.held)
    (hframe : ∀ c h, t.kept.receiver ≠ .frame c (some h)) : t.poolSound :=
  PoolShrinks.sound ⟨hheld.le, fun c h hf => absurd hf (hframe c h)⟩ hs

/-- R20 keeps a header only where a slot is free. -/
theorem takeHeader_poolSound {s : State} (capture : Tick) (h : Option FrameHead) (hs : s.poolSound) :
    (takeHeader capture h s).poolSound := by
  unfold takeHeader
  split
  · exact poolSound_of_held hs rfl (by simp [setReceiver, State.kept])
  · split
    · unfold shedOrKeep
      split
      · exact poolSound_of_held hs rfl (by simp [setReceiver, State.kept])
      · rename_i hfree
        split
        · exact poolSound_of_held hs rfl (by simp [setReceiver, State.kept])
        · refine ⟨hs.1, fun _ _ _ => ?_⟩
          unfold freeSlots at hfree
          exact (show heldSlots s.bus < poolSize by omega)
    · exact poolSound_of_held hs rfl (by simp [setReceiver, State.kept])

/-- A placed frame takes one slot. -/
theorem held_placeReceived (f : RxFrame) (s : State) : (s.modBus (placeReceived f)).kept.held = s.kept.held + 1 := by
  rw [kept_placeReceived]
  unfold placeReceived Kept.held
  cases f.kind <;> simp [State.kept] <;> omega

/-- R21: the frame whose header was kept finds its slot free, and leaves the receiver in HUNT. -/
theorem takeFrame_poolSound {s : State} {capture : Tick} {h : FrameHead} (payload : List Octet) (high low : Octet) (hs : s.poolSound)
    (hframe : s.bus.receiver = .frame capture (some h)) : (takeFrame capture h payload high low s).poolSound := by
  have hhunt : (setReceiver .hunt s).poolSound := poolSound_of_held hs rfl (by simp [kept_setReceiver])
  unfold takeFrame stationClash
  dsimp only
  split
  · exact hhunt
  · split
    · split
      · exact (quiet_enterFault _).2.sound hhunt
      · exact hhunt
    · have hone : s.kept.held < poolSize := hs.2 capture h hframe
      have hheld (f : RxFrame) : ((setReceiver .hunt s).modBus (placeReceived f)).kept.held ≤ poolSize := by
        rw [held_placeReceived]
        exact hone
      have hrecv (f : RxFrame) : ((setReceiver .hunt s).modBus (placeReceived f)).kept.receiver = .hunt := by
        rw [kept_placeReceived]
        rfl
      refine ⟨hheld _, fun c g hf => ?_⟩
      exact absurd ((hrecv _).symm.trans hf) (by simp)

theorem poolSound_reset : (State.reset).poolSound := ⟨Nat.zero_le _, fun _ _ h => by cases h⟩

/-- Record and highest-seen serial have no part in the receive pool. -/
theorem poolShrinks_of_order {s t : State} (h : ∃ r n, t.kept = { s.kept with record := r, highestSeen := n }) : PoolShrinks s t := by
  obtain ⟨r, n, h⟩ := h
  rw [PoolShrinks, h]
  exact (Quiet.refl s).2

theorem poolShrinks_freeMuster (s : State) : PoolShrinks s (freeMuster s) := (quiet_freeMuster rfl).2

theorem PoolShrinks.sound_settle {s t : State} (h : PoolShrinks s t) (hs : s.poolSound) : (settle t).poolSound :=
  (Quiet.of_kept (kept_settle t)).2.sound (h.sound hs)

/-- Every command keeps the pool sound: but for the header and the frame received, which R20 and R21 make safe, none takes a slot. -/
theorem exec_keeps_poolSound (c : Instr) (s : State) (hs : s.poolSound) : Yields State.poolSound (exec c s) := by
  cases c with
  | fullReset => exact (yields_next _ _).2 poolSound_reset
  | restart args =>
    exact (yields_next _ _).2 (portTake_keeps (P := State.poolSound) (fun _ _ h => h) hs poolSound_reset)
  | musterOrder =>
    dsimp only [exec, execMusterOrder]
    split
    · split
      · rename_i f _ _ _
        rw [yields_next]
        exact (poolShrinks_freeMuster _).sound_settle ((poolShrinks_of_order (kept_takeOrder f.payload s)).sound hs)
      · exact (yields_next _ _).2 hs
    · exact (yields_next _ _).2 hs
  | standDownTimer =>
    dsimp only [exec, execStandDownTimer]
    rw [yields_next]
    split
    · exact (poolShrinks_of_order ⟨_, _, kept_lapse s⟩).sound_settle hs
    · exact hs
  | issueOrder args =>
    have h : PoolShrinks s (portRun 0x0E args (doIssueOrder args) s) :=
      portRun_keeps (P := PoolShrinks s) (fun _ _ h => h) (Quiet.refl s).2 (poolShrinks_of_order (kept_doIssueOrder args s))
    exact (yields_next _ _).2 (h.sound_settle hs)
  | frameHeader kind source dest seq len =>
    dsimp only [exec, execFrameHeader]
    split
    · rw [yields_next]
      split
      · exact takeHeader_poolSound _ _ hs
      · exact hs
    · exact (yields_next _ _).2 hs
  | frameReceived payload high low =>
    dsimp only [exec, execFrameReceived]
    split
    · rw [yields_next]
      split
      · exact (Quiet.of_kept (kept_settle _)).2.sound (takeFrame_poolSound _ _ _ hs ‹_›)
      · exact hs
    · exact (yields_next _ _).2 hs
  | _ => exact fun t ht => (quiet_exec rfl s t ht).2.sound hs

/-- Settles O57: a millisecond has no part in the receive pool. -/
theorem stepKeepsPoolSound : Obligations.StepKeepsPoolSound := by
  unfold Obligations.StepKeepsPoolSound
  intro s t hs h
  exact step_keeps (P := State.poolSound) (fun _ _ h => h) (fun _ h => h) exec_keeps_poolSound hs h

end Sys2Proof.Machine
end

