-- ==== Sys2Proof/Proofs/TxQueue.lean ====
section
/-! PROOFS. The transmit queue (R24 to R27): class order, at most one of a kind held once at most, what placing, replacing and evicting do to it (O10). -/

namespace Sys2Proof.Machine

/-- R25 of a queue: what `queueSound` says of a state's. -/
def queueOk (q : List TxFrame) : Prop :=
  q.length ≤ 8 ∧ classOrdered q ∧ ∀ k : FrameKind, k.single = true → (q.filter (·.kind = k)).length ≤ 1

theorem queueSound_iff (s : State) : s.queueSound ↔ queueOk s.bus.queue := Iff.rfl

/-- Class order is the library's pairwise order of the classes. -/
theorem classOrdered_iff (q : List TxFrame) : classOrdered q ↔ q.Pairwise fun f g => g.kind.rank ≤ f.kind.rank := by
  induction q with
  | nil => simp [classOrdered]
  | cons f q ih => simp [classOrdered, ih]

theorem queueOk_nil : queueOk [] := by simp [queueOk, classOrdered]

/-- What is left of a sound queue is sound. -/
theorem queueOk_sublist {p q : List TxFrame} (h : p.Sublist q) (hq : queueOk q) : queueOk p := by
  obtain ⟨hlen, hord, hone⟩ := hq
  refine ⟨h.length_le.trans hlen, ?_, fun k hk => (h.filter _).length_le.trans (hone k hk)⟩
  rw [classOrdered_iff] at hord ⊢
  exact hord.sublist h

/-- Relabelling frames without a change of kind keeps the queue sound. -/
theorem queueOk_map {q : List TxFrame} (f : TxFrame → TxFrame) (hf : ∀ g, (f g).kind = g.kind) (hq : queueOk q) : queueOk (q.map f) := by
  obtain ⟨hlen, hord, hone⟩ := hq
  refine ⟨by simpa using hlen, ?_, fun k hk => ?_⟩
  · rw [classOrdered_iff] at hord ⊢
    simpa [List.pairwise_map, hf] using hord
  · have hcomp : ((fun g : TxFrame => decide (g.kind = k)) ∘ f) = fun g => decide (g.kind = k) := by
      funext g
      simp [hf]
    simpa [List.filter_map, hcomp] using hone k hk

/-! ### Placing (R25) -/

/-- The frames a placed frame goes behind: those of its own or a higher class, from the front. -/
def ahead (f g : TxFrame) : Bool := decide (f.kind.rank ≤ g.kind.rank)

theorem placeFrame_eq (f : TxFrame) (q : List TxFrame) :
    placeFrame f q = q.takeWhile (ahead f) ++ f :: q.dropWhile (ahead f) := by
  induction q with
  | nil => rfl
  | cons g q ih =>
    by_cases h : f.kind.rank ≤ g.kind.rank
    · simp [placeFrame, ahead, h, ih]
    · simp [placeFrame, ahead, h]

theorem ahead_of_takeWhile {f g : TxFrame} {q : List TxFrame} (h : g ∈ q.takeWhile (ahead f)) : f.kind.rank ≤ g.kind.rank := by
  simpa [ahead] using List.mem_takeWhile_imp h

/-- In class order every frame behind the placed one is of a lower class. -/
theorem behind_of_dropWhile {f g : TxFrame} {q : List TxFrame} (hq : classOrdered q) (h : g ∈ q.dropWhile (ahead f)) :
    g.kind.rank < f.kind.rank := by
  induction q with
  | nil => cases h
  | cons d q ih =>
    obtain ⟨hhead, htail⟩ := hq
    by_cases hd : f.kind.rank ≤ d.kind.rank
    · exact ih htail (by simpa [ahead, hd] using h)
    · have hmem : g = d ∨ g ∈ q := by simpa [ahead, hd] using h
      rcases hmem with rfl | hg
      · omega
      · have := hhead g hg
        omega

theorem mem_placeFrame {f g : TxFrame} {q : List TxFrame} : g ∈ placeFrame f q ↔ g = f ∨ g ∈ q := by
  rw [placeFrame_eq]
  conv_rhs => rw [← List.takeWhile_append_dropWhile (p := ahead f) (l := q)]
  simp only [List.mem_append, List.mem_cons]
  tauto

theorem classOrdered_placeFrame {f : TxFrame} {q : List TxFrame} (hq : classOrdered q) : classOrdered (placeFrame f q) := by
  rw [placeFrame_eq, classOrdered_iff, List.pairwise_append, List.pairwise_cons]
  have hpair := (classOrdered_iff q).1 hq
  refine ⟨hpair.sublist (List.takeWhile_sublist _), ⟨fun g hg => (behind_of_dropWhile hq hg).le, hpair.sublist (List.dropWhile_sublist _)⟩, ?_⟩
  intro a ha b hb
  have hfa := ahead_of_takeWhile ha
  rcases List.mem_cons.1 hb with rfl | hb
  · exact hfa
  · exact (behind_of_dropWhile hq hb).le.trans hfa

theorem count_placeFrame (f : TxFrame) (q : List TxFrame) (p : TxFrame → Bool) :
    ((placeFrame f q).filter p).length = (q.filter p).length + if p f then 1 else 0 := by
  have hsplit := List.takeWhile_append_dropWhile (p := ahead f) (l := q)
  rw [placeFrame_eq]
  conv_rhs => rw [← hsplit]
  simp only [List.filter_append, List.filter_cons, List.length_append]
  split
  · simp
    omega
  · simp

/-- A frame placed in a queue with room, none of its kind queued where only one may be, leaves the queue sound. -/
theorem queueOk_placeFrame {f : TxFrame} {q : List TxFrame} (hq : queueOk q) (hroom : q.length < 8)
    (hnew : f.kind.single = true → queued f.kind q = false) : queueOk (placeFrame f q) := by
  obtain ⟨-, hord, hone⟩ := hq
  refine ⟨by rw [placeFrame_length]; omega, classOrdered_placeFrame hord, fun k hk => ?_⟩
  rw [count_placeFrame]
  by_cases hkind : f.kind = k
  · subst hkind
    have hnone : q.filter (fun g => decide (g.kind = f.kind)) = [] := by
      simpa [queued, List.filter_eq_nil_iff] using hnew hk
    simp [hnone]
  · simpa [hkind] using hone k hk

/-! ### Replacing in place (R25) -/

theorem replaceFrame_kinds (f : TxFrame) (q : List TxFrame) : (replaceFrame f q).map (·.kind) = q.map (·.kind) := by
  induction q with
  | nil => rfl
  | cons g q ih =>
    unfold replaceFrame
    split
    · rename_i h
      simp [h]
    · simp [ih]

/-- Soundness of a queue hangs on the kinds of its frames alone. -/
theorem queueOk_of_kinds {p q : List TxFrame} (h : p.map (·.kind) = q.map (·.kind)) (hq : queueOk q) : queueOk p := by
  have hcount (l : List TxFrame) (k : FrameKind) :
      (l.filter (·.kind = k)).length = ((l.map (·.kind)).filter (· = k)).length := by
    simp [List.filter_map, Function.comp_def]
  have hpair (l : List TxFrame) : classOrdered l ↔ (l.map (·.kind)).Pairwise fun f g => g.rank ≤ f.rank := by
    rw [classOrdered_iff, List.pairwise_map]
  obtain ⟨hlen, hord, hone⟩ := hq
  refine ⟨by simpa using (congrArg List.length h).trans_le (by simpa using hlen), ?_, fun k hk => ?_⟩
  · rw [hpair, h, ← hpair]
    exact hord
  · rw [hcount, h, ← hcount]
    exact hone k hk

/-- With at most one frame of the kind queued, replacing is a map over the queue. -/
theorem replaceFrame_eq_map {f : TxFrame} {q : List TxFrame} (hone : (q.filter (·.kind = f.kind)).length ≤ 1) :
    replaceFrame f q = q.map fun g => if g.kind = f.kind then f else g := by
  induction q with
  | nil => rfl
  | cons g q ih =>
    by_cases h : g.kind = f.kind
    · have hnone : q.filter (fun g => decide (g.kind = f.kind)) = [] := by
        simpa [h] using hone
      have hsame : q.map (fun g => if g.kind = f.kind then f else g) = q := by
        refine (List.map_congr_left fun d hd => if_neg ?_).trans (List.map_id q)
        simpa using List.filter_eq_nil_iff.1 hnone d hd
      simp [replaceFrame, h, hsame]
    · have : (q.filter (·.kind = f.kind)).length ≤ 1 := by simpa [h] using hone
      simp [replaceFrame, h, ih this]

/-! ### The buffer takes the head of the queue (R27) -/

theorem fillBuffer_fills {f : TxFrame} {q : List TxFrame} {s : State} (hbuffer : s.bus.buffer = none) (hqueue : s.bus.queue = f :: q)
    (hpart : participates s = true) (hsupply : supplyState s ≠ .critical) : fillBuffer s = drawn (s.modBus fun b => { b with
      queue := q, buffer := some { frame := loadShift s.time.pendingShift f, attempts := 0, phase := waitingPhase s,
                                   capture := none, condemned := false } }) := by
  simp [fillBuffer, hbuffer, hqueue, hpart, hsupply]

theorem fillBuffer_idle {s : State}
    (h : s.bus.buffer ≠ none ∨ s.bus.queue = [] ∨ participates s = false ∨ supplyState s = .critical) : fillBuffer s = s := by
  unfold fillBuffer
  split
  · split
    · simp_all
    · rfl
  · rfl

/-- Filling the buffer fills it, or changes nothing. -/
theorem fillBuffer_cases (s : State) : fillBuffer s = s ∨ ∃ f q, s.bus.buffer = none ∧ s.bus.queue = f :: q
    ∧ fillBuffer s = drawn (s.modBus fun b => { b with
      queue := q, buffer := some { frame := loadShift s.time.pendingShift f, attempts := 0, phase := waitingPhase s,
                                   capture := none, condemned := false } }) := by
  unfold fillBuffer
  split
  · split
    · exact .inr ⟨_, _, ‹_›, ‹_›, rfl⟩
    · exact .inl rfl
  · exact .inl rfl

theorem queueSound_fillBuffer {s : State} (hs : s.queueSound) : (fillBuffer s).queueSound := by
  obtain h | ⟨f, q, -, hq, h⟩ := fillBuffer_cases s
  · rwa [h]
  · rw [queueSound_iff] at hs ⊢
    rw [h]
    exact queueOk_sublist (List.sublist_cons_self f q) (hq ▸ hs)

/-! ### Offers (R24 to R26, R34, R35) -/

/-- R34, R35: the offer is refused whatever the queue holds. -/
def refusedByState (o : Offer) (s : State) : Prop := participates s = false ∨ (level s = .muster ∧ o.kind.programme = true)

theorem offerBase_refusedState {o : Offer} {s : State} (h : refusedByState o s) : offerBase o s = (s, .refusedState) := by
  unfold offerBase
  dsimp only
  rw [if_pos (by rcases h with h | ⟨h, hk⟩ <;> simp [*])]

/-- An offer that R34 and R35 let pass meets the queue. -/
theorem offerBase_of_not_refused {o : Offer} {s : State} (h : ¬ refusedByState o s) : offerBase o s =
    if o.kind.single && queued o.kind s.bus.queue then
      (acceptOffer (replaceFrame (o.frame s) s.bus.queue) s, .accepted s.bus.nextSeq none)
    else if s.bus.queue.length < 8 then (acceptOffer (placeFrame (o.frame s) s.bus.queue) s, .accepted s.bus.nextSeq none)
    else match s.bus.queue.getLast? with
      | some g =>
        if g.kind.rank < o.kind.rank then
          (acceptOffer (placeFrame (o.frame s) s.bus.queue.dropLast) (countRefusal s), .accepted s.bus.nextSeq (some g))
        else (countRefusal s, .refusedFull)
      | none => (countRefusal s, .refusedFull) := by
  have hpart : participates s = true := by
    by_contra hne
    exact h (.inl (by simpa using hne))
  have hlevel : (decide (level s = .muster) && o.kind.programme) = false := by
    by_contra hne
    exact h (.inr (by simpa using hne))
  unfold offerBase
  dsimp only
  exact if_neg (by simp [hpart, hlevel])

theorem offerBase_replaces {o : Offer} {s : State} (h : ¬ refusedByState o s) (hsingle : o.kind.single = true)
    (hqueued : queued o.kind s.bus.queue = true) :
    offerBase o s = (acceptOffer (replaceFrame (o.frame s) s.bus.queue) s, .accepted s.bus.nextSeq none) := by
  rw [offerBase_of_not_refused h, if_pos (by simp [hsingle, hqueued])]

theorem offerBase_places {o : Offer} {s : State} (h : ¬ refusedByState o s) (hnew : (o.kind.single && queued o.kind s.bus.queue) = false)
    (hroom : s.bus.queue.length < 8) :
    offerBase o s = (acceptOffer (placeFrame (o.frame s) s.bus.queue) s, .accepted s.bus.nextSeq none) := by
  rw [offerBase_of_not_refused h, if_neg (by simp [hnew]), if_pos hroom]

theorem offerBase_evicts {o : Offer} {s : State} {g : TxFrame} (h : ¬ refusedByState o s)
    (hnew : (o.kind.single && queued o.kind s.bus.queue) = false) (hfull : 8 ≤ s.bus.queue.length)
    (hlast : s.bus.queue.getLast? = some g) (hrank : g.kind.rank < o.kind.rank) : offerBase o s =
      (acceptOffer (placeFrame (o.frame s) s.bus.queue.dropLast) (countRefusal s), .accepted s.bus.nextSeq (some g)) := by
  rw [offerBase_of_not_refused h, if_neg (by simp [hnew]), if_neg (by omega)]
  simp [hlast, hrank]

theorem offerBase_full {o : Offer} {s : State} {g : TxFrame} (h : ¬ refusedByState o s)
    (hnew : (o.kind.single && queued o.kind s.bus.queue) = false) (hfull : 8 ≤ s.bus.queue.length)
    (hlast : s.bus.queue.getLast? = some g) (hrank : o.kind.rank ≤ g.kind.rank) : offerBase o s = (countRefusal s, .refusedFull) := by
  rw [offerBase_of_not_refused h, if_neg (by simp [hnew]), if_neg (by omega)]
  simp [hlast, hrank]

/-- What an offer can do: nothing, count a refusal, or have a queue accepted that holds the frame, in a state that differs by a refusal at most. -/
theorem offerBase_cases (o : Offer) (s : State) :
    offerBase o s = (s, .refusedState) ∨ offerBase o s = (countRefusal s, .refusedFull)
    ∨ (o.kind.single = true ∧ queued o.kind s.bus.queue = true
        ∧ offerBase o s = (acceptOffer (replaceFrame (o.frame s) s.bus.queue) s, .accepted s.bus.nextSeq none))
    ∨ ((o.kind.single && queued o.kind s.bus.queue) = false ∧ s.bus.queue.length < 8
        ∧ offerBase o s = (acceptOffer (placeFrame (o.frame s) s.bus.queue) s, .accepted s.bus.nextSeq none))
    ∨ ∃ g, (o.kind.single && queued o.kind s.bus.queue) = false ∧ 8 ≤ s.bus.queue.length ∧ s.bus.queue.getLast? = some g
        ∧ g.kind.rank < o.kind.rank
        ∧ offerBase o s = (acceptOffer (placeFrame (o.frame s) s.bus.queue.dropLast) (countRefusal s), .accepted s.bus.nextSeq (some g)) := by
  by_cases h : refusedByState o s
  · exact .inl (offerBase_refusedState h)
  · rw [offerBase_of_not_refused h]
    split
    · rename_i hq
      simp only [Bool.and_eq_true] at hq
      exact .inr (.inr (.inl ⟨hq.1, hq.2, rfl⟩))
    · rename_i hq
      have hnew : (o.kind.single && queued o.kind s.bus.queue) = false := by simpa using hq
      split
      · exact .inr (.inr (.inr (.inl ⟨hnew, ‹_›, rfl⟩)))
      · split
        · rename_i hfull g hlast
          split
          · exact .inr (.inr (.inr (.inr ⟨g, hnew, by omega, hlast, ‹_›, rfl⟩)))
          · exact .inr (.inl rfl)
        · exact .inr (.inl rfl)

theorem queued_dropLast {k : FrameKind} {q : List TxFrame} (h : queued k q = false) : queued k q.dropLast = false := by
  simp only [queued, List.any_eq_false] at h ⊢
  exact fun g hg => h g (List.mem_of_mem_dropLast hg)

/-- Every offer keeps the queue sound (R25). -/
theorem queueSound_offerBase (o : Offer) {s : State} (hs : s.queueSound) : (offerBase o s).1.queueSound := by
  have accepted (q : List TxFrame) (u : State) (hq : queueOk q) : (acceptOffer q u).queueSound := queueSound_fillBuffer hq
  obtain h | h | ⟨-, -, h⟩ | ⟨hnew, hroom, h⟩ | ⟨g, hnew, hfull, -, -, h⟩ := offerBase_cases o s
  · rwa [h]
  · rw [h]
    exact hs
  · rw [h]
    exact accepted _ _ (queueOk_of_kinds (replaceFrame_kinds _ _) hs)
  · rw [h]
    exact accepted _ _ (queueOk_placeFrame hs hroom fun hk => by simpa [Offer.frame, show o.kind.single = true from hk] using hnew)
  · rw [h]
    refine accepted _ _ (queueOk_placeFrame (queueOk_sublist (List.dropLast_sublist _) hs) ?_ fun hk => queued_dropLast ?_)
    · have := hs.1
      rw [List.length_dropLast]
      omega
    · simpa [Offer.frame, show o.kind.single = true from hk] using hnew

end Sys2Proof.Machine
end

