-- ==== Sys2Proof/Proofs/Offers.lean ====
section
/-! PROOFS. Offers are queued (O10): one clause for each of the equations of an offer and of the fill of the buffer. -/

namespace Sys2Proof.Machine

theorem queued_iff (k : FrameKind) (q : List TxFrame) : queued k q = true ↔ ∃ g ∈ q, g.kind = k := by simp [queued]

/-- An offer that no queued frame of its kind, one that is held once, stands for. -/
theorem single_and_queued_eq_false {o : Offer} {s : State} (h : o.kind.single = false ∨ ∀ g ∈ s.bus.queue, g.kind ≠ o.kind) :
    (o.kind.single && queued o.kind s.bus.queue) = false := by
  rcases h with h | h
  · simp [h]
  · have hq : queued o.kind s.bus.queue = false := by simpa [queued] using h
    simp [hq]

/-- A placed frame stands between the frames of its own and the higher classes and those of the lower. -/
theorem placeFrame_split (f : TxFrame) {q : List TxFrame} (hq : classOrdered q) : ∃ a b, q = a ++ b
    ∧ (∀ g ∈ a, f.kind.rank ≤ g.kind.rank) ∧ (∀ g ∈ b, g.kind.rank < f.kind.rank) ∧ placeFrame f q = a ++ f :: b :=
  ⟨q.takeWhile (ahead f), q.dropWhile (ahead f), List.takeWhile_append_dropWhile.symm, fun _ => ahead_of_takeWhile,
    fun _ => behind_of_dropWhile hq, placeFrame_eq f q⟩

/-- Settles O10. -/
theorem offersAreQueued : Obligations.OffersAreQueued := by
  unfold Obligations.OffersAreQueued
  refine ⟨fun o s hsound => ⟨?refused, ?replaces, fun hpass hnew => ⟨?places, fun last hfull hlast => ⟨?evicts, ?full⟩⟩⟩,
    fun f q s hbuffer hqueue hpart hsupply => ?fills, fun s => fillBuffer_idle⟩
  case refused => exact offerBase_refusedState
  case replaces =>
    intro hpass hsingle hqueued
    rw [offerBase_replaces hpass hsingle ((queued_iff _ _).2 hqueued), replaceFrame_eq_map (hsound.2.2 _ hsingle)]
    rfl
  case places =>
    intro hroom
    obtain ⟨a, b, hsplit, ha, hb, hplace⟩ := placeFrame_split (o.frame s) hsound.2.1
    refine ⟨a, b, hsplit, ha, hb, ?_⟩
    rw [offerBase_places hpass (single_and_queued_eq_false hnew) hroom, hplace]
    rfl
  case evicts =>
    intro hrank
    have hord : classOrdered s.bus.queue.dropLast := (queueOk_sublist (List.dropLast_sublist _) hsound).2.1
    obtain ⟨a, b, hsplit, ha, hb, hplace⟩ := placeFrame_split (o.frame s) hord
    refine ⟨a, b, hsplit, ha, hb, ?_⟩
    rw [offerBase_evicts hpass (single_and_queued_eq_false hnew) hfull hlast hrank, hplace]
    rfl
  case full =>
    intro hrank
    exact offerBase_full hpass (single_and_queued_eq_false hnew) hfull hlast hrank
  case fills => exact ⟨_, (drawValue_range 0 7 s (by omega)).2, fillBuffer_fills hbuffer hqueue hpart hsupply⟩

end Sys2Proof.Machine
end

