-- ==== Sys2Proof/Proofs/Sends.lean ====
section
/-! PROOFS. What every shared operation keeps of the transmit queue (R25) and of the refreshes in flight (R148): one lemma each, read from what it is made of. -/

namespace Sys2Proof.Machine

/-- From `r` to `s` the transmit queue stays sound and at most two refreshes are in flight. -/
structure Sends (r s : State) : Prop where
  queue : r.queueSound → s.queueSound
  flight : r.flightSound → s.flightSound

@[refl] theorem Sends.refl (s : State) : Sends s s := ⟨id, id⟩

theorem Sends.trans {r s t : State} (h : Sends r s) (k : Sends s t) : Sends r t := ⟨k.queue ∘ h.queue, k.flight ∘ h.flight⟩

/-- An operation that writes neither the transmit queue nor the flight. -/
theorem Sends.of_eq {r s t : State} (h : Sends r s) (hqueue : t.bus.queue = s.bus.queue) (hflight : t.sched.flight = s.sched.flight) :
    Sends r t := by
  refine h.trans ⟨fun hs => ?_, fun hs => ?_⟩
  · rw [queueSound_iff, hqueue]
    exact hs
  · rw [State.flightSound, hflight]
    exact hs

variable {r s : State}

@[simp] theorem sends_modTime (f : Timebase → Timebase) (h : Sends r s) : Sends r (s.modTime f) := ⟨h.queue, h.flight⟩
@[simp] theorem sends_modStore (f : Store → Store) (h : Sends r s) : Sends r (s.modStore f) := ⟨h.queue, h.flight⟩
@[simp] theorem sends_modExch (f : Exchange → Exchange) (h : Sends r s) : Sends r (s.modExch f) := ⟨h.queue, h.flight⟩
@[simp] theorem sends_modMon (f : Monitor → Monitor) (h : Sends r s) : Sends r (s.modMon f) := ⟨h.queue, h.flight⟩
@[simp] theorem sends_modRoute (f : RouteEngine → RouteEngine) (h : Sends r s) : Sends r (s.modRoute f) := ⟨h.queue, h.flight⟩
@[simp] theorem sends_modLights (f : PathLights → PathLights) (h : Sends r s) : Sends r (s.modLights f) := ⟨h.queue, h.flight⟩
@[simp] theorem sends_modMuster (f : MusterControl → MusterControl) (h : Sends r s) : Sends r (s.modMuster f) := ⟨h.queue, h.flight⟩
@[simp] theorem sends_modChain (f : ChainControl → ChainControl) (h : Sends r s) : Sends r (s.modChain f) := ⟨h.queue, h.flight⟩
@[simp] theorem sends_modSupply (f : Supply → Supply) (h : Sends r s) : Sends r (s.modSupply f) := ⟨h.queue, h.flight⟩
@[simp] theorem sends_modNode (f : Sequencer → Sequencer) (h : Sends r s) : Sends r (s.modNode f) := ⟨h.queue, h.flight⟩
@[simp] theorem sends_modPort (f : LocalPort → LocalPort) (h : Sends r s) : Sends r (s.modPort f) := ⟨h.queue, h.flight⟩
@[simp] theorem sends_modEvents (f : EventUnit → EventUnit) (h : Sends r s) : Sends r (s.modEvents f) := ⟨h.queue, h.flight⟩
@[simp] theorem sends_modCounters (f : Counters → Counters) (h : Sends r s) : Sends r (s.modCounters f) := ⟨h.queue, h.flight⟩
@[simp] theorem sends_modPins (f : Pins → Pins) (h : Sends r s) : Sends r (s.modPins f) := ⟨h.queue, h.flight⟩
@[simp] theorem sends_modFree (f : Nat → Nat) (h : Sends r s) : Sends r (s.modFree f) := ⟨h.queue, h.flight⟩
@[simp] theorem sends_modPending (f : List Instr → List Instr) (h : Sends r s) : Sends r (s.modPending f) := ⟨h.queue, h.flight⟩

/-- An update of the bus that leaves the queue, or relabels or drops frames of it. -/
theorem sends_modBus (f : ZoneBus → ZoneBus) (h : Sends r s) (hf : queueOk s.bus.queue → queueOk (f s.bus).queue) : Sends r (s.modBus f) :=
  h.trans ⟨hf, id⟩

/-- An update of the scheduler that adds no refresh. -/
theorem sends_modSched (f : Scheduler → Scheduler) (h : Sends r s) (hf : (f s.sched).flight.length ≤ s.sched.flight.length) :
    Sends r (s.modSched f) :=
  h.trans ⟨id, hf.trans⟩

theorem sends_foldl {α : Type} (f : State → α → State) (hf : ∀ {u : State} a, Sends r u → Sends r (f u a)) (l : List α) (h : Sends r s) :
    Sends r (l.foldl f s) := by
  induction l generalizing s with
  | nil => exact h
  | cons a l ih => exact ih (hf a h)

@[simp] theorem sends_setEvent (e : Event) (h : Sends r s) : Sends r (setEvent e s) := h.of_eq rfl rfl

@[simp] theorem sends_setEventIf (c : Bool) (e : Event) (h : Sends r s) : Sends r (setEventIf c e s) := by
  unfold setEventIf
  split <;> simp [h]

@[simp] theorem sends_settleAttention  (h : Sends r s) : Sends r (settleAttention s) := by
  unfold settleAttention
  (repeat' split) <;> simp [h]

@[simp] theorem sends_drawn  (h : Sends r s) : Sends r (drawn s) := h.of_eq rfl rfl

@[simp] theorem sends_fillBuffer (h : Sends r s) : Sends r (fillBuffer s) := by
  obtain hs | ⟨f, q, -, -, hs⟩ := fillBuffer_cases s
  · rwa [hs]
  · exact h.trans ⟨queueSound_fillBuffer, fun hf => hs ▸ hf⟩

@[simp] theorem sends_countRefusal  (h : Sends r s) : Sends r (countRefusal s) := h.of_eq rfl rfl

theorem sends_acceptOffer (queue : List TxFrame) (h : Sends r s) (hq : queueOk s.bus.queue → queueOk queue) : Sends r (acceptOffer queue s) :=
  sends_fillBuffer (sends_modBus _ h hq)

/-- No offer touches the refreshes. -/
theorem sched_offerBase (o : Offer) (s : State) : (offerBase o s).1.sched = s.sched := by
  have accepted (q : List TxFrame) (u : State) : (acceptOffer q u).sched = u.sched := by
    unfold acceptOffer
    obtain h | ⟨_, _, -, -, h⟩ := fillBuffer_cases (u.modBus fun b => { b with queue := q, nextSeq := b.nextSeq + 1 }) <;>
      (rw [h]; rfl)
  obtain h | h | ⟨-, -, h⟩ | ⟨-, -, h⟩ | ⟨g, -, -, -, -, h⟩ := offerBase_cases o s <;> rw [h]
  · rfl
  · exact accepted _ _
  · exact accepted _ _
  · exact accepted _ _

@[simp] theorem sends_offerBase (o : Offer) (h : Sends r s) : Sends r (offerBase o s).1 :=
  h.trans ⟨queueSound_offerBase o, fun hf => by rw [State.flightSound, sched_offerBase]; exact hf⟩

@[simp] theorem sends_endAnswer  (h : Sends r s) : Sends r (endAnswer s) := h.of_eq rfl rfl

@[simp] theorem sends_answerOffer (a : ActiveAnswer) (h : Sends r s) : Sends r (answerOffer a s) := by
  unfold answerOffer
  extract_lets reply
  split
  · rename_i b _
    have ho := sends_offerBase ⟨.programmeItem, 255, itemPayload (some b) (some (reply false 0)), [], true⟩ h
    split <;> simp_all
  · have ho := sends_offerBase ⟨.programmeItem, 255, itemPayload none (some (reply true (highWaterOf a.entry.publisher s))), [], true⟩ h
    split <;> simp_all

@[simp] theorem sends_answerReported (f : TxFrame) (h : Sends r s) : Sends r (answerReported f s) := by
  unfold answerReported
  (repeat' split) <;> simp [h]

@[simp] theorem sends_offer (o : Offer) (h : Sends r s) : Sends r (offer o s).1 := by
  have ho := sends_offerBase o h
  unfold offer
  split <;> simp_all

@[simp] theorem sends_offer_ (o : Offer) (h : Sends r s) : Sends r (offer' o s) := sends_offer o h

@[simp] theorem sends_settleAnswers  (h : Sends r s) : Sends r (settleAnswers s) := by
  unfold settleAnswers
  (repeat' split) <;> simp [h]

@[simp] theorem sends_recompose (before : Shown) (replaced : Option (Nat × Nat)) (h : Sends r s) : Sends r (recompose before replaced s) := by
  unfold recompose
  simp [h]

@[simp] theorem sends_armComparator  (h : Sends r s) : Sends r (armComparator s) := h.of_eq rfl rfl

@[simp] theorem sends_changeTable (table : List Entry) (h : Sends r s) : Sends r (changeTable table s) := h.of_eq rfl rfl

@[simp] theorem sends_takeMatch (before : Shown) (h : Sends r s) : Sends r (takeMatch before s) := by
  unfold takeMatch
  dsimp only
  split
  · exact sends_armComparator h
  · exact sends_recompose _ _ (sends_armComparator (sends_changeTable _ h))

@[simp] theorem sends_reloadComparator (before : Shown) (h : Sends r s) : Sends r (reloadComparator before s) := by
  unfold reloadComparator
  dsimp only
  (repeat' split) <;> simp [h]

@[simp] theorem sends_commitTable (table : List Entry) (replaced : Option (Nat × Nat)) (h : Sends r s) : Sends r (commitTable table replaced s) := sends_recompose _ _ (sends_reloadComparator _ (sends_changeTable _ h))

@[simp] theorem sends_stepRephase (h : Sends r s) : Sends r (stepRephase s) := by
  unfold stepRephase
  dsimp only
  split
  · exact sends_reloadComparator _ h
  · exact sends_commitTable _ _ h

@[simp] theorem sends_ensureRecord (p : Nat) (h : Sends r s) : Sends r (ensureRecord p s) := by
  unfold ensureRecord
  split <;> simp [h]

@[simp] theorem sends_modRecord (p : Nat) (f : PubRecord → PubRecord) (h : Sends r s) : Sends r (modRecord p f s) := h.of_eq rfl rfl

@[simp] theorem sends_raiseHighWater (p revision : Nat) (h : Sends r s) : Sends r (raiseHighWater p revision s) := h.of_eq rfl rfl

@[simp] theorem sends_countOutcome (o : StoreOutcome) (h : Sends r s) : Sends r (countOutcome o s) := by
  unfold countOutcome
  split <;> simp [h]

@[simp] theorem sends_applyHeld (b : ItemBody) (e : Entry) (h : Sends r s) : Sends r ((applyHeld b e s).1) := by
  unfold applyHeld
  split <;> simp [h]

@[simp] theorem sends_applyNew (b : ItemBody) (h : Sends r s) : Sends r ((applyNew b s).1) := by
  unfold applyNew
  (repeat' split) <;> simp [h]

@[simp] theorem sends_applyBody (b : ItemBody) (h : Sends r s) : Sends r (applyBody b s).1 := by
  have hrecord := sends_ensureRecord b.publisher h
  have hraised := sends_raiseHighWater b.publisher b.revision hrecord
  unfold applyBody
  dsimp only
  split
  · exact sends_countOutcome .refusedPublisher hrecord
  · split
    · exact sends_applyHeld _ _ hraised
    · exact sends_applyNew _ hraised

@[simp] theorem sends_offerSummary  (h : Sends r s) : Sends r (offerSummary s) := by
  unfold offerSummary
  simp [h]

@[simp] theorem sends_startSummaryTimer  (h : Sends r s) : Sends r (startSummaryTimer s) := h.of_eq rfl rfl

@[simp] theorem sends_promptSummary  (h : Sends r s) : Sends r (promptSummary s) := by
  unfold promptSummary
  split <;> simp [h]

@[simp] theorem sends_dropSequence (p : Nat) (seq : Octet) (h : Sends r s) : Sends r (dropSequence p seq s) := h.of_eq rfl rfl

@[simp] theorem sends_markWaiting (p : Nat) (seq : Option Octet) (h : Sends r s) : Sends r (markWaiting p seq s) := h.of_eq rfl rfl

@[simp] theorem sends_startCatchUp (p after : Nat) (h : Sends r s) : Sends r (startCatchUp p after s) := by
  have ho := sends_offer ⟨.itemRequest, 255, o8 p :: le16 after, [], false⟩ h
  unfold startCatchUp
  split <;> simp_all

@[simp] theorem sends_catchUpIfIdle (p after : Nat) (h : Sends r s) : Sends r (catchUpIfIdle p after s) := by
  unfold catchUpIfIdle
  (repeat' split) <;> simp [h]

@[simp] theorem sends_raiseSettled (p revision : Nat) (h : Sends r s) : Sends r (raiseSettled p revision s) := h.of_eq rfl rfl

@[simp] theorem sends_directItem (p n : Nat) (h : Sends r s) : Sends r (directItem p n s) := by
  unfold directItem
  (repeat' split) <;> simp [h]

@[simp] theorem sends_matchAnswer (reply : ReplyPart) (h : Sends r s) : Sends r (matchAnswer reply s) := by
  unfold matchAnswer
  (repeat' split) <;> simp [h]

@[simp] theorem sends_countSuppressed  (h : Sends r s) : Sends r (countSuppressed s) := h.of_eq rfl rfl

@[simp] theorem sends_suppressAnswer (reply : ReplyPart) (h : Sends r s) : Sends r (suppressAnswer reply s) := by
  have hqueued : Sends r (if s.exch.answers.any (·.matches reply) then
      countSuppressed (s.modExch fun x => { x with answers := x.answers.eraseP (·.matches reply) }) else s) := by
    split <;> simp [h]
  unfold suppressAnswer
  extract_lets u
  (repeat' split) <;> first | exact sends_countSuppressed (sends_endAnswer hqueued) | exact hqueued

@[simp] theorem sends_finishItem (body : Option (ItemBody × StoreOutcome)) (reply : Option ReplyPart) (h : Sends r s) : Sends r (finishItem body reply s) := by
  unfold finishItem
  (repeat' split) <;> simp [h]

@[simp] theorem sends_takeItem (payload : List Octet) (h : Sends r s) : Sends r (takeItem payload s) := by
  unfold takeItem
  split
  · exact sends_countOutcome _ h
  · split
    · exact sends_finishItem _ _ h
    · split
      · exact sends_finishItem _ _ (sends_countOutcome _ h)
      · rename_i b _
        exact sends_finishItem _ _ (sends_applyBody b h)

@[simp] theorem sends_takePair (pair : Nat × Nat) (h : Sends r s) : Sends r (takePair s pair) := by
  have he := sends_ensureRecord pair.1 h
  unfold takePair
  dsimp only
  (repeat' split) <;> simp [h, he]

@[simp] theorem sends_takeSummary (payload : List Octet) (h : Sends r s) : Sends r (takeSummary payload s) := by
  unfold takeSummary
  dsimp only
  split
  · exact sends_foldl _ sends_takePair _ (sends_modExch _ h)
  · exact sends_modExch _ h

@[simp] theorem sends_takeRequest (f : RxFrame) (h : Sends r s) : Sends r (takeRequest f s) := by
  unfold takeRequest
  dsimp only
  (repeat' split) <;> simp [h]

@[simp] theorem sends_requestExpired (p : PubRecord) (h : Sends r s) : Sends r (requestExpired p s) := by
  unfold requestExpired
  (repeat' split) <;> simp [h]

@[simp] theorem sends_publishBody (b : ItemBody) (h : Sends r s) : Sends r (publishBody b s).1 := sends_offer_ _ (sends_directItem _ _ (sends_applyBody b (sends_ensureRecord b.publisher h)))

@[simp] theorem sends_doPublish (args : List Octet) (h : Sends r s) : Sends r ((doPublish args s).1) := by
  unfold doPublish
  (repeat' split) <;> simp [h]

@[simp] theorem sends_doWithdraw (args : List Octet) (h : Sends r s) : Sends r ((doWithdraw args s).1) := by
  unfold doWithdraw
  (repeat' split) <;> simp [h]

@[simp] theorem sends_idleRecords  (h : Sends r s) : Sends r (idleRecords s) := h.of_eq rfl rfl

@[simp] theorem sends_dropAnswer (h : Sends r s) : Sends r (dropAnswer s) := by
  unfold dropAnswer
  exact sends_endAnswer (sends_modBus _ h (queueOk_map _ fun _ => rfl))

@[simp] theorem sends_stopExchange (h : Sends r s) : Sends r (stopExchange s) := sends_idleRecords (sends_modExch _ (sends_dropAnswer h))

@[simp] theorem sends_exchangeLevel (old new : Level) (h : Sends r s) : Sends r (exchangeLevel old new s) := by
  unfold exchangeLevel
  (repeat' split) <;> simp [h]

@[simp] theorem sends_stepTime (t : ShipTime) (h : Sends r s) : Sends r (stepTime t s) := sends_stepRephase (sends_setEvent _ (sends_modTime _ h))

@[simp] theorem sends_adjustTime (t : ShipTime) (h : Sends r s) : Sends r (adjustTime t s) := by
  unfold adjustTime
  dsimp only
  (repeat' split) <;> simp [h]

@[simp] theorem sends_offerMark  (h : Sends r s) : Sends r (offerMark s) := by
  unfold offerMark
  simp [h]

@[simp] theorem sends_sendMark  (h : Sends r s) : Sends r (sendMark s) := by
  unfold sendMark
  simp [h]

@[simp] theorem sends_settleMarks  (h : Sends r s) : Sends r (settleMarks s) := by
  unfold settleMarks
  (repeat' split) <;> simp [h]

@[simp] theorem sends_applyMark (m : Mark) (newMs : Nat) (h : Sends r s) : Sends r (applyMark m newMs s) := by
  unfold applyMark
  split <;> simp [h]

@[simp] theorem sends_acceptMark (m : Mark) (station : Nat) (capture : Tick) (h : Sends r s) : Sends r (acceptMark m station capture s) := by
  unfold acceptMark
  dsimp only
  refine sends_settleMarks ?_
  split
  · exact sends_applyMark _ _ (sends_modTime _ h)
  · exact sends_modTime _ h

@[simp] theorem sends_takeSetTime (t : ShipTime) (shift : Int) (h : Sends r s) : Sends r (takeSetTime t shift s) := by
  have hstep := sends_stepTime t (sends_modTime (fun b => { b with pendingShift := shift }) h)
  unfold takeSetTime
  dsimp only
  split
  · exact sends_sendMark hstep
  · exact hstep

@[simp] theorem sends_offerSensed  (h : Sends r s) : Sends r (offerSensed s) := by
  unfold offerSensed
  dsimp only
  (repeat' split) <;> simp [h]

@[simp] theorem sends_offerDeclared (l : List Declared) (h : Sends r s) : Sends r (offerDeclared l s) := by
  unfold offerDeclared
  split <;> simp [h]

@[simp] theorem sends_offerSegments (h : Sends r s) : Sends r (offerSegments s) := by
  have hsensed := sends_offerSensed h
  unfold offerSegments
  dsimp only
  split
  · split
    · exact sends_offerDeclared _ (sends_offerDeclared _ hsensed)
    · exact hsensed
  · exact h

@[simp] theorem sends_startAdvertTimer (l : Level) (h : Sends r s) : Sends r (startAdvertTimer l s) := h.of_eq rfl rfl

@[simp] theorem sends_clearChanged  (h : Sends r s) : Sends r (clearChanged s) := h.of_eq rfl rfl

@[simp] theorem sends_advertAnswered (a : OfferAnswer) (h : Sends r s) : Sends r (advertAnswered a s) := by
  unfold advertAnswered
  split <;> simp [h]

@[simp] theorem sends_offerAdvert (h : Sends r s) : Sends r (offerAdvert s) := sends_offerSegments (sends_startAdvertTimer _ (sends_advertAnswered _ (sends_offer _ h)))

@[simp] theorem sends_makeTriggerDue  (h : Sends r s) : Sends r (makeTriggerDue s) := by
  unfold makeTriggerDue
  (repeat' split) <;> simp [h]

@[simp] theorem sends_countUnknown (n : Nat) (h : Sends r s) : Sends r (countUnknown n s) := by
  induction n generalizing s with
  | zero => exact h
  | succ n ih => exact ih (sends_modCounters _ h)

@[simp] theorem sends_endOfChange (w : RouteWork) (h : Sends r s) : Sends r (endOfChange w s) := by
  unfold endOfChange
  split <;> simp [h]

@[simp] theorem sends_putTable (w : RouteWork) (h : Sends r s) : Sends r (putTable w s) := h.of_eq rfl rfl

@[simp] theorem sends_invalidate (lost : List Nat) (h : Sends r s) : Sends r (invalidate lost s) := by
  unfold invalidate
  simp [h]

@[simp] theorem sends_settleLights  (h : Sends r s) : Sends r (settleLights s) := h.of_eq rfl rfl

@[simp] theorem sends_hearAdvert (source : Nat) (h : Sends r s) : Sends r (hearAdvert source s) := by
  unfold hearAdvert
  simp [h]

@[simp] theorem sends_promptEcho  (h : Sends r s) : Sends r (promptEcho s) := by
  unfold promptEcho
  split <;> simp [h]

@[simp] theorem sends_takeAdvert (source : Nat) (payload : List Octet) (h : Sends r s) : Sends r (takeAdvert source payload s) := by
  have hheard := sends_hearAdvert source h
  unfold takeAdvert
  dsimp only
  split
  · exact hheard
  · refine sends_endOfChange _ ?_
    have hput (w : RouteWork × Nat) := sends_countUnknown w.2 (sends_putTable w.1 hheard)
    split
    · have hprompt (w : RouteWork × Nat) := sends_promptEcho (sends_promptSummary (hput w))
      split
      · exact hprompt _
      · exact sends_makeTriggerDue (hprompt _)
    · exact hput _

@[simp] theorem sends_doQueryRoute (args : List Octet) (h : Sends r s) : Sends r ((doQueryRoute args s).1) := by
  unfold doQueryRoute
  dsimp only
  (repeat' split) <;> simp [h]

@[simp] theorem sends_evaluate (choose : Neighbour → Nat → Bool) (h : Sends r s) : Sends r (evaluate choose s) := by
  unfold evaluate
  dsimp only
  split
  · exact sends_setEventIf _ _ (sends_modMon _ h)
  · exact sends_invalidate _ (sends_setEventIf _ _ (sends_modMon _ h))

@[simp] theorem sends_recordChanged (i : Nat) (h : Sends r s) : Sends r (recordChanged i s) := by
  unfold recordChanged
  simp [h]

@[simp] theorem sends_loseNeighbour (i : Nat) (h : Sends r s) : Sends r (loseNeighbour i s) := sends_invalidate _ (sends_setEvent _ (sends_modMon _ h))

@[simp] theorem sends_sensedChange (i : Nat) (h : Sends r s) : Sends r (sensedChange s i) := by
  unfold sensedChange
  dsimp only
  (repeat' split) <;> simp [h]

@[simp] theorem sends_acceptLevel (line : Fin 8) (accepted : LineLevel) (h : Sends r s) : Sends r (acceptLevel line accepted s) := sends_foldl _ sends_sensedChange _ (sends_modMon _ h)

@[simp] theorem sends_segmentAgainst (e : SegmentEntry) (c : Closure) (i : Nat) (h : Sends r s) : Sends r (segmentAgainst e c s i) := by
  unfold segmentAgainst
  (repeat' split) <;> simp [h]

@[simp] theorem sends_takeSegment (e : SegmentEntry) (h : Sends r s) : Sends r (takeSegment s e) := by
  unfold takeSegment
  (repeat' split)
  · exact h
  · exact h
  · exact sends_foldl _ (sends_segmentAgainst e _) _ h

@[simp] theorem sends_declareTaken (segment : Nat) (blocked : Bool) (h : Sends r s) : Sends r (declareTaken segment blocked s) := sends_offer_ _ (sends_foldl _ (sends_segmentAgainst _ _) _ (sends_modMon _ h))

@[simp] theorem sends_doDeclare (args : List Octet) (h : Sends r s) : Sends r ((doDeclare args s).1) := by
  unfold doDeclare
  dsimp only
  (repeat' split) <;> simp [h]

@[simp] theorem sends_voidNotes (segment : Nat) (h : Sends r s) : Sends r (voidNotes segment s) := by
  unfold voidNotes
  exact sends_modBus _ h (queueOk_map _ fun _ => rfl)

@[simp] theorem sends_clearCompleted (n : ClearNote) (h : Sends r s) : Sends r (clearCompleted s n) := by
  unfold clearCompleted
  split <;> simp [h]

@[simp] theorem sends_monitorLevel (old new : Level) (h : Sends r s) : Sends r (monitorLevel old new s) := by
  unfold monitorLevel
  (repeat' split) <;> simp [h]

@[simp] theorem sends_routeLevel (old new : Level) (h : Sends r s) : Sends r (routeLevel old new s) := by
  unfold routeLevel
  split <;> simp [h]

@[simp] theorem sends_doReadRoute (args : List Octet) (h : Sends r s) : Sends r ((doReadRoute args s).1) := h.of_eq rfl rfl

@[simp] theorem sends_modPlate (i : Nat) (f : Plate → Plate) (h : Sends r s) : Sends r (modPlate i f s) := h.of_eq rfl rfl

@[simp] theorem sends_comparePlate (i : Nat) (h : Sends r s) : Sends r (comparePlate i s) := by
  unfold comparePlate
  (repeat' split) <;> first | exact h | exact sends_modPlate _ _ (sends_modSched _ h le_rfl)

@[simp] theorem sends_retarget (i : Nat) (h : Sends r s) : Sends r (retarget i s) := by
  unfold retarget
  simp [h]

@[simp] theorem sends_retargetAll (h : Sends r s) : Sends r (retargetAll s) := sends_foldl _ (fun i => sends_retarget i) _ h

@[simp] theorem sends_compareAll (h : Sends r s) : Sends r (compareAll s) := sends_foldl _ (fun i => sends_comparePlate i) _ h

/-- The allowance is never above 2 (R148). -/
theorem allowance_le_two (s : State) : allowance s ≤ 2 := by
  unfold allowance
  cases supplyState s <;> simp [allowanceOf]

@[simp] theorem sends_startOne (h : Sends r s) : Sends r (startOne s) := by
  unfold startOne
  split
  · rename_i hallowed
    have hroom : s.sched.flight.length < allowance s := by
      simp only [startAllowed, Bool.and_eq_true, decide_eq_true_eq] at hallowed
      exact hallowed.1.1.2
    have htwo := allowance_le_two s
    split
    · exact h
    · split
      · exact h
      · refine sends_modPlate _ _ (h.trans ⟨id, fun _ => ?_⟩)
        simp [State.flightSound]
        omega
  · exact h

@[simp] theorem sends_settleRefreshes  (h : Sends r s) : Sends r (settleRefreshes s) := by
  unfold settleRefreshes
  simp [h]

@[simp] theorem sends_modRefresh (i : Nat) (f : Refresh → Refresh) (h : Sends r s) : Sends r (modRefresh i f s) := sends_modSched _ h (by simp)

@[simp] theorem sends_leaveFlight (i : Nat) (h : Sends r s) : Sends r (leaveFlight i s) := sends_modSched _ h (List.length_filter_le _ _)

@[simp] theorem sends_completeRefresh (x : Refresh) (h : Sends r s) : Sends r (completeRefresh x s) := sends_comparePlate _ (sends_modPlate _ _ (sends_leaveFlight _ h))

@[simp] theorem sends_failRefresh (i : Nat) (h : Sends r s) : Sends r (failRefresh i s) := sends_comparePlate _ (sends_modPlate _ _ (sends_leaveFlight _ h))

@[simp] theorem sends_enterDrive (i : Nat) (h : Sends r s) : Sends r (enterDrive i s) := by
  unfold enterDrive
  simp [h]

@[simp] theorem sends_requeueFront (i : Nat) (h : Sends r s) : Sends r (requeueFront i s) := sends_comparePlate _ (sends_modPlate _ _ (sends_modSched _ (sends_leaveFlight _ h) le_rfl))

@[simp] theorem sends_cancelOne (i : Nat) (h : Sends r s) : Sends r (cancelOne s i) := by
  unfold cancelOne
  split <;> simp [h]

@[simp] theorem sends_cancelLoads (h : Sends r s) : Sends r (cancelLoads s) := sends_foldl _ (fun i => sends_cancelOne i) _ h

@[simp] theorem sends_loadOutcome (i : Nat) (ok : Bool) (h : Sends r s) : Sends r (loadOutcome i ok s) := by
  unfold loadOutcome
  (repeat' split) <;> simp [h]

@[simp] theorem sends_driveReading (i : Nat) (d : DriveStatus) (h : Sends r s) : Sends r (driveReading i d s) := by
  unfold driveReading
  (repeat' split) <;> simp [h]

@[simp] theorem sends_lossRefresh (i : Nat) (h : Sends r s) : Sends r (lossRefresh i s) := by
  unfold lossRefresh
  split <;> simp [h]

@[simp] theorem sends_shortPressRefresh (i : Nat) (h : Sends r s) : Sends r (shortPressRefresh i s) := sends_comparePlate _ (sends_modPlate _ _ (sends_modRefresh _ _ h))

@[simp] theorem sends_reportPlate (i : Nat) (h : Sends r s) : Sends r (reportPlate i s) := by
  unfold reportPlate
  split <;> simp [h]

@[simp] theorem sends_reportAtMuster (i : Nat) (h : Sends r s) : Sends r (reportAtMuster i s) := by
  unfold reportAtMuster
  split <;> simp [h]

@[simp] theorem sends_buildReport (h : Sends r s) : Sends r (buildReport s) := by
  have ho := sends_offer ⟨.cabinReport, 128, cabinPayload (s.muster.pendingReports.take 6), [], false⟩
    (sends_modMuster (fun m => { m with pendingReports := m.pendingReports.drop 6 }) h)
  unfold buildReport
  dsimp only
  split <;> simp_all

@[simp] theorem sends_settleReports  (h : Sends r s) : Sends r (settleReports s) := by
  unfold settleReports
  split <;> simp [h]

@[simp] theorem sends_sweepByPress (i : Nat) (swept : Bool) (h : Sends r s) : Sends r (sweepByPress i swept s) := sends_reportPlate _ (sends_retarget _ (sends_setEvent _ (sends_modPlate _ _ h)))

@[simp] theorem sends_startTransaction (position : Nat) (op : ChainOp) (h : Sends r s) : Sends r (startTransaction position op s) := h.of_eq rfl rfl

@[simp] theorem sends_startPoll (position : Nat) (h : Sends r s) : Sends r (startPoll position s) := h.of_eq rfl rfl

@[simp] theorem sends_arbitrate  (h : Sends r s) : Sends r (arbitrate s) := by
  unfold arbitrate
  (repeat' split) <;> simp [h]

@[simp] theorem sends_settle (h : Sends r s) : Sends r (settle s) := sends_settleAttention (sends_settleLights (sends_arbitrate (sends_settleAnswers (sends_settleReports (sends_settleRefreshes h)))))

@[simp] theorem sends_losePlate (i : Nat) (h : Sends r s) : Sends r (losePlate i s) := sends_reportAtMuster _ (sends_lossRefresh _ (sends_setEvent _ (sends_modPlate _ _ h)))

@[simp] theorem sends_healthFailed (i : Nat) (h : Sends r s) : Sends r (healthFailed i s) := by
  unfold healthFailed
  (repeat' split) <;> simp [h]

@[simp] theorem sends_healthComplete (i : Nat) (h : Sends r s) : Sends r (healthComplete i s) := by
  unfold healthComplete
  split
  · exact h
  · dsimp only
    split
    · exact sends_reportAtMuster _ (sends_setEvent _ (sends_modPlate _ _ h))
    · exact sends_modPlate _ _ h

@[simp] theorem sends_pressAtMuster (i : Nat) (swept : Bool) (h : Sends r s) : Sends r (pressAtMuster i swept s) := by
  unfold pressAtMuster
  (repeat' split) <;> simp [h]

@[simp] theorem sends_pressReport (i : Nat) (t : PressTaken) (h : Sends r s) : Sends r (pressReport i t s) := by
  unfold pressReport
  (repeat' split) <;> simp [h]

@[simp] theorem sends_takeButton (i : Nat) (held : Bool) (h : Sends r s) : Sends r (takeButton i held s) := by
  unfold takeButton
  split <;> simp [h]

@[simp] theorem sends_takeSwitches (i : Nat) (dnd mur : Bool) (h : Sends r s) : Sends r (takeSwitches i dnd mur s) := by
  unfold takeSwitches
  split
  · split
    · exact h
    · exact sends_reportAtMuster _ (sends_retarget _ (sends_modPlate _ _ h))
  · exact h

@[simp] theorem sends_takeDrive (i : Nat) (d : DriveStatus) (h : Sends r s) : Sends r (takeDrive i d s) := by
  unfold takeDrive
  simp [h]

@[simp] theorem sends_takeReadings (i : Nat) (x : Readings) (h : Sends r s) : Sends r (takeReadings i x s) := sends_healthComplete _ (sends_takeDrive _ _ (sends_takeSwitches _ _ _ (sends_takeButton _ _ h)))

@[simp] theorem sends_nextPoll (t : Transaction) (h : Sends r s) : Sends r (nextPoll t s) := h.of_eq rfl rfl

@[simp] theorem sends_engineIdle  (h : Sends r s) : Sends r (engineIdle s) := h.of_eq rfl rfl

@[simp] theorem sends_transactionFailed (t : Transaction) (h : Sends r s) : Sends r (transactionFailed t s) := by
  unfold transactionFailed
  split <;> simp [h]

@[simp] theorem sends_transactionEnded (t : Transaction) (reply : List Octet) (h : Sends r s) : Sends r (transactionEnded t reply s) := by
  unfold transactionEnded
  (repeat' split)
  · exact sends_nextPoll _ (sends_takeReadings _ _ h)
  · exact sends_transactionFailed _ h
  · exact sends_loadOutcome _ _ (sends_healthComplete _ h)
  · exact sends_transactionFailed _ h
  · exact sends_transactionFailed _ h

@[simp] theorem sends_loseAll (h : Sends r s) : Sends r (loseAll s) := sends_foldl _ (fun i => sends_losePlate i) _ h

@[simp] theorem sends_outOfService (x : ChainResult) (h : Sends r s) : Sends r (outOfService x s) := sends_loseAll (sends_setEvent _ (sends_modSched _ (sends_modChain _ h) le_rfl))

@[simp] theorem sends_testPassed (h : Sends r s) : Sends r (testPassed s) := by
  unfold testPassed
  dsimp only
  split
  · exact sends_modSched _ (sends_modChain _ h) le_rfl
  · exact sends_modChain _ h

@[simp] theorem sends_applyResult (x : ChainResult) (h : Sends r s) : Sends r (applyResult x s) := by
  unfold applyResult
  split <;> simp [h]

@[simp] theorem sends_resetPulse  (h : Sends r s) : Sends r (resetPulse s) := h.of_eq rfl rfl

@[simp] theorem sends_requestTest  (h : Sends r s) : Sends r (requestTest s) := by
  unfold requestTest
  simp [h]

@[simp] theorem sends_doReadPlate (args : List Octet) (h : Sends r s) : Sends r ((doReadPlate args s).1) := h.of_eq rfl rfl

@[simp] theorem sends_purgeProgramme (h : Sends r s) : Sends r (purgeProgramme s) := sends_fillBuffer (sends_modBus _ h (queueOk_sublist List.filter_sublist))

@[simp] theorem sends_resetSweeps  (h : Sends r s) : Sends r (resetSweeps s) := h.of_eq rfl rfl

@[simp] theorem sends_clearRoll  (h : Sends r s) : Sends r (clearRoll s) := by
  unfold clearRoll
  split <;> simp [h]

@[simp] theorem sends_startSweepRefresh  (h : Sends r s) : Sends r (startSweepRefresh s) := by
  unfold startSweepRefresh
  split <;> simp [h]

@[simp] theorem sends_ownLevelWork (old new : Level) (h : Sends r s) : Sends r (ownLevelWork old new s) := by
  have hstop : Sends r (if old = .muster then s.modMuster fun m => { m with sweepRefresh := none } else s) := by
    split <;> simp [h]
  unfold ownLevelWork
  extract_lets u
  split
  · exact sends_startSweepRefresh (sends_clearRoll (sends_modMuster _ (sends_resetSweeps hstop)))
  · exact sends_resetSweeps hstop
  · exact sends_resetSweeps hstop
  · exact hstop

@[simp] theorem sends_changeLevel (old new : Level) (h : Sends r s) : Sends r (changeLevel old new s) := by
  have hpurge : Sends r (if new = .muster then purgeProgramme (setEvent .level s) else setEvent .level s) := by
    split <;> simp [h]
  have hall := sends_retargetAll (sends_ownLevelWork old new
    (sends_routeLevel old new (sends_monitorLevel old new (sends_exchangeLevel old new hpurge))))
  unfold changeLevel
  by_cases hnew : new = .muster
  · subst hnew
    exact sends_cancelLoads hall
  · simpa [hnew] using hall

@[simp] theorem sends_restartEcho  (h : Sends r s) : Sends r (restartEcho s) := by
  unfold restartEcho
  split <;> simp [h]

@[simp] theorem sends_offerOrder (o : Order) (echo : Bool) (h : Sends r s) : Sends r (offerOrder o echo s) := by
  unfold offerOrder
  simp [h]

@[simp] theorem sends_offerEcho  (h : Sends r s) : Sends r (offerEcho s) := by
  unfold offerEcho
  simp [h]

@[simp] theorem sends_recordEffects (old new : OrderRecord) (h : Sends r s) : Sends r (recordEffects old new s) := by
  have hroute := sends_setEventIf (redirectsTurn s.route.table old.redirects new.redirects) .route h
  unfold recordEffects
  dsimp only
  (repeat' split) <;> simp [hroute]

@[simp] theorem sends_countConflict  (h : Sends r s) : Sends r (countConflict s) := h.of_eq rfl rfl

@[simp] theorem sends_refuseOrder  (h : Sends r s) : Sends r (refuseOrder s) := h.of_eq rfl rfl

@[simp] theorem sends_cancelPrompted (payload : List Octet) (h : Sends r s) : Sends r (cancelPrompted payload s) := by
  unfold cancelPrompted
  split <;> simp [h]

@[simp] theorem sends_reportAll (h : Sends r s) : Sends r (reportAll s) := sends_foldl _ (fun i => sends_reportPlate i) _ h

@[simp] theorem sends_updateRoll (e q : RollEntry) (h : Sends r s) : Sends r (updateRoll e q s) := by
  unfold updateRoll
  simp [h]

@[simp] theorem sends_putRoll (e : RollEntry) (h : Sends r s) : Sends r (putRoll e s) := by
  unfold putRoll
  (repeat' split) <;> simp [h]

@[simp] theorem sends_takeCabin (station : Nat) (c : CabinRecord) (h : Sends r s) : Sends r (takeCabin station s c) := by
  unfold takeCabin
  (repeat' split) <;> simp [h]

@[simp] theorem sends_takeCabins (station : Nat) (payload : List Octet) (h : Sends r s) : Sends r (takeCabins station payload s) := by
  unfold takeCabins
  (repeat' split)
  · exact sends_foldl _ (sends_takeCabin station) _ h
  · exact h
  · exact h

@[simp] theorem sends_doReadRoll (args : List Octet) (h : Sends r s) : Sends r ((doReadRoll args s).1) := h.of_eq rfl rfl

@[simp] theorem sends_holdTransmit (begun : Nat) (h : Sends r s) : Sends r (holdTransmit begun s) := h.of_eq rfl rfl

@[simp] theorem sends_setPhase (p : TxPhase) (h : Sends r s) : Sends r (setPhase p s) := h.of_eq rfl rfl

@[simp] theorem sends_enterWaiting  (h : Sends r s) : Sends r (enterWaiting s) := h.of_eq rfl rfl

@[simp] theorem sends_releaseTransmit  (h : Sends r s) : Sends r (releaseTransmit s) := by
  unfold releaseTransmit
  (repeat' split) <;> simp [h]

@[simp] theorem sends_supplyReformed (before : SupplyState) (begun : Nat) (h : Sends r s) : Sends r (supplyReformed before begun s) := by
  unfold supplyReformed
  dsimp only
  split
  · exact h
  · split
    · exact sends_cancelLoads (sends_holdTransmit _ (sends_setEvent _ h))
    · split
      · exact sends_releaseTransmit (sends_setEvent _ h)
      · exact sends_setEvent _ h

@[simp] theorem sends_startPresence  (h : Sends r s) : Sends r (startPresence s) := h.of_eq rfl rfl

@[simp] theorem sends_stopTimers  (h : Sends r s) : Sends r (stopTimers s) := h.of_eq rfl rfl

@[simp] theorem sends_countFraming  (h : Sends r s) : Sends r (countFraming s) := h.of_eq rfl rfl

@[simp] theorem sends_restartWait  (h : Sends r s) : Sends r (restartWait s) := by
  unfold restartWait
  (repeat' split) <;> simp [h]

@[simp] theorem sends_beginSending (u : TxBuffer) (h : Sends r s) : Sends r (beginSending u s) := h.of_eq rfl rfl

@[simp] theorem sends_markCompleted (f : TxFrame) (h : Sends r s) : Sends r (markCompleted f s) := by
  unfold markCompleted
  dsimp only
  (repeat' split) <;> simp [h]

@[simp] theorem sends_reportDone  (h : Sends r s) : Sends r (reportDone s) := h.of_eq rfl rfl

@[simp] theorem sends_tellComplete (f : TxFrame) (h : Sends r s) : Sends r (tellComplete f s) := by
  unfold tellComplete
  split
  · exact sends_answerReported _ h
  · exact sends_foldl _ sends_clearCompleted _ h
  · exact sends_reportDone h
  · exact sends_markCompleted _ h
  all_goals exact h

@[simp] theorem sends_tellNotSent (f : TxFrame) (h : Sends r s) : Sends r (tellNotSent f s) := by
  unfold tellNotSent
  split <;> simp [h]

@[simp] theorem sends_emptyBuffer (h : Sends r s) : Sends r (emptyBuffer s) := sends_fillBuffer (sends_modBus _ h id)

@[simp] theorem sends_settleSend (h : Sends r s) : Sends r (settleSend s) := sends_settleAttention (sends_settleAnswers (sends_settleReports h))

@[simp] theorem sends_enterBackoff (u : TxBuffer) (h : Sends r s) : Sends r (enterBackoff u s) := by
  unfold enterBackoff
  dsimp only
  (repeat' split) <;> simp [h]

@[simp] theorem sends_jamEnded (u : TxBuffer) (h : Sends r s) : Sends r (jamEnded u s) := by
  unfold jamEnded
  split
  · exact sends_emptyBuffer (sends_tellNotSent _ (sends_setEvent _ (sends_modCounters _ h)))
  · split
    · exact sends_emptyBuffer h
    · exact sends_enterBackoff _ h

end Sys2Proof.Machine
end

