-- ==== Sys2Proof/Proofs/QueueSound.lean ====
section
/-! PROOFS. Every command keeps the transmit queue sound and the refreshes in flight at most two (O58). -/

namespace Sys2Proof.Machine

variable {r s : State}

/-! ### The node states and the image -/

theorem sends_enterFault (h : Sends r s) : Sends r (enterFault s) := by
  have hsilent (u : State) (hu : Sends r u) : Sends r (silenceBus u) := sends_modBus _ hu fun _ => queueOk_nil
  exact sends_compareAll (sends_retargetAll (sends_settleMarks (sends_stopTimers (sends_stopExchange (hsilent _ (sends_modNode _ h))))))

theorem sends_enterJoining (h : Sends r s) : Sends r (enterJoining s) :=
  sends_settleMarks (sends_offerAdvert (sends_startPresence (sends_modChain _ (sends_modNode _ h))))

theorem sends_enterRun (h : Sends r s) : Sends r (enterRun s) := by
  unfold enterRun
  dsimp only
  refine sends_settleMarks (sends_compareAll (sends_offerSensed (sends_restartEcho ?_)))
  split <;> simp [h]

/-- The image installed leaves no refresh in flight. -/
theorem sends_installConfig (c : Configuration) (h : Sends r s) : Sends r (installConfig c s) :=
  h.trans ⟨id, fun _ => Nat.zero_le 2⟩

theorem sends_judgeImage (image : List Octet) (h : Sends r s) : Sends r (judgeImage image s) := by
  have invalid (x : LoadResult) (n : Nat) : Sends r (loadInvalid x n s) := sends_enterFault (sends_modNode _ h)
  have valid (c : Configuration) : Sends r (loadValid c s) := by
    unfold loadValid
    dsimp only
    split
    · exact sends_requestTest (sends_modNode _ (sends_installConfig c h))
    · exact sends_enterJoining (sends_installConfig c h)
  unfold judgeImage
  split
  · exact invalid _ _
  · split
    · exact invalid _ _
    · split
      · exact invalid _ _
      · split
        · exact invalid _ _
        · exact valid _

/-! ### Frames -/

@[simp] theorem sends_setReceiver (x : Receiver) (h : Sends r s) : Sends r (setReceiver x s) := sends_modBus _ h id

theorem sends_takeHeader (capture : Tick) (x : Option FrameHead) (h : Sends r s) : Sends r (takeHeader capture x s) := by
  unfold takeHeader shedOrKeep
  (repeat' split) <;> simp [h]

theorem queue_placeReceived (f : RxFrame) (b : ZoneBus) : (placeReceived f b).queue = b.queue := by
  unfold placeReceived
  cases f.kind <;> rfl

theorem sends_stationClash (h : Sends r s) : Sends r (stationClash s) := by
  unfold stationClash
  split
  · exact sends_enterFault h
  · exact sends_setEvent _ h

theorem sends_takeFrame (capture : Tick) (x : FrameHead) (payload : List Octet) (high low : Octet) (h : Sends r s) :
    Sends r (takeFrame capture x payload high low s) := by
  have hhunt := sends_setReceiver .hunt h
  unfold takeFrame
  dsimp only
  split
  · exact sends_modCounters _ hhunt
  · split
    · exact sends_stationClash hhunt
    · exact sends_modCounters _ (sends_modBus _ hhunt fun hq => by rwa [queue_placeReceived])

theorem sends_freeProgramme (h : Sends r s) : Sends r (freeProgramme s) := sends_modBus _ h id

theorem sends_freeMuster (h : Sends r s) : Sends r (freeMuster s) := sends_modBus _ h id

/-! ### Orders -/

theorem sends_adoptOrder (o : Order) (h : Sends r s) : Sends r (adoptOrder o s) := sends_recordEffects _ _ (sends_modMuster _ h)

theorem sends_acceptOrder (o : Order) (h : Sends r s) : Sends r (acceptOrder o s) := by
  have hseen := sends_modMuster (fun m => { m with highestSeen := max m.highestSeen o.serial }) h
  unfold acceptOrder compareOrder
  dsimp only
  split
  · split
    · exact sends_adoptOrder o hseen
    · split
      · exact sends_modCounters _ hseen
      · split
        · exact hseen
        · split
          · exact sends_adoptOrder o (sends_countConflict hseen)
          · exact sends_countConflict hseen
  · exact hseen

theorem sends_takeOrder (payload : List Octet) (h : Sends r s) : Sends r (takeOrder payload s) := by
  have hcancel := sends_cancelPrompted payload h
  unfold takeOrder
  dsimp only
  split
  · split
    · exact sends_acceptOrder _ hcancel
    · exact sends_refuseOrder hcancel
  · exact sends_refuseOrder hcancel

theorem sends_doIssueOrder (args : List Octet) (h : Sends r s) : Sends r (doIssueOrder args s).1 := by
  unfold doIssueOrder
  (repeat' split) <;> first | exact h | exact sends_offerOrder _ _ (sends_acceptOrder _ h)

theorem sends_lapse (h : Sends r s) : Sends r (lapse s) := sends_restartEcho (sends_changeLevel _ _ (sends_modMuster _ h))

/-! ### The chain and the port -/

theorem sends_testEnded (x : ChainResult) (h : Sends r s) : Sends r (testEnded x s) := by
  have hanswered : Sends r (answerTest x (applyResult x (engineIdle s))) := sends_modPort _ (sends_applyResult x (sends_engineIdle h))
  unfold testEnded
  dsimp only
  split
  · exact sends_enterJoining hanswered
  · exact hanswered

theorem sends_portTake {code : Nat} {args : List Octet} {owner : State → State} (h : Sends s (owner s)) : Sends s (portTake code args owner s) :=
  portTake_keeps (P := Sends s) (fun _ f => sends_modPort f) (.refl s) h

theorem sends_portRun {code : Nat} {args : List Octet} {owner : State → State × List Octet} (h : Sends s (owner s).1) :
    Sends s (portRun code args owner s) :=
  portRun_keeps (P := Sends s) (fun _ f => sends_modPort f) (.refl s) h

theorem sends_doSetTime (args : List Octet) (h : Sends r s) : Sends r (doSetTime args s).1 := by
  unfold doSetTime
  dsimp only
  (repeat' split) <;> first | exact h | exact sends_takeSetTime _ _ h

theorem sends_doTestChain (block : List Octet) (h : Sends r s) : Sends r (doTestChain block s) := by
  unfold doTestChain answer
  split <;> simp [h]

/-- A reset leaves the queue empty and no refresh in flight. -/
theorem sends_of_reset {t : State} (hqueue : t.bus.queue = []) (hflight : t.sched.flight = []) : Sends s t :=
  ⟨fun _ => by rw [queueSound_iff, hqueue]; exact queueOk_nil, fun _ => by simp [State.flightSound, hflight]⟩

/-! ### The commands -/

theorem sends_takeStart (octet : Octet) (good : Bool) (h : Sends r s) : Sends r (takeStart octet good s) := by
  unfold takeStart
  split <;> simp [h]

/-- The end of a command that takes a frame to be applied at once, and the same with the path lights. -/
theorem sends_taken (h : Sends r s) : Sends r (settleAttention (settleAnswers s)) := sends_settleAttention (sends_settleAnswers h)

theorem sends_takenLit (h : Sends r s) : Sends r (settleAttention (settleLights (settleAnswers s))) :=
  sends_settleAttention (sends_settleLights (sends_settleAnswers h))

theorem sends_exec (c : Instr) (s : State) : Yields (Sends s) (exec c s) := by
  have hrefl := Sends.refl s
  cases c with
  | fullReset => exact (yields_next _ _).2 (sends_of_reset rfl rfl)
  | restart => exact (yields_next _ _).2 (sends_portTake (sends_of_reset rfl rfl))
  | imageLoadDone image =>
    refine (yields_next _ _).2 ?_
    split
    · exact sends_settle (sends_judgeImage image hrefl)
    · exact hrefl
  | joinTimer =>
    refine (yields_next _ _).2 ?_
    split
    · exact sends_settle (sends_enterRun hrefl)
    · exact hrefl
  | timeMark =>
    dsimp only [exec, execTimeMark]
    split
    · split
      · refine (yields_next _ _).2 (sends_taken (sends_modBus _ ?_ id))
        split
        · exact sends_acceptMark _ _ _ hrefl
        · exact hrefl
      · exact (yields_next _ _).2 hrefl
    · exact (yields_next _ _).2 hrefl
  | programmeItem =>
    dsimp only [exec, execProgrammeItem]
    split
    · split
      · exact (yields_next _ _).2 (sends_taken (sends_freeProgramme (sends_takeItem _ hrefl)))
      · exact (yields_next _ _).2 hrefl
    · exact (yields_next _ _).2 hrefl
  | programmeSummary =>
    dsimp only [exec, execProgrammeSummary]
    split
    · split
      · exact (yields_next _ _).2 (sends_taken (sends_freeProgramme (sends_takeSummary _ hrefl)))
      · exact (yields_next _ _).2 hrefl
    · exact (yields_next _ _).2 hrefl
  | itemRequest =>
    dsimp only [exec, execItemRequest]
    split
    · split
      · exact (yields_next _ _).2 (sends_taken (sends_freeProgramme (sends_takeRequest _ hrefl)))
      · exact (yields_next _ _).2 hrefl
    · exact (yields_next _ _).2 hrefl
  | segmentState =>
    dsimp only [exec, execSegmentState]
    split
    · split
      · refine (yields_next _ _).2 (sends_takenLit (sends_modBus _ ?_ id))
        split
        · exact sends_foldl _ sends_takeSegment _ hrefl
        · exact hrefl
      · exact (yields_next _ _).2 hrefl
    · exact (yields_next _ _).2 hrefl
  | routeAdvert =>
    dsimp only [exec, execRouteAdvert]
    split
    · split
      · exact (yields_next _ _).2 (sends_takenLit (sends_modBus _ (sends_takeAdvert _ _ hrefl) id))
      · exact (yields_next _ _).2 hrefl
    · exact (yields_next _ _).2 hrefl
  | cabinReport =>
    dsimp only [exec, execCabinReport]
    split
    · split
      · exact (yields_next _ _).2 (sends_settle (sends_freeMuster (sends_takeCabins _ _ hrefl)))
      · exact (yields_next _ _).2 hrefl
    · exact (yields_next _ _).2 hrefl
  | musterOrder =>
    dsimp only [exec, execMusterOrder]
    split
    · split
      · exact (yields_next _ _).2 (sends_settle (sends_freeMuster (sends_takeOrder _ hrefl)))
      · exact (yields_next _ _).2 hrefl
    · exact (yields_next _ _).2 hrefl
  | standDownTimer =>
    refine (yields_next _ _).2 ?_
    split
    · exact sends_settle (sends_lapse hrefl)
    · exact hrefl
  | startOctet =>
    refine (yields_next _ _).2 ?_
    split
    · dsimp only
      split
      · exact sends_takeStart _ _ (sends_restartWait hrefl)
      · exact sends_restartWait hrefl
    · exact hrefl
  | frameHeader =>
    dsimp only [exec, execFrameHeader]
    split
    · rw [yields_next]
      split
      · exact sends_takeHeader _ _ hrefl
      · exact hrefl
    · exact (yields_next _ _).2 hrefl
  | frameReceived =>
    dsimp only [exec, execFrameReceived]
    split
    · rw [yields_next]
      split
      · exact sends_settle (sends_takeFrame _ _ _ _ _ hrefl)
      · exact hrefl
    · exact (yields_next _ _).2 hrefl
  | chainTimeout =>
    dsimp only [exec, execChainTimeout]
    split
    · split
      · exact (yields_next _ _).2 (sends_settle (sends_transactionFailed _
          (sends_resetPulse (sends_engineIdle (sends_modCounters _ (sends_modPins _ hrefl))))))
      · exact (yields_next _ _).2 hrefl
    · exact (yields_next _ _).2 hrefl
  | transmitComplete =>
    dsimp only [exec, execTransmitComplete]
    split
    · split
      · exact (yields_next _ _).2 (sends_settleSend (sends_emptyBuffer (sends_tellComplete _ (sends_modCounters _ hrefl))))
      · exact (yields_next _ _).2 hrefl
    · exact (yields_next _ _).2 hrefl
  | abortedTailEnd =>
    dsimp only [exec, execAbortedTailEnd]
    split
    · split
      · exact (yields_next _ _).2 (sends_settleSend (sends_emptyBuffer (sends_tellNotSent _ (sends_modCounters _ hrefl))))
      · exact (yields_next _ _).2 hrefl
    · exact (yields_next _ _).2 hrefl
  | collision =>
    dsimp only [exec, execCollision]
    split
    · split
      · exact (yields_next _ _).2 (sends_modCounters _ (sends_modBus _ hrefl id))
      · exact (yields_next _ _).2 hrefl
    · exact (yields_next _ _).2 hrefl
  | lineTestEnd =>
    dsimp only [exec, execLineTestEnd]
    split
    · split
      · exact (yields_next _ _).2 hrefl
      · exact (yields_next _ _).2 (sends_settle (sends_testEnded _ (sends_modPins _ hrefl)))
    · exact (yields_next _ _).2 hrefl
  | unknownCommand block =>
    dsimp only [exec, execUnknownCommand, overrunPort, answerBad, answer]
    (repeat' split) <;> simp [hrefl]
  | readView | readItem | readCounters => exact (yields_next _ _).2 (sends_portRun hrefl)
  | readRoute => exact (yields_next _ _).2 (sends_portRun (sends_doReadRoute _ hrefl))
  | readPlate => exact (yields_next _ _).2 (sends_portRun (sends_doReadPlate _ hrefl))
  | readRoll => exact (yields_next _ _).2 (sends_portRun (sends_doReadRoll _ hrefl))
  | clearCounters => exact (yields_next _ _).2 (sends_portRun (hrefl.of_eq rfl rfl))
  | readEvents | setEventMask => exact (yields_next _ _).2 (sends_settleAttention (sends_portRun (hrefl.of_eq rfl rfl)))
  | queryRoute => exact (yields_next _ _).2 (sends_portRun (sends_doQueryRoute _ hrefl))
  | publishItem => exact (yields_next _ _).2 (sends_settleSend (sends_portRun (sends_doPublish _ hrefl)))
  | withdrawItem => exact (yields_next _ _).2 (sends_settleSend (sends_portRun (sends_doWithdraw _ hrefl)))
  | setTime => exact (yields_next _ _).2 (sends_settleSend (sends_portRun (sends_doSetTime _ hrefl)))
  | declareSegment => exact (yields_next _ _).2 (sends_settle (sends_portRun (sends_doDeclare _ hrefl)))
  | issueOrder => exact (yields_next _ _).2 (sends_settle (sends_portRun (sends_doIssueOrder _ hrefl)))
  | testChain => exact (yields_next _ _).2 (sends_settle (sends_portTake (sends_doTestChain _ hrefl)))
  | _ =>
    dsimp only [exec, execResetRelease, execVoltageCrossing, execSourceLineAccept, execDayWrap, execComparatorMatch, execSourceHold, execMarkTimer,
      execTransmitBegin, execFrameEndShort, execJamEnd, execBackoffEnd, execSummaryTimer, execEarlySummary, execRequestTimer, execAnswerHold,
      execPresenceTimer, execSenseLineAccept, execAdvertTimer, execTriggeredAdvert, execEchoTimer, execJoinPromptEcho, execSweepRefreshTimer,
      execPollDue, execBusyReleaseStart, execChainStall, execTransactionEnd, execChainResetPulseEnd, execLineTestStart, startTest, execDriveTimer,
      execCommandOverrun, overrunPort, execResponseRead, execAttentionPacing, execFollowedFrameEnd, execSenseLineChange, execSourceLineChange,
      readBusy]
    (repeat' split) <;> simp (maxDischargeDepth := 8) [hrefl]

/-- Settles O58: the queue is sound after every command; a millisecond does not write it. -/
theorem stepKeepsQueueSound : Obligations.StepKeepsQueueSound := by
  unfold Obligations.StepKeepsQueueSound
  intro s t hs h
  exact step_keeps (P := State.queueSound) (fun _ _ => id) (fun _ => id) (fun c u hu v hv => (sends_exec c u v hv).queue hu) hs h

/-- The flight part of O59. -/
theorem step_keeps_flightSound {s t : State} (hs : s.flightSound) (h : step s = .next t) : t.flightSound :=
  step_keeps (P := State.flightSound) (fun _ _ => id) (fun _ => id) (fun c u hu v hv => (sends_exec c u v hv).flight hu) hs h

end Sys2Proof.Machine
end

