-- ==== Sys2Proof/Proofs/Writes.lean ====
section
/-! PROOFS. What every shared operation writes: its footprint, a list of the parts of the state, and that it leaves every other part as it is.
One lemma each, read from what the operation is made of. -/

namespace Sys2Proof.Machine

/-- The parts of the state that a shared operation may write; all else is `State.kept`. -/
inductive Part
  | isSet | ship | sources | shift | markTimer
  | store
  | records | summaryTimer | early | answers | active
  | neighbours | filters | declared
  | routes | advertTimer | trigger | lastOffer
  | lights
  | standDown | echoTimer | joinEcho | pendingReports | outstanding | builderWaits | sweepRefresh | roll
  | engine | testPending | pulse | service
  | plates | waiting | flight
  | queue | buffer | nextSeq
  | line | flags | loss
  | counters | refusals
  | free
  deriving DecidableEq

/-- The part is the same. TRANSMIT LOSS is a part apart from the other flags, as are the queue refusals from the other counters: offers write them. -/
def Part.same (r s : State) : Part → Prop
  | .isSet => s.time.isSet = r.time.isSet
  | .ship => s.time.ship = r.time.ship
  | .sources => s.time.sources = r.time.sources
  | .shift => s.time.pendingShift = r.time.pendingShift
  | .markTimer => s.time.markTimer = r.time.markTimer
  | .store => s.store = r.store
  | .records => s.exch.records = r.exch.records
  | .summaryTimer => s.exch.summaryTimer = r.exch.summaryTimer
  | .early => s.exch.early = r.exch.early
  | .answers => s.exch.answers = r.exch.answers
  | .active => s.exch.active = r.exch.active
  | .neighbours => s.mon.neighbours = r.mon.neighbours
  | .filters => s.mon.filters = r.mon.filters
  | .declared => s.mon.declared = r.mon.declared
  | .routes => s.route.table = r.route.table
  | .advertTimer => s.route.advertTimer = r.route.advertTimer
  | .trigger => s.route.trigger = r.route.trigger
  | .lastOffer => s.route.lastOffer = r.route.lastOffer
  | .lights => s.lights = r.lights
  | .standDown => s.muster.standDown = r.muster.standDown
  | .echoTimer => s.muster.echoTimer = r.muster.echoTimer
  | .joinEcho => s.muster.joinEcho = r.muster.joinEcho
  | .pendingReports => s.muster.pendingReports = r.muster.pendingReports
  | .outstanding => s.muster.reportOutstanding = r.muster.reportOutstanding
  | .builderWaits => s.muster.builderWaits = r.muster.builderWaits
  | .sweepRefresh => s.muster.sweepRefresh = r.muster.sweepRefresh
  | .roll => s.muster.roll = r.muster.roll
  | .engine => s.chain.engine = r.chain.engine
  | .testPending => s.chain.testPending = r.chain.testPending
  | .pulse => s.chain.chainReset = r.chain.chainReset ∧ s.chain.pulse = r.chain.pulse
  | .service => s.chain.service = r.chain.service ∧ s.chain.lastResult = r.chain.lastResult
  | .plates => s.sched.plates = r.sched.plates
  | .waiting => s.sched.queue = r.sched.queue
  | .flight => s.sched.flight = r.sched.flight
  | .queue => s.bus.queue = r.bus.queue
  | .buffer => s.bus.buffer = r.bus.buffer
  | .nextSeq => s.bus.nextSeq = r.bus.nextSeq
  | .line => s.events.attention = r.events.attention ∧ s.events.lastAssert = r.events.lastAssert
  | .flags => s.events.flags ||| Event.transmitLoss.mask = r.events.flags ||| Event.transmitLoss.mask
  | .loss => s.events.flags &&& Event.transmitLoss.mask = r.events.flags &&& Event.transmitLoss.mask
  | .counters => { s.counters with queueRefusals := 0 } = { r.counters with queueRefusals := 0 }
  | .refusals => s.counters.queueRefusals = r.counters.queueRefusals
  | .free => s.free = r.free

/-- What an offer writes. -/
abbrev Part.offered : List Part := [.active, .queue, .buffer, .nextSeq, .loss, .refusals, .free]

/-- What an advert writes of the routes. -/
abbrev Part.advertised : List Part := [.routes, .advertTimer, .trigger, .lastOffer]

/-- What a plate's refresh writes. -/
abbrev Part.refreshed : List Part := [.plates, .waiting, .flight]

/-- From `r` to `s` the parts of the list are written at most, flags are set at most, and `State.kept` stands. -/
structure Writes (l : List Part) (r s : State) : Prop where
  kept : s.kept = r.kept
  enables : s.events.enables = r.events.enables
  flags : ∃ m, s.events.flags = r.events.flags ||| m
  parts : ∀ p, p ∉ l → p.same r s

theorem Part.same_refl (p : Part) (s : State) : p.same s s := by cases p <;> simp [Part.same]

theorem Part.same_trans {p : Part} {r s t : State} (h : p.same r s) (k : p.same s t) : p.same r t := by
  cases p <;> simp_all [Part.same]

@[refl] theorem Writes.refl (l : List Part) (s : State) : Writes l s s := ⟨rfl, rfl, ⟨0, by simp⟩, fun p _ => p.same_refl s⟩

theorem Writes.trans {l : List Part} {r s t : State} (h : Writes l r s) (k : Writes l s t) : Writes l r t := by
  obtain ⟨m, hm⟩ := h.flags
  obtain ⟨n, hn⟩ := k.flags
  exact ⟨k.kept.trans h.kept, k.enables.trans h.enables, ⟨m ||| n, by rw [hn, hm, BitVec.or_assoc]⟩,
    fun p hp => Part.same_trans (h.parts p hp) (k.parts p hp)⟩

theorem Writes.mono {l l' : List Part} {r s : State} (h : Writes l r s) (hl : l ⊆ l') : Writes l' r s :=
  ⟨h.kept, h.enables, h.flags, fun p hp => h.parts p fun hm => hp (hl hm)⟩

/-- A further update that leaves `State.kept` and the events and writes parts of the list at most. -/
theorem Writes.update {l : List Part} {r s t : State} (h : Writes l r s) (hkept : t.kept = s.kept) (hevents : t.events = s.events)
    (hparts : ∀ p, p ∉ l → p.same s t) : Writes l r t :=
  h.trans ⟨hkept, by rw [hevents], ⟨0, by rw [hevents]; simp⟩, hparts⟩

section

variable {ps : List Part} {r s : State}

@[simp] theorem writes_modTime (f : Timebase → Timebase) (h : Writes ps r s) (hnow : (f s.time).now = s.time.now)
    (hset : (f s.time).isSet = s.time.isSet ∨ .isSet ∈ ps) (hship : (f s.time).ship = s.time.ship ∨ .ship ∈ ps)
    (hsources : (f s.time).sources = s.time.sources ∨ .sources ∈ ps) (hshift : (f s.time).pendingShift = s.time.pendingShift ∨ .shift ∈ ps)
    (hmark : (f s.time).markTimer = s.time.markTimer ∨ .markTimer ∈ ps) : Writes ps r (s.modTime f) := by
  refine h.update (by simp [hnow]) rfl fun p hp => ?_
  cases p <;> simp_all [Part.same, State.modTime]

@[simp] theorem writes_modStore (f : Store → Store) (h : Writes ps r s) (hl : .store ∈ ps) : Writes ps r (s.modStore f) := by
  refine h.update rfl rfl fun p hp => ?_
  cases p <;> simp_all [Part.same, State.modStore]

@[simp] theorem writes_modExch (f : Exchange → Exchange) (h : Writes ps r s)
    (hrecords : (f s.exch).records = s.exch.records ∨ .records ∈ ps) (hsummary : (f s.exch).summaryTimer = s.exch.summaryTimer ∨ .summaryTimer ∈ ps)
    (hearly : (f s.exch).early = s.exch.early ∨ .early ∈ ps) (hanswers : (f s.exch).answers = s.exch.answers ∨ .answers ∈ ps)
    (hactive : (f s.exch).active = s.exch.active ∨ .active ∈ ps) : Writes ps r (s.modExch f) := by
  refine h.update rfl rfl fun p hp => ?_
  cases p <;> simp_all [Part.same, State.modExch]

@[simp] theorem writes_modMon (f : Monitor → Monitor) (h : Writes ps r s)
    (hneighbours : (f s.mon).neighbours = s.mon.neighbours ∨ .neighbours ∈ ps) (hfilters : (f s.mon).filters = s.mon.filters ∨ .filters ∈ ps)
    (hdeclared : (f s.mon).declared = s.mon.declared ∨ .declared ∈ ps) : Writes ps r (s.modMon f) := by
  refine h.update rfl rfl fun p hp => ?_
  cases p <;> simp_all [Part.same, State.modMon]

@[simp] theorem writes_modRoute (f : RouteEngine → RouteEngine) (h : Writes ps r s)
    (hroutes : (f s.route).table = s.route.table ∨ .routes ∈ ps) (hadvert : (f s.route).advertTimer = s.route.advertTimer ∨ .advertTimer ∈ ps)
    (htrigger : (f s.route).trigger = s.route.trigger ∨ .trigger ∈ ps) (hoffer : (f s.route).lastOffer = s.route.lastOffer ∨ .lastOffer ∈ ps) :
    Writes ps r (s.modRoute f) := by
  refine h.update rfl rfl fun p hp => ?_
  cases p <;> simp_all [Part.same, State.modRoute]

@[simp] theorem writes_modLights (f : PathLights → PathLights) (h : Writes ps r s) (hl : .lights ∈ ps) : Writes ps r (s.modLights f) := by
  refine h.update rfl rfl fun p hp => ?_
  cases p <;> simp_all [Part.same, State.modLights]

@[simp] theorem writes_modMuster (f : MusterControl → MusterControl) (h : Writes ps r s)
    (hkept : f s.muster = { f s.muster with
      record := s.muster.record, highestSeen := s.muster.highestSeen, authorities := s.muster.authorities })
    (hstand : (f s.muster).standDown = s.muster.standDown ∨ .standDown ∈ ps) (hecho : (f s.muster).echoTimer = s.muster.echoTimer ∨ .echoTimer ∈ ps)
    (hjoin : (f s.muster).joinEcho = s.muster.joinEcho ∨ .joinEcho ∈ ps)
    (hpending : (f s.muster).pendingReports = s.muster.pendingReports ∨ .pendingReports ∈ ps)
    (hout : (f s.muster).reportOutstanding = s.muster.reportOutstanding ∨ .outstanding ∈ ps)
    (hwaits : (f s.muster).builderWaits = s.muster.builderWaits ∨ .builderWaits ∈ ps)
    (hsweep : (f s.muster).sweepRefresh = s.muster.sweepRefresh ∨ .sweepRefresh ∈ ps) (hroll : (f s.muster).roll = s.muster.roll ∨ .roll ∈ ps) :
    Writes ps r (s.modMuster f) := by
  refine h.update (kept_modMuster s f hkept) rfl fun p hp => ?_
  clear hkept
  cases p <;> simp_all [Part.same, State.modMuster]

@[simp] theorem writes_modChain (f : ChainControl → ChainControl) (h : Writes ps r s)
    (hengine : (f s.chain).engine = s.chain.engine ∨ .engine ∈ ps) (htest : (f s.chain).testPending = s.chain.testPending ∨ .testPending ∈ ps)
    (hpulse : ((f s.chain).chainReset = s.chain.chainReset ∧ (f s.chain).pulse = s.chain.pulse) ∨ .pulse ∈ ps)
    (hservice : ((f s.chain).service = s.chain.service ∧ (f s.chain).lastResult = s.chain.lastResult) ∨ .service ∈ ps) :
    Writes ps r (s.modChain f) := by
  refine h.update rfl rfl fun p hp => ?_
  cases p <;> simp_all [Part.same, State.modChain]

@[simp] theorem writes_modSched (f : Scheduler → Scheduler) (h : Writes ps r s) (hplates : (f s.sched).plates = s.sched.plates ∨ .plates ∈ ps)
    (hwaiting : (f s.sched).queue = s.sched.queue ∨ .waiting ∈ ps) (hflight : (f s.sched).flight = s.sched.flight ∨ .flight ∈ ps) :
    Writes ps r (s.modSched f) := by
  refine h.update rfl rfl fun p hp => ?_
  cases p <;> simp_all [Part.same, State.modSched]

@[simp] theorem writes_modBus (f : ZoneBus → ZoneBus) (h : Writes ps r s) (hkept : f s.bus = { f s.bus with
      receiver := s.bus.receiver, timeQ := s.bus.timeQ, programmeQ := s.bus.programmeQ, routeQ := s.bus.routeQ, musterQ := s.bus.musterQ })
    (hqueue : (f s.bus).queue = s.bus.queue ∨ .queue ∈ ps) (hbuffer : (f s.bus).buffer = s.bus.buffer ∨ .buffer ∈ ps)
    (hseq : (f s.bus).nextSeq = s.bus.nextSeq ∨ .nextSeq ∈ ps) : Writes ps r (s.modBus f) := by
  refine h.update (kept_modBus s f hkept) rfl fun p hp => ?_
  clear hkept
  cases p <;> simp_all [Part.same, State.modBus]

@[simp] theorem writes_modCounters (f : Counters → Counters) (h : Writes ps r s)
    (hcounters : { f s.counters with queueRefusals := 0 } = { s.counters with queueRefusals := 0 } ∨ .counters ∈ ps)
    (hrefusals : (f s.counters).queueRefusals = s.counters.queueRefusals ∨ .refusals ∈ ps) : Writes ps r (s.modCounters f) := by
  refine h.update rfl rfl fun p hp => ?_
  cases p <;> simp_all [Part.same, State.modCounters]

@[simp] theorem writes_modFree (f : Nat → Nat) (h : Writes ps r s) (hl : .free ∈ ps) : Writes ps r (s.modFree f) := by
  refine h.update rfl rfl fun p hp => ?_
  cases p <;> simp_all [Part.same, State.modFree]

theorem writes_foldl {α : Type} (f : State → α → State) (hf : ∀ {u : State} a, Writes ps r u → Writes ps r (f u a)) (as : List α)
    (h : Writes ps r s) : Writes ps r (as.foldl f s) := by
  induction as generalizing s with
  | nil => exact h
  | cons a as ih => exact ih (hf a h)

theorem mask_disjoint {e : Event} (he : e ≠ .transmitLoss) : e.mask &&& Event.transmitLoss.mask = 0 := by
  cases e <;> first | decide | exact absurd rfl he

@[simp] theorem writes_setEvent (e : Event) (h : Writes ps r s) (hl : [.flags] ⊆ ps) (he : e ≠ .transmitLoss ∨ .loss ∈ ps) :
    Writes ps r (setEvent e s) := by
  refine h.trans ⟨rfl, rfl, ⟨e.mask, rfl⟩, fun p hp => ?_⟩
  cases p with
  | loss =>
    obtain he | hloss := he
    · have hmask : (s.events.flags ||| e.mask) &&& Event.transmitLoss.mask = s.events.flags &&& Event.transmitLoss.mask := by
        rw [BitVec.and_or_distrib_right, mask_disjoint he]
        simp
      exact hmask
    · exact absurd hloss hp
  | flags => exact absurd (hl (by simp)) hp
  | _ => first | rfl | exact ⟨rfl, rfl⟩

@[simp] theorem writes_setEventIf (c : Bool) (e : Event) (h : Writes ps r s) (hl : [.flags] ⊆ ps) (he : e ≠ .transmitLoss ∨ .loss ∈ ps) :
    Writes ps r (setEventIf c e s) := by
  unfold setEventIf
  split
  · exact writes_setEvent e h hl he
  · exact h

/-- Two updates of the events that leave flags and enables. -/
theorem Writes.attention {u : EventUnit} (h : Writes ps r s) (hflags : u.flags = s.events.flags) (henables : u.enables = s.events.enables)
    (hl : .line ∈ ps) : Writes ps r { s with events := u } := by
  refine h.trans ⟨rfl, henables, ⟨0, by simp [hflags]⟩, fun p hp => ?_⟩
  cases p <;> simp_all [Part.same]

@[simp] theorem writes_settleAttention (h : Writes ps r s) (hl : [.line] ⊆ ps) : Writes ps r (settleAttention s) := by
  have hline : .line ∈ ps := hl (by simp)
  unfold settleAttention
  split
  · exact h
  · split
    · exact h.attention rfl rfl hline
    · split
      · exact h
      · split
        · exact h.attention rfl rfl hline
        · exact h

@[simp] theorem writes_drawn (h : Writes ps r s) (hl : [.free] ⊆ ps) : Writes ps r (drawn s) := by
  simp only [List.cons_subset] at hl
  unfold drawn
  simp [h, hl]

@[simp] theorem writes_fillBuffer (h : Writes ps r s) (hl : [.queue, .buffer, .free] ⊆ ps) : Writes ps r (fillBuffer s) := by
  simp only [List.cons_subset] at hl
  unfold fillBuffer
  (repeat' split) <;> simp (maxDischargeDepth := 9) [h, hl]

/-- TRANSMIT LOSS is a part of its own. -/
theorem writes_setLoss (h : Writes ps r s) (hl : .loss ∈ ps) : Writes ps r (setEvent .transmitLoss s) := by
  refine h.trans ⟨rfl, rfl, ⟨Event.transmitLoss.mask, rfl⟩, fun p hp => ?_⟩
  cases p with
  | loss => exact absurd hl hp
  | flags =>
    have hmask : s.events.flags ||| Event.transmitLoss.mask ||| Event.transmitLoss.mask = s.events.flags ||| Event.transmitLoss.mask := by
      rw [BitVec.or_assoc, BitVec.or_self]
    exact hmask
  | _ => first | rfl | exact ⟨rfl, rfl⟩

@[simp] theorem writes_countRefusal (h : Writes ps r s) (hl : [.loss, .refusals] ⊆ ps) : Writes ps r (countRefusal s) := by
  simp only [List.cons_subset] at hl
  exact writes_setLoss (by simp [h, hl]) hl.1

@[simp] theorem writes_acceptOffer (queue : List TxFrame) (h : Writes ps r s) (hl : [.queue, .buffer, .nextSeq, .free] ⊆ ps) :
    Writes ps r (acceptOffer queue s) := by
  simp only [List.cons_subset] at hl
  unfold acceptOffer
  simp [h, hl]

@[simp] theorem writes_offerBase (o : Offer) (h : Writes ps r s) (hl : [.queue, .buffer, .nextSeq, .loss, .refusals, .free] ⊆ ps) :
    Writes ps r ((offerBase o s).1) := by
  simp only [List.cons_subset] at hl
  unfold offerBase
  dsimp only
  (repeat' split) <;> simp (maxDischargeDepth := 9) [h, hl]

@[simp] theorem writes_endAnswer (h : Writes ps r s) (hl : [.active] ⊆ ps) : Writes ps r (endAnswer s) := by
  simp only [List.cons_subset] at hl
  unfold endAnswer
  simp [h, hl]

@[simp] theorem writes_answerOffer (a : ActiveAnswer) (h : Writes ps r s) (hl : Part.offered ⊆ ps) : Writes ps r (answerOffer a s) := by
  simp only [List.cons_subset] at hl
  unfold answerOffer
  extract_lets reply
  split
  · rename_i b _
    have ho := writes_offerBase ⟨.programmeItem, 255, itemPayload (some b) (some (reply false 0)), [], true⟩ h (by simp [hl])
    split <;> simp_all
  · have ho := writes_offerBase ⟨.programmeItem, 255, itemPayload none (some (reply true (highWaterOf a.entry.publisher s))), [], true⟩ h
      (by simp [hl])
    split <;> simp_all

@[simp] theorem writes_answerReported (f : TxFrame) (h : Writes ps r s) (hl : Part.offered ⊆ ps) : Writes ps r (answerReported f s) := by
  simp only [List.cons_subset] at hl
  unfold answerReported
  (repeat' split) <;> simp (maxDischargeDepth := 9) [h, hl]

@[simp] theorem writes_offer (o : Offer) (h : Writes ps r s) (hl : Part.offered ⊆ ps) : Writes ps r ((offer o s).1) := by
  have ho := writes_offerBase o h (by simp at hl; simp [hl])
  simp only [List.cons_subset] at hl
  unfold offer
  split <;> simp_all

@[simp] theorem writes_offer_ (o : Offer) (h : Writes ps r s) (hl : Part.offered ⊆ ps) : Writes ps r (offer' o s) := writes_offer o h hl

@[simp] theorem writes_settleAnswers (h : Writes ps r s) (hl : [.answers, .active, .free] ⊆ ps) : Writes ps r (settleAnswers s) := by
  simp only [List.cons_subset] at hl
  unfold settleAnswers
  (repeat' split) <;> simp (maxDischargeDepth := 9) [h, hl]

@[simp] theorem writes_recompose (before : Shown) (replaced : Option (Nat × Nat)) (h : Writes ps r s) (hl : [.store, .flags] ⊆ ps) :
    Writes ps r (recompose before replaced s) := by
  simp only [List.cons_subset] at hl
  unfold recompose
  simp [h, hl]

@[simp] theorem writes_armComparator (h : Writes ps r s) (hl : [.store] ⊆ ps) : Writes ps r (armComparator s) := by
  simp only [List.cons_subset] at hl
  unfold armComparator
  simp [h, hl]

@[simp] theorem writes_changeTable (table : List Entry) (h : Writes ps r s) (hl : [.store] ⊆ ps) : Writes ps r (changeTable table s) := by
  simp only [List.cons_subset] at hl
  unfold changeTable
  simp [h, hl]

@[simp] theorem writes_takeMatch (before : Shown) (h : Writes ps r s) (hl : [.store, .flags] ⊆ ps) : Writes ps r (takeMatch before s) := by
  simp only [List.cons_subset] at hl
  unfold takeMatch
  dsimp only
  (repeat' split) <;> simp (maxDischargeDepth := 9) [h, hl]

@[simp] theorem writes_reloadComparator (before : Shown) (h : Writes ps r s) (hl : [.store, .flags] ⊆ ps) :
    Writes ps r (reloadComparator before s) := by
  simp only [List.cons_subset] at hl
  unfold reloadComparator
  dsimp only
  (repeat' split) <;> simp (maxDischargeDepth := 9) [h, hl]

@[simp] theorem writes_commitTable (table : List Entry) (replaced : Option (Nat × Nat)) (h : Writes ps r s) (hl : [.store, .flags] ⊆ ps) :
    Writes ps r (commitTable table replaced s) := by
  simp only [List.cons_subset] at hl
  unfold commitTable
  simp (maxDischargeDepth := 9) [h, hl]

@[simp] theorem writes_stepRephase (h : Writes ps r s) (hl : [.store, .flags] ⊆ ps) : Writes ps r (stepRephase s) := by
  simp only [List.cons_subset] at hl
  unfold stepRephase
  dsimp only
  (repeat' split) <;> simp (maxDischargeDepth := 9) [h, hl]

@[simp] theorem writes_ensureRecord (p : Nat) (h : Writes ps r s) (hl : [.records] ⊆ ps) : Writes ps r (ensureRecord p s) := by
  simp only [List.cons_subset] at hl
  unfold ensureRecord
  split <;> simp [h, hl]

@[simp] theorem writes_modRecord (p : Nat) (f : PubRecord → PubRecord) (h : Writes ps r s) (hl : [.records] ⊆ ps) :
    Writes ps r (modRecord p f s) := by
  simp only [List.cons_subset] at hl
  unfold modRecord
  simp [h, hl]

@[simp] theorem writes_raiseHighWater (p revision : Nat) (h : Writes ps r s) (hl : [.records] ⊆ ps) : Writes ps r (raiseHighWater p revision s) := by
  simp only [List.cons_subset] at hl
  unfold raiseHighWater
  simp [h, hl]

@[simp] theorem writes_countOutcome (o : StoreOutcome) (h : Writes ps r s) (hl : [.counters] ⊆ ps) : Writes ps r (countOutcome o s) := by
  simp only [List.cons_subset] at hl
  unfold countOutcome
  split <;> simp [h, hl]

@[simp] theorem writes_applyHeld (b : ItemBody) (e : Entry) (h : Writes ps r s) (hl : [.store, .flags, .counters] ⊆ ps) :
    Writes ps r ((applyHeld b e s).1) := by
  simp only [List.cons_subset] at hl
  unfold applyHeld
  split <;> simp [h, hl]

@[simp] theorem writes_applyNew (b : ItemBody) (h : Writes ps r s) (hl : [.store, .flags, .counters] ⊆ ps) : Writes ps r ((applyNew b s).1) := by
  simp only [List.cons_subset] at hl
  unfold applyNew
  (repeat' split) <;> simp (maxDischargeDepth := 9) [h, hl]

@[simp] theorem writes_applyBody (b : ItemBody) (h : Writes ps r s) (hl : [.store, .records, .flags, .counters] ⊆ ps) :
    Writes ps r ((applyBody b s).1) := by
  simp only [List.cons_subset] at hl
  unfold applyBody
  dsimp only
  (repeat' split) <;> simp (maxDischargeDepth := 9) [h, hl]

@[simp] theorem writes_offerSummary (h : Writes ps r s) (hl : Part.offered ⊆ ps) : Writes ps r (offerSummary s) := by
  simp only [List.cons_subset] at hl
  unfold offerSummary
  simp [h, hl]

@[simp] theorem writes_startSummaryTimer (h : Writes ps r s) (hl : [.summaryTimer, .free] ⊆ ps) : Writes ps r (startSummaryTimer s) := by
  simp only [List.cons_subset] at hl
  unfold startSummaryTimer
  simp [h, hl]

@[simp] theorem writes_promptSummary (h : Writes ps r s) (hl : [.early, .free] ⊆ ps) : Writes ps r (promptSummary s) := by
  simp only [List.cons_subset] at hl
  unfold promptSummary
  split <;> simp [h, hl]

@[simp] theorem writes_dropSequence (p : Nat) (seq : Octet) (h : Writes ps r s) (hl : [.records] ⊆ ps) : Writes ps r (dropSequence p seq s) := by
  simp only [List.cons_subset] at hl
  unfold dropSequence
  simp [h, hl]

@[simp] theorem writes_markWaiting (p : Nat) (seq : Option Octet) (h : Writes ps r s) (hl : [.records] ⊆ ps) : Writes ps r (markWaiting p seq s) := by
  simp only [List.cons_subset] at hl
  unfold markWaiting
  simp [h, hl]

@[simp] theorem writes_startCatchUp (p after : Nat) (h : Writes ps r s) (hl : Part.offered ++ [.records] ⊆ ps) :
    Writes ps r (startCatchUp p after s) := by
  simp only [List.append_subset, List.cons_subset] at hl
  have ho := writes_offer ⟨.itemRequest, 255, o8 p :: le16 after, [], false⟩ h (by simp [hl])
  unfold startCatchUp
  split <;> simp_all

@[simp] theorem writes_catchUpIfIdle (p after : Nat) (h : Writes ps r s) (hl : Part.offered ++ [.records] ⊆ ps) :
    Writes ps r (catchUpIfIdle p after s) := by
  simp only [List.append_subset, List.cons_subset] at hl
  unfold catchUpIfIdle
  (repeat' split) <;> simp (maxDischargeDepth := 9) [h, hl]

@[simp] theorem writes_raiseSettled (p revision : Nat) (h : Writes ps r s) (hl : [.records] ⊆ ps) : Writes ps r (raiseSettled p revision s) := by
  simp only [List.cons_subset] at hl
  unfold raiseSettled
  simp [h, hl]

@[simp] theorem writes_directItem (p x : Nat) (h : Writes ps r s) (hl : Part.offered ++ [.records] ⊆ ps) : Writes ps r (directItem p x s) := by
  simp only [List.append_subset, List.cons_subset] at hl
  unfold directItem
  (repeat' split) <;> simp (maxDischargeDepth := 9) [h, hl]

@[simp] theorem writes_matchAnswer (reply : ReplyPart) (h : Writes ps r s) (hl : [.records] ⊆ ps) : Writes ps r (matchAnswer reply s) := by
  simp only [List.cons_subset] at hl
  unfold matchAnswer
  (repeat' split) <;> simp (maxDischargeDepth := 9) [h, hl]

@[simp] theorem writes_countSuppressed (h : Writes ps r s) (hl : [.counters] ⊆ ps) : Writes ps r (countSuppressed s) := by
  simp only [List.cons_subset] at hl
  unfold countSuppressed
  simp [h, hl]

@[simp] theorem writes_suppressAnswer (reply : ReplyPart) (h : Writes ps r s) (hl : [.answers, .active, .counters] ⊆ ps) :
    Writes ps r (suppressAnswer reply s) := by
  simp only [List.cons_subset] at hl
  unfold suppressAnswer
  dsimp only
  (repeat' split) <;> simp (maxDischargeDepth := 9) [h, hl]

@[simp] theorem writes_finishItem (body : Option (ItemBody × StoreOutcome)) (reply : Option ReplyPart) (h : Writes ps r s) (hl : Part.offered ++ [.records, .answers, .counters] ⊆ ps) :
    Writes ps r (finishItem body reply s) := by
  simp only [List.append_subset, List.cons_subset] at hl
  unfold finishItem
  (repeat' split) <;> simp (maxDischargeDepth := 9) [h, hl]

@[simp] theorem writes_takeItem (payload : List Octet) (h : Writes ps r s) (hl : Part.offered ++ [.store, .records, .answers, .flags, .counters] ⊆ ps) :
    Writes ps r (takeItem payload s) := by
  simp only [List.append_subset, List.cons_subset] at hl
  unfold takeItem
  dsimp only
  (repeat' split) <;> simp (maxDischargeDepth := 9) [h, hl]

@[simp] theorem writes_takePair (pair : Nat × Nat) (h : Writes ps r s) (hl : Part.offered ++ [.records] ⊆ ps) : Writes ps r (takePair s pair) := by
  simp only [List.append_subset, List.cons_subset] at hl
  unfold takePair
  dsimp only
  (repeat' split) <;> simp (maxDischargeDepth := 9) [h, hl]

@[simp] theorem writes_takeSummary (payload : List Octet) (h : Writes ps r s) (hl : Part.offered ++ [.records, .early] ⊆ ps) :
    Writes ps r (takeSummary payload s) := by
  simp only [List.append_subset, List.cons_subset] at hl
  unfold takeSummary
  dsimp only
  split
  · exact writes_foldl _ (fun p hu => writes_takePair p hu (by simp [hl])) _ (by simp [h, hl])
  · simp [h, hl]

@[simp] theorem writes_takeRequest (f : RxFrame) (h : Writes ps r s) (hl : [.answers] ⊆ ps) : Writes ps r (takeRequest f s) := by
  simp only [List.cons_subset] at hl
  unfold takeRequest
  dsimp only
  (repeat' split) <;> simp (maxDischargeDepth := 9) [h, hl]

@[simp] theorem writes_requestExpired (x : PubRecord) (h : Writes ps r s) (hl : Part.offered ++ [.records, .flags] ⊆ ps) :
    Writes ps r (requestExpired x s) := by
  simp only [List.append_subset, List.cons_subset] at hl
  unfold requestExpired
  (repeat' split) <;> simp (maxDischargeDepth := 9) [h, hl]

@[simp] theorem writes_publishBody (b : ItemBody) (h : Writes ps r s) (hl : Part.offered ++ [.store, .records, .flags, .counters] ⊆ ps) :
    Writes ps r ((publishBody b s).1) := by
  simp only [List.append_subset, List.cons_subset] at hl
  unfold publishBody
  simp (maxDischargeDepth := 9) [h, hl]

@[simp] theorem writes_doPublish (args : List Octet) (h : Writes ps r s) (hl : Part.offered ++ [.store, .records, .flags, .counters] ⊆ ps) :
    Writes ps r ((doPublish args s).1) := by
  simp only [List.append_subset, List.cons_subset] at hl
  unfold doPublish
  (repeat' split) <;> simp (maxDischargeDepth := 9) [h, hl]

@[simp] theorem writes_doWithdraw (args : List Octet) (h : Writes ps r s) (hl : Part.offered ++ [.store, .records, .flags, .counters] ⊆ ps) :
    Writes ps r ((doWithdraw args s).1) := by
  simp only [List.append_subset, List.cons_subset] at hl
  unfold doWithdraw
  (repeat' split) <;> simp (maxDischargeDepth := 9) [h, hl]

@[simp] theorem writes_idleRecords (h : Writes ps r s) (hl : [.records] ⊆ ps) : Writes ps r (idleRecords s) := by
  simp only [List.cons_subset] at hl
  unfold idleRecords
  simp [h, hl]

@[simp] theorem writes_dropAnswer (h : Writes ps r s) (hl : [.active, .queue, .buffer] ⊆ ps) : Writes ps r (dropAnswer s) := by
  simp only [List.cons_subset] at hl
  unfold dropAnswer
  simp [h, hl]

@[simp] theorem writes_stopExchange (h : Writes ps r s) (hl : [.records, .summaryTimer, .early, .answers, .active, .queue, .buffer] ⊆ ps) :
    Writes ps r (stopExchange s) := by
  simp only [List.cons_subset] at hl
  unfold stopExchange
  simp (maxDischargeDepth := 9) [h, hl]

@[simp] theorem writes_exchangeLevel (old new : Level) (h : Writes ps r s) (hl : Part.offered ++ [.records, .summaryTimer, .early, .answers] ⊆ ps) :
    Writes ps r (exchangeLevel old new s) := by
  simp only [List.append_subset, List.cons_subset] at hl
  unfold exchangeLevel
  (repeat' split) <;> simp (maxDischargeDepth := 9) [h, hl]

@[simp] theorem writes_stepTime (t : ShipTime) (h : Writes ps r s) (hl : [.isSet, .ship, .store, .flags] ⊆ ps) : Writes ps r (stepTime t s) := by
  simp only [List.cons_subset] at hl
  unfold stepTime
  simp (maxDischargeDepth := 9) [h, hl]

@[simp] theorem writes_adjustTime (t : ShipTime) (h : Writes ps r s) (hl : [.ship, .store, .flags] ⊆ ps) : Writes ps r (adjustTime t s) := by
  simp only [List.cons_subset] at hl
  unfold adjustTime
  dsimp only
  (repeat' split) <;> simp (maxDischargeDepth := 9) [h, hl]

@[simp] theorem writes_offerMark (h : Writes ps r s) (hl : Part.offered ⊆ ps) : Writes ps r (offerMark s) := by
  simp only [List.cons_subset] at hl
  unfold offerMark
  simp [h, hl]

@[simp] theorem writes_sendMark (h : Writes ps r s) (hl : Part.offered ++ [.markTimer] ⊆ ps) : Writes ps r (sendMark s) := by
  simp only [List.append_subset, List.cons_subset] at hl
  unfold sendMark
  simp [h, hl]

@[simp] theorem writes_settleMarks (h : Writes ps r s) (hl : Part.offered ++ [.markTimer] ⊆ ps) : Writes ps r (settleMarks s) := by
  simp only [List.append_subset, List.cons_subset] at hl
  unfold settleMarks
  (repeat' split) <;> simp (maxDischargeDepth := 9) [h, hl]

@[simp] theorem writes_applyMark (m : Mark) (newMs : Nat) (h : Writes ps r s) (hl : [.isSet, .ship, .shift, .store, .flags] ⊆ ps) :
    Writes ps r (applyMark m newMs s) := by
  simp only [List.cons_subset] at hl
  unfold applyMark
  split <;> simp [h, hl]

@[simp] theorem writes_acceptMark (m : Mark) (station : Nat) (capture : Tick) (h : Writes ps r s) (hl : Part.offered ++ [.isSet, .ship, .sources, .shift, .markTimer, .store, .flags] ⊆ ps) :
    Writes ps r (acceptMark m station capture s) := by
  simp only [List.append_subset, List.cons_subset] at hl
  unfold acceptMark
  dsimp only
  (repeat' split) <;> simp (maxDischargeDepth := 9) [h, hl]

@[simp] theorem writes_takeSetTime (t : ShipTime) (shift : Int) (h : Writes ps r s) (hl : Part.offered ++ [.isSet, .ship, .shift, .markTimer, .store, .flags] ⊆ ps) :
    Writes ps r (takeSetTime t shift s) := by
  simp only [List.append_subset, List.cons_subset] at hl
  unfold takeSetTime
  dsimp only
  (repeat' split) <;> simp (maxDischargeDepth := 9) [h, hl]

@[simp] theorem writes_offerSensed (h : Writes ps r s) (hl : Part.offered ⊆ ps) : Writes ps r (offerSensed s) := by
  simp only [List.cons_subset] at hl
  unfold offerSensed
  dsimp only
  (repeat' split) <;> simp (maxDischargeDepth := 9) [h, hl]

@[simp] theorem writes_offerDeclared (l : List Declared) (h : Writes ps r s) (hl : Part.offered ⊆ ps) : Writes ps r (offerDeclared l s) := by
  unfold offerDeclared
  split
  · exact h
  · exact writes_offer_ _ h hl

@[simp] theorem writes_offerSegments (h : Writes ps r s) (hl : Part.offered ⊆ ps) : Writes ps r (offerSegments s) := by
  have hsensed := writes_offerSensed h hl
  unfold offerSegments
  dsimp only
  split
  · split
    · exact writes_offerDeclared _ (writes_offerDeclared _ hsensed hl) hl
    · exact hsensed
  · exact h

@[simp] theorem writes_startAdvertTimer (l : Level) (h : Writes ps r s) (hl : [.advertTimer, .free] ⊆ ps) : Writes ps r (startAdvertTimer l s) := by
  simp only [List.cons_subset] at hl
  unfold startAdvertTimer drawn
  simp [h, hl]

@[simp] theorem writes_clearChanged (h : Writes ps r s) (hl : [.routes] ⊆ ps) : Writes ps r (clearChanged s) := by
  simp only [List.cons_subset] at hl
  unfold clearChanged
  simp [h, hl]

@[simp] theorem writes_advertAnswered (a : OfferAnswer) (h : Writes ps r s) (hl : [.routes, .trigger, .lastOffer] ⊆ ps) :
    Writes ps r (advertAnswered a s) := by
  simp only [List.cons_subset] at hl
  unfold advertAnswered
  split <;> simp [h, hl]

@[simp] theorem writes_offerAdvert (h : Writes ps r s) (hl : Part.offered ++ Part.advertised ⊆ ps) : Writes ps r (offerAdvert s) := by
  simp only [List.append_subset, List.cons_subset] at hl
  exact writes_offerSegments (writes_startAdvertTimer _ (writes_advertAnswered _ (writes_offer _ h (by simp [hl])) (by simp [hl])) (by simp [hl]))
    (by simp [hl])

@[simp] theorem writes_makeTriggerDue (h : Writes ps r s) (hl : Part.offered ++ Part.advertised ⊆ ps) : Writes ps r (makeTriggerDue s) := by
  simp only [List.append_subset, List.cons_subset] at hl
  unfold makeTriggerDue
  (repeat' split) <;> simp (maxDischargeDepth := 9) [h, hl]

@[simp] theorem writes_countUnknown (n : Nat) (h : Writes ps r s) (hl : [.counters] ⊆ ps) : Writes ps r (countUnknown n s) := by
  simp only [List.cons_subset] at hl
  induction n generalizing s with
  | zero => exact h
  | succ n ih => exact ih (by simp [h, hl])

@[simp] theorem writes_endOfChange (w : RouteWork) (h : Writes ps r s) (hl : Part.offered ++ Part.advertised ++ [.flags] ⊆ ps) :
    Writes ps r (endOfChange w s) := by
  simp only [List.append_subset, List.cons_subset] at hl
  unfold endOfChange
  split <;> simp [h, hl]

@[simp] theorem writes_putTable (w : RouteWork) (h : Writes ps r s) (hl : [.routes] ⊆ ps) : Writes ps r (putTable w s) := by
  simp only [List.cons_subset] at hl
  unfold putTable
  simp [h, hl]

@[simp] theorem writes_invalidate (lost : List Nat) (h : Writes ps r s) (hl : Part.offered ++ Part.advertised ++ [.flags] ⊆ ps) :
    Writes ps r (invalidate lost s) := by
  simp only [List.append_subset, List.cons_subset] at hl
  unfold invalidate
  simp [h, hl]

@[simp] theorem writes_settleLights (h : Writes ps r s) (hl : [.lights] ⊆ ps) : Writes ps r (settleLights s) := by
  simp only [List.cons_subset] at hl
  unfold settleLights
  simp [h, hl]

@[simp] theorem writes_hearAdvert (source : Nat) (h : Writes ps r s) (hl : [.neighbours, .flags] ⊆ ps) : Writes ps r (hearAdvert source s) := by
  simp only [List.cons_subset] at hl
  unfold hearAdvert
  simp [h, hl]

@[simp] theorem writes_promptEcho (h : Writes ps r s) (hl : [.joinEcho, .free] ⊆ ps) : Writes ps r (promptEcho s) := by
  simp only [List.cons_subset] at hl
  unfold promptEcho
  split <;> simp [h, hl]

@[simp] theorem writes_takeAdvert (source : Nat) (payload : List Octet) (h : Writes ps r s) (hl : Part.offered ++ Part.advertised ++ [.early, .neighbours, .joinEcho, .flags, .counters] ⊆ ps) :
    Writes ps r (takeAdvert source payload s) := by
  simp only [List.append_subset, List.cons_subset] at hl
  unfold takeAdvert
  dsimp only
  (repeat' split) <;> simp (maxDischargeDepth := 9) [h, hl]

@[simp] theorem writes_doQueryRoute (args : List Octet) (h : Writes ps r s) : Writes ps r ((doQueryRoute args s).1) := by
  unfold doQueryRoute
  dsimp only
  (repeat' split) <;> simp (maxDischargeDepth := 9) [h]

@[simp] theorem writes_evaluate (choose : Neighbour → Nat → Bool) (h : Writes ps r s) (hl : Part.offered ++ Part.advertised ++ [.neighbours, .flags] ⊆ ps) :
    Writes ps r (evaluate choose s) := by
  simp only [List.append_subset, List.cons_subset] at hl
  unfold evaluate
  dsimp only
  (repeat' split) <;> simp (maxDischargeDepth := 9) [h, hl]

@[simp] theorem writes_recordChanged (i : Nat) (h : Writes ps r s) (hl : Part.offered ++ Part.advertised ++ [.neighbours, .flags] ⊆ ps) :
    Writes ps r (recordChanged i s) := by
  simp only [List.append_subset, List.cons_subset] at hl
  unfold recordChanged
  simp [h, hl]

@[simp] theorem writes_loseNeighbour (i : Nat) (h : Writes ps r s) (hl : Part.offered ++ Part.advertised ++ [.neighbours, .flags] ⊆ ps) :
    Writes ps r (loseNeighbour i s) := by
  simp only [List.append_subset, List.cons_subset] at hl
  unfold loseNeighbour
  simp (maxDischargeDepth := 9) [h, hl]

@[simp] theorem writes_sensedChange (i : Nat) (h : Writes ps r s) (hl : Part.offered ++ Part.advertised ++ [.neighbours, .flags] ⊆ ps) :
    Writes ps r (sensedChange s i) := by
  simp only [List.append_subset, List.cons_subset] at hl
  unfold sensedChange
  dsimp only
  (repeat' split) <;> simp (maxDischargeDepth := 9) [h, hl]

@[simp] theorem writes_acceptLevel (line : Fin 8) (accepted : LineLevel) (h : Writes ps r s) (hl : Part.offered ++ Part.advertised ++ [.neighbours, .filters, .flags] ⊆ ps) :
    Writes ps r (acceptLevel line accepted s) := by
  simp only [List.append_subset, List.cons_subset] at hl
  exact writes_foldl _ (fun i hu => writes_sensedChange i hu (by simp [hl])) _ (by simp [h, hl])

@[simp] theorem writes_segmentAgainst (e : SegmentEntry) (c : Closure) (i : Nat) (h : Writes ps r s) (hl : Part.offered ++ Part.advertised ++ [.neighbours, .flags] ⊆ ps) :
    Writes ps r (segmentAgainst e c s i) := by
  simp only [List.append_subset, List.cons_subset] at hl
  unfold segmentAgainst
  (repeat' split) <;> simp (maxDischargeDepth := 9) [h, hl]

@[simp] theorem writes_takeSegment (e : SegmentEntry) (h : Writes ps r s) (hl : Part.offered ++ Part.advertised ++ [.neighbours, .flags] ⊆ ps) :
    Writes ps r (takeSegment s e) := by
  unfold takeSegment
  (repeat' split)
  · exact h
  · exact h
  · exact writes_foldl _ (fun i hu => writes_segmentAgainst e _ i hu hl) _ h

@[simp] theorem writes_declareTaken (segment : Nat) (blocked : Bool) (h : Writes ps r s) (hl : Part.offered ++ Part.advertised ++ [.neighbours, .declared, .flags] ⊆ ps) :
    Writes ps r (declareTaken segment blocked s) := by
  simp only [List.append_subset, List.cons_subset] at hl
  refine writes_offer_ _ (writes_foldl _ (fun i hu => writes_segmentAgainst _ _ i hu (by simp [hl])) _ (by simp [h, hl])) (by simp [hl])

@[simp] theorem writes_doDeclare (args : List Octet) (h : Writes ps r s) (hl : Part.offered ++ Part.advertised ++ [.neighbours, .declared, .flags] ⊆ ps) :
    Writes ps r ((doDeclare args s).1) := by
  simp only [List.append_subset, List.cons_subset] at hl
  unfold doDeclare
  dsimp only
  (repeat' split) <;> simp (maxDischargeDepth := 9) [h, hl]

@[simp] theorem writes_voidNotes (segment : Nat) (h : Writes ps r s) (hl : [.queue, .buffer] ⊆ ps) : Writes ps r (voidNotes segment s) := by
  simp only [List.cons_subset] at hl
  unfold voidNotes
  simp [h, hl]

@[simp] theorem writes_clearCompleted (n : ClearNote) (h : Writes ps r s) (hl : [.declared, .queue, .buffer] ⊆ ps) :
    Writes ps r (clearCompleted s n) := by
  simp only [List.cons_subset] at hl
  unfold clearCompleted
  split <;> simp [h, hl]

@[simp] theorem writes_monitorLevel (old new : Level) (h : Writes ps r s) (hl : Part.offered ++ Part.advertised ++ [.neighbours, .flags] ⊆ ps) :
    Writes ps r (monitorLevel old new s) := by
  simp only [List.append_subset, List.cons_subset] at hl
  unfold monitorLevel
  (repeat' split) <;> simp (maxDischargeDepth := 9) [h, hl]

@[simp] theorem writes_routeLevel (old new : Level) (h : Writes ps r s) (hl : [.advertTimer, .free] ⊆ ps) : Writes ps r (routeLevel old new s) := by
  unfold routeLevel
  split
  · exact writes_startAdvertTimer _ h hl
  · exact h

@[simp] theorem writes_doReadRoute (args : List Octet) (h : Writes ps r s) : Writes ps r ((doReadRoute args s).1) := h

@[simp] theorem writes_modPlate (i : Nat) (f : Plate → Plate) (h : Writes ps r s) (hl : [.plates] ⊆ ps) : Writes ps r (modPlate i f s) := by
  simp only [List.cons_subset] at hl
  unfold modPlate
  simp [h, hl]

@[simp] theorem writes_comparePlate (i : Nat) (h : Writes ps r s) (hl : [.plates, .waiting] ⊆ ps) : Writes ps r (comparePlate i s) := by
  simp only [List.cons_subset] at hl
  unfold comparePlate
  (repeat' split) <;> simp (maxDischargeDepth := 9) [h, hl]

@[simp] theorem writes_retarget (i : Nat) (h : Writes ps r s) (hl : [.plates, .waiting] ⊆ ps) : Writes ps r (retarget i s) := by
  simp only [List.cons_subset] at hl
  unfold retarget
  simp [h, hl]

@[simp] theorem writes_retargetAll (h : Writes ps r s) (hl : [.plates, .waiting] ⊆ ps) :
    Writes ps r (retargetAll s) := writes_foldl _ (fun i hu => writes_retarget i hu hl) _ h

@[simp] theorem writes_compareAll (h : Writes ps r s) (hl : [.plates, .waiting] ⊆ ps) :
    Writes ps r (compareAll s) := writes_foldl _ (fun i hu => writes_comparePlate i hu hl) _ h

@[simp] theorem writes_startOne (h : Writes ps r s) (hl : Part.refreshed ⊆ ps) : Writes ps r (startOne s) := by
  simp only [List.cons_subset] at hl
  unfold startOne
  (repeat' split) <;> simp (maxDischargeDepth := 9) [h, hl]

@[simp] theorem writes_settleRefreshes (h : Writes ps r s) (hl : Part.refreshed ⊆ ps) : Writes ps r (settleRefreshes s) := by
  simp only [List.cons_subset] at hl
  unfold settleRefreshes
  simp [h, hl]

@[simp] theorem writes_modRefresh (i : Nat) (f : Refresh → Refresh) (h : Writes ps r s) (hl : [.flight] ⊆ ps) : Writes ps r (modRefresh i f s) := by
  simp only [List.cons_subset] at hl
  unfold modRefresh
  simp [h, hl]

@[simp] theorem writes_leaveFlight (i : Nat) (h : Writes ps r s) (hl : [.flight] ⊆ ps) : Writes ps r (leaveFlight i s) := by
  simp only [List.cons_subset] at hl
  unfold leaveFlight
  simp [h, hl]

@[simp] theorem writes_completeRefresh (x : Refresh) (h : Writes ps r s) (hl : Part.refreshed ⊆ ps) : Writes ps r (completeRefresh x s) := by
  simp only [List.cons_subset] at hl
  unfold completeRefresh
  simp (maxDischargeDepth := 9) [h, hl]

@[simp] theorem writes_failRefresh (i : Nat) (h : Writes ps r s) (hl : Part.refreshed ⊆ ps) : Writes ps r (failRefresh i s) := by
  simp only [List.cons_subset] at hl
  unfold failRefresh
  simp (maxDischargeDepth := 9) [h, hl]

@[simp] theorem writes_enterDrive (i : Nat) (h : Writes ps r s) (hl : [.plates, .flight] ⊆ ps) : Writes ps r (enterDrive i s) := by
  simp only [List.cons_subset] at hl
  unfold enterDrive
  simp [h, hl]

@[simp] theorem writes_requeueFront (i : Nat) (h : Writes ps r s) (hl : Part.refreshed ⊆ ps) : Writes ps r (requeueFront i s) := by
  simp only [List.cons_subset] at hl
  unfold requeueFront
  simp (maxDischargeDepth := 9) [h, hl]

@[simp] theorem writes_cancelOne (i : Nat) (h : Writes ps r s) (hl : Part.refreshed ⊆ ps) : Writes ps r (cancelOne s i) := by
  simp only [List.cons_subset] at hl
  unfold cancelOne
  split <;> simp [h, hl]

@[simp] theorem writes_cancelLoads (h : Writes ps r s) (hl : Part.refreshed ⊆ ps) :
    Writes ps r (cancelLoads s) := writes_foldl _ (fun i hu => writes_cancelOne i hu hl) _ h

@[simp] theorem writes_loadOutcome (i : Nat) (ok : Bool) (h : Writes ps r s) (hl : Part.refreshed ⊆ ps) : Writes ps r (loadOutcome i ok s) := by
  simp only [List.cons_subset] at hl
  unfold loadOutcome
  (repeat' split) <;> simp (maxDischargeDepth := 9) [h, hl]

@[simp] theorem writes_driveReading (i : Nat) (d : DriveStatus) (h : Writes ps r s) (hl : Part.refreshed ⊆ ps) :
    Writes ps r (driveReading i d s) := by
  simp only [List.cons_subset] at hl
  unfold driveReading
  (repeat' split) <;> simp (maxDischargeDepth := 9) [h, hl]

@[simp] theorem writes_lossRefresh (i : Nat) (h : Writes ps r s) (hl : Part.refreshed ⊆ ps) : Writes ps r (lossRefresh i s) := by
  simp only [List.cons_subset] at hl
  unfold lossRefresh
  split <;> simp [h, hl]

@[simp] theorem writes_shortPressRefresh (i : Nat) (h : Writes ps r s) (hl : Part.refreshed ⊆ ps) : Writes ps r (shortPressRefresh i s) := by
  simp only [List.cons_subset] at hl
  unfold shortPressRefresh
  simp (maxDischargeDepth := 9) [h, hl]

@[simp] theorem writes_reportPlate (i : Nat) (h : Writes ps r s) (hl : [.pendingReports, .builderWaits] ⊆ ps) : Writes ps r (reportPlate i s) := by
  simp only [List.cons_subset] at hl
  unfold reportPlate
  split <;> simp [h, hl]

@[simp] theorem writes_reportAtMuster (i : Nat) (h : Writes ps r s) (hl : [.pendingReports, .builderWaits] ⊆ ps) :
    Writes ps r (reportAtMuster i s) := by
  simp only [List.cons_subset] at hl
  unfold reportAtMuster
  split <;> simp [h, hl]

@[simp] theorem writes_buildReport (h : Writes ps r s) (hl : Part.offered ++ [.pendingReports, .outstanding, .builderWaits] ⊆ ps) :
    Writes ps r (buildReport s) := by
  simp only [List.append_subset, List.cons_subset] at hl
  have ho := writes_offer ⟨.cabinReport, 128, cabinPayload (s.muster.pendingReports.take 6), [], false⟩
    (writes_modMuster (ps := ps) (r := r) (fun m => { m with pendingReports := m.pendingReports.drop 6 }) h rfl
      (.inl rfl) (.inl rfl) (.inl rfl) (.inr hl.2.1) (.inl rfl) (.inl rfl) (.inl rfl) (.inl rfl)) (by simp [hl])
  unfold buildReport
  dsimp only
  split <;> simp_all

@[simp] theorem writes_settleReports (h : Writes ps r s) (hl : Part.offered ++ [.pendingReports, .outstanding, .builderWaits] ⊆ ps) :
    Writes ps r (settleReports s) := by
  simp only [List.append_subset, List.cons_subset] at hl
  unfold settleReports
  split <;> simp [h, hl]

@[simp] theorem writes_sweepByPress (i : Nat) (swept : Bool) (h : Writes ps r s) (hl : [.pendingReports, .builderWaits, .plates, .waiting, .flags] ⊆ ps) :
    Writes ps r (sweepByPress i swept s) := by
  simp only [List.cons_subset] at hl
  unfold sweepByPress
  simp (maxDischargeDepth := 9) [h, hl]

@[simp] theorem writes_startTransaction (position : Nat) (op : ChainOp) (h : Writes ps r s) (hl : [.engine] ⊆ ps) :
    Writes ps r (startTransaction position op s) := by
  simp only [List.cons_subset] at hl
  unfold startTransaction
  simp [h, hl]

@[simp] theorem writes_startPoll (position : Nat) (h : Writes ps r s) (hl : [.engine, .plates] ⊆ ps) : Writes ps r (startPoll position s) := by
  simp only [List.cons_subset] at hl
  unfold startPoll
  simp [h, hl]

@[simp] theorem writes_arbitrate (h : Writes ps r s) (hl : [.engine, .plates] ⊆ ps) : Writes ps r (arbitrate s) := by
  simp only [List.cons_subset] at hl
  unfold arbitrate
  (repeat' split) <;> simp (maxDischargeDepth := 9) [h, hl]

@[simp] theorem writes_settle (h : Writes ps r s) (hl : Part.offered ++ Part.refreshed ++ [.answers, .lights, .pendingReports, .outstanding, .builderWaits, .engine, .line] ⊆ ps) :
    Writes ps r (settle s) := by
  simp only [List.append_subset, List.cons_subset] at hl
  unfold settle
  simp (maxDischargeDepth := 9) [h, hl]

@[simp] theorem writes_losePlate (i : Nat) (h : Writes ps r s) (hl : Part.refreshed ++ [.pendingReports, .builderWaits, .flags] ⊆ ps) :
    Writes ps r (losePlate i s) := by
  simp only [List.append_subset, List.cons_subset] at hl
  unfold losePlate
  simp (maxDischargeDepth := 9) [h, hl]

@[simp] theorem writes_healthFailed (i : Nat) (h : Writes ps r s) (hl : Part.refreshed ++ [.pendingReports, .builderWaits, .flags] ⊆ ps) :
    Writes ps r (healthFailed i s) := by
  simp only [List.append_subset, List.cons_subset] at hl
  unfold healthFailed
  (repeat' split) <;> simp (maxDischargeDepth := 9) [h, hl]

@[simp] theorem writes_healthComplete (i : Nat) (h : Writes ps r s) (hl : [.pendingReports, .builderWaits, .plates, .flags] ⊆ ps) :
    Writes ps r (healthComplete i s) := by
  simp only [List.cons_subset] at hl
  unfold healthComplete
  (repeat' split) <;> simp (maxDischargeDepth := 9) [h, hl]

@[simp] theorem writes_pressAtMuster (i : Nat) (swept : Bool) (h : Writes ps r s) (hl : [.pendingReports, .builderWaits, .plates, .waiting, .flags] ⊆ ps) :
    Writes ps r (pressAtMuster i swept s) := by
  simp only [List.cons_subset] at hl
  unfold pressAtMuster
  (repeat' split) <;> simp (maxDischargeDepth := 9) [h, hl]

@[simp] theorem writes_pressReport (i : Nat) (t : PressTaken) (h : Writes ps r s) (hl : Part.refreshed ++ [.pendingReports, .builderWaits, .flags, .counters] ⊆ ps) :
    Writes ps r (pressReport i t s) := by
  simp only [List.append_subset, List.cons_subset] at hl
  unfold pressReport
  (repeat' split) <;> simp (maxDischargeDepth := 9) [h, hl]

@[simp] theorem writes_takeButton (i : Nat) (held : Bool) (h : Writes ps r s) (hl : Part.refreshed ++ [.pendingReports, .builderWaits, .flags, .counters] ⊆ ps) :
    Writes ps r (takeButton i held s) := by
  simp only [List.append_subset, List.cons_subset] at hl
  unfold takeButton
  split <;> simp [h, hl]

@[simp] theorem writes_takeSwitches (i : Nat) (dnd mur : Bool) (h : Writes ps r s) (hl : [.pendingReports, .builderWaits, .plates, .waiting] ⊆ ps) :
    Writes ps r (takeSwitches i dnd mur s) := by
  simp only [List.cons_subset] at hl
  unfold takeSwitches
  (repeat' split) <;> simp (maxDischargeDepth := 9) [h, hl]

@[simp] theorem writes_takeDrive (i : Nat) (d : DriveStatus) (h : Writes ps r s) (hl : Part.refreshed ⊆ ps) : Writes ps r (takeDrive i d s) := by
  simp only [List.cons_subset] at hl
  unfold takeDrive
  simp [h, hl]

@[simp] theorem writes_takeReadings (i : Nat) (x : Readings) (h : Writes ps r s) (hl : Part.refreshed ++ [.pendingReports, .builderWaits, .flags, .counters] ⊆ ps) :
    Writes ps r (takeReadings i x s) := by
  simp only [List.append_subset, List.cons_subset] at hl
  unfold takeReadings
  simp (maxDischargeDepth := 9) [h, hl]

@[simp] theorem writes_nextPoll (t : Transaction) (h : Writes ps r s) (hl : [.plates] ⊆ ps) : Writes ps r (nextPoll t s) := by
  simp only [List.cons_subset] at hl
  unfold nextPoll
  simp [h, hl]

@[simp] theorem writes_engineIdle (h : Writes ps r s) (hl : [.engine] ⊆ ps) : Writes ps r (engineIdle s) := by
  simp only [List.cons_subset] at hl
  unfold engineIdle
  simp [h, hl]

@[simp] theorem writes_transactionFailed (t : Transaction) (h : Writes ps r s) (hl : Part.refreshed ++ [.pendingReports, .builderWaits, .flags] ⊆ ps) :
    Writes ps r (transactionFailed t s) := by
  simp only [List.append_subset, List.cons_subset] at hl
  unfold transactionFailed
  split <;> simp [h, hl]

@[simp] theorem writes_transactionEnded (t : Transaction) (reply : List Octet) (h : Writes ps r s) (hl : Part.refreshed ++ [.pendingReports, .builderWaits, .flags, .counters] ⊆ ps) :
    Writes ps r (transactionEnded t reply s) := by
  simp only [List.append_subset, List.cons_subset] at hl
  unfold transactionEnded
  (repeat' split) <;> simp (maxDischargeDepth := 9) [h, hl]

@[simp] theorem writes_loseAll (h : Writes ps r s) (hl : Part.refreshed ++ [.pendingReports, .builderWaits, .flags] ⊆ ps) :
    Writes ps r (loseAll s) := writes_foldl _ (fun i hu => writes_losePlate i hu hl) _ h

@[simp] theorem writes_outOfService (x : ChainResult) (h : Writes ps r s) (hl : Part.refreshed ++ [.pendingReports, .builderWaits, .service, .flags] ⊆ ps) :
    Writes ps r (outOfService x s) := by
  simp only [List.append_subset, List.cons_subset] at hl
  have hserved : Writes ps r (s.modChain fun c => { c with service := .outOfService, lastResult := x }) := by simp [h, hl]
  exact writes_loseAll (writes_setEvent _ (writes_modSched _ hserved (.inr hl.1.1) (.inl rfl) (.inl rfl)) (by simp [hl]) (.inl nofun)) (by simp [hl])

@[simp] theorem writes_testPassed (h : Writes ps r s) (hl : [.service, .plates] ⊆ ps) : Writes ps r (testPassed s) := by
  simp only [List.cons_subset] at hl
  have hserved : Writes ps r (s.modChain fun c => { c with service := .inService, lastResult := .ok }) := by simp [h, hl]
  unfold testPassed
  dsimp only
  split
  · exact writes_modSched _ hserved (.inr hl.2.1) (.inl rfl) (.inl rfl)
  · exact hserved

@[simp] theorem writes_applyResult (x : ChainResult) (h : Writes ps r s) (hl : Part.refreshed ++ [.pendingReports, .builderWaits, .service, .flags] ⊆ ps) :
    Writes ps r (applyResult x s) := by
  simp only [List.append_subset, List.cons_subset] at hl
  unfold applyResult
  split <;> simp [h, hl]

@[simp] theorem writes_resetPulse (h : Writes ps r s) (hl : [.pulse] ⊆ ps) : Writes ps r (resetPulse s) := by
  simp only [List.cons_subset] at hl
  unfold resetPulse
  simp [h, hl]

@[simp] theorem writes_requestTest (h : Writes ps r s) (hl : Part.refreshed ++ [.testPending] ⊆ ps) : Writes ps r (requestTest s) := by
  simp only [List.append_subset, List.cons_subset] at hl
  unfold requestTest
  simp [h, hl]

@[simp] theorem writes_doReadPlate (args : List Octet) (h : Writes ps r s) : Writes ps r ((doReadPlate args s).1) := h

@[simp] theorem writes_purgeProgramme (h : Writes ps r s) (hl : [.queue, .buffer, .free] ⊆ ps) : Writes ps r (purgeProgramme s) := by
  simp only [List.cons_subset] at hl
  unfold purgeProgramme
  simp [h, hl]

@[simp] theorem writes_resetSweeps (h : Writes ps r s) (hl : [.plates] ⊆ ps) : Writes ps r (resetSweeps s) := by
  simp only [List.cons_subset] at hl
  unfold resetSweeps
  simp [h, hl]

@[simp] theorem writes_clearRoll (h : Writes ps r s) (hl : [.roll, .flags] ⊆ ps) : Writes ps r (clearRoll s) := by
  simp only [List.cons_subset] at hl
  unfold clearRoll
  split <;> simp [h, hl]

@[simp] theorem writes_startSweepRefresh (h : Writes ps r s) (hl : [.sweepRefresh] ⊆ ps) : Writes ps r (startSweepRefresh s) := by
  simp only [List.cons_subset] at hl
  unfold startSweepRefresh
  split <;> simp [h, hl]

@[simp] theorem writes_ownLevelWork (old new : Level) (h : Writes ps r s) (hl : [.pendingReports, .sweepRefresh, .roll, .plates, .flags] ⊆ ps) :
    Writes ps r (ownLevelWork old new s) := by
  simp only [List.cons_subset] at hl
  unfold ownLevelWork
  (repeat' split) <;> simp (maxDischargeDepth := 9) [h, hl]

@[simp] theorem writes_changeLevel (old new : Level) (h : Writes ps r s) (hl : Part.offered ++ Part.advertised ++ Part.refreshed ++ [.records, .summaryTimer, .early, .answers, .neighbours, .pendingReports, .sweepRefresh, .roll, .flags] ⊆ ps) :
    Writes ps r (changeLevel old new s) := by
  simp only [List.append_subset, List.cons_subset] at hl
  unfold changeLevel
  split <;> simp (maxDischargeDepth := 9) [h, hl]

@[simp] theorem writes_restartEcho (h : Writes ps r s) (hl : [.echoTimer] ⊆ ps) : Writes ps r (restartEcho s) := by
  simp only [List.cons_subset] at hl
  unfold restartEcho
  split <;> simp [h, hl]

@[simp] theorem writes_offerOrder (o : Order) (echo : Bool) (h : Writes ps r s) (hl : Part.offered ⊆ ps) : Writes ps r (offerOrder o echo s) := by
  simp only [List.cons_subset] at hl
  unfold offerOrder
  simp [h, hl]

@[simp] theorem writes_offerEcho (h : Writes ps r s) (hl : Part.offered ⊆ ps) : Writes ps r (offerEcho s) := by
  simp only [List.cons_subset] at hl
  unfold offerEcho
  simp [h, hl]

@[simp] theorem writes_recordEffects (old new : OrderRecord) (h : Writes ps r s) (hl : Part.offered ++ Part.advertised ++ Part.refreshed ++ [.records, .summaryTimer, .early, .answers, .neighbours, .echoTimer, .pendingReports, .sweepRefresh, .roll, .flags] ⊆ ps) :
    Writes ps r (recordEffects old new s) := by
  simp only [List.append_subset, List.cons_subset] at hl
  unfold recordEffects
  (repeat' split) <;> simp (maxDischargeDepth := 9) [h, hl]

@[simp] theorem writes_countConflict (h : Writes ps r s) (hl : [.flags, .counters] ⊆ ps) : Writes ps r (countConflict s) := by
  simp only [List.cons_subset] at hl
  unfold countConflict
  simp [h, hl]

@[simp] theorem writes_refuseOrder (h : Writes ps r s) (hl : [.flags, .counters] ⊆ ps) : Writes ps r (refuseOrder s) := by
  simp only [List.cons_subset] at hl
  unfold refuseOrder
  simp [h, hl]

@[simp] theorem writes_cancelPrompted (payload : List Octet) (h : Writes ps r s) (hl : [.joinEcho] ⊆ ps) :
    Writes ps r (cancelPrompted payload s) := by
  simp only [List.cons_subset] at hl
  unfold cancelPrompted
  split <;> simp [h, hl]

@[simp] theorem writes_reportAll (h : Writes ps r s) (hl : [.pendingReports, .builderWaits] ⊆ ps) :
    Writes ps r (reportAll s) := writes_foldl _ (fun i hu => writes_reportPlate i hu hl) _ h

@[simp] theorem writes_updateRoll (e q : RollEntry) (h : Writes ps r s) (hl : [.roll, .flags] ⊆ ps) : Writes ps r (updateRoll e q s) := by
  simp only [List.cons_subset] at hl
  unfold updateRoll
  simp [h, hl]

@[simp] theorem writes_putRoll (e : RollEntry) (h : Writes ps r s) (hl : [.roll, .flags, .counters] ⊆ ps) : Writes ps r (putRoll e s) := by
  simp only [List.cons_subset] at hl
  unfold putRoll
  (repeat' split) <;> simp (maxDischargeDepth := 9) [h, hl]

@[simp] theorem writes_takeCabin (station : Nat) (c : CabinRecord) (h : Writes ps r s) (hl : [.roll, .flags, .counters] ⊆ ps) :
    Writes ps r (takeCabin station s c) := by
  simp only [List.cons_subset] at hl
  unfold takeCabin
  (repeat' split) <;> simp (maxDischargeDepth := 9) [h, hl]

@[simp] theorem writes_takeCabins (station : Nat) (payload : List Octet) (h : Writes ps r s) (hl : [.roll, .flags, .counters] ⊆ ps) :
    Writes ps r (takeCabins station payload s) := by
  unfold takeCabins
  (repeat' split)
  · exact writes_foldl _ (fun c hu => writes_takeCabin station c hu hl) _ h
  · exact h
  · exact h

@[simp] theorem writes_doReadRoll (args : List Octet) (h : Writes ps r s) : Writes ps r ((doReadRoll args s).1) := h

@[simp] theorem writes_holdTransmit (begun : Nat) (h : Writes ps r s) (hl : [.buffer] ⊆ ps) : Writes ps r (holdTransmit begun s) := by
  simp only [List.cons_subset] at hl
  unfold holdTransmit
  simp [h, hl]

@[simp] theorem writes_setPhase (p : TxPhase) (h : Writes ps r s) (hl : [.buffer] ⊆ ps) : Writes ps r (setPhase p s) := by
  simp only [List.cons_subset] at hl
  unfold setPhase
  simp [h, hl]

@[simp] theorem writes_enterWaiting (h : Writes ps r s) (hl : [.buffer, .free] ⊆ ps) : Writes ps r (enterWaiting s) := by
  simp only [List.cons_subset] at hl
  unfold enterWaiting
  simp [h, hl]

@[simp] theorem writes_releaseTransmit (h : Writes ps r s) (hl : [.queue, .buffer, .free] ⊆ ps) : Writes ps r (releaseTransmit s) := by
  simp only [List.cons_subset] at hl
  unfold releaseTransmit
  (repeat' split) <;> simp (maxDischargeDepth := 9) [h, hl]

@[simp] theorem writes_supplyReformed (before : SupplyState) (begun : Nat) (h : Writes ps r s) (hl : Part.refreshed ++ [.queue, .buffer, .flags, .free] ⊆ ps) :
    Writes ps r (supplyReformed before begun s) := by
  simp only [List.append_subset, List.cons_subset] at hl
  unfold supplyReformed
  dsimp only
  (repeat' split) <;> simp (maxDischargeDepth := 9) [h, hl]

@[simp] theorem writes_startPresence (h : Writes ps r s) (hl : [.neighbours] ⊆ ps) : Writes ps r (startPresence s) := by
  simp only [List.cons_subset] at hl
  unfold startPresence
  simp [h, hl]

@[simp] theorem writes_stopTimers (h : Writes ps r s) (hl : [.neighbours, .advertTimer, .trigger, .echoTimer, .joinEcho, .sweepRefresh] ⊆ ps) :
    Writes ps r (stopTimers s) := by
  simp only [List.cons_subset] at hl
  obtain ⟨hneighbours, hadvert, htrigger, hecho, hjoin, hsweep, -⟩ := hl
  have hmon := writes_modMon (fun m => { m with neighbours := m.neighbours.map fun n => { n with presenceTimer := none } }) h
    (.inr hneighbours) (.inl rfl) (.inl rfl)
  have hroute := writes_modRoute (fun r => { r with advertTimer := none, trigger := none }) hmon
    (.inl rfl) (.inr hadvert) (.inr htrigger) (.inl rfl)
  exact writes_modMuster (fun m => { m with echoTimer := none, joinEcho := none, sweepRefresh := none }) hroute rfl
    (.inl rfl) (.inr hecho) (.inr hjoin) (.inl rfl) (.inl rfl) (.inl rfl) (.inr hsweep) (.inl rfl)

@[simp] theorem writes_countFraming (h : Writes ps r s) (hl : [.counters] ⊆ ps) : Writes ps r (countFraming s) := by
  simp only [List.cons_subset] at hl
  unfold countFraming
  simp [h, hl]

@[simp] theorem writes_restartWait (h : Writes ps r s) (hl : [.buffer, .free] ⊆ ps) : Writes ps r (restartWait s) := by
  simp only [List.cons_subset] at hl
  unfold restartWait
  (repeat' split) <;> simp (maxDischargeDepth := 9) [h, hl]

@[simp] theorem writes_beginSending (u : TxBuffer) (h : Writes ps r s) (hl : [.buffer] ⊆ ps) : Writes ps r (beginSending u s) := by
  simp only [List.cons_subset] at hl
  unfold beginSending
  simp [h, hl]

@[simp] theorem writes_markCompleted (f : TxFrame) (h : Writes ps r s) (hl : [.shift] ⊆ ps) : Writes ps r (markCompleted f s) := by
  simp only [List.cons_subset] at hl
  unfold markCompleted
  dsimp only
  (repeat' split) <;> simp (maxDischargeDepth := 9) [h, hl]

@[simp] theorem writes_reportDone (h : Writes ps r s) (hl : [.outstanding] ⊆ ps) : Writes ps r (reportDone s) := by
  simp only [List.cons_subset] at hl
  unfold reportDone
  simp [h, hl]

@[simp] theorem writes_tellComplete (f : TxFrame) (h : Writes ps r s) (hl : Part.offered ++ [.shift, .declared, .outstanding] ⊆ ps) :
    Writes ps r (tellComplete f s) := by
  simp only [List.append_subset, List.cons_subset] at hl
  unfold tellComplete
  split
  · exact writes_answerReported _ h (by simp [hl])
  · exact writes_foldl _ (fun n hu => writes_clearCompleted n hu (by simp [hl])) _ h
  · exact writes_reportDone h (by simp [hl])
  · exact writes_markCompleted _ h (by simp [hl])
  all_goals exact h

@[simp] theorem writes_tellNotSent (f : TxFrame) (h : Writes ps r s) (hl : Part.offered ++ [.outstanding] ⊆ ps) : Writes ps r (tellNotSent f s) := by
  simp only [List.append_subset, List.cons_subset] at hl
  unfold tellNotSent
  split <;> simp [h, hl]

@[simp] theorem writes_emptyBuffer (h : Writes ps r s) (hl : [.queue, .buffer, .free] ⊆ ps) : Writes ps r (emptyBuffer s) := by
  simp only [List.cons_subset] at hl
  unfold emptyBuffer
  simp [h, hl]

@[simp] theorem writes_settleSend (h : Writes ps r s) (hl : Part.offered ++ [.answers, .pendingReports, .outstanding, .builderWaits, .line] ⊆ ps) :
    Writes ps r (settleSend s) := by
  simp only [List.append_subset, List.cons_subset] at hl
  unfold settleSend
  simp (maxDischargeDepth := 9) [h, hl]

@[simp] theorem writes_enterBackoff (u : TxBuffer) (h : Writes ps r s) (hl : [.buffer, .free] ⊆ ps) : Writes ps r (enterBackoff u s) := by
  simp only [List.cons_subset] at hl
  unfold enterBackoff
  dsimp only
  (repeat' split) <;> simp (maxDischargeDepth := 9) [h, hl]

@[simp] theorem writes_jamEnded (u : TxBuffer) (h : Writes ps r s) (hl : Part.offered ++ [.outstanding, .counters] ⊆ ps) :
    Writes ps r (jamEnded u s) := by
  simp only [List.append_subset, List.cons_subset] at hl
  unfold jamEnded
  split
  · exact writes_emptyBuffer (writes_tellNotSent _ (writes_setLoss (by simp [h, hl]) hl.1.2.2.2.2.1) (by simp [hl])) (by simp [hl])
  · split
    · exact writes_emptyBuffer h (by simp [hl])
    · exact writes_enterBackoff _ h (by simp [hl])

end

end Sys2Proof.Machine
end

