-- ==== Sys2Proof/Proofs/Attention.lean ====
section
/-! PROOFS. The attention line and the path lights at the end of a command (R104 to R106, R172): what re-evaluating them at the end makes of a
state, and what leaves them alone (O59). -/

namespace Sys2Proof.Machine

/-- That a part is not of a list, as a Boolean that evaluates. -/
theorem not_mem_of_contains {p : Part} {ps : List Part} (h : ps.contains p = false) : p ∉ ps := by simpa using h

/-! ### What a command leaves of the attention line before it settles it -/

/-- From `r` to `s` no enabled flag is cleared; the attention line, its last assertion, the clock and the queue of commands stand. -/
structure Signals (r s : State) : Prop where
  line : s.events.attention = r.events.attention
  last : s.events.lastAssert = r.events.lastAssert
  flags : enabledFlag r = true → enabledFlag s = true
  now : s.time.now = r.time.now
  pending : s.pending = r.pending

@[refl] theorem Signals.refl (s : State) : Signals s s := ⟨rfl, rfl, id, rfl, rfl⟩

theorem Signals.trans {r s t : State} (h : Signals r s) (k : Signals s t) : Signals r t :=
  ⟨k.line.trans h.line, k.last.trans h.last, k.flags ∘ h.flags, k.now.trans h.now, k.pending.trans h.pending⟩

/-- An update of neither the events nor the clock nor the queue of commands. -/
theorem Signals.update {r s t : State} (h : Signals r s) (hsame : (t.events, t.time.now, t.pending) = (s.events, s.time.now, s.pending)) : Signals r t :=
  have hevents : t.events = s.events := congrArg (·.1) hsame
  h.trans ⟨by rw [hevents], by rw [hevents], by rw [enabledFlag, enabledFlag, hevents]; exact id, congrArg (·.2.1) hsame,
    congrArg (·.2.2) hsame⟩

theorem enabledFlag_mono {r s : State} (henables : s.events.enables = r.events.enables) {m : Half} (hm : s.events.flags = r.events.flags ||| m)
    (h : enabledFlag r = true) : enabledFlag s = true := by
  simp only [enabledFlag, decide_eq_true_eq, hm, henables, BitVec.and_or_distrib_right] at h ⊢
  exact fun hzero => h (BitVec.or_eq_zero_iff.1 hzero).1

/-- A shared operation that does not settle the line. -/
theorem Signals.write {ps : List Part} {r s t : State} (h : Signals r s) (k : Writes ps s t) (hline : ps.contains .line = false) : Signals r t := by
  obtain ⟨m, hm⟩ := k.flags
  obtain ⟨hatt, hlast⟩ : t.events.attention = s.events.attention ∧ t.events.lastAssert = s.events.lastAssert := k.parts .line (not_mem_of_contains hline)
  exact h.trans ⟨hatt, hlast, enabledFlag_mono k.enables hm, congrArg Kept.now k.kept, congrArg Kept.pending k.kept⟩

/-! ### What the path lights are taken from -/

/-- A route without its mark that it has changed. -/
def RouteEntry.unmarked (e : RouteEntry) : RouteEntry := { e with changed := false }

/-- From `r` to `s` the path lights stand, and all they are taken from: node, order, neighbours and, but for the marks, routes. -/
structure Unlit (r s : State) : Prop where
  lights : s.lights = r.lights
  node : s.node = r.node
  record : s.muster.record = r.muster.record
  neighbours : s.mon.neighbours = r.mon.neighbours
  routes : s.route.table.map RouteEntry.unmarked = r.route.table.map RouteEntry.unmarked

@[refl] theorem Unlit.refl (s : State) : Unlit s s := ⟨rfl, rfl, rfl, rfl, rfl⟩

theorem Unlit.trans {r s t : State} (h : Unlit r s) (k : Unlit s t) : Unlit r t :=
  ⟨k.lights.trans h.lights, k.node.trans h.node, k.record.trans h.record, k.neighbours.trans h.neighbours, k.routes.trans h.routes⟩

theorem Unlit.write {ps : List Part} {r s t : State} (h : Unlit r s) (k : Writes ps s t)
    (hps : (ps.contains .lights || ps.contains .neighbours || ps.contains .routes) = false) : Unlit r t := by
  simp only [Bool.or_eq_false_iff] at hps
  obtain ⟨⟨hlights, hneighbours⟩, hroutes⟩ := hps
  have htable : t.route.table = s.route.table := k.parts .routes (not_mem_of_contains hroutes)
  exact h.trans ⟨k.parts .lights (not_mem_of_contains hlights), congrArg Kept.node k.kept, congrArg Kept.record k.kept, k.parts .neighbours (not_mem_of_contains hneighbours), by rw [htable]⟩

theorem unlit_clearChanged (s : State) : Unlit s (clearChanged s) :=
  ⟨rfl, rfl, rfl, rfl, by simp [clearChanged, State.modRoute, RouteEntry.unmarked]⟩

/-- An advert clears the marks of the routes alone. -/
theorem unlit_offerAdvert (s : State) : Unlit s (offerAdvert s) := by
  have hanswered (a : OfferAnswer) (u : State) : Unlit u (advertAnswered a u) := by
    cases a with
    | accepted =>
      have hcleared := unlit_clearChanged (u.modRoute fun r => { r with lastOffer := some u.time.now, trigger := none })
      exact ⟨hcleared.lights, hcleared.node, hcleared.record, hcleared.neighbours, hcleared.routes⟩
    | refusedFull => exact ⟨rfl, rfl, rfl, rfl, rfl⟩
    | refusedState => exact ⟨rfl, rfl, rfl, rfl, rfl⟩
  have hoffered := (Unlit.refl s).write (writes_offer ⟨.routeAdvert, 255, advertPayload s, [], false⟩ (.refl _ s) (List.Subset.refl _)) rfl
  exact ((hoffered.trans (hanswered _ _)).write (writes_startAdvertTimer _ (.refl _ _) (List.Subset.refl _)) rfl).write
    (writes_offerSegments (.refl _ _) (List.Subset.refl _)) rfl

theorem routeOf_unmarked (table : List RouteEntry) (code : Nat) :
    routeOf (table.map RouteEntry.unmarked) code = (routeOf table code).map RouteEntry.unmarked := by
  simp only [routeOf, List.find?_map]
  rfl

/-- The marks have no part in the effective route. -/
theorem effectiveRoute_unmarked (table : List RouteEntry) (rs : List Redirect) (code : Nat) :
    effectiveRoute (table.map RouteEntry.unmarked) rs code
      = (effectiveRoute table rs code).map fun e => { e with entry := e.entry.unmarked } := by
  unfold effectiveRoute
  simp only [routeOf_unmarked]
  cases routeOf table code with
  | none => rfl
  | some e =>
    have hclass : e.unmarked.cls = e.cls := rfl
    simp only [Option.map_some, hclass]
    cases if e.cls = .muster then rs.find? (·.closed = code) else none with
    | none => rfl
    | some r =>
      dsimp only
      cases routeOf table r.alternate <;> rfl

theorem lampsFor_unmarked (ns : List Neighbour) (e : RouteEntry) : lampsFor ns e.unmarked = lampsFor ns e := rfl

/-- The path lights as the unmarked routes give them. -/
theorem lampsNow_eq (s : State) : lampsNow s = lampsNow { s with route := { s.route with table := s.route.table.map RouteEntry.unmarked } } := by
  have hcode : pathCode { s with route := { s.route with table := s.route.table.map RouteEntry.unmarked } } = pathCode s := by
    simp [pathCode, routeOf_unmarked]
  have heffective (c : Nat) : effectiveNow { s with route := { s.route with table := s.route.table.map RouteEntry.unmarked } } c
      = (effectiveNow s c).map fun e => { e with entry := e.entry.unmarked } := effectiveRoute_unmarked _ _ _
  unfold lampsNow
  rw [hcode]
  cases pathCode s with
  | none => rfl
  | some c =>
    simp only [Option.bind_some, heffective]
    cases effectiveNow s c <;> rfl

theorem Unlit.lampsNow_eq {r s : State} (h : Unlit r s) : lampsNow s = lampsNow r := by
  rw [Machine.lampsNow_eq s, Machine.lampsNow_eq r]
  unfold lampsNow participates level pathCode effectiveNow
  simp only [h.node, h.record, h.neighbours, h.routes]

theorem Unlit.lightsSound {r s : State} (h : Unlit r s) (hr : r.lightsSound) : s.lightsSound := by
  rw [State.lightsSound, h.lampsNow_eq, h.lights]
  exact hr

/-! ### The end of a command -/

/-- What O59 says of a command: attention line and path lights stay sound, the line is given when it was, and an assertion is of now, the pacing
having passed. -/
structure Attends (s t : State) : Prop where
  pending : t.pending = s.pending
  sound : s.attentionSound → t.attentionSound
  lights : s.lightsSound → t.lightsSound
  given : (s.node.state ≠ .reset → enabledFlag s = true → pacingPassed s = true → s.events.attention = true) →
    t.node.state ≠ .reset → enabledFlag t = true → pacingPassed t = true → t.events.attention = true
  asserted : s.events.attention = false → t.events.attention = true → t.events.lastAssert = some s.time.now
    ∧ pacingPassed { t with events := { t.events with lastAssert := s.events.lastAssert } } = true

/-- The pacing is of the configuration, the clock and the last assertion. -/
theorem pacingPassed_congr {s t : State} (hnode : t.node = s.node) (hnow : t.time.now = s.time.now)
    (hlast : t.events.lastAssert = s.events.lastAssert) : pacingPassed t = pacingPassed s := by
  unfold pacingPassed pacing
  rw [hlast, hnow, hnode]

theorem enabledFlag_settleAttention (s : State) : enabledFlag (settleAttention s) = enabledFlag s := by
  obtain ⟨a, l, h⟩ := settleAttention_eq s
  rw [h]
  rfl

theorem attentionSound_settleAttention {s : State} (h : s.node.state = .reset → s.attentionSound) : (settleAttention s).attentionSound := by
  unfold State.attentionSound
  rw [enabledFlag_settleAttention]
  unfold settleAttention
  split
  · exact h ‹_›
  · cases hflag : enabledFlag s
    · simp [State.modEvents]
    · simp

/-- A command that settles the line at its end, on a state whose line and clock are those it found. -/
theorem Attends.of_settled {s u : State} (hline : u.events.attention = s.events.attention) (hlast : u.events.lastAssert = s.events.lastAssert)
    (hnow : u.time.now = s.time.now) (hpending : u.pending = s.pending) (hreset : u.node.state = .reset → s.attentionSound → u.attentionSound)
    (hlights : s.lightsSound → (settleAttention u).lightsSound) : Attends s (settleAttention u) where
  pending := (congrArg Kept.pending (kept_settleAttention u)).trans hpending
  sound hs := attentionSound_settleAttention fun hu => hreset hu hs
  lights := hlights
  given _ := attention_settled u
  asserted h0 h1 := by
    obtain ⟨hnowLast, hpassed⟩ := attention_asserted u (hline.trans h0) h1
    refine ⟨by rw [hnowLast, hnow], ?_⟩
    rw [← hpassed]
    exact pacingPassed_congr (congrArg Kept.node (kept_settleAttention u)) (congrArg Kept.now (kept_settleAttention u)) hlast.symm

theorem Signals.attentionSound {s u : State} (h : Signals s u) (hs : s.attentionSound) : u.attentionSound :=
  fun ha => h.flags (hs (h.line ▸ ha))

theorem Attends.settled {s u : State} (h : Signals s u) (hlit : Unlit s u) : Attends s (settleAttention u) :=
  .of_settled h.line h.last h.now h.pending (fun _ => h.attentionSound) fun hs =>
    (hlit.write (writes_settleAttention (.refl _ _) (List.Subset.refl _)) rfl).lightsSound hs

theorem Attends.settledLit {s u : State} (h : Signals s u) : Attends s (settleAttention (settleLights u)) :=
  have hlit : Signals s (settleLights u) := h.update rfl
  .of_settled hlit.line hlit.last hlit.now hlit.pending (fun _ => hlit.attentionSound) fun _ => lightsSound_settled u

/-- The commands that take a frame, or run a timer, and settle the answers and the line. -/
theorem Attends.taken {s u : State} (h : Signals s u) (hlit : Unlit s u) : Attends s (settleAttention (settleAnswers u)) :=
  have k := writes_settleAnswers (.refl _ u) (List.Subset.refl _)
  .settled (h.write k rfl) (hlit.write k rfl)

theorem Attends.takenLit {s u : State} (h : Signals s u) : Attends s (settleAttention (settleLights (settleAnswers u))) :=
  .settledLit (h.write (writes_settleAnswers (.refl _ u) (List.Subset.refl _)) rfl)

theorem Attends.settle {s u : State} (h : Signals s u) : Attends s (settle u) :=
  .settledLit ((((h.write (writes_settleRefreshes (.refl _ _) (List.Subset.refl _)) rfl).write (writes_settleReports (.refl _ _) (List.Subset.refl _)) rfl).write
    (writes_settleAnswers (.refl _ _) (List.Subset.refl _)) rfl).write (writes_arbitrate (.refl _ _) (List.Subset.refl _)) rfl)

theorem Attends.settleSend {s u : State} (h : Signals s u) (hlit : Unlit s u) : Attends s (settleSend u) :=
  have k := writes_settleReports (.refl _ u) (List.Subset.refl _)
  .taken (h.write k rfl) (hlit.write k rfl)

/-- A command that settles nothing writes no event. -/
theorem Attends.inert {s t : State} (hlit : Unlit s t) (hsame : (t.events, t.time.now, t.pending) = (s.events, s.time.now, s.pending)) : Attends s t := by
  obtain ⟨hevents, hnow, hpending⟩ : t.events = s.events ∧ t.time.now = s.time.now ∧ t.pending = s.pending := by simpa using hsame
  have hflag : enabledFlag t = enabledFlag s := by rw [enabledFlag, enabledFlag, hevents]
  refine ⟨hpending, fun hs => ?_, hlit.lightsSound, fun hs hnode hen hpass => ?_, fun h0 h1 => ?_⟩
  · rw [State.attentionSound, hflag, hevents]
    exact hs
  · rw [hevents]
    exact hs (hlit.node ▸ hnode) (hflag ▸ hen) (pacingPassed_congr hlit.node hnow (by rw [hevents]) ▸ hpass)
  · rw [hevents, h0] at h1
    cases h1

@[refl] theorem Attends.refl (s : State) : Attends s s := .inert (.refl s) rfl

/-- In RESET the line is released and the lights are dark. -/
theorem Attends.reset {s t : State} (hnode : t.node.state = .reset) (hline : t.events.attention = false) (hlights : t.lights = ⟨.off, .off⟩)
    (hpending : t.pending = s.pending) : Attends s t where
  pending := hpending
  sound _ h := by simp [hline] at h
  lights _ := by simp [State.lightsSound, hlights, lampsNow, participates, hnode]
  given _ h := absurd hnode h
  asserted _ h := by simp [hline] at h

end Sys2Proof.Machine
end

