-- ==== Sys2Proof/Proofs/AttentionSound.lean ====
section
/-! PROOFS. Every command attends to the attention line and the path lights (O59): one case each, its end and what comes before it. -/

namespace Sys2Proof.Machine

variable {r s : State}

/-! ### The operations that write more than the shared ones -/

theorem signals_enterFault (h : Signals r s) : Signals r (enterFault s) := by
  have hsilent : Signals r (silenceBus (s.modNode fun n => { n with state := .fault, joinTimer := none })) := h.update rfl
  exact ((((hsilent.write (writes_stopExchange (.refl _ _) (List.Subset.refl _)) rfl).write (writes_stopTimers (.refl _ _) (List.Subset.refl _)) rfl).write
    (writes_settleMarks (.refl _ _) (List.Subset.refl _)) rfl).write (writes_retargetAll (.refl _ _) (List.Subset.refl _)) rfl).write
    (writes_compareAll (.refl _ _) (List.Subset.refl _)) rfl

theorem signals_enterJoining (h : Signals r s) : Signals r (enterJoining s) := by
  have hnode : Signals r ((s.modNode fun n => { n with state := .joining, joinTimer := startTimer s Config.joinTime }).modChain
      fun c => { c with chainReset := false }) := h.update rfl
  exact ((hnode.write (writes_startPresence (.refl _ _) (List.Subset.refl _)) rfl).write (writes_offerAdvert (.refl _ _) (List.Subset.refl _)) rfl).write
    (writes_settleMarks (.refl _ _) (List.Subset.refl _)) rfl

theorem signals_enterRun (h : Signals r s) : Signals r (enterRun s) := by
  have hnode : Signals r (s.modNode fun n => { n with state := .run, joinTimer := none }) := h.update rfl
  have hsummary : Signals r (if (level (s.modNode fun n => { n with state := .run, joinTimer := none })).calm then
      startSummaryTimer (s.modNode fun n => { n with state := .run, joinTimer := none })
      else s.modNode fun n => { n with state := .run, joinTimer := none }) := by
    split
    · exact hnode.write (writes_startSummaryTimer (.refl _ _) (List.Subset.refl _)) rfl
    · exact hnode
  exact (((hsummary.write (writes_restartEcho (.refl _ _) (List.Subset.refl _)) rfl).write (writes_offerSensed (.refl _ _) (List.Subset.refl _)) rfl).write
    (writes_compareAll (.refl _ _) (List.Subset.refl _)) rfl).write (writes_settleMarks (.refl _ _) (List.Subset.refl _)) rfl

theorem signals_judgeImage (image : List Octet) (h : Signals r s) : Signals r (judgeImage image s) := by
  have invalid (x : LoadResult) (n : Nat) : Signals r (loadInvalid x n s) := signals_enterFault (h.update rfl)
  have valid (c : Configuration) : Signals r (loadValid c s) := by
    have hinstalled : Signals r (installConfig c s) := h.update rfl
    unfold loadValid
    dsimp only
    split
    · exact Signals.write (s := (installConfig c s).modNode fun n => { n with state := .chainTest }) (hinstalled.update rfl)
        (writes_requestTest (.refl _ _) (List.Subset.refl _)) rfl
    · exact signals_enterJoining hinstalled
  unfold judgeImage
  split
  · exact invalid _ _
  · split
    · exact invalid _ _
    · split
      · exact invalid _ _
      · split
        · exact invalid _ _
        · exact valid _

theorem signals_stationClash (h : Signals r s) : Signals r (stationClash s) := by
  unfold stationClash
  split
  · exact signals_enterFault h
  · exact h.write (writes_setEvent _ (.refl _ _) (List.Subset.refl _) (.inl nofun)) rfl

theorem signals_takeFrame (capture : Tick) (x : FrameHead) (payload : List Octet) (high low : Octet) (h : Signals r s) :
    Signals r (takeFrame capture x payload high low s) := by
  have hhunt : Signals r (setReceiver .hunt s) := h.update rfl
  unfold takeFrame
  dsimp only
  split
  · exact hhunt.update rfl
  · split
    · exact signals_stationClash hhunt
    · exact hhunt.update rfl

theorem signals_acceptOrder (o : Order) (h : Signals r s) : Signals r (acceptOrder o s) := by
  have hseen : Signals r (s.modMuster fun m => { m with highestSeen := max m.highestSeen o.serial }) := h.update rfl
  have adopt {u : State} (hu : Signals r u) : Signals r (adoptOrder o u) :=
    Signals.write (s := putRecord (recordFor u o) u) (hu.update rfl) (writes_recordEffects _ _ (.refl _ _) (List.Subset.refl _)) rfl
  have conflict := hseen.write (writes_countConflict (.refl _ _) (List.Subset.refl _)) rfl
  unfold acceptOrder compareOrder
  dsimp only
  split
  · split
    · exact adopt hseen
    · split
      · exact hseen.update rfl
      · split
        · exact hseen
        · split
          · exact adopt conflict
          · exact conflict
  · exact hseen

theorem signals_takeOrder (payload : List Octet) (h : Signals r s) : Signals r (takeOrder payload s) := by
  have hcancel := h.write (writes_cancelPrompted payload (.refl _ _) (List.Subset.refl _)) rfl
  have hrefused := hcancel.write (writes_refuseOrder (.refl _ _) (List.Subset.refl _)) rfl
  unfold takeOrder
  dsimp only
  split
  · split
    · exact signals_acceptOrder _ hcancel
    · exact hrefused
  · exact hrefused

theorem signals_doIssueOrder (args : List Octet) (h : Signals r s) : Signals r (doIssueOrder args s).1 := by
  have taken (o : Order) : Signals r (issueTaken o s).1 :=
    (signals_acceptOrder o h).write (writes_offerOrder _ _ (.refl _ _) (List.Subset.refl _)) rfl
  unfold doIssueOrder
  (repeat' split) <;> first | exact h | exact taken _

theorem signals_lapse (h : Signals r s) : Signals r (lapse s) := by
  have hrecord : Signals r (s.modMuster fun m => { m with record := { m.record with level := .normal, lapsed := true }, standDown := none }) :=
    (h.update rfl)
  exact (hrecord.write (writes_changeLevel _ _ (.refl _ _) (List.Subset.refl _)) rfl).write (writes_restartEcho (.refl _ _) (List.Subset.refl _)) rfl

theorem signals_testEnded (x : ChainResult) (h : Signals r s) : Signals r (testEnded x s) := by
  have hanswered : Signals r (answerTest x (applyResult x (engineIdle s))) :=
    Signals.update (s := applyResult x (engineIdle s)) ((h.write (writes_engineIdle (.refl _ _) (List.Subset.refl _)) rfl).write
      (writes_applyResult x (.refl _ _) (List.Subset.refl _)) rfl) rfl
  unfold testEnded
  dsimp only
  split
  · exact signals_enterJoining hanswered
  · exact hanswered

/-! ### The port -/

theorem signals_portTake {code : Nat} {args : List Octet} {owner : State → State} (h : Signals s (owner s)) : Signals s (portTake code args owner s) :=
  portTake_keeps (P := Signals s) (fun _ _ hu => (hu.update rfl)) (.refl s) h

theorem signals_portRun {code : Nat} {args : List Octet} {owner : State → State × List Octet} (h : Signals s (owner s).1) :
    Signals s (portRun code args owner s) :=
  portRun_keeps (P := Signals s) (fun _ _ hu => (hu.update rfl)) (.refl s) h

theorem unlit_portRun {code : Nat} {args : List Octet} {owner : State → State × List Octet} (h : Unlit s (owner s).1) :
    Unlit s (portRun code args owner s) :=
  portRun_keeps (P := Unlit s) (fun _ _ hu => ⟨hu.lights, hu.node, hu.record, hu.neighbours, hu.routes⟩) (.refl s) h

/-- A command that is answered at the port alone. -/
theorem attends_portRun {code : Nat} {args : List Octet} {owner : State → State × List Octet} (h : (owner s).1 = s) :
    Attends s (portRun code args owner s) := by
  obtain ⟨f, hf⟩ | ⟨f, hf⟩ := portRun_cases code args owner s
  · rw [hf]
    exact .inert ⟨rfl, rfl, rfl, rfl, rfl⟩ rfl
  · rw [hf, h]
    exact .inert ⟨rfl, rfl, rfl, rfl, rfl⟩ rfl

/-- In RESET the port takes nothing. -/
theorem portRun_of_reset {code : Nat} {args : List Octet} {owner : State → State × List Octet} (h : s.node.state = .reset) :
    portRun code args owner s = s := by
  simp [portRun, portTake, h]

/-- SET EVENT MASK and READ EVENTS write flags and enables, and settle the line. -/
theorem attends_eventCommand {code : Nat} {args : List Octet} {owner : State → State × List Octet}
    (hline : (owner s).1.events.attention = s.events.attention) (hlast : (owner s).1.events.lastAssert = s.events.lastAssert)
    (hnow : (owner s).1.time.now = s.time.now) (hpending : (owner s).1.pending = s.pending) (hlit : Unlit s (owner s).1) :
    Attends s (settleAttention (portRun code args owner s)) := by
  have hrun := unlit_portRun (code := code) (args := args) hlit
  refine .of_settled ?_ ?_ ?_ ?_ (fun hreset hs => ?_) fun hs =>
    (hrun.write (writes_settleAttention (.refl _ _) (List.Subset.refl _)) rfl).lightsSound hs
  · exact portRun_keeps (P := fun u => u.events.attention = s.events.attention) (fun _ _ h => h) rfl hline
  · exact portRun_keeps (P := fun u => u.events.lastAssert = s.events.lastAssert) (fun _ _ h => h) rfl hlast
  · exact portRun_keeps (P := fun u => u.time.now = s.time.now) (fun _ _ h => h) rfl hnow
  · exact portRun_keeps (P := fun u => u.pending = s.pending) (fun _ _ h => h) rfl hpending
  · rw [hrun.node] at hreset
    rwa [portRun_of_reset hreset]

theorem signals_doSetTime (args : List Octet) (h : Signals r s) : Signals r (doSetTime args s).1 := by
  unfold doSetTime
  dsimp only
  (repeat' split) <;> first | exact h | exact h.write (writes_takeSetTime _ _ (.refl _ _) (List.Subset.refl _)) rfl

theorem unlit_doSetTime (args : List Octet) (h : Unlit r s) : Unlit r (doSetTime args s).1 := by
  unfold doSetTime
  dsimp only
  (repeat' split) <;> first | exact h | exact h.write (writes_takeSetTime _ _ (.refl _ _) (List.Subset.refl _)) rfl

theorem signals_doTestChain (block : List Octet) (h : Signals r s) : Signals r (doTestChain block s) := by
  unfold doTestChain
  split
  · exact h.update rfl
  · exact Signals.write (s := s.modPort fun p => { p with state := .busy, command := block, response := [] }) (h.update rfl)
      (writes_requestTest (.refl _ _) (List.Subset.refl _)) rfl

/-! The reads leave the state. -/

theorem doReadRoute_state (args : List Octet) (s : State) : (doReadRoute args s).1 = s := by
  unfold doReadRoute
  split <;> rfl

theorem doReadPlate_state (args : List Octet) (s : State) : (doReadPlate args s).1 = s := rfl

theorem doReadRoll_state (args : List Octet) (s : State) : (doReadRoll args s).1 = s := by
  unfold doReadRoll
  (repeat' split) <;> rfl

theorem doQueryRoute_state (args : List Octet) (s : State) : (doQueryRoute args s).1 = s := by
  unfold doQueryRoute
  dsimp only
  split <;> rfl

theorem same_restartWait (s : State) :
    ((restartWait s).events, (restartWait s).time.now, (restartWait s).pending) = (s.events, s.time.now, s.pending) := by
  unfold restartWait
  (repeat' split) <;> rfl

/-! ### The commands -/

/-- A shared operation, then the answers and the line settled. -/
theorem Attends.takenBy {ps : List Part} {u : State} (k : Writes ps s u) (hline : ps.contains .line = false)
    (hps : (ps.contains .lights || ps.contains .neighbours || ps.contains .routes) = false) : Attends s (settleAttention (settleAnswers u)) :=
  .taken ((Signals.refl s).write k hline) ((Unlit.refl s).write k hps)

/-- A shared operation, then the end of a step. -/
theorem Attends.settleBy {ps : List Part} {u : State} (k : Writes ps s u) (hline : ps.contains .line = false) : Attends s (Machine.settle u) :=
  .settle ((Signals.refl s).write k hline)

/-- A shared operation, a slot freed, then the answers and the line settled. -/
theorem Attends.freedBy {ps : List Part} {u : State} (f : ZoneBus → ZoneBus) (k : Writes ps s u) (hline : ps.contains .line = false)
    (hps : (ps.contains .lights || ps.contains .neighbours || ps.contains .routes) = false) : Attends s (settleAttention (settleAnswers (u.modBus f))) :=
  have hlit : Unlit s u := (Unlit.refl s).write k hps
  .taken (Signals.update ((Signals.refl s).write k hline) rfl) ⟨hlit.lights, hlit.node, hlit.record, hlit.neighbours, hlit.routes⟩

theorem attends_restart (x0 : List Octet) (s : State) : Yields (Attends s) (exec (.restart x0) s) := by
  refine (yields_next _ _).2 ?_
  obtain ⟨f, h⟩ | h := portTake_cases 0x11 _ (afterRestart _) s
  · exact h ▸ .inert ⟨rfl, rfl, rfl, rfl, rfl⟩ rfl
  · exact h ▸ .reset rfl rfl rfl rfl

theorem attends_resetRelease (mv : Nat) (source : SourceLevel) (s : State) : Yields (Attends s) (exec (.resetRelease mv source) s) := by
  refine (yields_next _ _).2 ?_
  split
  · rename_i hreset
    extract_lets sampled pins
    have hsig : Signals s (pins.modNode fun n => { n with state := .loading }) := Signals.update (s := pins) (Signals.update ((Signals.refl s).update rfl) rfl) rfl
    have hport : Signals s ((pins.modNode fun n => { n with state := .loading }).modPort answerRestart) := hsig.update rfl
    have hdark (u : State) (hu : participates u = false) : lampsNow u = ⟨.off, .off⟩ := by simp [lampsNow, hu]
    refine .of_settled hport.line hport.last hport.now hport.pending (fun _ => hport.attentionSound) fun hs => ?_
    have hlit : ((pins.modNode fun n => { n with state := .loading }).modPort answerRestart).lightsSound := by
      have hlights : ((pins.modNode fun n => { n with state := .loading }).modPort answerRestart).lights = s.lights := by
        simp only [State.modPort, State.modNode, pins, State.modPins, sampled, State.modSupply]
      rw [State.lightsSound, hdark _ (by simp [participates, State.modPort, State.modNode]), hlights, ← hdark s (by simp [participates, hreset.1])]
      exact hs
    exact ((Unlit.refl _).write (writes_settleAttention (.refl _ _) (List.Subset.refl _)) rfl).lightsSound hlit
  · exact Attends.refl s

theorem attends_imageLoadDone (image : List Octet) (s : State) : Yields (Attends s) (exec (.imageLoadDone image) s) := by
  have hrefl := Attends.refl s
  refine (yields_next _ _).2 ?_
  split
  · exact .settle (signals_judgeImage image (Signals.refl s))
  · exact hrefl

theorem attends_joinTimer (s : State) : Yields (Attends s) (exec .joinTimer s) := by
  have hrefl := Attends.refl s
  refine (yields_next _ _).2 ?_
  split
  · exact .settle (signals_enterRun (Signals.refl s))
  · exact hrefl

theorem attends_voltageCrossing (x0 : Crossing) (x1 : Nat) (s : State) : Yields (Attends s) (exec (.voltageCrossing x0 x1) s) := by
  have hrefl := Attends.refl s
  refine (yields_next _ _).2 ?_
  split
  · exact hrefl
  · exact .settle (Signals.write (s := s.modSupply _) ((Signals.refl s).update rfl) (writes_supplyReformed _ _ (.refl _ _) (List.Subset.refl _)) rfl)

theorem attends_sourceLineAccept (s : State) : Yields (Attends s) (exec .sourceLineAccept s) := by
  have hrefl := Attends.refl s
  refine (yields_next _ _).2 ?_
  split
  · exact .settle (Signals.write (s := s.modSupply _) ((Signals.refl s).update rfl) (writes_supplyReformed _ _ (.refl _ _) (List.Subset.refl _)) rfl)
  · exact hrefl

theorem attends_dayWrap (s : State) : Yields (Attends s) (exec .dayWrap s) := by
  have hrefl := Attends.refl s
  refine (yields_next _ _).2 ?_
  have k := writes_stepTime ⟨0, 0, 0, 0⟩ (.refl _ s) (List.Subset.refl _)
  split
  · exact .settled ((Signals.refl s).write k rfl) ((Unlit.refl s).write k rfl)
  · exact hrefl

theorem attends_comparatorMatch (s : State) : Yields (Attends s) (exec .comparatorMatch s) := by
  have hrefl := Attends.refl s
  refine (yields_next _ _).2 ?_
  have k := writes_takeMatch (shownNow s) (.refl _ s) (List.Subset.refl _)
  split
  · exact .settled ((Signals.refl s).write k rfl) ((Unlit.refl s).write k rfl)
  · exact hrefl

theorem attends_summaryTimer (s : State) : Yields (Attends s) (exec .summaryTimer s) := by
  have hrefl := Attends.refl s
  refine (yields_next _ _).2 ?_
  split
  · exact .takenBy (ps := .summaryTimer :: Part.offered) (writes_offerSummary (writes_startSummaryTimer (.refl _ _) (by simp)) (by simp)) rfl rfl
  · exact hrefl

theorem attends_earlySummary (s : State) : Yields (Attends s) (exec .earlySummary s) := by
  have hrefl := Attends.refl s
  refine (yields_next _ _).2 ?_
  split
  · exact .takenBy (ps := .early :: Part.offered) (writes_offerSummary (writes_modExch _ (.refl _ _) (.inl rfl) (.inl rfl) (.inr (by simp)) (.inl rfl) (.inl rfl)) (by simp)) rfl rfl
  · exact hrefl

theorem attends_markTimer (s : State) : Yields (Attends s) (exec .markTimer s) := by
  have hrefl := Attends.refl s
  refine (yields_next _ _).2 ?_
  split
  · exact .takenBy (writes_sendMark (.refl _ _) (List.Subset.refl _)) rfl rfl
  · exact hrefl

theorem attends_advertTimer (s : State) : Yields (Attends s) (exec .advertTimer s) := by
  have hrefl := Attends.refl s
  refine (yields_next _ _).2 ?_
  split
  · exact .taken ((Signals.refl s).write (writes_offerAdvert (.refl _ _) (List.Subset.refl _)) rfl) (unlit_offerAdvert s)
  · exact hrefl

theorem attends_triggeredAdvert (s : State) : Yields (Attends s) (exec .triggeredAdvert s) := by
  have hrefl := Attends.refl s
  refine (yields_next _ _).2 ?_
  split
  · exact .taken ((Signals.refl s).write (writes_offerAdvert (.refl _ _) (List.Subset.refl _)) rfl) (unlit_offerAdvert s)
  · exact hrefl

theorem attends_sourceHold (x0 : Nat) (s : State) : Yields (Attends s) (exec (.sourceHold x0) s) := by
  have hrefl := Attends.refl s
  refine (yields_next _ _).2 ?_
  split
  · have ksources := writes_modTime (ps := .sources :: .markTimer :: .flags :: Part.offered)
      (fun b => { b with sources := b.sources.filter (·.station ≠ x0) }) (.refl _ s) rfl (.inl rfl) (.inl rfl) (.inr (by simp)) (.inl rfl) (.inl rfl)
    exact .takenBy (writes_settleMarks (writes_setEvent .time ksources (by simp) (.inl nofun)) (by simp)) rfl rfl
  · exact hrefl

theorem attends_requestTimer (x0 : Nat) (s : State) : Yields (Attends s) (exec (.requestTimer x0) s) := by
  have hrefl := Attends.refl s
  dsimp only [exec, execRequestTimer]
  split
  · split
    · exact (yields_next _ _).2 (.takenBy (writes_requestExpired _ (.refl _ _) (List.Subset.refl _)) rfl rfl)
    · exact (yields_next _ _).2 hrefl
  · exact (yields_next _ _).2 hrefl

theorem attends_answerHold (s : State) : Yields (Attends s) (exec .answerHold s) := by
  have hrefl := Attends.refl s
  dsimp only [exec, execAnswerHold]
  split
  · split
    · split
      · exact (yields_next _ _).2 (.takenBy (writes_answerOffer _ (.refl _ _) (List.Subset.refl _)) rfl rfl)
      · exact (yields_next _ _).2 hrefl
    · exact (yields_next _ _).2 hrefl
  · exact (yields_next _ _).2 hrefl

theorem attends_presenceTimer (x0 : Nat) (s : State) : Yields (Attends s) (exec (.presenceTimer x0) s) := by
  have hrefl := Attends.refl s
  dsimp only [exec, execPresenceTimer]
  split
  · split
    · exact (yields_next _ _).2 (.takenLit ((Signals.refl s).write (writes_loseNeighbour _ (.refl _ _) (List.Subset.refl _)) rfl))
    · exact (yields_next _ _).2 hrefl
  · exact (yields_next _ _).2 hrefl

theorem attends_senseLineAccept (x0 : Fin 8) (s : State) : Yields (Attends s) (exec (.senseLineAccept x0) s) := by
  have hrefl := Attends.refl s
  dsimp only [exec, execSenseLineAccept]
  split
  · split
    · exact (yields_next _ _).2 (.takenLit ((Signals.refl s).write (writes_acceptLevel _ _ (.refl _ _) (List.Subset.refl _)) rfl))
    · exact (yields_next _ _).2 hrefl
  · exact (yields_next _ _).2 hrefl

theorem attends_programmeItem (s : State) : Yields (Attends s) (exec .programmeItem s) := by
  have hrefl := Attends.refl s
  dsimp only [exec, execProgrammeItem]
  split
  · split
    · exact (yields_next _ _).2 (.freedBy _ (writes_takeItem _ (.refl _ _) (List.Subset.refl _)) rfl rfl)
    · exact (yields_next _ _).2 hrefl
  · exact (yields_next _ _).2 hrefl

theorem attends_programmeSummary (s : State) : Yields (Attends s) (exec .programmeSummary s) := by
  have hrefl := Attends.refl s
  dsimp only [exec, execProgrammeSummary]
  split
  · split
    · exact (yields_next _ _).2 (.freedBy _ (writes_takeSummary _ (.refl _ _) (List.Subset.refl _)) rfl rfl)
    · exact (yields_next _ _).2 hrefl
  · exact (yields_next _ _).2 hrefl

theorem attends_itemRequest (s : State) : Yields (Attends s) (exec .itemRequest s) := by
  have hrefl := Attends.refl s
  dsimp only [exec, execItemRequest]
  split
  · split
    · exact (yields_next _ _).2 (.freedBy _ (writes_takeRequest _ (.refl _ _) (List.Subset.refl _)) rfl rfl)
    · exact (yields_next _ _).2 hrefl
  · exact (yields_next _ _).2 hrefl

theorem attends_routeAdvert (s : State) : Yields (Attends s) (exec .routeAdvert s) := by
  have hrefl := Attends.refl s
  dsimp only [exec, execRouteAdvert]
  split
  · split
    · exact (yields_next _ _).2 (.takenLit (((Signals.refl s).write (writes_takeAdvert _ _ (.refl _ _) (List.Subset.refl _)) rfl).update rfl))
    · exact (yields_next _ _).2 hrefl
  · exact (yields_next _ _).2 hrefl

theorem attends_cabinReport (s : State) : Yields (Attends s) (exec .cabinReport s) := by
  have hrefl := Attends.refl s
  dsimp only [exec, execCabinReport]
  split
  · split
    · exact (yields_next _ _).2 (.settle (((Signals.refl s).write (writes_takeCabins _ _ (.refl _ _) (List.Subset.refl _)) rfl).update rfl))
    · exact (yields_next _ _).2 hrefl
  · exact (yields_next _ _).2 hrefl

theorem attends_musterOrder (s : State) : Yields (Attends s) (exec .musterOrder s) := by
  have hrefl := Attends.refl s
  dsimp only [exec, execMusterOrder]
  split
  · split
    · exact (yields_next _ _).2 (.settle ((signals_takeOrder _ (Signals.refl s)).update rfl))
    · exact (yields_next _ _).2 hrefl
  · exact (yields_next _ _).2 hrefl

theorem attends_timeMark (s : State) : Yields (Attends s) (exec .timeMark s) := by
  have hrefl := Attends.refl s
  dsimp only [exec, execTimeMark]
  split
  · split
    · split
      · exact (yields_next _ _).2 (.freedBy _ (writes_acceptMark _ _ _ (.refl _ _) (List.Subset.refl _)) rfl rfl)
      · exact (yields_next _ _).2 (.freedBy (ps := []) _ (.refl _ _) rfl rfl)
    · exact (yields_next _ _).2 hrefl
  · exact (yields_next _ _).2 hrefl

theorem attends_segmentState (s : State) : Yields (Attends s) (exec .segmentState s) := by
  have hrefl := Attends.refl s
  dsimp only [exec, execSegmentState]
  split
  · split
    · rename_i f rest _ _
      have htaken : Signals s (match readSegments f.payload with | some es => es.foldl takeSegment s | none => s) := by
        split
        · exact (Signals.refl s).write (writes_foldl _ (fun e hu => writes_takeSegment e hu (List.Subset.refl _)) _ (.refl _ _)) rfl
        · exact .refl s
      exact (yields_next _ _).2 (.takenLit (Signals.update htaken rfl))
    · exact (yields_next _ _).2 hrefl
  · exact (yields_next _ _).2 hrefl

theorem attends_standDownTimer (s : State) : Yields (Attends s) (exec .standDownTimer s) := by
  have hrefl := Attends.refl s
  refine (yields_next _ _).2 ?_
  split
  · exact .settle (signals_lapse (Signals.refl s))
  · exact hrefl

theorem attends_echoTimer (s : State) : Yields (Attends s) (exec .echoTimer s) := by
  have hrefl := Attends.refl s
  refine (yields_next _ _).2 ?_
  split
  · exact .settleBy (writes_restartEcho ((writes_offerEcho (.refl _ _) (List.Subset.refl _)).mono (by simp)) (by simp : [.echoTimer] ⊆ .echoTimer :: Part.offered)) rfl
  · exact hrefl

theorem attends_joinPromptEcho (s : State) : Yields (Attends s) (exec .joinPromptEcho s) := by
  have hrefl := Attends.refl s
  refine (yields_next _ _).2 ?_
  split
  · exact .settleBy (ps := .joinEcho :: Part.offered) (writes_offerEcho (writes_modMuster _ (.refl _ _) rfl (.inl rfl) (.inl rfl) (.inr (by simp)) (.inl rfl) (.inl rfl) (.inl rfl) (.inl rfl) (.inl rfl)) (by simp)) rfl
  · exact hrefl

theorem attends_sweepRefreshTimer (s : State) : Yields (Attends s) (exec .sweepRefreshTimer s) := by
  have hrefl := Attends.refl s
  refine (yields_next _ _).2 ?_
  split
  · exact .settleBy (ps := [.sweepRefresh, .pendingReports, .builderWaits]) (writes_reportAll (writes_modMuster _ (.refl _ _) rfl (.inl rfl) (.inl rfl) (.inl rfl) (.inl rfl) (.inl rfl) (.inl rfl) (.inr (by simp)) (.inl rfl)) (by simp)) rfl
  · exact hrefl

theorem attends_pollDue (x0 : Bool) (s : State) : Yields (Attends s) (exec (.pollDue x0) s) := by
  have hrefl := Attends.refl s
  refine (yields_next _ _).2 ?_
  split
  · exact .settle ((Signals.refl s).update rfl)
  · split
    · exact .inert ⟨rfl, rfl, rfl, rfl, rfl⟩ rfl
    · exact hrefl

theorem attends_chainStall (s : State) : Yields (Attends s) (exec .chainStall s) := by
  have hrefl := Attends.refl s
  dsimp only [exec, execChainStall]
  split
  · split
    · exact (yields_next _ _).2 (.settle ((Signals.write (s := readBusy true s) ((Signals.refl s).update rfl) (writes_engineIdle (.refl _ _) (List.Subset.refl _)) rfl).write
        (writes_outOfService _ (.refl _ _) (List.Subset.refl _)) rfl))
    · exact (yields_next _ _).2 hrefl
  · exact (yields_next _ _).2 hrefl

theorem attends_transactionEnd (x0 : List Octet) (s : State) : Yields (Attends s) (exec (.transactionEnd x0) s) := by
  have hrefl := Attends.refl s
  dsimp only [exec, execTransactionEnd]
  split
  · exact (yields_next _ _).2 (.settle ((Signals.write (s := readBusy false s) ((Signals.refl s).update rfl) (writes_engineIdle (.refl _ _) (List.Subset.refl _)) rfl).write
      (writes_transactionEnded _ _ (.refl _ _) (List.Subset.refl _)) rfl))
  · exact (yields_next _ _).2 hrefl

theorem attends_chainTimeout (s : State) : Yields (Attends s) (exec .chainTimeout s) := by
  have hrefl := Attends.refl s
  dsimp only [exec, execChainTimeout]
  split
  · split
    · exact (yields_next _ _).2 (.settle (((Signals.write (s := (readBusy true s).modCounters _) ((Signals.refl s).update rfl)
        (writes_engineIdle (.refl _ _) (List.Subset.refl _)) rfl).write (writes_resetPulse (.refl _ _) (List.Subset.refl _)) rfl).write (writes_transactionFailed _ (.refl _ _) (List.Subset.refl _)) rfl))
    · exact (yields_next _ _).2 hrefl
  · exact (yields_next _ _).2 hrefl

theorem attends_chainResetPulseEnd (s : State) : Yields (Attends s) (exec .chainResetPulseEnd s) := by
  have hrefl := Attends.refl s
  refine (yields_next _ _).2 ?_
  split
  · exact .inert ⟨rfl, rfl, rfl, rfl, rfl⟩ rfl
  · exact hrefl

theorem attends_lineTestStart (s : State) : Yields (Attends s) (exec .lineTestStart s) := by
  have hrefl := Attends.refl s
  refine (yields_next _ _).2 ?_
  split
  · have htest : Signals s (s.modChain fun c => { c with engine := .test none, testPending := false }) := (Signals.refl s).update rfl
    exact .settle (htest.write (writes_resetPulse (.refl _ _) (List.Subset.refl _)) rfl)
  · exact hrefl

theorem attends_lineTestEnd (x0 : Bool) (x1 : Bool) (x2 : Bool) (s : State) : Yields (Attends s) (exec (.lineTestEnd x0 x1 x2) s) := by
  have hrefl := Attends.refl s
  dsimp only [exec, execLineTestEnd]
  split
  · split
    · exact (yields_next _ _).2 hrefl
    · exact (yields_next _ _).2 (.settle (signals_testEnded _ ((Signals.refl s).update rfl)))
  · exact (yields_next _ _).2 hrefl

theorem attends_driveTimer (x0 : Nat) (s : State) : Yields (Attends s) (exec (.driveTimer x0) s) := by
  have hrefl := Attends.refl s
  refine (yields_next _ _).2 ?_
  split
  · exact .settleBy (writes_failRefresh _ (.refl _ _) (List.Subset.refl _)) rfl
  · exact hrefl

theorem attends_startOctet (x0 : Nat) (x1 : Octet) (x2 : Bool) (s : State) : Yields (Attends s) (exec (.startOctet x0 x1 x2) s) := by
  have hrefl := Attends.refl s
  refine (yields_next _ _).2 ?_
  have k := writes_restartWait (.refl _ s) (List.Subset.refl _)
  have hwait : Attends s (restartWait s) := .inert ((Unlit.refl s).write k rfl) (same_restartWait s)
  split
  · dsimp only
    split
    · unfold takeStart
      have hlit := (Unlit.refl s).write k rfl
      split
      · exact .inert ⟨hlit.lights, hlit.node, hlit.record, hlit.neighbours, hlit.routes⟩ (same_restartWait s)
      · exact .inert ⟨hlit.lights, hlit.node, hlit.record, hlit.neighbours, hlit.routes⟩ (same_restartWait s)
    · exact hwait
  · exact hrefl

theorem attends_frameEndShort (x0 : ShortCause) (s : State) : Yields (Attends s) (exec (.frameEndShort x0) s) := by
  have hrefl := Attends.refl s
  refine (yields_next _ _).2 ?_
  have k := writes_restartWait (.refl _ s) (List.Subset.refl _)
  split
  · split
    · have hlit := (Unlit.refl s).write k rfl
      exact .inert ⟨hlit.lights, hlit.node, hlit.record, hlit.neighbours, hlit.routes⟩ (same_restartWait s)
    · exact .inert ⟨rfl, rfl, rfl, rfl, rfl⟩ rfl
  · exact hrefl

theorem attends_frameReceived (x0 : List Octet) (x1 : Octet) (x2 : Octet) (s : State) : Yields (Attends s) (exec (.frameReceived x0 x1 x2) s) := by
  have hrefl := Attends.refl s
  dsimp only [exec, execFrameReceived]
  split
  · rw [yields_next]
    split
    · exact .settle (signals_takeFrame _ _ _ _ _ (Signals.refl s))
    · exact hrefl
  · exact (yields_next _ _).2 hrefl

theorem attends_jamEnd (s : State) : Yields (Attends s) (exec .jamEnd s) := by
  have hrefl := Attends.refl s
  dsimp only [exec, execJamEnd]
  split
  · split
    · rename_i u _ _ _
      have k := writes_jamEnded u (.refl _ s) (List.Subset.refl _)
      exact (yields_next _ _).2 (.settleSend ((Signals.refl s).write k rfl) ((Unlit.refl s).write k rfl))
    · exact (yields_next _ _).2 hrefl
  · exact (yields_next _ _).2 hrefl

theorem attends_transmitComplete (s : State) : Yields (Attends s) (exec .transmitComplete s) := by
  have hrefl := Attends.refl s
  dsimp only [exec, execTransmitComplete]
  split
  · split
    · rename_i u _ _ _ _
      have k := writes_emptyBuffer (writes_tellComplete u.frame (writes_modCounters (ps := .counters :: .shift :: .declared :: .outstanding
        :: Part.offered) (fun c => { c with framesSent := raised c.framesSent }) (.refl _ s) (.inr (by simp)) (.inl rfl)) (by simp)) (by simp)
      exact (yields_next _ _).2 (.settleSend ((Signals.refl s).write k rfl) ((Unlit.refl s).write k rfl))
    · exact (yields_next _ _).2 hrefl
  · exact (yields_next _ _).2 hrefl

theorem attends_abortedTailEnd (s : State) : Yields (Attends s) (exec .abortedTailEnd s) := by
  have hrefl := Attends.refl s
  dsimp only [exec, execAbortedTailEnd]
  split
  · split
    · rename_i u _ _ _ _
      have k := writes_emptyBuffer (writes_tellNotSent u.frame (writes_modCounters (ps := .counters :: .outstanding
        :: Part.offered) (fun c => { c with aborted := raised c.aborted }) (.refl _ s) (.inr (by simp)) (.inl rfl)) (by simp)) (by simp)
      exact (yields_next _ _).2 (.settleSend ((Signals.refl s).write k rfl) ((Unlit.refl s).write k rfl))
    · exact (yields_next _ _).2 hrefl
  · exact (yields_next _ _).2 hrefl

theorem attends_exec (c : Instr) (s : State) : Yields (Attends s) (exec c s) := by
  have hsig := Signals.refl s
  have hlit := Unlit.refl s
  have hsub {ps : List Part} : ps ⊆ ps := List.Subset.refl ps
  cases c with
  | fullReset => exact (yields_next _ _).2 (.reset rfl rfl rfl rfl)
  | restart x0 => exact attends_restart x0 s
  | resetRelease mv source => exact attends_resetRelease mv source s
  | imageLoadDone image => exact attends_imageLoadDone image s
  | joinTimer => exact attends_joinTimer s
  | voltageCrossing x0 x1 => exact attends_voltageCrossing x0 x1 s
  | sourceLineAccept => exact attends_sourceLineAccept s
  | dayWrap => exact attends_dayWrap s
  | comparatorMatch => exact attends_comparatorMatch s
  | summaryTimer => exact attends_summaryTimer s
  | earlySummary => exact attends_earlySummary s
  | markTimer => exact attends_markTimer s
  | advertTimer => exact attends_advertTimer s
  | triggeredAdvert => exact attends_triggeredAdvert s
  | sourceHold x0 => exact attends_sourceHold x0 s
  | requestTimer x0 => exact attends_requestTimer x0 s
  | answerHold => exact attends_answerHold s
  | presenceTimer x0 => exact attends_presenceTimer x0 s
  | senseLineAccept x0 => exact attends_senseLineAccept x0 s
  | programmeItem => exact attends_programmeItem s
  | programmeSummary => exact attends_programmeSummary s
  | itemRequest => exact attends_itemRequest s
  | routeAdvert => exact attends_routeAdvert s
  | cabinReport => exact attends_cabinReport s
  | musterOrder => exact attends_musterOrder s
  | timeMark => exact attends_timeMark s
  | segmentState => exact attends_segmentState s
  | standDownTimer => exact attends_standDownTimer s
  | echoTimer => exact attends_echoTimer s
  | joinPromptEcho => exact attends_joinPromptEcho s
  | sweepRefreshTimer => exact attends_sweepRefreshTimer s
  | pollDue x0 => exact attends_pollDue x0 s
  | busyReleaseStart =>
    dsimp only [exec, execBusyReleaseStart]
    split <;> exact (yields_next _ _).2 (.inert ⟨rfl, rfl, rfl, rfl, rfl⟩ rfl)
  | chainStall => exact attends_chainStall s
  | transactionEnd x0 => exact attends_transactionEnd x0 s
  | chainTimeout => exact attends_chainTimeout s
  | chainResetPulseEnd => exact attends_chainResetPulseEnd s
  | lineTestStart => exact attends_lineTestStart s
  | lineTestEnd x0 x1 x2 => exact attends_lineTestEnd x0 x1 x2 s
  | driveTimer x0 => exact attends_driveTimer x0 s
  | startOctet x0 x1 x2 => exact attends_startOctet x0 x1 x2 s
  | frameHeader =>
    dsimp only [exec, execFrameHeader, takeHeader, shedOrKeep]
    (repeat' split) <;> exact (yields_next _ _).2 (.inert ⟨rfl, rfl, rfl, rfl, rfl⟩ rfl)
  | frameEndShort x0 => exact attends_frameEndShort x0 s
  | frameReceived x0 x1 x2 => exact attends_frameReceived x0 x1 x2 s
  | jamEnd => exact attends_jamEnd s
  | transmitComplete => exact attends_transmitComplete s
  | abortedTailEnd => exact attends_abortedTailEnd s
  | readView | readItem | readCounters => exact (yields_next _ _).2 (attends_portRun rfl)
  | readRoute args => exact (yields_next _ _).2 (attends_portRun (doReadRoute_state args s))
  | readPlate args => exact (yields_next _ _).2 (attends_portRun (doReadPlate_state args s))
  | readRoll args => exact (yields_next _ _).2 (attends_portRun (doReadRoll_state args s))
  | queryRoute args => exact (yields_next _ _).2 (attends_portRun (doQueryRoute_state args s))
  | clearCounters =>
    refine (yields_next _ _).2 ?_
    obtain ⟨f, h⟩ | ⟨f, h⟩ := portRun_cases 0x0A _ doClearCounters s <;> exact h ▸ .inert ⟨rfl, rfl, rfl, rfl, rfl⟩ rfl
  | readEvents | setEventMask => exact (yields_next _ _).2 (attends_eventCommand rfl rfl rfl rfl ⟨rfl, rfl, rfl, rfl, rfl⟩)
  | publishItem args =>
    have k := writes_doPublish args (.refl _ s) hsub
    exact (yields_next _ _).2 (.settleSend (signals_portRun (hsig.write k rfl)) (unlit_portRun (hlit.write k rfl)))
  | withdrawItem args =>
    have k := writes_doWithdraw args (.refl _ s) hsub
    exact (yields_next _ _).2 (.settleSend (signals_portRun (hsig.write k rfl)) (unlit_portRun (hlit.write k rfl)))
  | setTime args =>
    exact (yields_next _ _).2 (.settleSend (signals_portRun (signals_doSetTime args hsig)) (unlit_portRun (unlit_doSetTime args hlit)))
  | declareSegment args => exact (yields_next _ _).2 (.settle (signals_portRun (hsig.write (writes_doDeclare args (.refl _ _) hsub) rfl)))
  | issueOrder args => exact (yields_next _ _).2 (.settle (signals_portRun (signals_doIssueOrder args hsig)))
  | testChain args => exact (yields_next _ _).2 (.settle (signals_portTake (signals_doTestChain _ hsig)))
  | attentionPacing => exact (yields_next _ _).2 (.settled hsig hlit)
  | transmitBegin | collision | backoffEnd | followedFrameEnd | senseLineChange | sourceLineChange | unknownCommand | commandOverrun | responseRead =>
    dsimp only [exec, execTransmitBegin, execCollision, execBackoffEnd, execFollowedFrameEnd, execSenseLineChange, execSourceLineChange,
      execUnknownCommand, execCommandOverrun, execResponseRead, answerBad]
    (repeat' split) <;> exact (yields_next _ _).2 (.inert ⟨rfl, rfl, rfl, rfl, rfl⟩ rfl)

/-! ### The millisecond -/

/-- A millisecond moves neither the attention line nor what the lights are taken from. -/
theorem lampsNow_tick (s : State) : lampsNow (tick s) = lampsNow s := rfl

theorem enabledFlag_tick (s : State) : enabledFlag (tick s) = enabledFlag s := rfl

/-- A millisecond that leaves the line to be given files the end of the pacing. -/
theorem attentionGiven_tick (s : State) : (tick s).attentionGiven := by
  intro hnode hen hpass
  by_cases hline : (tick s).events.attention = true
  · exact .inl hline
  · refine .inr (List.mem_append_right _ (List.mem_append_right _ ?_))
    have hfile : .attentionPacing ∈ dueChain (advance s) := by
      have hdue : ((advance s).node.state ≠ .reset && enabledFlag (advance s) && !(advance s).events.attention && pacingPassed (advance s)) = true := by
        simp only [Bool.and_eq_true, Bool.not_eq_true', decide_eq_true_eq]
        exact ⟨⟨⟨hnode, hen⟩, Bool.eq_false_iff.2 hline⟩, hpass⟩
      exact List.mem_append_right _ (by rw [hdue]; exact List.mem_singleton.2 rfl)
    exact hfile

/-! ### O59 -/

theorem step_keeps_attentionSound {s t : State} (hs : s.attentionSound) (h : step s = .next t) : t.attentionSound :=
  step_keeps (P := State.attentionSound) (fun _ _ => id) (fun _ => id) (fun c u hu v hv => (attends_exec c u v hv).sound hu) hs h

theorem step_keeps_lightsSound {s t : State} (hs : s.lightsSound) (h : step s = .next t) : t.lightsSound :=
  step_keeps (P := State.lightsSound) (fun _ _ => id) (fun _ => id) (fun c u hu v hv => (attends_exec c u v hv).lights hu) hs h

/-- The end of the pacing gives the line; any other command leaves the end of the pacing in the queue. -/
theorem step_keeps_attentionGiven {s t : State} (hs : s.attentionGiven) (h : step s = .next t) : t.attentionGiven := by
  obtain ⟨c, rest, hq, hc⟩ | ⟨-, rfl⟩ := step_cases h
  · have hatt := attends_exec c _ t hc
    have hpending : t.pending = rest := hatt.pending
    intro hnode hen hpass
    by_cases hpacing : c = .attentionPacing
    · subst hpacing
      cases hc
      exact .inl (attention_settled _ hnode hen hpass)
    · by_cases hfiled : .attentionPacing ∈ rest
      · exact .inr (hpending ▸ hfiled)
      · refine .inl (hatt.given (fun hnode' hen' hpass' => ?_) hnode hen hpass)
        obtain hline | hmem := hs hnode' hen' hpass'
        · exact hline
        · rw [hq] at hmem
          rcases List.mem_cons.1 hmem with rfl | hmem
          · exact absurd rfl hpacing
          · exact absurd hmem hfiled
  · exact attentionGiven_tick s

/-- Settles O59: the flight by what every command keeps of it, the attention line and the path lights by their settling at the end of a command. -/
theorem stepKeepsFlightAttentionAndLightsSound : Obligations.StepKeepsFlightAttentionAndLightsSound := by
  unfold Obligations.StepKeepsFlightAttentionAndLightsSound
  exact ⟨fun _ _ => step_keeps_flightSound, fun _ _ => step_keeps_attentionSound, fun _ _ => step_keeps_lightsSound,
    fun _ _ => step_keeps_attentionGiven, fun c s t h => ⟨(attends_exec c s t h).given, (attends_exec c s t h).asserted⟩⟩

end Sys2Proof.Machine
end

