-- ==== Sys2Proof/Proofs/Resets.lean ====
section
/-! PROOFS. The millisecond (O2), the resets (O3, O4, O55) and the release from RESET (O5). -/

namespace Sys2Proof.Machine

/-! ### The millisecond -/

/-- A filter that takes a sample: counted when it is the candidate, else the new candidate. -/
theorem filterStep_eq {α : Type} [DecidableEq α] (sample candidate : α) (run : Nat) :
    filterStep sample candidate run = if sample = candidate then (candidate, if run < 20 then run + 1 else run) else (sample, 1) := rfl

theorem Filter.tick_eq (level : LineLevel) (f : Filter) : f.tick level = match f.candidate with
    | none => f
    | some c =>
      if f.sampled then { f with sampled := false }
      else if level = c then { f with run := if f.run < 20 then f.run + 1 else f.run }
      else { f with candidate := some level, run := 1 } := by
  unfold Filter.tick
  cases hc : f.candidate with
  | none => rfl
  | some c =>
    dsimp only
    rw [filterStep_eq]
    by_cases hlevel : level = c
    · simp [hlevel, ← hc]
    · simp [hlevel]

theorem Supply.tick_eq (node : NodeState) (level : SourceLevel) (p : Supply) : p.tick node level =
    if node = .reset then p
    else if p.sampled then { p with sampled := false }
    else if level = p.candidate then { p with run := if p.run < 20 then p.run + 1 else p.run }
    else { p with candidate := level, run := 1 } := by
  unfold Supply.tick
  rw [filterStep_eq]
  by_cases hlevel : level = p.candidate <;> simp [hlevel]

/-- Settles O2. -/
theorem emptyQueueIsOneMillisecond : Obligations.EmptyQueueIsOneMillisecond := by
  unfold Obligations.EmptyQueueIsOneMillisecond
  intro s hempty
  have hstep : step s = .next (tick s) := by
    unfold step
    rw [hempty]
  refine ⟨tick s, hstep, rfl, fun hunset => ?unset, fun hset hship => ?next, fun hset hship => ⟨?last, ?wrap⟩, rfl, fun l => ?filter, ?supply, rfl⟩
  case unset =>
    show (tickShip s.time).ship = s.time.ship
    simp [tickShip, hunset]
  case next =>
    show (tickShip s.time).ship = s.time.ship.next
    simp [tickShip, hset, hship]
  case last =>
    show (tickShip s.time).ship = .last
    simp [tickShip, hship]
  case wrap =>
    have hwrap : wrapComes s = true := by simp [wrapComes, hset, hship]
    show (s.pending ++ whenDue (wrapComes s) .dayWrap ++ dueCommands (advance s)).head? = some .dayWrap
    simp [hempty, hwrap, whenDue]
  case filter =>
    have hfilter : (tick s).mon.filters[l] = s.mon.filters[l].tick s.pins.sense[l] := by
      show (Vector.ofFn fun l : Fin 8 => s.mon.filters[l].tick s.pins.sense[l])[l] = _
      simp
    rw [hfilter]
    exact Filter.tick_eq _ _
  case supply => exact Supply.tick_eq _ _ _

/-! ### The resets -/

/-- Settles O3. -/
theorem fullResetGivesResetValues : Obligations.FullResetGivesResetValues := by
  unfold Obligations.FullResetGivesResetValues
  exact exec_fullReset

/-- Settles O4: the port is idle, so the sequencer takes the command. -/
theorem restartKeepsItsColumn : Obligations.RestartKeepsItsColumn := by
  unfold Obligations.RestartKeepsItsColumn
  intro args s hnode hport
  exact exec_restart_idle args hnode hport

/-- Settles O55: nothing is held, queued, lit or flagged. -/
theorem resetIsSound : Obligations.ResetIsSound := by
  unfold Obligations.ResetIsSound
  refine ⟨?order, ?pool, queueOk_nil, Nat.zero_le 2, ?line, rfl, fun h => absurd rfl h⟩
  case order => exact ⟨Nat.le_refl 0, Nat.zero_le _, fun _ => ⟨rfl, rfl⟩, fun r hr => by cases hr⟩
  case pool => exact ⟨Nat.zero_le _, fun c h hr => by cases hr⟩
  case line =>
    intro h
    cases h

/-! ### The release from RESET -/

/-- Settles O5. -/
theorem resetReleaseEntersLoading : Obligations.ResetReleaseEntersLoading := by
  unfold Obligations.ResetReleaseEntersLoading
  intro mv source s hreset hvolts
  let u : State := { s with
    supply := { band := firstBand mv, accepted := source, candidate := source, run := 1, sampled := true }
    pins := { s.pins with source := source }
    node := { s.node with state := .loading }
    port := answerRestart s.port }
  have hexec : exec (.resetRelease mv source) s = .next (settleAttention u) := congrArg Host.Outcome.next (if_pos ⟨hreset, hvolts⟩)
  obtain ⟨a, l, hu⟩ := settleAttention_eq u
  refine ⟨_, hexec, ?_⟩
  rw [hu]
  refine ⟨rfl, rfl, rfl, fun hbusy => ?busy, fun hidle => ?idle, rfl, rfl, rfl⟩
  case busy => exact if_pos hbusy
  case idle => exact if_neg hidle

end Sys2Proof.Machine
end

