-- ==== Sys2Proof/Proofs/PortBlocks.lean ====
section
/-! PROOFS. The blocks at the port (R167 to R169, R175): one equation for each thing the port does with a block, and the reads (O35, O36), the event
commands (O52), the refusals (O54) from them. -/

namespace Sys2Proof.Machine

/-- The port with an answer to a block. -/
def State.answered (s : State) (block response : List Octet) : State :=
  { s with port := { s.port with state := .ready, command := block, response := response } }

theorem answer_eq (block response : List Octet) (s : State) : answer block response s = s.answered block response := rfl

theorem tooShort_of_long {code n : Nat} {args : List Octet} (hneeds : argsNeeded code = some n) (horder : code ≠ 0x0E) (hlong : n ≤ args.length) :
    tooShort code args = false := by
  simp [tooShort, hneeds, horder, hlong]

theorem tooShort_of_lt {code n : Nat} {args : List Octet} (hneeds : argsNeeded code = some n) (hshort : args.length < n) :
    tooShort code args = true := by
  simp [tooShort, hneeds, hshort]

/-- A read answers from the state it leaves. -/
theorem portRun_read {code n : Nat} {args : List Octet} {owner : State → State × List Octet} {s : State} (hnode : s.node.state ≠ .reset)
    (hport : s.port.state = .idle) (hstate : (owner s).1 = s) (hread : readCode code = true) (horder : code ≠ 0x0E)
    (hneeds : argsNeeded code = some n) (hlong : n ≤ args.length) :
    portRun code args owner s = s.answered (o8 code :: args) (owner s).2 := by
  rw [portRun_owner owner hnode hport (stateAllows_of_readCode s hread) (tooShort_of_long hneeds horder hlong), hstate, answer_eq]

/-- A block too short for its command. -/
theorem portTake_short {code : Nat} {args : List Octet} (owner : State → State) {s : State} (hnode : s.node.state ≠ .reset)
    (hport : s.port.state = .idle) (hallow : stateAllows code s = true) (hshort : tooShort code args = true) :
    portTake code args owner s = s.answered (o8 code :: args) (invalidFor code s) := by
  simp [portTake, hnode, hport, hallow, hshort, answer_eq]

theorem portRun_short {code : Nat} {args : List Octet} (owner : State → State × List Octet) {s : State} (hnode : s.node.state ≠ .reset)
    (hport : s.port.state = .idle) (hallow : stateAllows code s = true) (hshort : tooShort code args = true) :
    portRun code args owner s = s.answered (o8 code :: args) (invalidFor code s) :=
  portTake_short _ hnode hport hallow hshort

/-! ### The reads -/

theorem unloadedFault_iff (s : State) : unloadedFault s = true ↔ s.node.state = .fault ∧ s.node.config = none := by
  simp [unloadedFault]

/-- Settles O35. -/
theorem queryRouteAnswers : Obligations.QueryRouteAnswers := by
  unfold Obligations.QueryRouteAnswers
  intro args s hnode hport hlong
  refine congrArg Host.Outcome.next ((portRun_read (owner := doQueryRoute args) hnode hport (doQueryRoute_state args s) rfl (by decide) rfl hlong).trans ?_)
  have hresponse : (doQueryRoute args s).2 = (let code := rd16At args 0
      if code < 1 ∨ 1023 < code then [0x03]
      else match effectiveRoute s.route.table s.muster.record.redirects code with
        | none => [0x03]
        | some e => 0x00 :: (le16 code ++ le16 e.code
            ++ [o8 (e.entry.cls.code + 16 * e.entry.state.code), o8 e.entry.distance,
                o8 ((hopStation s.mon.neighbours e.entry).getD 0), opt8 (bearingOf s.mon.neighbours e.entry),
                o8 (b1 e.redirected)])) := by
    unfold doQueryRoute
    dsimp only
    by_cases hrange : 1 ≤ rd16At args 0 ∧ rd16At args 0 ≤ 1023
    · rw [if_pos hrange, if_neg (by omega)]
      unfold effectiveNow
      cases effectiveRoute s.route.table s.muster.record.redirects (rd16At args 0) <;> rfl
    · rw [if_neg hrange, if_pos (by omega)]
      rfl
  rw [hresponse]
  rfl

/-- Settles O36. -/
theorem readsChangeThePortAlone : Obligations.ReadsChangeThePortAlone := by
  unfold Obligations.ReadsChangeThePortAlone
  refine ⟨fun args s hnode hport => ⟨fun hlong => ?view, fun hlong => ?route, fun hempty => ?noRoutes, fun hfew => ?fewRoutes, fun hlong => ?plate,
    fun hlong => ?roll, fun hshort => ?rollShort⟩, fun args s hnode hport hlong => ?item⟩
  case view => exact congrArg Host.Outcome.next (portRun_read (owner := doReadView args) hnode hport rfl rfl (by decide) rfl hlong)
  case route =>
    exact congrArg Host.Outcome.next (portRun_read (owner := doReadRoute args) hnode hport (doReadRoute_state args s) rfl (by decide) rfl hlong)
  case noRoutes => simp [routesPart, hempty]; rfl
  case fewRoutes => simp [routesPart, List.drop_eq_nil_of_le hfew]
  case plate =>
    exact congrArg Host.Outcome.next (portRun_read (owner := doReadPlate args) hnode hport (doReadPlate_state args s) rfl (by decide) rfl hlong)
  case roll =>
    refine congrArg Host.Outcome.next
      ((portRun_read (owner := doReadRoll args) hnode hport (doReadRoll_state args s) rfl (by decide) rfl hlong).trans ?_)
    refine congrArg (s.answered (0x06 :: args)) ?_
    by_cases hfault : s.node.state = .fault ∧ s.node.config = none
    · rw [if_pos hfault]
      exact if_pos ((unloadedFault_iff s).2 hfault)
    · rw [if_neg hfault]
      exact if_neg (hfault ∘ (unloadedFault_iff s).1)
  case rollShort =>
    exact congrArg Host.Outcome.next (portRun_short (code := 0x06) (doReadRoll args) hnode hport (stateAllows_of_readCode s rfl) (tooShort_of_lt rfl hshort))
  case item =>
    refine congrArg Host.Outcome.next ((portRun_read (owner := doReadItem args) hnode hport rfl rfl (by decide) rfl hlong).trans ?_)
    refine congrArg (s.answered (0x02 :: args)) ?_
    by_cases hfault : s.node.state = .fault ∧ s.node.config = none
    · rw [if_pos hfault]
      exact if_pos ((unloadedFault_iff s).2 hfault)
    · rw [if_neg hfault]
      refine (if_neg (hfault ∘ (unloadedFault_iff s).1)).trans ?_
      split
      · rfl
      · cases s.store.table[(octetAt args 0).toNat]? with
        | none => rfl
        | some e =>
          have hphase : o8 e.phase.code = match e.phase with | .pending => 0 | .onNow => 1 := by cases e.phase <;> rfl
          exact congrArg (fun x => 0x00 :: (e.body.octets ++ [x])) hphase

/-! ### The target of a plate -/

theorem mustering_iff (l : Layout) : l.mustering = true ↔ l = .muster ∨ l = .standDown := by cases l <;> simp [Layout.mustering]

/-- Settles O51. -/
theorem targetFollowsItsInputs : Obligations.TargetFollowsItsInputs := by
  unfold Obligations.TargetFollowsItsInputs
  intro node r p
  refine ⟨?layout, rfl, ?drill, ?mark, ?dnd, ?mur⟩
  case layout =>
    show layoutFor node r.level = _
    unfold layoutFor
    cases r.level <;> rfl
  case drill =>
    show (_ && _) = true ↔ _
    rw [Bool.and_eq_true, mustering_iff]
    rfl
  case mark =>
    show (if (layoutFor node r.level).mustering = true then _ else _) = _
    simp only [mustering_iff]
    rfl
  case dnd => simp [targetFor]
  case mur => simp [targetFor]

/-! ### The event commands -/

/-- What settling makes of the line outside RESET (R172). -/
theorem attention_settleAttention {u : State} (hnode : u.node.state ≠ .reset) :
    (settleAttention u).events.attention = (enabledFlag u && (u.events.attention || pacingPassed u)) := by
  unfold settleAttention
  cases hflag : enabledFlag u <;> cases hline : u.events.attention <;> cases hpass : pacingPassed u <;> simp [hnode, State.modEvents, hline]

theorem lastAssert_settleAttention {u : State} (hnode : u.node.state ≠ .reset) : (settleAttention u).events.lastAssert =
    if u.events.attention = false ∧ (settleAttention u).events.attention = true then some u.time.now else u.events.lastAssert := by
  unfold settleAttention
  cases hflag : enabledFlag u <;> cases hline : u.events.attention <;> cases hpass : pacingPassed u <;> simp [hnode, State.modEvents, hline]

/-- What settling makes of a state whose line, last assertion and pacing are those of another. -/
theorem settled_line {s u : State} (hnode : u.node.state ≠ .reset) (hline : u.events.attention = s.events.attention)
    (hlast : u.events.lastAssert = s.events.lastAssert) (hsame : u.node = s.node) (hnow : u.time.now = s.time.now) :
    (settleAttention u).events.attention = (enabledFlag (settleAttention u) && (s.events.attention || pacingPassed s))
    ∧ (settleAttention u).events.lastAssert = if s.events.attention = false ∧ (settleAttention u).events.attention = true
        then some s.time.now else s.events.lastAssert := by
  constructor
  · rw [enabledFlag_settleAttention, attention_settleAttention hnode, hline, pacingPassed_congr hsame hnow hlast]
  · rw [lastAssert_settleAttention hnode, hline, hlast, hnow]

/-- Settles O52. -/
theorem eventCommands : Obligations.EventCommands := by
  unfold Obligations.EventCommands
  intro args s hnode hport hlong
  refine ⟨?read, fun hpart => ?mask⟩
  case read =>
    let u : State := { s with
      events := { s.events with flags := s.events.flags &&& ~~~ rdHalf (octetAt args 0) (octetAt args 1) }
      port := { s.port with
        state := .ready, command := 0x07 :: args, overrun := false,
        response := 0x00 :: half16 s.events.flags ++ [if s.port.overrun then 1 else 0] } }
    have hoverrun : o8 (b1 s.port.overrun) = if s.port.overrun then 1 else 0 := by cases s.port.overrun <;> rfl
    have hrun : portRun 0x07 args (doReadEvents args) s = u := by
      rw [portRun_owner (doReadEvents args) hnode hport (stateAllows_of_readCode s rfl) (tooShort_of_long rfl (by decide) hlong)]
      simp only [doReadEvents, hoverrun]
      rfl
    obtain ⟨hatt, hlast⟩ := settled_line (s := s) (u := u) hnode rfl rfl rfl rfl
    refine ⟨settleAttention u, congrArg (Host.Outcome.next ∘ settleAttention) hrun, ?_, ?_, hatt, hlast, ?_⟩ <;>
      (obtain ⟨a, l, hu⟩ := settleAttention_eq u; rw [hu])
  case mask =>
    let u : State := { s with
      events := { s.events with enables := rdHalf (octetAt args 0) (octetAt args 1) }
      port := { s.port with
        state := .ready, command := 0x08 :: args, response := 0x00 :: half16 (rdHalf (octetAt args 0) (octetAt args 1)) } }
    have hrun : portRun 0x08 args (doSetEventMask args) s = u :=
      portRun_owner (doSetEventMask args) hnode hport (stateAllows_of_participates _ hpart) (tooShort_of_long rfl (by decide) hlong)
    obtain ⟨hatt, hlast⟩ := settled_line (s := s) (u := u) hnode rfl rfl rfl rfl
    refine ⟨settleAttention u, congrArg (Host.Outcome.next ∘ settleAttention) hrun, ?_, ?_, hatt, hlast, ?_⟩ <;>
      (obtain ⟨a, l, hu⟩ := settleAttention_eq u; rw [hu])

/-! ### The refusals of the port -/

theorem argsNeeded_eq_none {code : Nat} (h : code = 0 ∨ 0x11 < code) : argsNeeded code = none := by
  unfold argsNeeded
  split <;> first | omega | rfl

theorem tooShort_of_issueArgsShort {args : List Octet} (h : issueArgsShort args = true) : tooShort 0x0E args = true := by
  simp [tooShort, h]

theorem badBlock_unknown {c : Octet} (args : List Octet) (h : c.toNat = 0 ∨ 0x11 < c.toNat) : badBlock (c :: args) = some none := by
  simp [badBlock, argsNeeded_eq_none h]

theorem badBlock_short {c : Octet} {args : List Octet} {n : Nat} (hneeds : argsNeeded c.toNat = some n) (hshort : tooShort c.toNat args = true) :
    badBlock (c :: args) = some (some c.toNat) := by
  simp [badBlock, hneeds, hshort]

/-- A bad block at an idle port outside RESET. -/
theorem exec_unknownCommand_idle {block : List Octet} {code : Option Nat} {s : State} (hbad : badBlock block = some code)
    (hnode : s.node.state ≠ .reset) (hport : s.port.state = .idle) : exec (.unknownCommand block) s = .next (answerBad block code s) := by
  show execUnknownCommand block s = _
  simp [execUnknownCommand, hbad, hnode, hport]

theorem answerBad_short {block : List Octet} {code : Nat} {s : State} (hallow : stateAllows code s = true) :
    answerBad block (some code) s = s.answered block (invalidFor code s) := by
  simp [answerBad, hallow, answer_eq]

theorem answerBad_notReady {block : List Octet} {code : Nat} {s : State} (hrefuse : stateAllows code s = false) :
    answerBad block (some code) s = s.answered block [0x01] := by
  simp [answerBad, hrefuse, answer_eq]
  rfl

theorem head_eq_roll_iff (c : Octet) (args : List Octet) : (c :: args).head? = some 0x06 ↔ c.toNat = 6 := by
  simp [← BitVec.toNat_inj]

theorem invalidFor_eq (code : Nat) (s : State) : invalidFor code s = if code = 6 then 0x03 :: le16 s.muster.roll.length else [0x03] := rfl

/-- UNKNOWN COMMAND in JOINING or RUN. -/
theorem exec_unknownCommand_participating {block : List Octet} {s : State} (hpart : participates s = true) (hport : s.port.state = .idle)
    (hblock : match block with
      | [] => True
      | c :: args => c.toNat = 0 ∨ 0x11 < c.toNat ∨ (∃ n, argsNeeded c.toNat = some n ∧ args.length < n)
          ∨ (c.toNat = 0x0E ∧ (octetAt args 1).toNat ≤ 4 ∧ args.length < 4 + 4 * (octetAt args 1).toNat)) :
    exec (.unknownCommand block) s = .next (s.answered block
      (if block.head? = some 0x06 then 0x03 :: le16 s.muster.roll.length else [0x03])) := by
  have hnode := not_reset_of_participates hpart
  cases block with
  | nil => exact exec_unknownCommand_idle (code := none) rfl hnode hport
  | cons c args =>
    have short {n : Nat} (hneeds : argsNeeded c.toNat = some n) (hshort : tooShort c.toNat args = true) :
        exec (.unknownCommand (c :: args)) s = .next (s.answered (c :: args)
          (if (c :: args).head? = some 0x06 then 0x03 :: le16 s.muster.roll.length else [0x03])) := by
      rw [exec_unknownCommand_idle (badBlock_short hneeds hshort) hnode hport, answerBad_short (stateAllows_of_participates _ hpart), invalidFor_eq]
      simp only [head_eq_roll_iff]
    have unknown (h : c.toNat = 0 ∨ 0x11 < c.toNat) : exec (.unknownCommand (c :: args)) s = .next (s.answered (c :: args)
          (if (c :: args).head? = some 0x06 then 0x03 :: le16 s.muster.roll.length else [0x03])) := by
      rw [exec_unknownCommand_idle (badBlock_unknown args h) hnode hport, if_neg (by rw [head_eq_roll_iff]; omega)]
      rfl
    rcases hblock with h | h | ⟨n, hneeds, hlen⟩ | ⟨horder, hcount, hlen⟩
    · exact unknown (.inl h)
    · exact unknown (.inr h)
    · exact short hneeds (tooShort_of_lt hneeds hlen)
    · refine short (n := 4) (by rw [horder]; rfl) ?_
      rw [horder]
      exact tooShort_of_issueArgsShort (by simp [issueArgsShort]; omega)

theorem not_reset_of_aside {s : State} (haside : s.node.state = .loading ∨ s.node.state = .chainTest ∨ s.node.state = .fault) :
    s.node.state ≠ .reset := by
  rcases haside with h | h | h <;> simp [h]

/-- The codes of the known commands that those states take are 1 to 7, of the commands with arguments. -/
theorem readCode_of_argsNeeded {code n : Nat} (hneeds : argsNeeded code = some n) (hn : 0 < n) : readCode code = decide (code ≤ 7) := by
  unfold argsNeeded at hneeds
  split at hneeds <;> cases hneeds <;> first | rfl | omega

theorem steady_answered (s : State) (block response : List Octet) : (s.answered block response).steady =
    { s.steady with port := { s.port with state := .ready, command := block, response := response } } := rfl

/-- The end of a command that leaves the steady parts. -/
def KeepsSteady (f : State → State) : Prop := ∀ u, (f u).steady = u.steady

theorem keepsSteady_settle : KeepsSteady settle := steady_settle

theorem keepsSteady_settleSend : KeepsSteady settleSend := steady_settleSend

theorem keepsSteady_settleAttention : KeepsSteady settleAttention := steady_settleAttention

theorem keepsSteady_id : KeepsSteady id := fun _ => rfl

/-- The port refuses with NOT READY, and the end of the command leaves the steady parts. -/
theorem steady_portTake_notReady {f : State → State} (hf : KeepsSteady f) {code : Nat} {args : List Octet} (owner : State → State) {s : State}
    (hnode : s.node.state ≠ .reset) (hport : s.port.state = .idle) (hrefuse : stateAllows code s = false) :
    (f (portTake code args owner s)).steady =
      { s.steady with port := { s.port with state := .ready, command := o8 code :: args, response := [0x01] } } := by
  rw [hf, portTake_notReady args owner hnode hport hrefuse]
  rfl

theorem steady_portTake_short {f : State → State} (hf : KeepsSteady f) {code : Nat} {args : List Octet} (owner : State → State) {s : State}
    (hnode : s.node.state ≠ .reset) (hport : s.port.state = .idle) (hallow : stateAllows code s = true) (hshort : tooShort code args = true)
    (hroll : code ≠ 6) : (f (portTake code args owner s)).steady =
      { s.steady with port := { s.port with state := .ready, command := o8 code :: args, response := [0x03] } } := by
  rw [hf, portTake_short owner hnode hport hallow hshort, invalidFor_eq, if_neg hroll]
  rfl

/-- Settles O54: each clause is one branch of the port. -/
theorem blocksAtThePort : Obligations.BlocksAtThePort := by
  unfold Obligations.BlocksAtThePort
  refine ⟨fun block s hpart hport hblock => ?_, ⟨fun block s hnode hport => ?overrun, fun s hready => ?read, fun s hnode hen hline hpass => ?pacing⟩,
    fun c code args s hmem haside hport => ?notReady, fun c code n args s hmem hpart hport hlen => ?short,
    fun block s haside hport => ⟨fun hunknown => ?asideUnknown, fun c args n hblock hneeds hlen => ?asideShort⟩⟩
  · exact exec_unknownCommand_participating hpart hport hblock
  case overrun => exact congrArg Host.Outcome.next (if_pos ⟨hnode, hport⟩)
  case read => exact congrArg Host.Outcome.next (if_pos hready)
  case pacing =>
    refine congrArg Host.Outcome.next ?_
    simp [settleAttention, hnode, hen, hline, hpass, State.modEvents]
  case notReady =>
    have hnode := not_reset_of_aside haside
    have hrefuse {n : Nat} (hn : readCode n = false) : stateAllows n s = false := (stateAllows_of_aside n haside).trans hn
    simp only [List.mem_cons, List.not_mem_nil, Prod.mk.injEq, or_false] at hmem
    rcases hmem with ⟨rfl, rfl⟩ | ⟨rfl, rfl⟩ | ⟨rfl, rfl⟩ | ⟨rfl, rfl⟩ | ⟨rfl, rfl⟩ | ⟨rfl, rfl⟩ | ⟨rfl, rfl⟩
    · exact ⟨_, rfl, steady_portTake_notReady keepsSteady_settleAttention _ hnode hport (hrefuse rfl)⟩
    · exact ⟨_, rfl, steady_portTake_notReady keepsSteady_settleSend _ hnode hport (hrefuse rfl)⟩
    · exact ⟨_, rfl, steady_portTake_notReady keepsSteady_settleSend _ hnode hport (hrefuse rfl)⟩
    · exact ⟨_, rfl, steady_portTake_notReady keepsSteady_settleSend _ hnode hport (hrefuse rfl)⟩
    · exact ⟨_, rfl, steady_portTake_notReady keepsSteady_settle _ hnode hport (hrefuse rfl)⟩
    · exact ⟨_, rfl, steady_portTake_notReady keepsSteady_settle _ hnode hport (hrefuse rfl)⟩
    · exact ⟨_, rfl, steady_portTake_notReady keepsSteady_settle _ hnode hport (hrefuse rfl)⟩
  case short =>
    have hnode := not_reset_of_participates hpart
    have hallow {n : Nat} : stateAllows n s = true := stateAllows_of_participates n hpart
    have hshort {code : Octet} {n : Nat} (hneeds : argsNeeded code.toNat = some n) (h : args.length < n
        ∨ (code = 0x0E ∧ (octetAt args 1).toNat ≤ 4 ∧ args.length < 4 + 4 * (octetAt args 1).toNat)) : tooShort code.toNat args = true := by
      rcases h with h | ⟨rfl, hcount, hlen⟩
      · exact tooShort_of_lt hneeds h
      · exact tooShort_of_issueArgsShort (by simp [issueArgsShort]; omega)
    simp only [List.mem_cons, List.not_mem_nil, Prod.mk.injEq, or_false] at hmem
    rcases hmem with ⟨rfl, rfl, rfl⟩ | ⟨rfl, rfl, rfl⟩ | ⟨rfl, rfl, rfl⟩ | ⟨rfl, rfl, rfl⟩ | ⟨rfl, rfl, rfl⟩ | ⟨rfl, rfl, rfl⟩ | ⟨rfl, rfl, rfl⟩
      | ⟨rfl, rfl, rfl⟩ | ⟨rfl, rfl, rfl⟩ | ⟨rfl, rfl, rfl⟩ | ⟨rfl, rfl, rfl⟩ | ⟨rfl, rfl, rfl⟩
    · exact ⟨_, rfl, steady_portTake_short keepsSteady_id _ hnode hport hallow (hshort rfl hlen) (by decide)⟩
    · exact ⟨_, rfl, steady_portTake_short keepsSteady_id _ hnode hport hallow (hshort rfl hlen) (by decide)⟩
    · exact ⟨_, rfl, steady_portTake_short keepsSteady_id _ hnode hport hallow (hshort rfl hlen) (by decide)⟩
    · exact ⟨_, rfl, steady_portTake_short keepsSteady_id _ hnode hport hallow (hshort rfl hlen) (by decide)⟩
    · exact ⟨_, rfl, steady_portTake_short keepsSteady_id _ hnode hport hallow (hshort rfl hlen) (by decide)⟩
    · exact ⟨_, rfl, steady_portTake_short keepsSteady_settleAttention _ hnode hport hallow (hshort rfl hlen) (by decide)⟩
    · exact ⟨_, rfl, steady_portTake_short keepsSteady_settleAttention _ hnode hport hallow (hshort rfl hlen) (by decide)⟩
    · exact ⟨_, rfl, steady_portTake_short keepsSteady_settleSend _ hnode hport hallow (hshort rfl hlen) (by decide)⟩
    · exact ⟨_, rfl, steady_portTake_short keepsSteady_settleSend _ hnode hport hallow (hshort rfl hlen) (by decide)⟩
    · exact ⟨_, rfl, steady_portTake_short keepsSteady_settleSend _ hnode hport hallow (hshort rfl hlen) (by decide)⟩
    · exact ⟨_, rfl, steady_portTake_short keepsSteady_settle _ hnode hport hallow (hshort rfl hlen) (by decide)⟩
    · exact ⟨_, rfl, steady_portTake_short keepsSteady_settle _ hnode hport hallow (hshort rfl hlen) (by decide)⟩
  case asideUnknown =>
    have hnode := not_reset_of_aside haside
    cases block with
    | nil => exact exec_unknownCommand_idle (code := none) rfl hnode hport
    | cons c args => exact exec_unknownCommand_idle (badBlock_unknown args hunknown) hnode hport
  case asideShort =>
    subst hblock
    have hread := readCode_of_argsNeeded hneeds (by omega)
    rw [exec_unknownCommand_idle (badBlock_short hneeds (tooShort_of_lt hneeds hlen)) (not_reset_of_aside haside) hport]
    by_cases hcode : c.toNat ≤ 7
    · rw [answerBad_short ((stateAllows_of_aside _ haside).trans (by simp [hread, hcode])), invalidFor_eq, if_pos hcode]
      rfl
    · rw [answerBad_notReady ((stateAllows_of_aside _ haside).trans (by simp [hread, hcode])), if_neg (by omega), if_neg hcode]
      rfl

end Sys2Proof.Machine
end

