-- ==== Sys2Proof/Proofs/Receiver.lean ====
section
/-! PROOFS. The receiver (O13, O14) and the start and the collision of a frame that is sent (O16). -/

namespace Sys2Proof.Machine

/-! ### The start bit of a frame and the wait of the buffer (R28) -/

theorem restartWait_waiting {s : State} {u : TxBuffer} {n : Nat} (hbuffer : s.bus.buffer = some u) (hphase : u.phase = .waiting n) :
    ∃ m, m ≤ 7 ∧ restartWait s = { s with bus := { s.bus with buffer := some { u with phase := .waiting m } }, free := s.free + 1 } := by
  refine ⟨drawValue 0 7 s, (drawValue_range 0 7 s (by omega)).2, ?_⟩
  simp [restartWait, hbuffer, hphase, enterWaiting, setPhase, waitingPhase, State.modBus, drawn, State.modFree]

theorem restartWait_idle {s : State} (h : ∀ u n, s.bus.buffer = some u → u.phase ≠ .waiting n) : restartWait s = s := by
  unfold restartWait
  split
  · split
    · exact absurd ‹_› (h _ _ ‹_›)
    · rfl
  · rfl

/-- The start bit touches the buffer and the free draws alone. -/
theorem restartWait_eq (s : State) : ∃ b n, restartWait s = { s with bus := { s.bus with buffer := b }, free := n } := by
  by_cases h : ∀ u n, s.bus.buffer = some u → u.phase ≠ .waiting n
  · exact ⟨s.bus.buffer, s.free, restartWait_idle h⟩
  · push Not at h
    obtain ⟨u, n, hbuffer, hphase⟩ := h
    obtain ⟨m, -, hm⟩ := restartWait_waiting hbuffer hphase
    exact ⟨_, _, hm⟩

theorem takeStart_good {octet : Octet} {good : Bool} {s : State} (h : octet = 0xC5 ∧ good = true) :
    takeStart octet good s = setReceiver (.frame s.time.now none) s := if_pos h

theorem takeStart_bad {octet : Octet} {good : Bool} {s : State} (h : ¬ (octet = 0xC5 ∧ good = true)) : takeStart octet good s = countFraming s :=
  if_neg h

theorem shortApplies_iff (cause : ShortCause) (r : Receiver) : shortApplies cause r = true ↔ match cause with
    | .badStop | .silence => ∃ capture head, r = .frame capture head
    | .badStartOctet => r = .hunt := by
  cases cause <;> cases r <;> simp [shortApplies, Receiver.inFrame]

/-- Settles O13. -/
theorem framesBeginAndAreCut : Obligations.FramesBeginAndAreCut := by
  unfold Obligations.FramesBeginAndAreCut
  refine ⟨fun idle octet good s hpart hsend hhunt hidle => ?begins, fun cause s hpart happlies => ?cut, fun len s hfollow => ?followed⟩
  case begins =>
    have hexec : exec (.startOctet idle octet good) s = .next (takeStart octet good (restartWait s)) := by
      refine congrArg Host.Outcome.next ((if_pos ⟨hpart, hsend, hhunt⟩).trans ?_)
      exact if_pos hidle
    have hwait {u : TxBuffer} {n : Nat} := @restartWait_waiting s u n
    have hidle := @restartWait_idle s
    obtain ⟨b, n, hrestart⟩ := restartWait_eq s
    rw [hrestart] at hexec hwait hidle
    by_cases hgood : octet = 0xC5 ∧ good = true
    · rw [takeStart_good hgood] at hexec
      refine ⟨_, hexec, by rw [if_pos hgood]; rfl, by rw [if_pos hgood]; rfl, fun u n hbuffer hphase => ?_, fun h => ?_, rfl⟩
      · obtain ⟨m, hm, heq⟩ := hwait hbuffer hphase
        exact ⟨m, hm, congrArg (·.bus.buffer) heq⟩
      · exact congrArg (·.bus.buffer) (hidle h)
    · rw [takeStart_bad hgood] at hexec
      refine ⟨_, hexec, by rw [if_neg hgood, ← hhunt]; rfl, by rw [if_neg hgood]; rfl, fun u n hbuffer hphase => ?_, fun h => ?_, rfl⟩
      · obtain ⟨m, hm, heq⟩ := hwait hbuffer hphase
        exact ⟨m, hm, congrArg (·.bus.buffer) heq⟩
      · exact congrArg (·.bus.buffer) (hidle h)
  case cut =>
    have hexec : exec (.frameEndShort cause) s = .next (setReceiver .hunt (countFraming (if cause = .badStartOctet then restartWait s else s))) :=
      congrArg Host.Outcome.next (if_pos ⟨hpart, (shortApplies_iff cause _).2 happlies⟩)
    have hwait {u : TxBuffer} {n : Nat} := @restartWait_waiting s u n
    have hidle := @restartWait_idle s
    obtain ⟨b, n, hrestart⟩ := restartWait_eq s
    rw [hrestart] at hexec hwait hidle
    by_cases hstart : cause = .badStartOctet
    · rw [if_pos hstart] at hexec
      refine ⟨_, hexec, rfl, rfl, fun _ u n hbuffer hphase => ?_, fun h => ?_, rfl⟩
      · obtain ⟨m, hm, heq⟩ := hwait hbuffer hphase
        exact ⟨m, hm, congrArg (·.bus.buffer) heq⟩
      · have heq := hidle (h.resolve_left (not_not_intro hstart))
        exact ⟨congrArg (·.bus.buffer) heq, congrArg (·.free) heq⟩
    · rw [if_neg hstart] at hexec
      exact ⟨_, hexec, rfl, rfl, fun h => absurd h hstart, fun _ => ⟨rfl, rfl⟩, rfl⟩
  case followed =>
    show execFollowedFrameEnd s = _
    simp [execFollowedFrameEnd, hfollow, setReceiver, State.modBus]

/-! ### The header (R17, R23) -/

theorem exec_frameHeader {kind source dest seq len : Octet} {capture : Tick} {s : State} (hpart : participates s = true)
    (hframe : s.bus.receiver = .frame capture none) :
    exec (.frameHeader kind source dest seq len) s = .next (takeHeader capture (readHeader kind source dest seq len) s) := by
  show execFrameHeader kind source dest seq len s = _
  simp [execFrameHeader, hframe, hpart]

theorem keepsDestination_iff (dest : Nat) (s : State) :
    keepsDestination dest s = true ↔ ownStation s = some dest ∨ dest = 255 ∨ (dest = 128 ∧ (roles s).console = true) := by
  simp [keepsDestination, or_assoc]

/-- Settles O14: the branches of the header in the order of the claim. -/
theorem frameHeaderIsSorted : Obligations.FrameHeaderIsSorted := by
  unfold Obligations.FrameHeaderIsSorted
  intro kind source dest seq len capture s hpart hframe
  simp only [exec_frameHeader hpart hframe]
  cases hkind : kindOf kind.toNat with
  | none =>
    simp [readHeader, hkind, takeHeader, setReceiver, countFraming, State.modBus, State.modCounters]
  | some k =>
    dsimp only
    split
    · have hbad : readHeader kind source dest seq len = none := by
        simp only [readHeader, hkind]
        exact if_neg (by omega)
      rw [hbad]
      rfl
    · have hgood : readHeader kind source dest seq len = some { kind := k, source := source.toNat, dest := dest.toNat, seq, len := len.toNat } := by
        simp only [readHeader, hkind]
        exact if_pos (by omega)
      rw [hgood]
      simp only [takeHeader, ← keepsDestination_iff]
      by_cases hkeep : keepsDestination dest.toNat s = true
      · simp only [hkeep, not_true_eq_false, if_true, if_false, shedOrKeep]
        by_cases hfull : freeSlots s = 0
        · simp only [hfull, if_true]
          rfl
        · simp only [hfull, if_false]
          generalize k.cls = c
          cases c with
          | routine => by_cases hshed : freeSlots s ≤ 6 <;> simp only [FrameClass.limit, hshed, if_true, if_false] <;> rfl
          | route => by_cases hshed : freeSlots s ≤ 2 <;> simp only [FrameClass.limit, hshed, if_true, if_false] <;> rfl
          | urgent => by_cases hshed : freeSlots s ≤ 0 <;> simp only [FrameClass.limit, hshed, if_true, if_false] <;> rfl
      · simp only [hkeep]
        rfl

/-! ### Sending begins and collides (R28, R29) -/

theorem gap_eq (c : FrameClass) : c.gap = match c with | .urgent => 12 | .route => 20 | .routine => 28 := by cases c <;> rfl

/-- Settles O16. -/
theorem sendingBeginsAndCollides : Obligations.SendingBeginsAndCollides := by
  unfold Obligations.SendingBeginsAndCollides
  refine ⟨fun idle spread u own s hpart hbuffer hphase hown hidle => ?begins, fun u wire s hbuffer hphase => ?collides⟩
  case begins =>
    show execTransmitBegin idle s = _
    simp only [execTransmitBegin, hbuffer, hphase]
    refine congrArg Host.Outcome.next ((if_pos ⟨hpart, ?_⟩).trans ?_)
    · simp [beginSending, hown, State.modBus, atStartBit]
    · rw [gap_eq]
      exact hidle
  case collides =>
    show execCollision s = _
    simp [execCollision, hbuffer, hphase, State.modBus, State.modCounters]

end Sys2Proof.Machine
end

