-- ==== Sys2Proof/Proofs/Footprints.lean ====
section
/-! PROOFS. What a footprint (`Writes`) leaves of whole components, and the flags it keeps set. -/

namespace Sys2Proof.Machine

/-! ### Event flags -/

theorem Event.mask_ne_zero (e : Event) : e.mask ≠ 0 := by cases e <;> decide

theorem eventSet_iff (e : Event) (s : State) : eventSet e s = true ↔ s.events.flags &&& e.mask ≠ 0 := by simp [eventSet]

theorem eventSet_setEvent (e : Event) (s : State) : eventSet e (setEvent e s) = true := by
  rw [eventSet_iff]
  show (s.events.flags ||| e.mask) &&& e.mask ≠ 0
  rw [BitVec.and_comm, BitVec.or_comm, show e.mask &&& (e.mask ||| s.events.flags) = e.mask by ext; simp +contextual]
  exact e.mask_ne_zero

theorem eventSet_setEventIf {c : Bool} (h : c = true) (e : Event) (s : State) : eventSet e (setEventIf c e s) = true := by
  rw [setEventIf, if_pos h]
  exact eventSet_setEvent e s

theorem eventSet_of_flags {e : Event} {s t : State} {m : Half} (hm : t.events.flags = s.events.flags ||| m) (h : eventSet e s = true) :
    eventSet e t = true := by
  rw [eventSet_iff] at h ⊢
  intro hzero
  refine h ?_
  have hsplit : (s.events.flags ||| m) &&& e.mask = (s.events.flags &&& e.mask) ||| (m &&& e.mask) := by ext; simp [Bool.and_or_distrib_right]
  rw [hm, hsplit] at hzero
  exact (BitVec.or_eq_zero_iff.1 hzero).1

/-! ### Components left alone -/

section

variable {ps : List Part} {r s : State}

/-- A set flag stays set. -/
theorem Writes.eventSet (h : Writes ps r s) {e : Event} (hset : eventSet e r = true) : eventSet e s = true := by
  obtain ⟨m, hm⟩ := h.flags
  exact eventSet_of_flags hm hset

theorem Writes.now (h : Writes ps r s) : s.time.now = r.time.now := congrArg Kept.now h.kept
theorem Writes.node (h : Writes ps r s) : s.node = r.node := congrArg Kept.node h.kept
theorem Writes.port (h : Writes ps r s) : s.port = r.port := congrArg Kept.port h.kept
theorem Writes.supply (h : Writes ps r s) : s.supply = r.supply := congrArg Kept.supply h.kept
theorem Writes.pins (h : Writes ps r s) : s.pins = r.pins := congrArg Kept.pins h.kept
theorem Writes.pending (h : Writes ps r s) : s.pending = r.pending := congrArg Kept.pending h.kept
theorem Writes.record (h : Writes ps r s) : s.muster.record = r.muster.record := congrArg Kept.record h.kept
theorem Writes.highestSeen (h : Writes ps r s) : s.muster.highestSeen = r.muster.highestSeen := congrArg Kept.highestSeen h.kept
theorem Writes.authorities (h : Writes ps r s) : s.muster.authorities = r.muster.authorities := congrArg Kept.authorities h.kept
theorem Writes.receiver (h : Writes ps r s) : s.bus.receiver = r.bus.receiver := congrArg Kept.receiver h.kept
theorem Writes.timeQ (h : Writes ps r s) : s.bus.timeQ = r.bus.timeQ := congrArg Kept.timeQ h.kept
theorem Writes.programmeQ (h : Writes ps r s) : s.bus.programmeQ = r.bus.programmeQ := congrArg Kept.programmeQ h.kept
theorem Writes.routeQ (h : Writes ps r s) : s.bus.routeQ = r.bus.routeQ := congrArg Kept.routeQ h.kept
theorem Writes.musterQ (h : Writes ps r s) : s.bus.musterQ = r.bus.musterQ := congrArg Kept.musterQ h.kept
theorem Writes.level (h : Writes ps r s) : level s = level r := congrArg OrderRecord.level h.record
theorem Writes.roles (h : Writes ps r s) : roles s = roles r := by unfold Machine.roles; rw [h.node]
theorem Writes.participates (h : Writes ps r s) : participates s = participates r := by unfold Machine.participates; rw [h.node]
theorem Writes.supplyState (h : Writes ps r s) : supplyState s = supplyState r := by unfold Machine.supplyState; rw [h.supply]

/-- A part outside the footprint, with the test done by evaluation. -/
theorem Writes.same (h : Writes ps r s) (p : Part) (hp : ps.contains p = false) : p.same r s := h.parts p (not_mem_of_contains hp)

theorem Writes.store (h : Writes ps r s) (hp : ps.contains .store = false) : s.store = r.store := h.same .store hp

/-- None of the parts stands in the footprint. -/
def Part.apart (parts ps : List Part) : Bool := parts.all fun p => !ps.contains p

theorem Writes.sameOf {parts : List Part} (h : Writes ps r s) (hp : Part.apart parts ps = true) {p : Part} (hmem : p ∈ parts) : p.same r s :=
  h.same p (by simpa using List.all_eq_true.1 hp p hmem)

theorem Writes.time (h : Writes ps r s) (hp : Part.apart [.isSet, .ship, .sources, .shift, .markTimer] ps = true) : s.time = r.time := by
  have hset : s.time.isSet = r.time.isSet := h.sameOf hp (p := .isSet) (by simp)
  have hship : s.time.ship = r.time.ship := h.sameOf hp (p := .ship) (by simp)
  have hsources : s.time.sources = r.time.sources := h.sameOf hp (p := .sources) (by simp)
  have hshift : s.time.pendingShift = r.time.pendingShift := h.sameOf hp (p := .shift) (by simp)
  have hmark : s.time.markTimer = r.time.markTimer := h.sameOf hp (p := .markTimer) (by simp)
  exact (Timebase.mk.injEq ..).mpr ⟨h.now, hset, hship, hsources, hshift, hmark⟩

theorem Writes.mon (h : Writes ps r s) (hp : Part.apart [.neighbours, .filters, .declared] ps = true) : s.mon = r.mon :=
  (Monitor.mk.injEq ..).mpr ⟨h.sameOf hp (p := .neighbours) (by simp), h.sameOf hp (p := .filters) (by simp), h.sameOf hp (p := .declared) (by simp)⟩

theorem Writes.route (h : Writes ps r s) (hp : Part.apart Part.advertised ps = true) : s.route = r.route :=
  (RouteEngine.mk.injEq ..).mpr ⟨h.sameOf hp (p := .routes) (by simp), h.sameOf hp (p := .advertTimer) (by simp),
    h.sameOf hp (p := .trigger) (by simp), h.sameOf hp (p := .lastOffer) (by simp)⟩

theorem Writes.sched (h : Writes ps r s) (hp : Part.apart Part.refreshed ps = true) : s.sched = r.sched :=
  (Scheduler.mk.injEq ..).mpr ⟨h.sameOf hp (p := .plates) (by simp), h.sameOf hp (p := .waiting) (by simp), h.sameOf hp (p := .flight) (by simp)⟩

end

end Sys2Proof.Machine
end

