-- ==== Sys2Proof/Proofs/Routes.lean ====
section
/-! PROOFS. The route table's rules (O33) and the path lights (O41). -/

namespace Sys2Proof.Machine

/-! ### Candidates and effective routes (R93, R94, R100) -/

theorem candidate_barred {own : Option Nat} {nb : Neighbour} {a : AdvertEntry} (h : own = some a.via ∨ nb.passable = false) :
    candidate own nb a = 63 := if_pos h

theorem candidate_open {own : Option Nat} {nb : Neighbour} {a : AdvertEntry} (hown : own ≠ some a.via) (hpass : nb.passable = true) :
    candidate own nb a = min 63 (a.distance + nb.fixed.cost) := by simp [candidate, hown, hpass]

theorem takeCandidate_local {n k : Nat} {e : RouteEntry} (h : e.state = .isLocal) : takeCandidate n k e = e := if_pos h

theorem takeCandidate_hop {n k : Nat} {e : RouteEntry} (h : e.state ≠ .isLocal) (hhop : e.nextHop = some n) :
    takeCandidate n k e = if k < 63 then e.viaHop n k else e.lost := by simp [takeCandidate, h, hhop]

theorem takeCandidate_other {n k : Nat} {e : RouteEntry} (h : e.state ≠ .isLocal) (hhop : e.nextHop ≠ some n) :
    takeCandidate n k e = if k < e.distance then e.viaHop n k else e := by simp [takeCandidate, h, hhop]

theorem wellFormed_iff (a : AdvertEntry) : a.wellFormed = true ↔ 1 ≤ a.code ∧ a.code ≤ 1023 ∧ a.distance ≤ 63 ∧ a.via ≤ 127 := by
  simp [AdvertEntry.wellFormed]

/-- One well-formed advert entry against a table of the one route it names. -/
theorem advertStep_named {own : Option Nat} {n : Nat} {nb : Neighbour} {e : RouteEntry} {a : AdvertEntry} (hform : a.wellFormed = true)
    (hcode : e.code = a.code) :
    advertStep own n nb (⟨[e], false, false⟩, 0) a =
      ((⟨[e], false, false⟩ : RouteWork).apply fun _ => takeCandidate n (candidate own nb a) e, 0) := by
  simp [advertStep, hform, RouteWork.apply, hcode]

theorem effectiveRoute_plain {table : List RouteEntry} {rs : List Redirect} {code : Nat} {e : RouteEntry} (hroute : routeOf table code = some e)
    (h : e.cls ≠ .muster ∨ rs.find? (·.closed = code) = none) :
    effectiveRoute table rs code = some { code := code, entry := e, redirected := false } := by
  rcases h with hcls | hfind
  · simp [effectiveRoute, hroute, hcls]
  · simp [effectiveRoute, hroute, hfind]

theorem effectiveRoute_redirected {table : List RouteEntry} {rs : List Redirect} {code : Nat} {e alt : RouteEntry} {r : Redirect}
    (hroute : routeOf table code = some e) (hcls : e.cls = .muster) (hfind : rs.find? (·.closed = code) = some r)
    (halt : routeOf table r.alternate = some alt) :
    effectiveRoute table rs code = some { code := r.alternate, entry := alt, redirected := true } := by
  simp [effectiveRoute, hroute, hcls, hfind, halt]

theorem effectiveRoute_eq_none {table : List RouteEntry} {rs : List Redirect} {code : Nat} (hroute : routeOf table code = none) :
    effectiveRoute table rs code = none := by simp [effectiveRoute, hroute]

/-- Settles O33. -/
theorem routesAreChosen : Obligations.RoutesAreChosen := by
  unfold Obligations.RoutesAreChosen
  refine ⟨fun own nb a => ⟨candidate_barred, candidate_open⟩, fun n k e => ⟨takeCandidate_local, ?_, ?_, ?_, ?_⟩,
    fun own n nb e a hlow hhigh hdist hvia hcode => ?named, fun own n nb e hhop hstate => ?gone,
    fun table rs code e hroute => ⟨effectiveRoute_plain hroute, fun r alt => effectiveRoute_redirected hroute⟩⟩
  · intro hstate hhop hk
    rw [takeCandidate_hop hstate hhop, if_pos hk]
    rfl
  · intro hstate hhop hk
    rw [takeCandidate_hop hstate hhop, if_neg (by omega)]
    rfl
  · intro hstate hhop hk
    rw [takeCandidate_other hstate hhop, if_pos hk]
    rfl
  · intro hstate hhop hk
    rw [takeCandidate_other hstate hhop, if_neg (by omega)]
  case named =>
    rw [advertStep_named ((wellFormed_iff a).2 ⟨hlow, hhigh, hdist, hvia⟩) hcode]
    simp [RouteWork.apply, RouteEntry.flagged]
  case gone => simp [advertAgainst, RouteWork.apply, RouteEntry.flagged, RouteEntry.lost, hhop, hstate]

/-! ### Path lights (R104 to R106) -/

theorem lampsFor_valid {ns : List Neighbour} {e : RouteEntry} {i : Nat} {n : Neighbour} (hstate : e.state = .valid) (hhop : e.nextHop = some i)
    (hn : ns[i]? = some n) :
    lampsFor ns e = match n.fixed.side with | .a => ⟨.flash, .off⟩ | .b => ⟨.off, .flash⟩ | .none => ⟨.flash, .flash⟩ := by
  cases hside : n.fixed.side <;> simp [lampsFor, hstate, hopOf, hhop, hn, hside]

/-- A path muster code that names a route, at MUSTER in JOINING or RUN. -/
theorem lampsNow_path {s : State} {c : Configuration} {e : Effective} (hpart : participates s = true) (hlevel : level s = .muster)
    (hconfig : s.node.config = some c) (hcode : c.pathCode ≠ 0)
    (heff : effectiveRoute s.route.table s.muster.record.redirects c.pathCode = some e) : lampsNow s = lampsFor s.mon.neighbours e.entry := by
  have hroute : (routeOf s.route.table c.pathCode).isSome = true := by
    cases hr : routeOf s.route.table c.pathCode with
    | none => rw [effectiveRoute_eq_none hr] at heff; cases heff
    | some r => rfl
  simp [lampsNow, hpart, hlevel, pathCode, hconfig, hcode, hroute, effectiveNow, heff]

theorem pathCode_eq_none {s : State} (h : s.node.config = none
    ∨ ∃ c, s.node.config = some c ∧ (c.pathCode = 0 ∨ routeOf s.route.table c.pathCode = none)) : pathCode s = none := by
  rcases h with hnone | ⟨c, hconfig, hzero | hroute⟩
  · simp [pathCode, hnone]
  · simp [pathCode, hconfig, hzero]
  · simp [pathCode, hconfig, hroute]

theorem lampsNow_dark {s : State} (h : participates s = false ∨ level s ≠ .muster ∨ pathCode s = none) : lampsNow s = ⟨.off, .off⟩ := by
  rcases h with hpart | hlevel | hpath
  · simp [lampsNow, hpart]
  · simp [lampsNow, hlevel]
  · simp [lampsNow, hpath]

/-- Settles O41. -/
theorem pathLightsShowTheWay : Obligations.PathLightsShowTheWay := by
  unfold Obligations.PathLightsShowTheWay
  refine ⟨fun ns e => ⟨fun h => by simp [lampsFor, h], fun h => by simp [lampsFor, h], fun i n => lampsFor_valid⟩,
    fun s => ⟨fun c e => lampsNow_path, fun h => lampsNow_dark ?dark⟩,
    fun c s hconfig => ⟨rfl, rfl, by simp [lampLit, flashPhase, hconfig]⟩, fun f rest s hpart => ⟨fun hqueue hkind => ?order, fun hqueue hkind => ?advert⟩⟩
  case dark =>
    rcases h with hpart | hlevel | hpath
    · exact .inl hpart
    · exact .inr (.inl hlevel)
    · exact .inr (.inr (pathCode_eq_none hpath))
  case order =>
    refine ⟨settle (freeMuster (takeOrder f.payload s)), ?_, lightsSound_settle _⟩
    show execMusterOrder s = _
    simp [execMusterOrder, hqueue, hpart, hkind]
  case advert =>
    refine ⟨settleAttention (settleLights (settleAnswers ((takeAdvert f.source f.payload s).modBus fun b => { b with routeQ := rest }))), ?_,
      lightsSound_settled _⟩
    show execRouteAdvert s = _
    simp [execRouteAdvert, hqueue, hpart, hkind]

end Sys2Proof.Machine
end

