-- ==== Sys2Proof/Proofs/Standing.lean ====
section
/-! PROOFS. A frame that stands to be sent: offers that place it and offers that leave it standing (R25 to R27). -/

namespace Sys2Proof.Machine

variable {f : TxFrame} {o : Offer} {s t : State}

theorem stands_of_eq (hqueue : t.bus.queue = s.bus.queue) (hbuffer : t.bus.buffer = s.bus.buffer) (h : s.stands f) : t.stands f := by
  rw [State.stands, hqueue, hbuffer]
  exact h

theorem Writes.stands {ps : List Part} (hw : Writes ps s t) (hp : Part.apart [.queue, .buffer] ps = true) (h : s.stands f) : t.stands f :=
  stands_of_eq (hw.sameOf hp (p := .queue) (by simp)) (hw.sameOf hp (p := .buffer) (by simp)) h

theorem loadShift_of_ne {shift : Int} (h : f.kind ≠ .timeMark) : loadShift shift f = f := if_neg h

theorem stands_fillBuffer (hload : loadShift s.time.pendingShift f = f) (h : s.stands f) : (fillBuffer s).stands f := by
  obtain hs | ⟨g, q, hbuffer, hqueue, hs⟩ := fillBuffer_cases s
  · rwa [hs]
  · rw [hs]
    rcases h with h | ⟨u, hu, -⟩
    · rw [hqueue, List.mem_cons] at h
      rcases h with rfl | h
      · exact .inr ⟨_, rfl, hload⟩
      · exact .inl h
    · rw [hbuffer] at hu
      cases hu

theorem stands_acceptOffer {queue : List TxFrame} (hload : loadShift s.time.pendingShift f = f) (h : f ∈ queue ∨ ∃ u, s.bus.buffer = some u ∧ u.frame = f) :
    (acceptOffer queue s).stands f := stands_fillBuffer hload h

theorem mem_replaceFrame_self {f g : TxFrame} {q : List TxFrame} (hg : g ∈ q) (hkind : g.kind = f.kind) : f ∈ replaceFrame f q := by
  induction q with
  | nil => cases hg
  | cons d q ih =>
    unfold replaceFrame
    split
    · simp
    · rcases List.mem_cons.1 hg with rfl | hg
      · contradiction
      · exact List.mem_cons_of_mem _ (ih hg)

theorem mem_replaceFrame_of_ne {f g : TxFrame} {q : List TxFrame} (hg : g ∈ q) (hkind : g.kind ≠ f.kind) : g ∈ replaceFrame f q := by
  induction q with
  | nil => cases hg
  | cons d q ih =>
    unfold replaceFrame
    split
    · rcases List.mem_cons.1 hg with rfl | hg
      · contradiction
      · exact List.mem_cons_of_mem _ hg
    · rcases List.mem_cons.1 hg with rfl | hg
      · simp
      · exact List.mem_cons_of_mem _ (ih hg)

theorem mem_dropLast_of_ne {f g : TxFrame} {q : List TxFrame} (hf : f ∈ q) (hlast : q.getLast? = some g) (hne : f ≠ g) : f ∈ q.dropLast := by
  have hq := List.dropLast_append_getLast? g hlast
  rw [← hq, List.mem_append, List.mem_singleton] at hf
  exact hf.resolve_right hne

/-! ### The offered frame -/

/-- A frame that passes R34 and R35 on a queue of fewer than 8. -/
theorem stands_offerBase_self (hload : loadShift s.time.pendingShift (o.frame s) = o.frame s) (hpass : ¬ refusedByState o s) (hroom : s.bus.queue.length < 8) :
    (offerBase o s).1.stands (o.frame s) := by
  by_cases hnew : (o.kind.single && queued o.kind s.bus.queue) = true
  · obtain ⟨hsingle, hqueued⟩ := Bool.and_eq_true_iff.1 hnew
    rw [offerBase_replaces hpass hsingle hqueued]
    obtain ⟨g, hg, hkind⟩ := (queued_iff _ _).1 hqueued
    exact stands_acceptOffer hload (.inl (mem_replaceFrame_self hg hkind))
  · rw [offerBase_places hpass (by simpa using hnew) hroom]
    exact stands_acceptOffer hload (.inl (mem_placeFrame.2 (.inl rfl)))

/-- In class order the last frame is of the lowest class. -/
theorem getLast_rank_le {q : List TxFrame} {d g : TxFrame} (hq : classOrdered q) (hg : g ∈ q) (hlast : q.getLast? = some d) :
    d.kind.rank ≤ g.kind.rank := by
  rw [classOrdered_iff, ← List.dropLast_append_getLast? d hlast, List.pairwise_append] at hq
  rw [← List.dropLast_append_getLast? d hlast, List.mem_append, List.mem_singleton] at hg
  rcases hg with hg | rfl
  · exact hq.2.2 g hg d (by simp)
  · exact le_rfl

/-- The same on a sound queue that has room by eviction. -/
theorem stands_offerBase_room (hload : loadShift s.time.pendingShift (o.frame s) = o.frame s) (hpass : ¬ refusedByState o s) (hsound : s.queueSound)
    (hroom : hasRoom o.kind s.bus.queue = true) : (offerBase o s).1.stands (o.frame s) := by
  by_cases hlen : s.bus.queue.length < 8
  · exact stands_offerBase_self hload hpass hlen
  by_cases hnew : (o.kind.single && queued o.kind s.bus.queue) = true
  · obtain ⟨hsingle, hqueued⟩ := Bool.and_eq_true_iff.1 hnew
    rw [offerBase_replaces hpass hsingle hqueued]
    obtain ⟨g, hg, hkind⟩ := (queued_iff _ _).1 hqueued
    exact stands_acceptOffer hload (.inl (mem_replaceFrame_self hg hkind))
  · simp only [hasRoom, hlen, hnew, decide_false, Bool.false_or, List.any_eq_true, decide_eq_true_eq] at hroom
    obtain ⟨g, hg, hrank⟩ := hroom
    obtain ⟨d, hlast⟩ : ∃ d, s.bus.queue.getLast? = some d := ⟨_, List.getLast?_eq_some_getLast (List.ne_nil_of_mem hg)⟩
    rw [offerBase_evicts hpass (by simpa using hnew) (by omega) hlast ((getLast_rank_le hsound.2.1 hg hlast).trans_lt hrank)]
    exact stands_acceptOffer (s := countRefusal s) hload (.inl (mem_placeFrame.2 (.inl rfl)))

/-! ### Other frames -/

/-- An offer leaves a frame that it may neither replace nor evict. -/
theorem stands_offerBase (hload : loadShift s.time.pendingShift f = f) (hkind : o.kind.single = false ∨ o.kind ≠ f.kind)
    (hkeep : s.bus.queue.length < 8 ∨ o.kind.rank ≤ f.kind.rank) (h : s.stands f) : (offerBase o s).1.stands f := by
  obtain hs | hs | ⟨hsingle, -, hs⟩ | ⟨-, -, hs⟩ | ⟨g, -, hfull, hlast, hrank, hs⟩ := offerBase_cases o s <;> rw [hs]
  · exact h
  · exact h
  · have hne : f.kind ≠ (o.frame s).kind := fun heq => (hkind.resolve_left (by simp [hsingle])) heq.symm
    exact stands_acceptOffer hload (h.imp_left fun hf => mem_replaceFrame_of_ne hf hne)
  · exact stands_acceptOffer hload (h.imp_left fun hf => mem_placeFrame.2 (.inr hf))
  · have hne : f ≠ g := by
      rintro rfl
      rcases hkeep with hkeep | hkeep <;> omega
    exact stands_acceptOffer (s := countRefusal s) hload (h.imp_left fun hf => mem_placeFrame.2 (.inr (mem_dropLast_of_ne hf hlast hne)))

theorem stands_answerOffer (a : ActiveAnswer) (hload : loadShift s.time.pendingShift f = f) (h : s.stands f) : (answerOffer a s).stands f := by
  have hoffer (p : List Octet) : (offerBase ⟨.programmeItem, 255, p, [], true⟩ s).1.stands f :=
    stands_offerBase hload (.inl rfl) (.inr (Nat.zero_le _)) h
  unfold answerOffer
  extract_lets reply
  split
  · rename_i b _
    have ho := hoffer (itemPayload (some b) (some (reply false 0)))
    split <;> (rename_i heq; rw [heq] at ho; exact ho)
  · have ho := hoffer (itemPayload none (some (reply true (highWaterOf a.entry.publisher s))))
    split <;> (rename_i heq; rw [heq] at ho; exact ho)

theorem stands_answerReported (g : TxFrame) (hload : loadShift s.time.pendingShift f = f) (h : s.stands f) : (answerReported g s).stands f := by
  unfold answerReported
  (repeat' split)
  · exact h
  · exact stands_answerOffer _ hload h
  · exact h
  · exact h

/-- What an offer brings about further leaves every frame that stands. -/
theorem stands_offer_of_base (hload : loadShift s.time.pendingShift f = f) (h : (offerBase o s).1.stands f) : (offer o s).1.stands f := by
  unfold offer
  split
  · rename_i heq
    rw [heq] at h
    have hbase : (offerBase o s).1.time = s.time := congrArg Steady.time (steady_offerBase o s)
    rw [heq] at hbase
    exact stands_answerReported _ (by rw [hbase]; exact hload) h
  · exact h

theorem stands_offer (hload : loadShift s.time.pendingShift f = f) (hkind : o.kind.single = false ∨ o.kind ≠ f.kind)
    (hkeep : s.bus.queue.length < 8 ∨ o.kind.rank ≤ f.kind.rank) (h : s.stands f) : (offer o s).1.stands f :=
  stands_offer_of_base hload (stands_offerBase hload hkind hkeep h)

theorem stands_offer_self (hload : loadShift s.time.pendingShift (o.frame s) = o.frame s) (hpass : ¬ refusedByState o s) (hroom : s.bus.queue.length < 8) :
    (offer o s).1.stands (o.frame s) :=
  stands_offer_of_base hload (stands_offerBase_self hload hpass hroom)

theorem stands_offer_room (hload : loadShift s.time.pendingShift (o.frame s) = o.frame s) (hpass : ¬ refusedByState o s) (hsound : s.queueSound)
    (hroom : hasRoom o.kind s.bus.queue = true) : (offer o s).1.stands (o.frame s) :=
  stands_offer_of_base hload (stands_offerBase_room hload hpass hsound hroom)

/-! ### The length of the queue -/

theorem queue_length_acceptOffer (queue : List TxFrame) (s : State) : (acceptOffer queue s).bus.queue.length ≤ queue.length :=
  fillBuffer_queue_length _

theorem queue_length_offerBase (o : Offer) (s : State) : (offerBase o s).1.bus.queue.length ≤ s.bus.queue.length + 1 := by
  obtain h | h | ⟨-, -, h⟩ | ⟨-, -, h⟩ | ⟨g, -, -, -, -, h⟩ := offerBase_cases o s <;> rw [h]
  · exact Nat.le_succ _
  · exact Nat.le_succ _
  · exact (queue_length_acceptOffer _ _).trans (by rw [replaceFrame_length]; exact Nat.le_succ _)
  · exact (queue_length_acceptOffer _ _).trans (by rw [placeFrame_length])
  · refine (queue_length_acceptOffer _ _).trans ?_
    rw [placeFrame_length, List.length_dropLast]
    omega

/-- With fewer than 8 frames queued an offer evicts none, and so has no further consequence. -/
theorem offer_of_room (o : Offer) (hroom : s.bus.queue.length < 8) : offer o s = offerBase o s := by
  obtain h | h | ⟨-, -, h⟩ | ⟨-, -, h⟩ | ⟨g, -, hfull, -, -, -⟩ := offerBase_cases o s
  · simp [offer, h]
  · simp [offer, h]
  · simp [offer, h]
  · simp [offer, h]
  · omega

theorem queue_length_offer (o : Offer) (hroom : s.bus.queue.length < 8) : (offer o s).1.bus.queue.length ≤ s.bus.queue.length + 1 := by
  rw [offer_of_room o hroom]
  exact queue_length_offerBase o s

/-! ### The end of the step -/

/-- The report that the end of a step offers is urgent: it evicts no urgent frame, and none at all while fewer than 8 are queued. -/
theorem stands_buildReport (hload : loadShift s.time.pendingShift f = f) (hkeep : s.bus.queue.length < 8 ∨ 2 ≤ f.kind.rank) (h : s.stands f) :
    (buildReport s).stands f := by
  have hoffer : (offer ⟨.cabinReport, 128, cabinPayload (s.muster.pendingReports.take 6), [], false⟩
      (s.modMuster fun m => { m with pendingReports := m.pendingReports.drop 6 })).1.stands f :=
    stands_offer hload (.inl rfl) hkeep h
  unfold buildReport
  dsimp only
  split <;> (rename_i heq; rw [heq] at hoffer; exact hoffer)

theorem stands_settleReports (hload : loadShift s.time.pendingShift f = f) (hkeep : s.bus.queue.length < 8 ∨ 2 ≤ f.kind.rank) (h : s.stands f) :
    (settleReports s).stands f := by
  unfold settleReports
  split
  · exact stands_buildReport hload hkeep h
  · exact h

theorem stands_taken (h : s.stands f) : (settleAttention (settleAnswers s)).stands f :=
  (writes_settleAttention (writes_settleAnswers (.refl [.answers, .active, .free, .line] s) (by simp)) (by simp)).stands rfl h

theorem stands_settleSend (hload : loadShift s.time.pendingShift f = f) (hkeep : s.bus.queue.length < 8 ∨ 2 ≤ f.kind.rank) (h : s.stands f) :
    (settleSend s).stands f := stands_taken (stands_settleReports hload hkeep h)

theorem stands_settle (hload : loadShift s.time.pendingShift f = f) (hkeep : s.bus.queue.length < 8 ∨ 2 ≤ f.kind.rank) (h : s.stands f) :
    (settle s).stands f := by
  have hrefresh : Writes Part.refreshed s (settleRefreshes s) := writes_settleRefreshes (.refl _ s) (List.Subset.refl _)
  have hreports : (settleReports (settleRefreshes s)).stands f := by
    refine stands_settleReports (by rw [hrefresh.time rfl]; exact hload) ?_ (hrefresh.stands rfl h)
    rwa [show (settleRefreshes s).bus.queue = s.bus.queue from hrefresh.same .queue rfl]
  have hanswers := (writes_settleAnswers (.refl _ (settleReports (settleRefreshes s))) (List.Subset.refl _)).stands rfl hreports
  have harbitrate := (writes_arbitrate (.refl _ (settleAnswers (settleReports (settleRefreshes s)))) (List.Subset.refl _)).stands rfl hanswers
  exact (writes_settleAttention (writes_settleLights (.refl [.lights, .line] _) (by simp)) (by simp)).stands rfl harbitrate

end Sys2Proof.Machine
end

