-- ==== Sys2Proof/Proofs/Segments.lean ====
section
/-! PROOFS. Segments, their passability and the routes over them: a neighbour lost (O28) and the sense lines (O29). -/

namespace Sys2Proof.Machine

/-! ### The end of a step that takes no refreshes -/

theorem writes_taken (s : State) : Writes [.answers, .active, .free, .line] s (settleAttention (settleAnswers s)) :=
  writes_settleAttention (writes_settleAnswers (.refl _ s) (by simp)) (by simp)

theorem writes_takenLit (s : State) : Writes [.answers, .active, .free, .lights, .line] s (settleAttention (settleLights (settleAnswers s))) :=
  writes_settleAttention (writes_settleLights (writes_settleAnswers (.refl _ s) (by simp)) (by simp)) (by simp)

/-! ### One item of a list updated -/

theorem modAt_eq_modify {α : Type} (f : α → α) (i : Nat) (l : List α) : modAt f i l = l.modify i f := by
  induction l generalizing i with
  | nil => cases i <;> simp [modAt]
  | cons x l ih => cases i <;> simp [modAt, ih]

theorem getElem?_modAt {α : Type} (f : α → α) (i j : Nat) (l : List α) : (modAt f i l)[j]? = if i = j then l[j]?.map f else l[j]? := by
  rw [modAt_eq_modify, List.getElem?_modify]
  split <;> simp [*]

/-- The places of the items chosen, each updated once, is the list with the items chosen updated. -/
theorem getElem?_foldl_modAt {α : Type} (f : α → α) (is : List Nat) (hnodup : is.Nodup) (l : List α) (j : Nat) :
    (is.foldl (fun l i => modAt f i l) l)[j]? = if j ∈ is then l[j]?.map f else l[j]? := by
  induction is generalizing l with
  | nil => simp
  | cons i is ih =>
    obtain ⟨hi, his⟩ := List.nodup_cons.1 hnodup
    rw [List.foldl_cons, ih his, getElem?_modAt]
    by_cases hj : i = j
    · subst hj
      simp [hi]
    · simp [hj, Ne.symm hj]

/-- The places of the items that satisfy a property. -/
theorem mem_places {α : Type} (p : α → Bool) (l : List α) (j : Nat) :
    j ∈ (l.zipIdx.filter fun x => p x.1).map (·.2) ↔ ∃ x, l[j]? = some x ∧ p x = true := by
  simp [List.mem_zipIdx_iff_getElem?]

theorem nodup_places {α : Type} (p : α → Bool) (l : List α) : ((l.zipIdx.filter fun x => p x.1).map (·.2)).Nodup := by
  refine List.Nodup.sublist (List.filter_sublist.map _) ?_
  rw [List.zipIdx_map_snd]
  exact List.nodup_range'

theorem foldl_modAt_places {α : Type} (f : α → α) (p : α → Bool) (l : List α) :
    ((l.zipIdx.filter fun x => p x.1).map (·.2)).foldl (fun l i => modAt f i l) l = l.map fun x => if p x then f x else x := by
  refine List.ext_getElem? fun j => ?_
  rw [getElem?_foldl_modAt f _ (nodup_places p l), List.getElem?_map]
  cases hx : l[j]? with
  | none => simp
  | some x =>
    by_cases hp : p x = true
    · rw [if_pos ((mem_places p l j).2 ⟨x, hx, hp⟩)]
      simp [hp]
    · rw [if_neg fun hmem => ?_]
      · simp [hp]
      · obtain ⟨y, hy, hpy⟩ := (mem_places p l j).1 hmem
        rw [hx] at hy
        cases hy
        exact hp hpy

/-! ### Routes that leave through a neighbour (R95) -/

/-- No route leaves through the neighbour entry. -/
def State.avoids (i : Nat) (s : State) : Prop := ∀ e ∈ s.route.table, e.nextHop ≠ some i

theorem avoids_iff (i : Nat) (s : State) : s.avoids i ↔ some i ∉ (s.route.table.map RouteEntry.unmarked).map (·.nextHop) := by
  simp only [State.avoids, List.map_map, List.mem_map, not_exists, not_and]
  exact Iff.rfl

theorem Unlit.avoids {r s : State} (h : Unlit r s) {i : Nat} (hr : r.avoids i) : s.avoids i := by
  rw [avoids_iff, h.routes]
  exact (avoids_iff i r).1 hr

theorem Writes.avoids {ps : List Part} {r s : State} (h : Writes ps r s) (hp : ps.contains .routes = false) {i : Nat} (hr : r.avoids i) : s.avoids i := by
  rw [State.avoids, show s.route.table = r.route.table from h.same .routes hp]
  exact hr

theorem unlit_makeTriggerDue (s : State) : Unlit s (makeTriggerDue s) := by
  unfold makeTriggerDue
  split
  · split
    · exact unlit_offerAdvert s
    · split
      · exact unlit_offerAdvert s
      · exact ⟨rfl, rfl, rfl, rfl, rfl⟩
  · rfl

theorem unlit_endOfChange (w : RouteWork) (s : State) : Unlit s (endOfChange w s) := by
  unfold endOfChange
  refine Unlit.write ?_ (writes_setEventIf _ _ (.refl _ _) (List.Subset.refl _) (.inl nofun)) rfl
  split
  · exact unlit_makeTriggerDue s
  · rfl

/-- Only the routes through the entries given lose their next hop. -/
theorem avoids_putWithdrawn (lost : List Nat) (i : Nat) (s : State) :
    (putTable ((routeWork s).apply fun e => if e.nextHop.any lost.contains then e.lost else e) s).avoids i ↔ i ∈ lost ∨ s.avoids i := by
  have hhop (e : RouteEntry) : (RouteEntry.flagged e (if e.nextHop.any lost.contains then e.lost else e)).nextHop
      = if e.nextHop.any lost.contains then none else e.nextHop := by
    unfold RouteEntry.flagged
    split <;> split <;> simp_all [RouteEntry.lost]
  simp only [State.avoids, putTable, State.modRoute, RouteWork.apply, routeWork, List.mem_map, forall_exists_index, and_imp, forall_apply_eq_imp_iff₂, hhop]
  constructor
  · intro h
    by_contra hne
    simp only [not_or, not_forall] at hne
    obtain ⟨hi, e, he, heq⟩ := hne
    have := h e he
    simp_all
  · rintro (hi | h) e he
    · split
      · simp
      · rintro heq
        simp_all
    · split
      · simp
      · exact h e he

theorem avoids_invalidate_self {lost : List Nat} {i : Nat} (hi : i ∈ lost) (s : State) : (invalidate lost s).avoids i :=
  (unlit_endOfChange _ _).avoids ((avoids_putWithdrawn lost i s).2 (.inl hi))

theorem avoids_invalidate (lost : List Nat) {i : Nat} {s : State} (h : s.avoids i) : (invalidate lost s).avoids i :=
  (unlit_endOfChange _ _).avoids ((avoids_putWithdrawn lost i s).2 (.inr h))

/-! ### A neighbour lost (R77) -/

theorem exec_presenceTimer {i : Nat} {n : Neighbour} {s : State} (hn : s.mon.neighbours[i]? = some n) (hdue : timerDue n.presenceTimer s = true) :
    exec (.presenceTimer i) s = .next (settleAttention (settleLights (settleAnswers (loseNeighbour i s)))) := by
  show execPresenceTimer i s = _
  simp [execPresenceTimer, hn, hdue]

/-- Settles O28. -/
theorem presenceTimerLosesNeighbour : Obligations.PresenceTimerLosesNeighbour := by
  unfold Obligations.PresenceTimerLosesNeighbour
  intro i n s hn hdue
  refine ⟨_, exec_presenceTimer hn hdue, ?_⟩
  have hlose : Writes (Part.offered ++ Part.advertised ++ [.neighbours, .flags]) s (loseNeighbour i s) := writes_loseNeighbour i (.refl _ s) (List.Subset.refl _)
  have hend := writes_takenLit (loseNeighbour i s)
  have hinv (u : State) : Writes (Part.offered ++ Part.advertised ++ [.flags]) u (invalidate [i] u) := writes_invalidate [i] (.refl _ u) (List.Subset.refl _)
  have hneigh : (loseNeighbour i s).mon.neighbours = modAt (fun n => { n with presence := .down, presenceTimer := none }) i s.mon.neighbours :=
    (hinv _).same .neighbours rfl
  refine ⟨?_, hend.eventSet ((hinv _).eventSet (eventSet_setEvent _ _)), hend.avoids rfl (avoids_invalidate_self (by simp) _),
    (hend.time rfl).trans (hlose.time rfl), (hend.store rfl).trans (hlose.store rfl), hend.node.trans hlose.node, hend.port.trans hlose.port,
    hend.record.trans hlose.record⟩
  rw [show (settleAttention (settleLights (settleAnswers (loseNeighbour i s)))).mon.neighbours = (loseNeighbour i s).mon.neighbours from
    hend.same .neighbours rfl, hneigh, getElem?_modAt]
  simp [hn]

/-! ### Passability evaluated (R85, R86) -/

theorem getElem?_restore (l : Level) (choose : Neighbour → Nat → Bool) (ns : List Neighbour) (i : Nat) :
    (restore l choose ns)[i]? = ns[i]?.map fun n => if choose n i then { n with passable := n.passableNow l } else n := by
  simp [restore, List.getElem?_zipIdx, Option.map_map, Function.comp_def]

theorem neighbours_evaluate (choose : Neighbour → Nat → Bool) (s : State) :
    (evaluate choose s).mon.neighbours = restore (level s) choose s.mon.neighbours := by
  have hset (c : Bool) (u : State) : (setEventIf c .segment u).mon.neighbours = u.mon.neighbours :=
    (writes_setEventIf c .segment (.refl [.flags] u) (List.Subset.refl _) (.inl nofun)).same .neighbours rfl
  unfold evaluate
  dsimp only
  split
  · exact hset _ _
  · rename_i lost
    exact ((writes_invalidate _ (.refl _ _) (List.Subset.refl _)).same .neighbours rfl).trans (hset _ _)

/-- The evaluation changes stored passabilities alone. -/
theorem map_neighbours_evaluate {β : Type} (g : Neighbour → β) (hg : ∀ n b, g { n with passable := b } = g n) (choose : Neighbour → Nat → Bool)
    (s : State) : (evaluate choose s).mon.neighbours.map g = s.mon.neighbours.map g := by
  rw [neighbours_evaluate]
  refine List.ext_getElem? fun i => ?_
  rw [List.getElem?_map, getElem?_restore, List.getElem?_map, Option.map_map]
  congr 1
  funext n
  simp only [Function.comp_apply]
  split
  · exact hg _ _
  · rfl

theorem mem_fallen (l : Level) (choose : Neighbour → Nat → Bool) (ns : List Neighbour) (i : Nat) :
    i ∈ fallen l choose ns ↔ ∃ n, ns[i]? = some n ∧ choose n i = true ∧ n.passable = true ∧ n.passableNow l = false := by
  simp [fallen, List.mem_zipIdx_iff_getElem?, and_assoc]

/-- What the evaluation leaves of the routes: those over segments that were passable and now are not are withdrawn. -/
theorem avoids_evaluate {choose : Neighbour → Nat → Bool} {i : Nat} {s : State} (h : s.avoids i ∨ i ∈ fallen (level s) choose s.mon.neighbours) :
    (evaluate choose s).avoids i := by
  have hset {c : Bool} {u : State} (hu : u.avoids i) : (setEventIf c .segment u).avoids i :=
    (writes_setEventIf c .segment (.refl [.flags] u) (List.Subset.refl _) (.inl nofun)).avoids rfl hu
  unfold evaluate
  dsimp only
  split
  · rename_i hempty
    rw [List.isEmpty_iff] at hempty
    exact hset (h.resolve_right (by simp [hempty]))
  · rcases h with h | h
    · exact avoids_invalidate _ (hset h)
    · exact avoids_invalidate_self h _

/-! ### A record changed (R82, R83) -/

theorem eventSet_recordChanged (i : Nat) (s : State) : eventSet .segment (recordChanged i s) = true :=
  (writes_evaluate (fun _ j => j = i) (.refl _ (setEvent .segment s)) (List.Subset.refl _)).eventSet (eventSet_setEvent _ _)

/-! ### Sense lines (R79, R80) -/

theorem closure_iff (k : SegKind) : k.closure = true ↔ k = .fireClosure ∨ k = .watertightClosure := by cases k <;> simp [SegKind.closure]

theorem onLine_iff (n : Neighbour) (line : Fin 8) :
    n.onLine line = true ↔ (n.fixed.kind = .fireClosure ∨ n.fixed.kind = .watertightClosure) ∧ ∃ closed, n.fixed.sense = some (line, closed) := by
  rw [Neighbour.onLine, Bool.and_eq_true, closure_iff]
  refine and_congr_right fun _ => ?_
  cases n.fixed.sense with
  | none => simp
  | some p => simp [Prod.ext_iff, eq_comm]

theorem closureAt_sense {n : Neighbour} {line : Fin 8} {closed : LineLevel} (h : n.fixed.sense = some (line, closed)) (accepted : LineLevel) :
    n.closureAt accepted = if accepted = closed then .closed else .opened := by simp [Neighbour.closureAt, h]

theorem map_neighbours_sensedChange {β : Type} (g : Neighbour → β) (hg : ∀ n b, g { n with passable := b } = g n) (s : State) (i : Nat) :
    (sensedChange s i).mon.neighbours.map g = s.mon.neighbours.map g := by
  have hchanged : (recordChanged i s).mon.neighbours.map g = s.mon.neighbours.map g := map_neighbours_evaluate g hg _ (setEvent .segment s)
  unfold sensedChange
  dsimp only
  split
  · rw [show (offerSensed (recordChanged i s)).mon.neighbours = (recordChanged i s).mon.neighbours from
      (writes_offerSensed (.refl _ _) (List.Subset.refl _)).same .neighbours rfl, hchanged]
  · exact hchanged

theorem eventSet_sensedChange (s : State) (i : Nat) : eventSet .segment (sensedChange s i) = true := by
  unfold sensedChange
  dsimp only
  split
  · exact (writes_offerSensed (.refl _ _) (List.Subset.refl _)).eventSet (eventSet_recordChanged i s)
  · exact eventSet_recordChanged i s

/-- Records dealt with one after the other: of each one its passability alone changes. -/
theorem map_neighbours_foldl_sensedChange {β : Type} (g : Neighbour → β) (hg : ∀ n b, g { n with passable := b } = g n) (is : List Nat) (s : State) :
    (is.foldl sensedChange s).mon.neighbours.map g = s.mon.neighbours.map g := by
  induction is generalizing s with
  | nil => rfl
  | cons i is ih => rw [List.foldl_cons, ih, map_neighbours_sensedChange g hg]

theorem writes_foldl_sensedChange (is : List Nat) (s : State) :
    Writes (Part.offered ++ Part.advertised ++ [.neighbours, .flags]) s (is.foldl sensedChange s) :=
  writes_foldl sensedChange (fun i h => writes_sensedChange i h (List.Subset.refl _)) is (.refl _ s)

theorem eventSet_foldl_sensedChange {is : List Nat} (h : is ≠ []) (s : State) : eventSet .segment (is.foldl sensedChange s) = true := by
  cases is with
  | nil => exact absurd rfl h
  | cons i is => exact (writes_foldl_sensedChange is _).eventSet (eventSet_sensedChange s i)

theorem closuresMoved_ne_nil {line : Fin 8} {c : LineLevel} {ns : List Neighbour} {n : Neighbour} (hn : n ∈ ns) (hline : n.onLine line = true)
    (hmoves : n.closureAt c ≠ n.closure) : closuresMoved line c ns ≠ [] := by
  obtain ⟨i, hi⟩ := List.getElem?_of_mem hn
  have hmem : i ∈ closuresMoved line c ns := 
    (mem_places (fun n : Neighbour => n.onLine line && decide (n.closureAt c ≠ n.closure)) ns i).2 ⟨n, hi, by simp [hline, hmoves]⟩
  exact List.ne_nil_of_mem hmem

/-- Settles O29. -/
theorem senseLinesAreFiltered : Obligations.SenseLinesAreFiltered := by
  unfold Obligations.SenseLinesAreFiltered
  refine ⟨fun line c s hcandidate hrun haccepted => ?accepted, fun n line => ⟨onLine_iff n line, fun closed accepted h => closureAt_sense h accepted⟩,
    fun line l c s hcandidate hne => ?changed⟩
  case accepted =>
    have hexec : exec (.senseLineAccept line) s = .next (settleAttention (settleLights (settleAnswers (acceptLevel line c s)))) := by
      show execSenseLineAccept line s = _
      simp only [execSenseLineAccept]
      rw [hcandidate]
      exact if_pos ⟨hrun, haccepted⟩
    refine ⟨_, hexec, ?_⟩
    let u : State := { s with mon := { s.mon with
      filters := s.mon.filters.set line { s.mon.filters[line] with accepted := some c },
      neighbours := s.mon.neighbours.map fun n => if n.onLine line then { n with closure := n.closureAt c } else n } }
    have haccept : acceptLevel line c s = (closuresMoved line c s.mon.neighbours).foldl sensedChange u := rfl
    have hfold := writes_foldl_sensedChange (closuresMoved line c s.mon.neighbours) u
    have hend := writes_takenLit (acceptLevel line c s)
    have hlist := hend.same .neighbours rfl
    rw [haccept] at hend hlist ⊢
    refine ⟨(hend.same .filters rfl).trans (hfold.same .filters rfl), ?_, ?_, (hend.same .declared rfl).trans (hfold.same .declared rfl),
      (hend.time rfl).trans (hfold.time rfl), (hend.store rfl).trans (hfold.store rfl), hend.node.trans hfold.node, hend.port.trans hfold.port⟩
    · rw [hlist, map_neighbours_foldl_sensedChange _ fun _ _ => rfl, List.map_map]
      refine List.map_congr_left fun n _ => ?_
      simp only [Function.comp_apply]
      split <;> rfl
    · rintro ⟨n, hn, hline, hmoves⟩
      exact hend.eventSet (eventSet_foldl_sensedChange (closuresMoved_ne_nil hn hline hmoves) u)
  case changed =>
    show execSenseLineChange line l s = _
    simp only [execSenseLineChange]
    rw [hcandidate]
    simp [hne, State.modPins, State.modMon]

end Sys2Proof.Machine
end

