-- ==== Sys2Proof/Proofs/Declarations.lean ====
section
/-! PROOFS. SEGMENT STATE (O30) and declarations (O31): what one entry makes of one record, and what the entries make of the table and the routes. -/

namespace Sys2Proof.Machine

/-! ### One entry and one record (R82) -/

/-- The record with its passability as the level has it (R86). -/
def Neighbour.evaluated (l : Level) (n : Neighbour) : Neighbour := { n with passable := n.passableNow l }

/-- What one entry with a closure state makes of a record of its segment. -/
def Neighbour.told (l : Level) (e : SegmentEntry) (c : Closure) (n : Neighbour) : Neighbour :=
  if e.isDeclared = true then (if n.blocked = e.blocked then n else Neighbour.evaluated l { n with blocked := e.blocked })
  else if n.remote = false ∨ n.closure = c then n else Neighbour.evaluated l { n with closure := c }

/-- What one entry makes of a record. -/
def Neighbour.hears (l : Level) (e : SegmentEntry) (n : Neighbour) : Neighbour :=
  match e.closure with
  | none => n
  | some c => if e.segment < 1 ∨ 1023 < e.segment ∨ e.segment ≠ n.fixed.segment then n else n.told l e c

/-- The entry's part of the closure and block state of a record. -/
def Neighbour.stateAfter (n : Neighbour) (x : Closure × Bool) (e : SegmentEntry) : Closure × Bool :=
  match e.closure with
  | none => x
  | some c =>
    if e.segment < 1 ∨ 1023 < e.segment ∨ e.segment ≠ n.fixed.segment then x
    else if e.isDeclared = true then (x.1, e.blocked)
    else if n.remote = true then (c, x.2)
    else x

/-- The parts of a record that no entry touches. -/
def Neighbour.untold (n : Neighbour) : NeighbourConfig × Presence × Option Timer × Bool := (n.fixed, n.presence, n.presenceTimer, n.remote)

theorem untold_told (l : Level) (e : SegmentEntry) (c : Closure) (n : Neighbour) : (n.told l e c).untold = n.untold := by
  unfold Neighbour.told
  (repeat' split) <;> rfl

theorem untold_hears (l : Level) (e : SegmentEntry) (n : Neighbour) : (n.hears l e).untold = n.untold := by
  unfold Neighbour.hears
  split
  · rfl
  · split
    · rfl
    · exact untold_told l e _ n

theorem blocked_told_declared {l : Level} {e : SegmentEntry} (h : e.isDeclared = true) (c : Closure) (n : Neighbour) :
    (n.told l e c).blocked = e.blocked := by
  simp only [Neighbour.told, h, if_true]
  split
  · assumption
  · rfl

theorem state_told (l : Level) (e : SegmentEntry) (c : Closure) (n : Neighbour) : ((n.told l e c).closure, (n.told l e c).blocked) =
    if e.isDeclared = true then (n.closure, e.blocked) else if n.remote = true then (c, n.blocked) else (n.closure, n.blocked) := by
  unfold Neighbour.told
  by_cases hdeclared : e.isDeclared = true
  · rw [if_pos hdeclared, if_pos hdeclared]
    split
    · simp [*]
    · rfl
  · rw [if_neg hdeclared, if_neg hdeclared]
    cases hremote : n.remote <;> by_cases hc : n.closure = c <;> simp [hc, Neighbour.evaluated]

theorem state_hears (l : Level) (e : SegmentEntry) (n : Neighbour) :
    ((n.hears l e).closure, (n.hears l e).blocked) = n.stateAfter (n.closure, n.blocked) e := by
  unfold Neighbour.hears Neighbour.stateAfter
  cases e.closure with
  | none => rfl
  | some c =>
    dsimp only
    split
    · rfl
    · exact state_told l e c n

theorem stateAfter_congr {n m : Neighbour} (h : m.untold = n.untold) (x : Closure × Bool) (e : SegmentEntry) : m.stateAfter x e = n.stateAfter x e := by
  obtain ⟨hfixed, -, -, hremote⟩ : m.fixed = n.fixed ∧ m.presence = n.presence ∧ m.presenceTimer = n.presenceTimer ∧ m.remote = n.remote := by
    simpa [Neighbour.untold] using h
  unfold Neighbour.stateAfter
  rw [hfixed, hremote]

/-! ### One entry and the table -/

theorem modAt_modAt {α : Type} (f g : α → α) (i : Nat) (l : List α) : modAt g i (modAt f i l) = modAt (g ∘ f) i l := by
  refine List.ext_getElem? fun j => ?_
  simp only [getElem?_modAt]
  split <;> simp

theorem modAt_congr {α : Type} {f g : α → α} {i : Nat} {l : List α} {x : α} (hx : l[i]? = some x) (h : f x = g x) : modAt f i l = modAt g i l := by
  refine List.ext_getElem? fun j => ?_
  simp only [getElem?_modAt]
  split
  · subst j
    simp [hx, h]
  · rfl

theorem modAt_id {α : Type} {f : α → α} {i : Nat} {l : List α} (h : ∀ x, l[i]? = some x → f x = x) : modAt f i l = l := by
  refine List.ext_getElem? fun j => ?_
  rw [getElem?_modAt]
  split
  · subst i
    cases hx : l[j]? with
    | none => rfl
    | some x => simp [h x hx]
  · rfl

theorem neighbours_recordChanged (i : Nat) (s : State) :
    (recordChanged i s).mon.neighbours = modAt (Neighbour.evaluated (level s)) i s.mon.neighbours := by
  refine (neighbours_evaluate _ _).trans (List.ext_getElem? fun j => ?_)
  rw [getElem?_restore, getElem?_modAt]
  by_cases hj : j = i
  · subst hj
    simp only [decide_true, if_true]
    rfl
  · simp only [hj, decide_false, Bool.false_eq_true, if_false, Option.map_id', Ne.symm hj]
    rfl

/-- One entry against one record: the record is left, or changed and dealt with. -/
theorem segmentAgainst_cases (e : SegmentEntry) (c : Closure) (s : State) (i : Nat) :
    (segmentAgainst e c s i = s ∧ ∀ n, s.mon.neighbours[i]? = some n → n.told (level s) e c = n)
    ∨ ∃ (n : Neighbour) (f : Neighbour → Neighbour), s.mon.neighbours[i]? = some n ∧ n.told (level s) e c = (f n).evaluated (level s)
        ∧ (f n).passable = n.passable
        ∧ segmentAgainst e c s i = recordChanged i (s.modMon fun m => { m with neighbours := modAt f i m.neighbours }) := by
  unfold segmentAgainst
  cases hn : s.mon.neighbours[i]? with
  | none =>
    exact .inl ⟨rfl, by simp⟩
  | some n =>
    simp only [Option.some.injEq, forall_eq', Neighbour.told]
    by_cases hdeclared : e.isDeclared = true
    · simp only [hdeclared, if_true]
      by_cases hsame : n.blocked = e.blocked
      · simp [hsame]
      · rw [if_neg hsame]
        exact .inr ⟨n, fun n => { n with blocked := e.blocked }, rfl, if_neg hsame, rfl, rfl⟩
    · simp only [hdeclared, if_false, Bool.false_eq_true]
      by_cases hsame : n.remote = false ∨ n.closure = c
      · simp [hsame]
      · rw [if_neg hsame]
        exact .inr ⟨n, fun n => { n with closure := c }, rfl, if_neg hsame, rfl, rfl⟩

theorem neighbours_segmentAgainst (e : SegmentEntry) (c : Closure) (s : State) (i : Nat) :
    (segmentAgainst e c s i).mon.neighbours = modAt (Neighbour.told (level s) e c) i s.mon.neighbours := by
  obtain ⟨hs, hid⟩ | ⟨n, f, hn, htold, -, hs⟩ := segmentAgainst_cases e c s i
  · rw [hs, modAt_id hid]
  · rw [hs, neighbours_recordChanged]
    exact (modAt_modAt _ _ _ _).trans (modAt_congr hn htold.symm)

theorem writes_foldl_segmentAgainst (e : SegmentEntry) (c : Closure) (is : List Nat) (s : State) :
    Writes (Part.offered ++ Part.advertised ++ [.neighbours, .flags]) s (is.foldl (segmentAgainst e c) s) :=
  writes_foldl _ (fun i h => writes_segmentAgainst e c i h (List.Subset.refl _)) is (.refl _ s)

theorem neighbours_foldl_segmentAgainst (e : SegmentEntry) (c : Closure) (is : List Nat) (s : State) :
    (is.foldl (segmentAgainst e c) s).mon.neighbours = is.foldl (fun ns i => modAt (Neighbour.told (level s) e c) i ns) s.mon.neighbours := by
  induction is generalizing s with
  | nil => rfl
  | cons i is ih =>
    have hlevel := (writes_segmentAgainst e c i (.refl _ s) (List.Subset.refl _)).level
    rw [List.foldl_cons, ih, neighbours_segmentAgainst, hlevel, List.foldl_cons]

/-- All the records of a segment take the entry. -/
theorem neighbours_recordsOf (segment : Nat) (e : SegmentEntry) (c : Closure) (s : State) :
    ((recordsOf segment s).foldl (segmentAgainst e c) s).mon.neighbours
      = s.mon.neighbours.map fun n => if n.fixed.segment = segment then n.told (level s) e c else n := by
  rw [neighbours_foldl_segmentAgainst]
  refine (foldl_modAt_places (Neighbour.told (level s) e c) (fun n => decide (n.fixed.segment = segment)) s.mon.neighbours).trans ?_
  simp only [decide_eq_true_eq]

theorem neighbours_takeSegment (s : State) (e : SegmentEntry) : (takeSegment s e).mon.neighbours = s.mon.neighbours.map (Neighbour.hears (level s) e) := by
  unfold takeSegment
  cases hc : e.closure with
  | none => exact ((List.map_congr_left fun n _ => by simp [Neighbour.hears, hc]).trans (List.map_id _)).symm
  | some c =>
    dsimp only
    by_cases hrange : e.segment < 1 ∨ 1023 < e.segment
    · rw [if_pos hrange]
      refine (List.map_id _).symm.trans (List.map_congr_left fun n _ => ?_)
      simp only [Neighbour.hears, hc]
      rw [if_pos (by omega)]
      rfl
    · rw [if_neg hrange, neighbours_recordsOf]
      refine List.map_congr_left fun n _ => ?_
      simp only [Neighbour.hears, hc]
      by_cases hseg : n.fixed.segment = e.segment
      · rw [if_pos hseg, if_neg (by omega)]
      · rw [if_neg hseg, if_pos (by omega)]

theorem writes_takeSegments (es : List SegmentEntry) (s : State) :
    Writes (Part.offered ++ Part.advertised ++ [.neighbours, .flags]) s (es.foldl takeSegment s) :=
  writes_foldl takeSegment (fun e h => writes_takeSegment e h (List.Subset.refl _)) es (.refl _ s)

theorem untold_takeSegments (es : List SegmentEntry) (s : State) :
    (es.foldl takeSegment s).mon.neighbours.map Neighbour.untold = s.mon.neighbours.map Neighbour.untold := by
  induction es generalizing s with
  | nil => rfl
  | cons e es ih =>
    rw [List.foldl_cons, ih, neighbours_takeSegment, List.map_map]
    exact List.map_congr_left fun n _ => untold_hears _ e n

theorem state_takeSegments (es : List SegmentEntry) (s : State) :
    (es.foldl takeSegment s).mon.neighbours.map (fun n => (n.closure, n.blocked))
      = s.mon.neighbours.map fun n => es.foldl n.stateAfter (n.closure, n.blocked) := by
  induction es generalizing s with
  | nil => rfl
  | cons e es ih =>
    rw [List.foldl_cons, ih, neighbours_takeSegment, List.map_map]
    refine List.map_congr_left fun n _ => ?_
    have hafter : (n.hears (level s) e).stateAfter = n.stateAfter :=
      funext fun x => funext fun d => stateAfter_congr (untold_hears _ e n) x d
    simp only [Function.comp_apply, List.foldl_cons, hafter, state_hears]

/-! ### Changed records, and the routes over those that became impassable (R86, R95) -/

/-- From `s` to `t` every record that is another has its passability by R85, with SEGMENT set, and no route leaves over one that became impassable. -/
structure Reevaluated (s t : State) : Prop where
  level : level t = level s
  length : t.mon.neighbours.length = s.mon.neighbours.length
  changed : ∀ (i : Nat) (n m : Neighbour), s.mon.neighbours[i]? = some n → t.mon.neighbours[i]? = some m → m ≠ n →
    m.passable = m.passableNow (Machine.level s) ∧ eventSet .segment t = true
  fallen : ∀ (i : Nat) (n m : Neighbour), s.mon.neighbours[i]? = some n → t.mon.neighbours[i]? = some m → n.passable = true → m.passable = false → t.avoids i
  avoids : ∀ i, s.avoids i → t.avoids i
  event : eventSet .segment s = true → eventSet .segment t = true

theorem Reevaluated.of_eq {s t : State} (hlevel : Machine.level t = Machine.level s) (hneigh : t.mon.neighbours = s.mon.neighbours)
    (havoids : ∀ i, s.avoids i → t.avoids i) (hevent : eventSet .segment s = true → eventSet .segment t = true) : Reevaluated s t where
  level := hlevel
  length := by rw [hneigh]
  changed i n m hn hm hne := by
    rw [hneigh, hn] at hm
    exact absurd (Option.some.inj hm).symm hne
  fallen i n m hn hm hpass hfall := by
    rw [hneigh, hn] at hm
    cases hm
    rw [hpass] at hfall
    cases hfall
  avoids := havoids
  event := hevent

theorem Reevaluated.refl (s : State) : Reevaluated s s := .of_eq rfl rfl (fun _ h => h) id

theorem Reevaluated.trans {r s t : State} (h : Reevaluated r s) (k : Reevaluated s t) : Reevaluated r t := by
  have middle {i : Nat} {n : Neighbour} (hn : r.mon.neighbours[i]? = some n) : ∃ p, s.mon.neighbours[i]? = some p := by
    obtain ⟨hi, -⟩ := List.getElem?_eq_some_iff.1 hn
    exact ⟨_, List.getElem?_eq_getElem (h.length ▸ hi)⟩
  refine ⟨k.level.trans h.level, k.length.trans h.length, fun i n m hn hm hne => ?_, fun i n m hn hm hpass hfall => ?_,
    fun i hi => k.avoids i (h.avoids i hi), fun he => k.event (h.event he)⟩
  · obtain ⟨p, hp⟩ := middle hn
    by_cases hmp : m = p
    · subst hmp
      obtain ⟨hpassable, hset⟩ := h.changed i n m hn hp hne
      exact ⟨hpassable, k.event hset⟩
    · rw [← h.level]
      exact k.changed i p m hp hm hmp
  · obtain ⟨p, hp⟩ := middle hn
    cases hpp : p.passable with
    | false => exact k.avoids i (h.fallen i n p hn hp hpass hpp)
    | true => exact k.fallen i p m hp hm hpp hfall

theorem Writes.reevaluated {ps : List Part} {s t : State} (h : Writes ps s t) (hneigh : ps.contains .neighbours = false)
    (hroutes : ps.contains .routes = false) : Reevaluated s t :=
  .of_eq h.level (h.same .neighbours hneigh) (fun _ => h.avoids hroutes) h.eventSet

theorem reevaluated_segmentAgainst (e : SegmentEntry) (c : Closure) (s : State) (i : Nat) : Reevaluated s (segmentAgainst e c s i) := by
  obtain ⟨hs, -⟩ | ⟨n, f, hn, htold, hpassable, hs⟩ := segmentAgainst_cases e c s i
  · rw [hs]
    exact .refl s
  have hwrites : Writes (Part.offered ++ Part.advertised ++ [.neighbours, .flags]) s (segmentAgainst e c s i) :=
    writes_segmentAgainst e c i (.refl _ s) (List.Subset.refl _)
  have hneigh := neighbours_segmentAgainst e c s i
  have record {j : Nat} {p m : Neighbour} (hp : s.mon.neighbours[j]? = some p) (hm : (segmentAgainst e c s i).mon.neighbours[j]? = some m) :
      (j = i ∧ m = (f n).evaluated (level s) ∧ p = n) ∨ m = p := by
    rw [hneigh, getElem?_modAt, hp] at hm
    by_cases hij : i = j
    · subst hij
      rw [hn] at hp
      cases hp
      rw [if_pos rfl] at hm
      cases hm
      exact .inl ⟨rfl, htold, rfl⟩
    · rw [if_neg hij] at hm
      exact .inr (Option.some.inj hm).symm
  refine ⟨hwrites.level, by rw [hneigh, modAt_eq_modify, List.length_modify], fun j p m hp hm hne => ?_, fun j p m hp hm hpass hfall => ?_,
    fun j hj => ?_, hwrites.eventSet⟩
  · obtain ⟨rfl, rfl, rfl⟩ | rfl := record hp hm
    · exact ⟨rfl, hs ▸ eventSet_recordChanged _ _⟩
    · exact absurd rfl hne
  · obtain ⟨rfl, rfl, rfl⟩ | rfl := record hp hm
    · rw [hs]
      refine avoids_evaluate (.inr ((mem_fallen _ _ _ _).2 ⟨f p, ?_, by simp, hpassable.trans hpass, hfall⟩))
      exact (getElem?_modAt f j j s.mon.neighbours).trans (by rw [if_pos rfl, hn]; rfl)
    · rw [hpass] at hfall
      cases hfall
  · rw [hs]
    exact avoids_evaluate (.inl hj)

theorem reevaluated_foldl {α : Type} (f : State → α → State) (hf : ∀ u a, Reevaluated u (f u a)) (as : List α) (s : State) :
    Reevaluated s (as.foldl f s) := by
  induction as generalizing s with
  | nil => exact .refl s
  | cons a as ih => exact (hf s a).trans (ih _)

theorem reevaluated_takeSegment (s : State) (e : SegmentEntry) : Reevaluated s (takeSegment s e) := by
  unfold takeSegment
  split
  · exact .refl s
  · split
    · exact .refl s
    · exact reevaluated_foldl _ (reevaluated_segmentAgainst e _) _ s

/-! ### SEGMENT_STATE -/

/-- The entries of a payload taken, none when its length is wrong. -/
def segmentsOf (payload : List Octet) : List SegmentEntry := (readSegments payload).getD []

theorem exec_segmentState {f : RxFrame} {rest : List RxFrame} {s : State} (hqueue : s.bus.routeQ = f :: rest) (hkind : f.kind = .segmentState)
    (hpart : participates s = true) : exec .segmentState s = .next (settleAttention (settleLights (settleAnswers
      (((segmentsOf f.payload).foldl takeSegment s).modBus fun b => { b with routeQ := rest })))) := by
  show execSegmentState s = _
  simp only [execSegmentState, hqueue, hpart, hkind, and_self, if_true, segmentsOf]
  cases readSegments f.payload <;> rfl

/-- Settles O30. -/
theorem segmentStateIsTaken : Obligations.SegmentStateIsTaken := by
  unfold Obligations.SegmentStateIsTaken
  intro f rest s hqueue hkind hpart
  have htaken := writes_takeSegments (segmentsOf f.payload) s
  have huntold := untold_takeSegments (segmentsOf f.payload) s
  have hstate := state_takeSegments (segmentsOf f.payload) s
  have hre := reevaluated_foldl takeSegment reevaluated_takeSegment (segmentsOf f.payload) s
  have hnone (h : readSegments f.payload = none) : (segmentsOf f.payload).foldl takeSegment s = s := by simp [segmentsOf, h]
  have hentries {es : List SegmentEntry} (h : readSegments f.payload = some es) : segmentsOf f.payload = es := by simp [segmentsOf, h]
  refine ⟨_, exec_segmentState hqueue hkind hpart, ?_⟩
  generalize (segmentsOf f.payload).foldl takeSegment s = u at *
  have hend := writes_takenLit (u.modBus fun b => { b with routeQ := rest })
  have hre' := hre.trans ((Reevaluated.of_eq rfl rfl (fun _ h => h) id : Reevaluated u (u.modBus fun b => { b with routeQ := rest })).trans
    (hend.reevaluated rfl rfl))
  have hneigh : (settleAttention (settleLights (settleAnswers (u.modBus fun b => { b with routeQ := rest })))).mon.neighbours = u.mon.neighbours :=
    hend.same .neighbours rfl
  refine ⟨hend.routeQ, hend.timeQ.trans htaken.timeQ, hend.programmeQ.trans htaken.programmeQ, hend.musterQ.trans htaken.musterQ, fun h => ?_, ?_,
    fun es h => ?_, fun i n m hn hm => ⟨fun hchange => hre'.changed i n m hn hm ?_, hre'.fallen i n m hn hm⟩,
    (hend.same .filters rfl).trans (htaken.same .filters rfl), (hend.same .declared rfl).trans (htaken.same .declared rfl),
    (hend.time rfl).trans (htaken.time rfl), (hend.store rfl).trans (htaken.store rfl), hend.node.trans htaken.node, hend.port.trans htaken.port,
    hend.record.trans htaken.record⟩
  · obtain rfl := hnone h
    exact ⟨hend.mon rfl, hend.route rfl⟩
  · rw [hneigh]
    exact huntold
  · rw [hneigh, hstate, hentries h]
    rfl
  · rintro rfl
    simp at hchange

/-! ### Declarations (R83, R84) -/

theorem declareIn_held {segment : Nat} (blocked : Bool) {l : List Declared} (h : ∃ d ∈ l, d.segment = segment) :
    declareIn segment blocked l = l.map fun d => if d.segment = segment then { d with blocked := blocked, issue := d.issue + 1 } else d :=
  if_pos (by simpa using h)

theorem declareIn_new {segment : Nat} (blocked : Bool) {l : List Declared} (h : ∀ d ∈ l, d.segment ≠ segment) :
    declareIn segment blocked l = l ++ [{ segment := segment, blocked := blocked, issue := 0 }] :=
  if_neg (by simpa using h)

/-- The entry that a declaration makes. -/
def declaredEntry (segment : Nat) (blocked : Bool) : SegmentEntry := { segment, closure := some .opened, blocked, isDeclared := true }

/-- The declaration in the list, before it reaches the records. -/
def State.listing (segment : Nat) (blocked : Bool) (s : State) : State :=
  { s with mon := { s.mon with declared := declareIn segment blocked s.mon.declared } }

/-- The declaration at the records of its segment. -/
def State.declaring (segment : Nat) (blocked : Bool) (s : State) : State :=
  (recordsOf segment s).foldl (segmentAgainst (declaredEntry segment blocked) .opened) (s.listing segment blocked)

/-- The frame of a declaration. -/
def declaredOffer (segment : Nat) (blocked : Bool) (s : State) : Offer :=
  ⟨.segmentState, 255, declaredOctets segment blocked, declarationNotes segment s.mon.declared, false⟩

theorem declareTaken_eq (segment : Nat) (blocked : Bool) (s : State) :
    declareTaken segment blocked s = offer' (declaredOffer segment blocked (s.declaring segment blocked)) (s.declaring segment blocked) := rfl

theorem writes_declaring (segment : Nat) (blocked : Bool) (s : State) :
    Writes (Part.offered ++ Part.advertised ++ [.neighbours, .flags]) (s.listing segment blocked) (s.declaring segment blocked) :=
  writes_foldl_segmentAgainst _ _ _ _

theorem blocked_declaring {segment : Nat} {blocked : Bool} {s : State} {n : Neighbour} (hn : n ∈ (s.declaring segment blocked).mon.neighbours)
    (hseg : n.fixed.segment = segment) : n.blocked = blocked := by
  have hmap : (s.declaring segment blocked).mon.neighbours = _ :=
    neighbours_recordsOf segment (declaredEntry segment blocked) .opened (s.listing segment blocked)
  rw [hmap, List.mem_map] at hn
  obtain ⟨m, -, rfl⟩ := hn
  by_cases hm : m.fixed.segment = segment
  · rw [if_pos hm]
    exact blocked_told_declared rfl _ _
  · rw [if_neg hm] at hseg
    exact absurd hseg hm

theorem foldl_eq_self {α β : Type} {f : α → β → α} {a : α} {l : List β} (h : ∀ b ∈ l, f a b = a) : l.foldl f a = a := by
  induction l with
  | nil => rfl
  | cons b l ih => rw [List.foldl_cons, h b (by simp), ih fun c hc => h c (by simp [hc])]

/-- A declaration that no record of its segment changes by. -/
theorem declaring_idle {segment : Nat} {blocked : Bool} {s : State} (h : ∀ n ∈ s.mon.neighbours, n.fixed.segment = segment → n.blocked = blocked) :
    s.declaring segment blocked = s.listing segment blocked := by
  refine foldl_eq_self fun i hi => ?_
  obtain ⟨n, hn, hseg⟩ := (mem_places (fun n : Neighbour => decide (n.fixed.segment = segment)) s.mon.neighbours i).1 hi
  have hblocked := h n (List.mem_of_getElem? hn) (by simpa using hseg)
  simp [segmentAgainst, State.listing, declaredEntry, hn, hblocked]

theorem exec_declareSegment {args : List Octet} {s u : State} {r : List Octet} (hpart : participates s = true) (hport : s.port.state = .idle)
    (hlong : 3 ≤ args.length) (hdo : doDeclare args s = (u, r)) : exec (.declareSegment args) s = .next (settle (u.answered (0x0F :: args) r)) := by
  have hrun := portRun_owner (code := 0x0F) (args := args) (doDeclare args) (not_reset_of_participates hpart) hport (stateAllows_of_participates _ hpart)
    (tooShort_of_long rfl (by decide) hlong)
  rw [hdo, answer_eq] at hrun
  exact congrArg (fun v => Host.Outcome.next (settle v)) hrun

/-- A command refused by its owner changes the port alone, up to what the end of the step does. -/
theorem steady_refused {g : State → State} (hg : KeepsSteady g) (block response : List Octet) (s : State) : (g (s.answered block response)).steady =
    { s.steady with port := { s.port with state := .ready, command := block, response := response } } := by
  rw [hg, steady_answered]

theorem doDeclare_notPermitted {args : List Octet} {s : State} (h : (roles s).console = false) : doDeclare args s = (s, [0x02]) := if_pos h

theorem doDeclare_invalid {args : List Octet} {s : State} (hrole : (roles s).console = true)
    (h : rd16At args 0 < 1 ∨ 1023 < rd16At args 0 ∨ 1 < (octetAt args 2).toNat) : doDeclare args s = (s, [0x03]) :=
  (if_neg (by simp [hrole])).trans (if_pos h)

theorem doDeclare_full {args : List Octet} {s : State} (hrole : (roles s).console = true) (hlow : 1 ≤ rd16At args 0) (hhigh : rd16At args 0 ≤ 1023)
    (hstate : (octetAt args 2).toNat ≤ 1) (hlen : s.mon.declared.length = 8) (hnew : ∀ d ∈ s.mon.declared, d.segment ≠ rd16At args 0) :
    doDeclare args s = (s, [0x04]) :=
  ((if_neg (by simp [hrole])).trans (if_neg (by omega))).trans (if_pos ⟨hlen, by simpa using hnew⟩)

theorem doDeclare_taken {args : List Octet} {s : State} (hrole : (roles s).console = true) (hlow : 1 ≤ rd16At args 0) (hhigh : rd16At args 0 ≤ 1023)
    (hstate : (octetAt args 2).toNat ≤ 1) (hroom : s.mon.declared.length < 8 ∨ ∃ d ∈ s.mon.declared, d.segment = rd16At args 0) :
    doDeclare args s = (declareTaken (rd16At args 0) ((octetAt args 2).toNat = 1) s, [0x00]) := by
  refine ((if_neg (by simp [hrole])).trans (if_neg (by omega))).trans (if_neg ?_)
  rintro ⟨hlen, hall⟩
  rcases hroom with hroom | ⟨d, hd, hseg⟩
  · omega
  · simp only [List.all_eq_true, decide_eq_true_eq] at hall
    exact hall d hd hseg

/-- Settles O31. -/
theorem declareSegmentBlocks : Obligations.DeclareSegmentBlocks := by
  unfold Obligations.DeclareSegmentBlocks
  intro args s hpart hport hlong
  refine ⟨fun hrole hlow hhigh hstate hroom => ?taken,
    fun hrole => ⟨_, exec_declareSegment hpart hport hlong (doDeclare_notPermitted hrole), steady_refused keepsSteady_settle _ _ s⟩,
    fun hrole hbad => ⟨_, exec_declareSegment hpart hport hlong (doDeclare_invalid hrole hbad), steady_refused keepsSteady_settle _ _ s⟩,
    fun hrole hlow hhigh hstate hlen hnew => ⟨_, exec_declareSegment hpart hport hlong (doDeclare_full hrole hlow hhigh hstate hlen hnew),
      steady_refused keepsSteady_settle _ _ s⟩,
    fun segment blocked l => ⟨declareIn_held blocked, declareIn_new blocked⟩⟩
  refine ⟨_, exec_declareSegment hpart hport hlong (doDeclare_taken hrole hlow hhigh hstate hroom), ?_⟩
  generalize rd16At args 0 = segment
  generalize decide ((octetAt args 2).toNat = 1) = blocked
  rw [declareTaken_eq]
  have hrecords := writes_declaring segment blocked s
  have hidle := @declaring_idle segment blocked s
  have hblocked := fun n => @blocked_declaring segment blocked s n
  generalize s.declaring segment blocked = u at *
  have hdeclared : u.mon.declared = declareIn segment blocked s.mon.declared := hrecords.same .declared rfl
  have hoffer : Writes Part.offered u (offer' (declaredOffer segment blocked u) u) := writes_offer_ _ (.refl _ u) (List.Subset.refl _)
  have hend : Writes _ _ (settle ((offer' (declaredOffer segment blocked u) u).answered (0x0F :: args) [0x00])) :=
    writes_settle (.refl _ _) (List.Subset.refl _)
  have hlist : (settle ((offer' (declaredOffer segment blocked u) u).answered (0x0F :: args) [0x00])).mon.declared = declareIn segment blocked s.mon.declared :=
    ((hend.same .declared rfl).trans (hoffer.same .declared rfl)).trans hdeclared
  refine ⟨hlist, fun n hn => ?_, fun hsame hsound hfree => ?_, ?_,
    (hend.time rfl).trans ((hoffer.time rfl).trans (hrecords.time rfl)), (hend.store rfl).trans ((hoffer.store rfl).trans (hrecords.store rfl)),
    hend.node.trans (hoffer.node.trans hrecords.node), hend.record.trans (hoffer.record.trans hrecords.record)⟩
  · have hneigh : (settle ((offer' (declaredOffer segment blocked u) u).answered (0x0F :: args) [0x00])).mon.neighbours = u.mon.neighbours :=
      (hend.same .neighbours rfl).trans (hoffer.same .neighbours rfl)
    rw [hneigh] at hn
    exact hblocked n hn
  · rw [hlist]
    obtain rfl := hidle hsame
    have hpass : ¬ refusedByState (declaredOffer segment blocked (s.listing segment blocked)) (s.listing segment blocked) := by
      rintro (h | ⟨-, h⟩)
      · exact absurd h (by rw [show participates (s.listing segment blocked) = participates s from rfl, hpart]; decide)
      · cases h
    have hself := stands_offer_room (o := declaredOffer segment blocked (s.listing segment blocked)) (s := s.listing segment blocked) rfl hpass hsound hfree
    exact stands_settle rfl (.inr (Nat.le_refl 2)) hself
  · rw [hend.port]
    exact congrArg (fun p : LocalPort => { p with state := .ready, command := 0x0F :: args, response := [0x00] }) (hoffer.port.trans hrecords.port)

end Sys2Proof.Machine
end

