-- ==== Sys2Proof/Proofs/Adverts.lean ====
section
/-! PROOFS. Adverts fallen due (O34). -/

namespace Sys2Proof.Machine

/-- An offer that R34 and R35 let pass on a queue of fewer than 8 is accepted. -/
theorem offer_accepted {o : Offer} {s : State} (hpass : ¬ refusedByState o s) (hroom : s.bus.queue.length < 8) :
    offer o s = ((offer o s).1, .accepted s.bus.nextSeq none) := by
  rw [offer_of_room o hroom]
  by_cases hnew : (o.kind.single && queued o.kind s.bus.queue) = true
  · obtain ⟨hsingle, hqueued⟩ := Bool.and_eq_true_iff.1 hnew
    rw [offerBase_replaces hpass hsingle hqueued]
  · rw [offerBase_places hpass (by simpa using hnew) hroom]

/-- Only a programme frame is refused in JOINING and RUN, and that at MUSTER alone. -/
theorem not_refused {o : Offer} {s : State} (hpart : participates s = true) (hkind : o.kind.programme = false) : ¬ refusedByState o s := by
  rintro (h | ⟨-, h⟩)
  · rw [hpart] at h
    cases h
  · rw [hkind] at h
    cases h

/-! ### The frames that follow an advert (R81, R84) -/

section

variable {f : TxFrame} {s : State}

theorem steady_offerSensed (s : State) : (offerSensed s).steady = s.steady := by
  unfold offerSensed
  dsimp only
  split <;> simp

theorem steady_offerDeclared (l : List Declared) (s : State) : (offerDeclared l s).steady = s.steady := by
  unfold offerDeclared
  split <;> simp

theorem steady_offerSegments (s : State) : (offerSegments s).steady = s.steady := by
  unfold offerSegments
  dsimp only
  (repeat' split) <;> simp [steady_offerSensed, steady_offerDeclared]

theorem queue_length_offerSensed (hroom : s.bus.queue.length < 8) : (offerSensed s).bus.queue.length ≤ s.bus.queue.length + 1 := by
  unfold offerSensed
  dsimp only
  split
  · exact Nat.le_succ _
  · exact queue_length_offer _ hroom

theorem queue_length_offerDeclared (l : List Declared) (hroom : s.bus.queue.length < 8) :
    (offerDeclared l s).bus.queue.length ≤ s.bus.queue.length + 1 := by
  unfold offerDeclared
  split
  · exact Nat.le_succ _
  · exact queue_length_offer _ hroom

theorem time_offerSensed (s : State) : (offerSensed s).time = s.time := congrArg Steady.time (steady_offerSensed s)

theorem time_offerDeclared (l : List Declared) (s : State) : (offerDeclared l s).time = s.time := congrArg Steady.time (steady_offerDeclared l s)

theorem stands_offerSensed (hload : loadShift s.time.pendingShift f = f) (hroom : s.bus.queue.length < 8) (h : s.stands f) : (offerSensed s).stands f := by
  unfold offerSensed
  dsimp only
  split
  · exact h
  · exact stands_offer hload (.inl rfl) (.inl hroom) h

theorem stands_offerDeclared (l : List Declared) (hload : loadShift s.time.pendingShift f = f) (hroom : s.bus.queue.length < 8) (h : s.stands f) :
    (offerDeclared l s).stands f := by
  unfold offerDeclared
  split
  · exact h
  · exact stands_offer hload (.inl rfl) (.inl hroom) h

theorem offerSensed_stands (hpart : participates s = true) (hroom : s.bus.queue.length < 8) (hsome : sensedPayload s.mon.neighbours ≠ []) :
    (offerSensed s).stands ⟨.segmentState, 255, s.bus.nextSeq, sensedPayload s.mon.neighbours, [], false⟩ := by
  unfold offerSensed
  dsimp only
  rw [if_neg (by simpa using hsome)]
  exact stands_offer_self rfl (not_refused hpart rfl) hroom

theorem offerDeclared_stands {l : List Declared} (hpart : participates s = true) (hroom : s.bus.queue.length < 8) (hsome : l ≠ []) :
    (offerDeclared l s).stands
      ⟨.segmentState, 255, s.bus.nextSeq, (l.map fun d => declaredOctets d.segment d.blocked).flatten, clearNotes l, false⟩ := by
  unfold offerDeclared
  rw [if_neg (by simpa using hsome)]
  exact stands_offer_self rfl (not_refused hpart rfl) hroom

theorem offerSegments_run (hrun : s.node.state = .run) : offerSegments s =
    if (roles (offerSensed s)).console then offerDeclared ((offerSensed s).mon.declared.drop 6)
      (offerDeclared ((offerSensed s).mon.declared.take 6) (offerSensed s)) else offerSensed s := if_pos hrun

theorem writes_offerSensed' (s : State) : Writes Part.offered s (offerSensed s) := writes_offerSensed (.refl _ s) (List.Subset.refl _)

theorem writes_offerDeclared' (l : List Declared) (s : State) : Writes Part.offered s (offerDeclared l s) :=
  writes_offerDeclared l (.refl _ s) (List.Subset.refl _)

/-- With room for three frames more, every frame that stands is left. -/
theorem stands_offerSegments (hload : loadShift s.time.pendingShift f = f) (hroom : s.bus.queue.length ≤ 5) (h : s.stands f) : (offerSegments s).stands f := by
  by_cases hrun : s.node.state = .run
  · rw [offerSegments_run hrun]
    have hsensed := stands_offerSensed hload (by omega) h
    have hlen := queue_length_offerSensed (s := s) (by omega)
    have hlen' := queue_length_offerDeclared ((offerSensed s).mon.declared.take 6) (s := offerSensed s) (by omega)
    split
    · exact stands_offerDeclared _ (by rw [time_offerDeclared, time_offerSensed]; exact hload) (by omega)
        (stands_offerDeclared _ (by rw [time_offerSensed]; exact hload) (by omega) hsensed)
    · exact hsensed
  · rw [offerSegments, if_neg hrun]
    exact h

/-- In RUN the sensed entries stand to be sent. -/
theorem offerSegments_sensed (hrun : s.node.state = .run) (hroom : s.bus.queue.length ≤ 5) (hsome : sensedPayload s.mon.neighbours ≠ []) :
    (offerSegments s).stands ⟨.segmentState, 255, s.bus.nextSeq, sensedPayload s.mon.neighbours, [], false⟩ := by
  have hpart : participates s = true := by simp [participates, hrun]
  rw [offerSegments_run hrun]
  have hsensed := offerSensed_stands hpart (by omega) hsome
  have hlen := queue_length_offerSensed (s := s) (by omega)
  have hlen' := queue_length_offerDeclared ((offerSensed s).mon.declared.take 6) (s := offerSensed s) (by omega)
  split
  · exact stands_offerDeclared _ rfl (by omega) (stands_offerDeclared _ rfl (by omega) hsensed)
  · exact hsensed

/-- In RUN a console's declared list stands to be sent, six entries to a frame. -/
theorem offerSegments_declared (hrun : s.node.state = .run) (hroom : s.bus.queue.length ≤ 5) (hrole : (roles s).console = true)
    {l : List Declared} (hl : l = s.mon.declared.take 6 ∨ l = s.mon.declared.drop 6) (hsome : l ≠ []) :
    ∃ q, (offerSegments s).stands ⟨.segmentState, 255, q, (l.map fun d => declaredOctets d.segment d.blocked).flatten, clearNotes l, false⟩ := by
  have hsensed := writes_offerSensed' s
  have hdeclared : (offerSensed s).mon.declared = s.mon.declared := hsensed.same .declared rfl
  rw [offerSegments_run hrun, if_pos (by rw [hsensed.roles]; exact hrole), hdeclared]
  have hpart : participates (offerSensed s) = true := by simp [participates, hsensed.node, hrun]
  have hfirst := writes_offerDeclared' (s.mon.declared.take 6) (offerSensed s)
  have hlen := queue_length_offerSensed (s := s) (by omega)
  have hlen' := queue_length_offerDeclared (s.mon.declared.take 6) (s := offerSensed s) (by omega)
  rcases hl with rfl | rfl
  · exact ⟨_, stands_offerDeclared _ rfl (by omega) (offerDeclared_stands hpart (by omega) hsome)⟩
  · exact ⟨_, offerDeclared_stands (hfirst.participates.trans hpart) (by omega) hsome⟩

end

/-! ### The advert (R96 to R99) -/

/-- The offer of an advert. -/
def advertOffer (s : State) : Offer := ⟨.routeAdvert, 255, advertPayload s, [], false⟩

/-- The advert has been accepted and its timer restarted; the segment frames follow. -/
def State.advertised (s : State) : State :=
  startAdvertTimer (level (offer (advertOffer s) s).1) (advertAnswered (.accepted s.bus.nextSeq none) (offer (advertOffer s) s).1)

theorem offerAdvert_accepted {s : State} (hpart : participates s = true) (hroom : s.bus.queue.length < 8) :
    offerAdvert s = offerSegments s.advertised := by
  have haccept := offer_accepted (o := advertOffer s) (not_refused hpart rfl) hroom
  unfold offerAdvert State.advertised
  rw [show (⟨.routeAdvert, 255, advertPayload s, [], false⟩ : Offer) = advertOffer s from rfl]
  generalize offer (advertOffer s) s = p at haccept
  rw [haccept]

/-- The length that the level's range gives the advert timer (R97). -/
theorem advertLength_range (l : Level) (s : State) : ∃ n, (if l.alert = true then drawValue 1500 2500 s else drawValue 7500 12500 s) = n
    ∧ if l.alert = true then 1500 ≤ n ∧ n ≤ 2500 else 7500 ≤ n ∧ n ≤ 12500 := by
  refine ⟨_, rfl, ?_⟩
  split
  · exact drawValue_range 1500 2500 s (by omega)
  · exact drawValue_range 7500 12500 s (by omega)

/-- The routes with the advert offered now. -/
def RouteEngine.advertisedNow (r : RouteEngine) (now : Tick) (n : Nat) : RouteEngine :=
  { table := r.table.map fun e => { e with changed := false }, advertTimer := some { start := now, len := n }, trigger := none, lastOffer := some now }

theorem steady_advertised (s : State) : ∃ n, (if (level s).alert = true then 1500 ≤ n ∧ n ≤ 2500 else 7500 ≤ n ∧ n ≤ 12500)
    ∧ s.advertised.steady = { s.steady with route := s.route.advertisedNow s.time.now n } := by
  have hoffer := writes_offer (advertOffer s) (.refl _ s) (List.Subset.refl _)
  have hsteady := steady_offer (advertOffer s) s
  unfold State.advertised
  generalize (offer (advertOffer s) s).1 = u at *
  obtain ⟨n, hn, hrange⟩ := advertLength_range (level u) u
  rw [hoffer.level] at hrange
  refine ⟨n, hrange, ?_⟩
  have htimer : (startAdvertTimer (level u) (advertAnswered (.accepted s.bus.nextSeq none) u)).steady
      = { u.steady with route := u.route.advertisedNow u.time.now n } := by
    subst hn
    rfl
  rw [htimer, hsteady, hoffer.route rfl, hoffer.now]

theorem bus_advertised (s : State) : s.advertised.bus = (offer (advertOffer s) s).1.bus := by
  unfold State.advertised
  generalize (offer (advertOffer s) s).1 = u
  rfl

theorem queue_advertised {s : State} (hroom : s.bus.queue.length < 8) : s.advertised.bus.queue.length ≤ s.bus.queue.length + 1 := by
  rw [bus_advertised]
  exact queue_length_offer _ hroom

theorem advertised_stands {s : State} (hpart : participates s = true) (hroom : s.bus.queue.length < 8) :
    s.advertised.stands ⟨.routeAdvert, 255, s.bus.nextSeq, advertPayload s, [], false⟩ := by
  have hself := stands_offer_self (o := advertOffer s) rfl (not_refused hpart rfl) hroom
  rw [State.stands, bus_advertised]
  exact hself

/-- Settles O34. -/
theorem advertsAreOffered : Obligations.AdvertsAreOffered := by
  unfold Obligations.AdvertsAreOffered
  intro c s hdue hpart hroom
  have hexec : exec c s = .next (settleAttention (settleAnswers (offerAdvert s))) := by
    rcases hdue with ⟨rfl, hdue⟩ | ⟨rfl, hdue⟩
    · exact congrArg Host.Outcome.next (if_pos hdue)
    · exact congrArg Host.Outcome.next (if_pos hdue)
  obtain ⟨n, hrange, hsteady⟩ := steady_advertised s
  rw [offerAdvert_accepted hpart hroom] at hexec
  have hnode : s.advertised.node = s.node := congrArg Steady.node hsteady
  have hmon : s.advertised.mon = s.mon := congrArg Steady.mon hsteady
  refine ⟨_, n, hexec, hrange, fun hfour => ?_, ?_⟩
  · have hfive : s.advertised.bus.queue.length ≤ 5 := (queue_advertised hroom).trans (by omega)
    refine ⟨stands_taken (stands_offerSegments rfl hfive (advertised_stands hpart hroom)), fun hrun hsome => ⟨s.advertised.bus.nextSeq, ?_⟩,
      fun l hl hsome hrun hrole => ?_⟩
    · rw [← hmon] at hsome ⊢
      exact stands_taken (offerSegments_sensed (hnode ▸ hrun) hfive hsome)
    · rw [← hmon] at hl
      obtain ⟨q, hq⟩ := offerSegments_declared (hnode ▸ hrun) hfive (by rw [roles, hnode]; exact hrole) hl hsome
      exact ⟨q, stands_taken hq⟩
  · rw [steady_settleAttention, steady_settleAnswers, steady_offerSegments, hsteady]
    rfl

end Sys2Proof.Machine
end

