-- ==== Sys2Proof/Proofs/AdvertTaken.lean ====
section
/-! PROOFS. ROUTE_ADVERT (O32): presence, the routes worked out, the trigger, and the join prompt. -/

namespace Sys2Proof.Machine

/-! ### Presence (R76) -/

/-- The neighbour entry as an advert of the source leaves it. -/
def Neighbour.heardFrom (source : Nat) (s : State) (n : Neighbour) : Neighbour :=
  if n.fixed.station = source then { n with presence := .up, presenceTimer := startTimer s (presenceTime (level s)) } else n

theorem mon_hearAdvert (source : Nat) (s : State) :
    (hearAdvert source s).mon = { s.mon with neighbours := s.mon.neighbours.map (Neighbour.heardFrom source s) } := by
  unfold hearAdvert setEventIf
  dsimp only
  split <;> rfl

theorem writes_hearAdvert' (source : Nat) (s : State) : Writes [.neighbours, .flags] s (hearAdvert source s) :=
  writes_hearAdvert source (.refl _ s) (List.Subset.refl _)

theorem eventSet_hearAdvert {source : Nat} {s : State} (h : ∃ n ∈ s.mon.neighbours, n.fixed.station = source ∧ n.presence = .down) :
    eventSet .neighbour (hearAdvert source s) = true :=
  eventSet_setEventIf (by simpa using h) .neighbour _

/-! ### The work on the routes (R93, R94) -/

/-- What the entries of an advert make of the routes, against each neighbour entry of its source. -/
def advertWork (source : Nat) (entries : List AdvertEntry) (s : State) : RouteWork × Nat :=
  (entriesOf source s).foldl (advertAgainst (ownStation s) entries) (routeWork s, 0)

/-- Presence has no part in the work. -/
theorem advertAgainst_heardFrom (own : Option Nat) (entries : List AdvertEntry) (source : Nat) (s : State) (w : RouteWork × Nat) (p : Neighbour × Nat) :
    advertAgainst own entries w (p.1.heardFrom source s, p.2) = advertAgainst own entries w p := by
  unfold Neighbour.heardFrom
  split <;> rfl

theorem station_heardFrom (source : Nat) (s : State) (n : Neighbour) : (n.heardFrom source s).fixed = n.fixed := by
  unfold Neighbour.heardFrom
  split <;> rfl

theorem entriesOf_hearAdvert (source : Nat) (s : State) :
    entriesOf source (hearAdvert source s) = (entriesOf source s).map fun p => (p.1.heardFrom source s, p.2) := by
  unfold entriesOf
  rw [mon_hearAdvert, List.zipIdx_map, List.filter_map]
  congr 1
  refine List.filter_congr fun p _ => ?_
  simp only [Function.comp_apply, Prod.map_fst, station_heardFrom]

theorem entriesOf_eq_nil_iff (source : Nat) (s : State) : entriesOf source (hearAdvert source s) = [] ↔ entriesOf source s = [] := by
  rw [entriesOf_hearAdvert, List.map_eq_nil_iff]

theorem advertWork_hearAdvert (source : Nat) (entries : List AdvertEntry) (s : State) :
    advertWork source entries (hearAdvert source s) = advertWork source entries s := by
  have hwrites := writes_hearAdvert' source s
  have hown : ownStation (hearAdvert source s) = ownStation s := by rw [ownStation, hwrites.node, ownStation]
  have hwork : routeWork (hearAdvert source s) = routeWork s := by rw [routeWork, hwrites.route rfl, routeWork]
  unfold advertWork
  rw [entriesOf_hearAdvert, List.foldl_map, hown, hwork]
  exact congrArg (fun g => (entriesOf source s).foldl g (routeWork s, 0))
    (funext fun w => funext fun p => advertAgainst_heardFrom _ entries source s w p)

/-! ### The join prompt (R60, R116) -/

/-- What a JOINING flag makes the node do, with or without a neighbour entry of the source. -/
def joinPrompted (joining : Bool) (nbs : List (Neighbour × Nat)) (s : State) : State :=
  if joining then (if nbs.isEmpty then promptEcho (promptSummary s) else makeTriggerDue (promptEcho (promptSummary s))) else s

theorem takeAdvert_none {source : Nat} {payload : List Octet} {s : State} (h : readAdvert payload = none) :
    takeAdvert source payload s = hearAdvert source s := by
  unfold takeAdvert
  rw [h]

/-- An advert in its steps: presence, the worked table, the unknown codes, the join prompt, the end of the change. -/
theorem takeAdvert_some {source : Nat} {payload : List Octet} {joining : Bool} {entries : List AdvertEntry} {s : State}
    (h : readAdvert payload = some (joining, entries)) : takeAdvert source payload s =
      endOfChange (advertWork source entries s).1 (joinPrompted joining (entriesOf source (hearAdvert source s))
        (countUnknown (advertWork source entries s).2 (putTable (advertWork source entries s).1 (hearAdvert source s)))) := by
  rw [← advertWork_hearAdvert]
  unfold takeAdvert
  rw [h]
  rfl

theorem promptSummary_prompts {s : State} (h : s.node.state = .run ∧ (level s).calm = true ∧ s.exch.early = none) :
    ∃ n, n ≤ 2000 ∧ (promptSummary s).exch.early = some { start := s.time.now, len := n } := by
  refine ⟨drawValue 0 2000 s, (drawValue_range 0 2000 s (by omega)).2, ?_⟩
  rw [promptSummary, if_pos ⟨h.1, h.2.1, by rw [h.2.2]; rfl⟩]
  rfl

theorem promptSummary_idle {s : State} (h : ¬ (s.node.state = .run ∧ (level s).calm = true ∧ s.exch.early = none)) : promptSummary s = s := by
  rw [promptSummary, if_neg (by simpa using h)]

theorem promptEcho_prompts {s : State} (h : s.node.state = .run ∧ s.muster.record.serial ≠ 0 ∧ s.muster.joinEcho = none) :
    ∃ n, n ≤ 2000 ∧ (promptEcho s).muster.joinEcho = some { start := s.time.now, len := n } := by
  refine ⟨drawValue 0 2000 s, (drawValue_range 0 2000 s (by omega)).2, ?_⟩
  rw [promptEcho, if_pos ⟨h.1, h.2.1, by rw [h.2.2]; rfl⟩]
  rfl

theorem promptEcho_idle {s : State} (h : ¬ (s.node.state = .run ∧ s.muster.record.serial ≠ 0 ∧ s.muster.joinEcho = none)) : promptEcho s = s := by
  rw [promptEcho, if_neg (by simpa using h)]

theorem writes_promptSummary' (s : State) : Writes [.early, .free] s (promptSummary s) := writes_promptSummary (.refl _ s) (List.Subset.refl _)

theorem writes_promptEcho' (s : State) : Writes [.joinEcho, .free] s (promptEcho s) := writes_promptEcho (.refl _ s) (List.Subset.refl _)

theorem writes_makeTriggerDue' (s : State) : Writes (Part.offered ++ Part.advertised) s (makeTriggerDue s) :=
  writes_makeTriggerDue (.refl _ s) (List.Subset.refl _)

/-- The join prompt is the two prompts and at most a trigger. -/
theorem writes_joinPrompted (joining : Bool) (nbs : List (Neighbour × Nat)) (s : State) : Writes (Part.offered ++ Part.advertised)
    (if joining then promptEcho (promptSummary s) else s) (joinPrompted joining nbs s) := by
  unfold joinPrompted
  split
  · split
    · exact .refl _ _
    · exact writes_makeTriggerDue' _
  · exact .refl _ _

theorem early_prompts (s : State) : (promptEcho (promptSummary s)).exch.early = (promptSummary s).exch.early :=
  (writes_promptEcho' _).same .early rfl

theorem joinEcho_prompts (s : State) :
    ((s.node.state = .run ∧ s.muster.record.serial ≠ 0 ∧ s.muster.joinEcho = none) →
        ∃ n, n ≤ 2000 ∧ (promptEcho (promptSummary s)).muster.joinEcho = some { start := s.time.now, len := n })
      ∧ (¬ (s.node.state = .run ∧ s.muster.record.serial ≠ 0 ∧ s.muster.joinEcho = none) →
        (promptEcho (promptSummary s)).muster.joinEcho = s.muster.joinEcho) := by
  have hw := writes_promptSummary' s
  have hecho : (promptSummary s).muster.joinEcho = s.muster.joinEcho := hw.same .joinEcho rfl
  rw [← hecho, ← hw.node, ← hw.record, ← hw.now]
  exact ⟨promptEcho_prompts, fun h => congrArg (·.muster.joinEcho) (promptEcho_idle h)⟩

/-! ### The trigger (R98) -/

/-- The routes stand, or an advert has been offered now, none having been before. -/
def AdvertedOnce (s t : State) : Prop :=
  (t.route.table = s.route.table ∧ t.route.lastOffer = s.route.lastOffer) ∨ (t.route.lastOffer = some s.time.now ∧ s.route.lastOffer ≠ some s.time.now)

theorem AdvertedOnce.refl (s : State) : AdvertedOnce s s := .inl ⟨rfl, rfl⟩

theorem AdvertedOnce.trans {r s t : State} (h : AdvertedOnce r s) (k : AdvertedOnce s t) (hnow : s.time.now = r.time.now) : AdvertedOnce r t := by
  rcases h with ⟨htable, hlast⟩ | ⟨hlast, hne⟩ <;> rcases k with ⟨ktable, klast⟩ | ⟨klast, kne⟩
  · exact .inl ⟨ktable.trans htable, klast.trans hlast⟩
  · rw [hnow] at klast kne
    exact .inr ⟨klast, hlast ▸ kne⟩
  · exact .inr ⟨klast.trans hlast, hne⟩
  · rw [hnow] at klast
    exact .inr ⟨klast, hne⟩

theorem Writes.advertedOnce {ps : List Part} {s t : State} (h : Writes ps s t) (hroutes : ps.contains .routes = false)
    (hlast : ps.contains .lastOffer = false) : AdvertedOnce s t := .inl ⟨h.same .routes hroutes, h.same .lastOffer hlast⟩

theorem route_offerSegments (s : State) : (offerSegments s).route = s.route := congrArg Steady.route (steady_offerSegments s)

/-- In JOINING and RUN an advert offered is accepted or finds the queue full; either way the last offer is now. -/
theorem lastOffer_offerAdvert {s : State} (hpart : participates s = true) : (offerAdvert s).route.lastOffer = some s.time.now := by
  have hw := writes_offer (advertOffer s) (.refl Part.offered s) (List.Subset.refl _)
  have hanswer : (offer (advertOffer s) s).2 ≠ .refusedState := by
    have hbase : (offerBase (advertOffer s) s).2 ≠ .refusedState := by
      rw [offerBase_of_not_refused (not_refused hpart rfl)]
      (repeat' split) <;> simp
    unfold offer
    split
    · simp
    · exact hbase
  have hsegments (u : State) (a : OfferAnswer) (ha : a ≠ .refusedState) :
      (offerSegments (startAdvertTimer (level u) (advertAnswered a u))).route.lastOffer = some u.time.now := by
    rw [route_offerSegments]
    cases a with
    | accepted => rfl
    | refusedFull => rfl
    | refusedState => exact absurd rfl ha
  unfold offerAdvert
  rw [show (⟨.routeAdvert, 255, advertPayload s, [], false⟩ : Offer) = advertOffer s from rfl]
  generalize offer (advertOffer s) s = p at *
  rw [← hw.now]
  exact hsegments p.1 p.2 hanswer

theorem advertedOnce_makeTriggerDue (s : State) : AdvertedOnce s (makeTriggerDue s) := by
  unfold makeTriggerDue
  split
  · rename_i h
    have hpart : participates s = true := (Bool.and_eq_true_iff.1 h).1
    split
    · rename_i hlast
      exact .inr ⟨lastOffer_offerAdvert hpart, by simp [hlast]⟩
    · rename_i t hlast
      split
      · rename_i hspacing
        refine .inr ⟨lastOffer_offerAdvert hpart, fun heq => ?_⟩
        rw [hlast] at heq
        cases heq
        simp [Config.triggerSpacing] at hspacing
      · exact .inl ⟨rfl, rfl⟩
  · exact .refl s

/-- An advert is pending or has been offered now. -/
def AdvertDue (s : State) : Prop := s.route.trigger.isSome = true ∨ s.route.lastOffer = some s.time.now

theorem advertDue_makeTriggerDue {s : State} (hpart : participates s = true) : AdvertDue (makeTriggerDue s) := by
  have hw := writes_makeTriggerDue' s
  rw [AdvertDue, hw.now]
  unfold makeTriggerDue
  split
  · split
    · exact .inr (lastOffer_offerAdvert hpart)
    · split
      · exact .inr (lastOffer_offerAdvert hpart)
      · exact .inl rfl
  · rename_i h
    exact .inl (by simpa [hpart, Option.isSome_iff_ne_none] using h)

theorem Writes.advertDue {ps : List Part} {s t : State} (h : Writes ps s t) (hp : Part.apart [.trigger, .lastOffer] ps = true) (hs : AdvertDue s) :
    AdvertDue t := by
  rw [AdvertDue, show t.route.trigger = s.route.trigger from h.sameOf hp (p := .trigger) (by simp),
    show t.route.lastOffer = s.route.lastOffer from h.sameOf hp (p := .lastOffer) (by simp), h.now]
  exact hs

theorem writes_setRoute (c : Bool) (s : State) : Writes [.flags] s (setEventIf c .route s) :=
  writes_setEventIf c .route (.refl _ s) (List.Subset.refl _) (.inl nofun)

theorem endOfChange_touched {w : RouteWork} (h : w.touched = true) (s : State) : endOfChange w s = setEventIf w.turned .route (makeTriggerDue s) := by
  simp [endOfChange, h]

theorem endOfChange_untouched {w : RouteWork} (h : w.touched = false) (s : State) : endOfChange w s = setEventIf w.turned .route s := by
  simp [endOfChange, h]

theorem advertedOnce_endOfChange (w : RouteWork) (s : State) : AdvertedOnce s (endOfChange w s) := by
  cases h : w.touched with
  | true =>
    rw [endOfChange_touched h]
    exact (advertedOnce_makeTriggerDue s).trans ((writes_setRoute _ _).advertedOnce rfl rfl) (writes_makeTriggerDue' s).now
  | false =>
    rw [endOfChange_untouched h]
    exact (writes_setRoute _ _).advertedOnce rfl rfl

theorem advertDue_endOfChange {w : RouteWork} {s : State} (hpart : participates s = true) (h : w.touched = true ∨ AdvertDue s) :
    AdvertDue (endOfChange w s) := by
  cases htouched : w.touched with
  | true =>
    rw [endOfChange_touched htouched]
    exact (writes_setRoute _ _).advertDue rfl (advertDue_makeTriggerDue hpart)
  | false =>
    rw [endOfChange_untouched htouched]
    exact (writes_setRoute _ _).advertDue rfl (h.resolve_left (by simp [htouched]))

theorem eventSet_endOfChange {w : RouteWork} (h : w.turned = true) (s : State) : eventSet .route (endOfChange w s) = true :=
  eventSet_setEventIf h .route _

theorem writes_endOfChange' (w : RouteWork) (s : State) : Writes (Part.offered ++ Part.advertised ++ [.flags]) s (endOfChange w s) :=
  writes_endOfChange w (.refl _ s) (List.Subset.refl _)

theorem unlit_joinPrompted (joining : Bool) (nbs : List (Neighbour × Nat)) (s : State) : Unlit s (joinPrompted joining nbs s) := by
  have hprompts : Unlit s (promptEcho (promptSummary s)) := ((Unlit.refl s).write (writes_promptSummary' s) rfl).write (writes_promptEcho' _) rfl
  unfold joinPrompted
  (repeat' split)
  · exact hprompts
  · exact hprompts.trans (unlit_makeTriggerDue _)
  · rfl

theorem advertedOnce_joinPrompted (joining : Bool) (nbs : List (Neighbour × Nat)) (s : State) : AdvertedOnce s (joinPrompted joining nbs s) := by
  have hprompts : AdvertedOnce s (promptEcho (promptSummary s)) :=
    ((writes_promptSummary' s).advertedOnce rfl rfl).trans ((writes_promptEcho' _).advertedOnce rfl rfl) (writes_promptSummary' s).now
  unfold joinPrompted
  (repeat' split)
  · exact hprompts
  · exact hprompts.trans (advertedOnce_makeTriggerDue _) ((writes_promptEcho' _).now.trans (writes_promptSummary' s).now)
  · exact .refl s

theorem advertDue_joinPrompted {nbs : List (Neighbour × Nat)} (hnbs : nbs ≠ []) {s : State} (hpart : participates s = true) :
    AdvertDue (joinPrompted true nbs s) := by
  unfold joinPrompted
  rw [if_pos rfl, if_neg (by simpa using hnbs)]
  exact advertDue_makeTriggerDue (((writes_promptEcho' _).participates.trans (writes_promptSummary' s).participates).trans hpart)

theorem unknown_countUnknown (n : Nat) (s : State) : (countUnknown n s).counters.unknownDestinations = raised^[n] s.counters.unknownDestinations := by
  induction n generalizing s with
  | zero => rfl
  | succ n ih =>
    rw [countUnknown, ih]
    rfl

theorem Writes.unknownDestinations {ps : List Part} {s t : State} (h : Writes ps s t) (hp : ps.contains .counters = false) :
    t.counters.unknownDestinations = s.counters.unknownDestinations := by
  have hsame : ({ t.counters with queueRefusals := 0 } : Counters) = { s.counters with queueRefusals := 0 } := h.same .counters hp
  have hfield := congrArg Counters.unknownDestinations hsame
  exact hfield

/-! ### The advert taken (R92 to R94) -/

theorem writes_takeAdvert_heard (source : Nat) (payload : List Octet) (s : State) :
    Writes (Part.offered ++ Part.advertised ++ [.early, .joinEcho, .flags, .counters]) (hearAdvert source s) (takeAdvert source payload s) := by
  cases h : readAdvert payload with
  | none =>
    rw [takeAdvert_none h]
  | some p =>
    obtain ⟨joining, entries⟩ := p
    rw [takeAdvert_some h]
    have hcount := writes_countUnknown (advertWork source entries s).2 (writes_putTable (advertWork source entries s).1
      (.refl (Part.offered ++ Part.advertised ++ [.early, .joinEcho, .flags, .counters]) (hearAdvert source s)) (by simp)) (by simp)
    refine (hcount.trans ?_).trans ((writes_endOfChange' _ _).mono (by simp))
    refine Writes.trans ?_ ((writes_joinPrompted joining _ _).mono (by simp))
    split
    · exact ((writes_promptSummary' _).mono (by simp)).trans ((writes_promptEcho' _).mono (by simp))
    · exact .refl _ _

/-- The routes after an advert: those worked out, with the trigger, ROUTE and the unknown codes. -/
theorem routes_takeAdvert {source : Nat} {payload : List Octet} {joining : Bool} {entries : List AdvertEntry} {s : State}
    (h : readAdvert payload = some (joining, entries)) (hpart : participates s = true) :
    let w := advertWork source entries s
    let t := takeAdvert source payload s
    t.route.table.map RouteEntry.unmarked = w.1.table.map RouteEntry.unmarked
      ∧ (t.route.lastOffer = s.route.lastOffer → t.route.table = w.1.table)
      ∧ (w.1.turned = true → eventSet .route t = true)
      ∧ (w.1.touched = true ∨ (joining = true ∧ entriesOf source s ≠ []) → AdvertDue t)
      ∧ t.counters.unknownDestinations = raised^[w.2] s.counters.unknownDestinations := by
  dsimp only
  rw [takeAdvert_some h]
  have hheard := writes_hearAdvert' source s
  have hnbs := entriesOf_eq_nil_iff source s
  generalize advertWork source entries s = w
  generalize entriesOf source (hearAdvert source s) = nbs at *
  have hput := writes_countUnknown w.2 (.refl _ (putTable w.1 (hearAdvert source s))) (List.Subset.refl _)
  have htable : (countUnknown w.2 (putTable w.1 (hearAdvert source s))).route.table = w.1.table := hput.same .routes rfl
  have hlast : (countUnknown w.2 (putTable w.1 (hearAdvert source s))).route.lastOffer = s.route.lastOffer :=
    (hput.same .lastOffer rfl).trans (hheard.same .lastOffer rfl)
  have hpart' : participates (countUnknown w.2 (putTable w.1 (hearAdvert source s))) = true := (hput.participates.trans hheard.participates).trans hpart
  have hcount : (countUnknown w.2 (putTable w.1 (hearAdvert source s))).counters.unknownDestinations = raised^[w.2] s.counters.unknownDestinations := by
    rw [unknown_countUnknown]
    exact congrArg _ (hheard.unknownDestinations rfl)
  generalize countUnknown w.2 (putTable w.1 (hearAdvert source s)) = u at *
  have hprompted : Writes (Part.offered ++ Part.advertised ++ [.early, .joinEcho]) u (joinPrompted joining nbs u) := by
    refine Writes.trans ?_ ((writes_joinPrompted joining nbs u).mono (by simp))
    split
    · exact ((writes_promptSummary' _).mono (by simp)).trans ((writes_promptEcho' _).mono (by simp))
    · exact .refl _ _
  have honce : AdvertedOnce u (endOfChange w.1 (joinPrompted joining nbs u)) :=
    (advertedOnce_joinPrompted joining nbs u).trans (advertedOnce_endOfChange _ _) hprompted.now
  refine ⟨?_, fun hsame => ?_, fun hturned => eventSet_endOfChange hturned _, fun hdue => ?_, ?_⟩
  · rw [((unlit_joinPrompted joining nbs u).trans (unlit_endOfChange w.1 _)).routes, htable]
  · rcases honce with ⟨hkept, -⟩ | ⟨hoffered, hne⟩
    · exact hkept.trans htable
    · rw [hlast, ← hsame] at hne
      exact absurd hoffered hne
  · refine advertDue_endOfChange (hprompted.participates.trans hpart') (hdue.imp_right ?_)
    rintro ⟨rfl, hsome⟩
    exact advertDue_joinPrompted (mt hnbs.1 hsome) hpart'
  · rw [(writes_endOfChange' _ _).unknownDestinations rfl, hprompted.unknownDestinations rfl, hcount]

/-- The two holds that an advert may make pending: a join prompt makes those that are not, in RUN. -/
theorem prompts_takeAdvert (source : Nat) (payload : List Octet) (s : State) :
    let t := takeAdvert source payload s
    let prompted : Prop := s.node.state = .run ∧ ∃ entries, readAdvert payload = some (true, entries)
    (prompted ∧ (level s).calm = true ∧ s.exch.early = none → ∃ n, n ≤ 2000 ∧ t.exch.early = some { start := s.time.now, len := n })
      ∧ (¬ (prompted ∧ (level s).calm = true ∧ s.exch.early = none) → t.exch.early = s.exch.early)
      ∧ (prompted ∧ s.muster.record.serial ≠ 0 ∧ s.muster.joinEcho = none →
          ∃ n, n ≤ 2000 ∧ t.muster.joinEcho = some { start := s.time.now, len := n })
      ∧ (¬ (prompted ∧ s.muster.record.serial ≠ 0 ∧ s.muster.joinEcho = none) → t.muster.joinEcho = s.muster.joinEcho) := by
  dsimp only
  have hheard := writes_hearAdvert' source s
  cases h : readAdvert payload with
  | none =>
    rw [takeAdvert_none h]
    simp only [reduceCtorEq, exists_false, and_false, false_and, not_false_eq_true, true_imp_iff, false_imp_iff, true_and]
    exact ⟨hheard.same .early rfl, hheard.same .joinEcho rfl⟩
  | some p =>
    obtain ⟨joining, entries⟩ := p
    rw [takeAdvert_some h]
    have hput := writes_countUnknown (advertWork source entries s).2 (writes_putTable (advertWork source entries s).1
      (hheard.mono (l' := [.neighbours, .flags, .routes, .counters]) (by simp)) (by simp)) (by simp)
    generalize countUnknown (advertWork source entries s).2 (putTable (advertWork source entries s).1 (hearAdvert source s)) = u at *
    have hrest := (writes_joinPrompted joining (entriesOf source (hearAdvert source s)) u).mono (l' := Part.offered ++ Part.advertised ++ [.flags]) (by simp)
      |>.trans (writes_endOfChange' (advertWork source entries s).1 _)
    have hearly : _ = s.exch.early := hput.same .early rfl
    have hecho : _ = s.muster.joinEcho := hput.same .joinEcho rfl
    rw [show (endOfChange _ (joinPrompted _ _ u)).exch.early = _ from hrest.same .early rfl,
      show (endOfChange _ (joinPrompted _ _ u)).muster.joinEcho = _ from hrest.same .joinEcho rfl]
    simp only [← hearly, ← hecho, ← hput.node, ← hput.level, ← hput.record, ← hput.now, Option.some.injEq, Prod.mk.injEq]
    cases joining with
    | false =>
      simp only [Bool.false_eq_true, if_false, false_and, exists_false, and_false, not_false_eq_true, true_imp_iff, false_imp_iff, true_and]
    | true =>
      simp only [if_true, true_and, exists_eq', and_true, early_prompts]
      exact ⟨promptSummary_prompts, fun hno => congrArg (·.exch.early) (promptSummary_idle hno), (joinEcho_prompts u).1, (joinEcho_prompts u).2⟩

theorem exec_routeAdvert {f : RxFrame} {rest : List RxFrame} {s : State} (hqueue : s.bus.routeQ = f :: rest) (hkind : f.kind = .routeAdvert)
    (hpart : participates s = true) : exec .routeAdvert s = .next (settleAttention (settleLights (settleAnswers
      ((takeAdvert f.source f.payload s).modBus fun b => { b with routeQ := rest })))) := by
  show execRouteAdvert s = _
  simp [execRouteAdvert, hqueue, hpart, hkind]

/-- Settles O32. -/
theorem routeAdvertSettlesPresence : Obligations.RouteAdvertSettlesPresence := by
  unfold Obligations.RouteAdvertSettlesPresence
  intro f rest s hqueue hkind hpart
  refine ⟨_, exec_routeAdvert hqueue hkind hpart, ?_⟩
  have hheard := writes_hearAdvert' f.source s
  have htaken := writes_takeAdvert_heard f.source f.payload s
  have hroutes := fun joining entries => @routes_takeAdvert f.source f.payload joining entries s
  have hprompts := prompts_takeAdvert f.source f.payload s
  have hmon := mon_hearAdvert f.source s
  have hevent := @eventSet_hearAdvert f.source s
  have hnone := @takeAdvert_none f.source f.payload s
  generalize takeAdvert f.source f.payload s = u at *
  have hend := writes_takenLit (u.modBus fun b => { b with routeQ := rest })
  have hearly : _ = u.exch.early := hend.same .early rfl
  have hecho : _ = u.muster.joinEcho := hend.same .joinEcho rfl
  refine ⟨hend.routeQ, hend.timeQ.trans (htaken.timeQ.trans hheard.timeQ), hend.programmeQ.trans (htaken.programmeQ.trans hheard.programmeQ),
    hend.musterQ.trans (htaken.musterQ.trans hheard.musterQ), (hend.mon rfl).trans ((htaken.mon rfl).trans hmon),
    fun hdown => hend.eventSet (htaken.eventSet (hevent hdown)), fun h => ?_, fun joining entries h => ?_, ?_,
    (hend.time rfl).trans ((htaken.time rfl).trans (hheard.time rfl)), (hend.store rfl).trans ((htaken.store rfl).trans (hheard.store rfl)),
    hend.node.trans (htaken.node.trans hheard.node), hend.port.trans (htaken.port.trans hheard.port),
    hend.record.trans (htaken.record.trans hheard.record)⟩
  · obtain rfl := hnone h
    exact (hend.route rfl).trans (hheard.route rfl)
  · obtain ⟨htable, hsame, hturned, hdue, hcount⟩ := hroutes joining entries h hpart
    have hroute := hend.route rfl
    have hnow : u.time.now = s.time.now := htaken.now.trans hheard.now
    dsimp only
    rw [hroute]
    refine ⟨htable, hsame, fun h => hend.eventSet (hturned h), fun h => ?_, (hend.unknownDestinations rfl).trans hcount⟩
    rw [← hnow]
    exact hdue h
  · dsimp only
    rw [hearly, hecho]
    obtain ⟨hearlyPrompted, hearlyKept, hechoPrompted, hechoKept⟩ := hprompts
    exact ⟨hearlyPrompted, hearlyKept, hechoPrompted, hechoKept,
      (hend.same .summaryTimer rfl).trans ((htaken.same .summaryTimer rfl).trans (hheard.same .summaryTimer rfl)),
      (hend.same .echoTimer rfl).trans ((htaken.same .echoTimer rfl).trans (hheard.same .echoTimer rfl))⟩

end Sys2Proof.Machine
end

