-- ==== Sys2Proof/Proofs/StoreRules.lean ====
section
/-! PROOFS. The programme store against time: what recomposing, re-phasing and committing leave, one equation each (R46 to R50, R54). -/

namespace Sys2Proof.Machine

/-! ### Flags set or not -/

theorem eventSet_setEventIf_self (c : Bool) (e : Event) (s : State) : eventSet e (setEventIf c e s) = (eventSet e s || c) := by
  cases c with
  | true => rw [eventSet_setEventIf rfl, Bool.or_true]
  | false => rw [Bool.or_false]; rfl

theorem flags_setEventIf (c : Bool) (e : Event) (s : State) : (setEventIf c e s).events.flags ||| e.mask = s.events.flags ||| e.mask := by
  cases c with
  | true => exact (BitVec.or_assoc ..).trans (by rw [BitVec.or_self])
  | false => rfl

theorem enables_setEventIf (c : Bool) (e : Event) (s : State) : (setEventIf c e s).events.enables = s.events.enables := by cases c <;> rfl

theorem Event.mask_and_mask {e e' : Event} (h : e ≠ e') : e.mask &&& e'.mask = 0#16 := by
  revert h
  cases e <;> cases e' <;> decide

theorem eventSet_setEvent_of_ne {e e' : Event} (h : e' ≠ e) (s : State) : eventSet e (setEvent e' s) = eventSet e s := by
  have hsplit : (s.events.flags ||| e'.mask) &&& e.mask = (s.events.flags &&& e.mask) ||| (e'.mask &&& e.mask) := by
    ext
    simp [Bool.and_or_distrib_right]
  rw [Event.mask_and_mask h, BitVec.or_zero] at hsplit
  exact congrArg (fun x => decide (x ≠ 0)) hsplit

/-! ### The state but for the store and the events -/

/-- `t` is `s` with another store and other events. -/
def StoreOnly (s t : State) : Prop := ∃ st ev, t = { s with store := st, events := ev }

theorem StoreOnly.refl (s : State) : StoreOnly s s := ⟨s.store, s.events, rfl⟩

theorem StoreOnly.trans {r s t : State} (h : StoreOnly r s) (k : StoreOnly s t) : StoreOnly r t := by
  obtain ⟨st, ev, rfl⟩ := h
  obtain ⟨st', ev', rfl⟩ := k
  exact ⟨st', ev', rfl⟩

theorem StoreOnly.restored {s t : State} (h : StoreOnly s t) : { t with store := s.store, events := s.events } = s := by
  obtain ⟨st, ev, rfl⟩ := h
  rfl

theorem StoreOnly.time {s t : State} (h : StoreOnly s t) : t.time = s.time := by
  obtain ⟨st, ev, rfl⟩ := h
  rfl

theorem StoreOnly.node {s t : State} (h : StoreOnly s t) : t.node = s.node := by
  obtain ⟨st, ev, rfl⟩ := h
  rfl

theorem storeOnly_setEventIf (c : Bool) (e : Event) (s : State) : StoreOnly s (setEventIf c e s) := by
  cases c with
  | true => exact ⟨s.store, _, rfl⟩
  | false => exact .refl s

theorem storeOnly_settleAttention (s : State) : StoreOnly s (settleAttention s) := by
  obtain ⟨a, l, h⟩ := settleAttention_eq s
  rw [h]
  exact ⟨s.store, _, rfl⟩

/-! ### What the view and the boundary depend on -/

theorem composedView_congr {s t : State} (hnode : t.node = s.node) (htable : t.store.table = s.store.table)
    (hgeneration : t.store.generation = s.store.generation) : composedView t = composedView s := by
  simp only [composedView, hnode, htable, hgeneration]

theorem boundary_congr {s t : State} (hset : t.time.isSet = s.time.isSet) (hship : t.time.ship = s.time.ship)
    (htable : t.store.table = s.store.table) : boundary t = boundary s := by
  simp only [boundary, nowMinute, hset, hship, htable]

theorem shownNow_congr {s t : State} (htable : t.store.table = s.store.table) (hview : t.store.view = s.store.view) : shownNow t = shownNow s := by
  simp only [shownNow, htable, hview]

/-! ### Recomposing (R51, R54) -/

theorem store_setEventIf (c : Bool) (e : Event) (s : State) : (setEventIf c e s).store = s.store := by cases c <;> rfl

theorem store_recompose (before : Shown) (replaced : Option (Nat × Nat)) (s : State) :
    (recompose before replaced s).store = { s.store with view := composedView s } := store_setEventIf _ _ _

theorem storeOnly_recompose (before : Shown) (replaced : Option (Nat × Nat)) (s : State) : StoreOnly s (recompose before replaced s) :=
  StoreOnly.trans ⟨{ s.store with view := composedView s }, s.events, rfl⟩ (storeOnly_setEventIf _ _ _)

/-- The recomposed view is that of the state it leaves. -/
theorem view_recompose (before : Shown) (replaced : Option (Nat × Nat)) (s : State) :
    (recompose before replaced s).store.view = composedView (recompose before replaced s) := by
  have hstore := store_recompose before replaced s
  rw [composedView_congr (storeOnly_recompose before replaced s).node (by rw [hstore]) (by rw [hstore]), hstore]

/-- A view that a replaced item is named in. -/
def Shown.namesReplaced (v : Shown) (replaced : Option (Nat × Nat)) : Bool := replaced.any v.names

theorem event_recompose (before : Shown) (replaced : Option (Nat × Nat)) (s : State) : eventSet .programme (recompose before replaced s) =
    (eventSet .programme s || decide (shownNow (recompose before replaced s) ≠ before) || (shownNow (recompose before replaced s)).namesReplaced replaced) := by
  have hshown : shownNow (recompose before replaced s) = shownNow (s.modStore fun t => { t with view := composedView s }) := by
    have hstore := store_recompose before replaced s
    exact shownNow_congr (by rw [hstore]; rfl) (by rw [hstore]; rfl)
  rw [hshown, Bool.or_assoc]
  refine (eventSet_setEventIf_self _ _ _).trans ?_
  cases replaced <;> rfl

theorem flags_recompose (before : Shown) (replaced : Option (Nat × Nat)) (s : State) :
    (recompose before replaced s).events.flags ||| Event.programme.mask = s.events.flags ||| Event.programme.mask := flags_setEventIf _ _ _

theorem enables_recompose (before : Shown) (replaced : Option (Nat × Nat)) (s : State) :
    (recompose before replaced s).events.enables = s.events.enables := enables_setEventIf _ _ _

/-! ### The match (R49) -/

theorem takeMatch_idle {s : State} (before : Shown) (h : rephased false (nowMinute s) s.store.table = s.store.table) :
    takeMatch before s = armComparator s := if_pos h

theorem takeMatch_moves {s : State} (before : Shown) (h : rephased false (nowMinute s) s.store.table ≠ s.store.table) :
    takeMatch before s = recompose before none (armComparator (changeTable (rephased false (nowMinute s) s.store.table) s)) := if_neg h

theorem storeOnly_armComparator (s : State) : StoreOnly s (armComparator s) := ⟨_, s.events, rfl⟩

theorem storeOnly_changeTable (table : List Entry) (s : State) : StoreOnly s (changeTable table s) := ⟨_, s.events, rfl⟩

theorem storeOnly_takeMatch (before : Shown) (s : State) : StoreOnly s (takeMatch before s) := by
  by_cases h : rephased false (nowMinute s) s.store.table = s.store.table
  · rw [takeMatch_idle before h]
    exact storeOnly_armComparator s
  · rw [takeMatch_moves before h]
    exact ((storeOnly_changeTable _ s).trans (storeOnly_armComparator _)).trans (storeOnly_recompose _ _ _)

/-- A table changed, armed and recomposed: under the next generation, with the boundary and the view it gives. -/
theorem store_recomposed (before : Shown) (replaced : Option (Nat × Nat)) (table : List Entry) (s : State) :
    let t := recompose before replaced (armComparator (changeTable table s))
    t.store.table = table ∧ t.store.generation = s.store.generation + 1 ∧ t.store.view = composedView t ∧ t.store.comparator = boundary t := by
  have hstore := store_recompose before replaced (armComparator (changeTable table s))
  have hbase : StoreOnly s (recompose before replaced (armComparator (changeTable table s))) :=
    ((storeOnly_changeTable _ s).trans (storeOnly_armComparator _)).trans (storeOnly_recompose _ _ _)
  refine ⟨by rw [hstore]; rfl, by rw [hstore]; rfl, view_recompose _ _ _, ?_⟩
  have hboundary : boundary (recompose before replaced (armComparator (changeTable table s))) = boundary (changeTable table s) :=
    boundary_congr (by rw [hbase.time]; rfl) (by rw [hbase.time]; rfl) (by rw [hstore]; rfl)
  rw [hboundary, hstore]
  rfl

theorem boundary_armComparator (s : State) : (armComparator s).store.comparator = boundary (armComparator s) := rfl

/-- The match in one statement: the changes are one change of the table, the comparator is reloaded, and the flag follows the view. -/
theorem takeMatch_spec (s : State) :
    let t := takeMatch (shownNow s) s
    t.store.table = rephased false (nowMinute s) s.store.table
      ∧ (rephased false (nowMinute s) s.store.table = s.store.table → t.store.generation = s.store.generation ∧ t.store.view = s.store.view)
      ∧ (rephased false (nowMinute s) s.store.table ≠ s.store.table →
          t.store.generation = s.store.generation + 1 ∧ t.store.view = composedView t)
      ∧ t.store.comparator = boundary t
      ∧ eventSet .programme t = (eventSet .programme s || decide (shownNow t ≠ shownNow s))
      ∧ t.events.flags ||| Event.programme.mask = s.events.flags ||| Event.programme.mask ∧ t.events.enables = s.events.enables := by
  dsimp only
  by_cases h : rephased false (nowMinute s) s.store.table = s.store.table
  · have hshown : shownNow (armComparator s) = shownNow s := shownNow_congr rfl rfl
    have hevent : eventSet .programme (armComparator s) = eventSet .programme s := rfl
    rw [takeMatch_idle _ h, hshown, hevent]
    exact ⟨h.symm, fun _ => ⟨rfl, rfl⟩, fun hne => absurd h hne, boundary_armComparator s, by simp, rfl, rfl⟩
  · rw [takeMatch_moves _ h]
    obtain ⟨htable, hgeneration, hview, hcomparator⟩ := store_recomposed (shownNow s) none (rephased false (nowMinute s) s.store.table) s
    refine ⟨htable, fun heq => absurd heq h, fun _ => ⟨hgeneration, hview⟩, hcomparator, ?_, flags_recompose _ _ _, enables_recompose _ _ _⟩
    rw [event_recompose, Shown.namesReplaced, Option.any_none, Bool.or_false]
    rfl

/-! ### The comparator reloaded (R48) -/

/-- Reloading arms the comparator, and takes a match when that changes the table. -/
theorem reloadComparator_cases (before : Shown) (s : State) : reloadComparator before s = armComparator s
    ∨ (matchDue (armComparator s) = true ∧ rephased false (nowMinute s) s.store.table ≠ s.store.table
      ∧ reloadComparator before s = recompose before none (armComparator (changeTable (rephased false (nowMinute s) s.store.table) s))) := by
  unfold reloadComparator
  dsimp only
  split
  · rename_i hdue
    by_cases h : rephased false (nowMinute s) s.store.table = s.store.table
    · exact .inl (takeMatch_idle before h)
    · exact .inr ⟨hdue, h, takeMatch_moves before h⟩
  · exact .inl rfl

theorem storeOnly_reloadComparator (before : Shown) (s : State) : StoreOnly s (reloadComparator before s) := by
  obtain h | ⟨-, -, h⟩ := reloadComparator_cases before s <;> rw [h]
  · exact storeOnly_armComparator s
  · exact ((storeOnly_changeTable _ s).trans (storeOnly_armComparator _)).trans (storeOnly_recompose _ _ _)

/-- No boundary of the table lies at or before the minute. -/
def Entry.aheadOf (now : Nat) (e : Entry) : Prop := ∀ m ∈ boundariesOf e, atOrBefore now m = false

theorem nearest_mem {now m : Nat} {l : List Nat} (h : nearest now l = some m) : m ∈ l := by
  induction l generalizing m with
  | nil => cases h
  | cons a l ih =>
    unfold nearest at h
    split at h
    · cases h
      simp
    · rename_i n hn
      split at h <;> cases h
      · exact List.mem_cons_of_mem _ (ih hn)
      · simp

theorem not_matchDue_of_ahead {s : State} (h : ∀ e ∈ s.store.table, e.aheadOf (nowMinute s)) : matchDue (armComparator s) = false := by
  unfold matchDue
  rw [Bool.and_eq_false_imp]
  intro hset
  show (match boundary s with | some m => atOrBefore (nowMinute s) m | none => false) = false
  cases hb : boundary s with
  | none => rfl
  | some m =>
    rw [boundary, if_pos (show s.time.isSet = true from hset)] at hb
    obtain ⟨l, hl, hm⟩ := List.mem_flatten.1 (nearest_mem hb)
    obtain ⟨e, he, rfl⟩ := List.mem_map.1 hl
    exact h e he m hm

theorem reloadComparator_ahead (before : Shown) {s : State} (h : ∀ e ∈ s.store.table, e.aheadOf (nowMinute s)) :
    reloadComparator before s = armComparator s := by
  unfold reloadComparator
  dsimp only
  rw [if_neg (by rw [not_matchDue_of_ahead h]; decide)]

/-! ### The re-phasing at a STEP (R50) -/

theorem atOrBefore_mod (now m : Nat) : atOrBefore now (m % minuteCycle) = atOrBefore now m := by
  have hoffset : offsetOf now (m % minuteCycle) = offsetOf now m := by simp only [offsetOf, Nat.mod_mod]
  simp only [atOrBefore, hoffset]

/-- The boundaries of an entry: its end, and while it is PENDING its start. -/
theorem aheadOf_iff (now : Nat) (e : Entry) : e.aheadOf now ↔
    atOrBefore now e.body.endNo = false ∧ (e.phase = .pending → atOrBefore now e.body.startNo = false) := by
  unfold Entry.aheadOf boundariesOf
  by_cases hphase : e.phase = .pending
  · rw [if_pos hphase]
    simp only [List.mem_append, List.mem_singleton, forall_eq_or_imp, forall_eq, atOrBefore_mod, hphase, true_imp_iff]
    exact and_comm
  · rw [if_neg hphase]
    simp only [List.nil_append, List.mem_singleton, forall_eq, atOrBefore_mod, hphase, false_imp_iff, and_true]

theorem classify_eq (now : Nat) (b : ItemBody) : classify now b =
    if atOrBefore now b.endNo then .ended else if atOrBefore now b.startNo then .running else .future := rfl

theorem not_ended {now : Nat} {b : ItemBody} (h : classify now b ≠ .ended) : atOrBefore now b.endNo = false := by
  rw [classify_eq] at h
  generalize atOrBefore now b.endNo = ends at *
  cases ends with
  | false => rfl
  | true => exact absurd rfl h

theorem not_begun_of_future {now : Nat} {b : ItemBody} (h : classify now b = .future) : atOrBefore now b.startNo = false := by
  rw [classify_eq] at h
  generalize atOrBefore now b.endNo = ends at *
  generalize atOrBefore now b.startNo = starts at *
  cases ends <;> cases starts <;> first | rfl | cases h

/-- The definition as a function: applied, it would have the kernel evaluate the class of an entry that is not given. -/
theorem rephaseEntry_def : @rephaseEntry = fun step now e => match classify now e.body with
    | .ended => none
    | .running => some { e with phase := .onNow }
    | .future => some (if step then { e with phase := .pending } else e) := rfl

theorem rephaseEntry_true (now : Nat) (e : Entry) : rephaseEntry true now e = match classify now e.body with
    | .ended => none
    | .running => some { e with phase := .onNow }
    | .future => some { e with phase := .pending } := by
  rw [rephaseEntry_def]
  beta_reduce
  generalize classify now e.body = c
  cases c <;> rfl

/-- An entry re-phased at a STEP lies ahead in each of its boundaries. -/
theorem aheadOf_rephaseEntry {now : Nat} {e d : Entry} (h : rephaseEntry true now e = some d) : d.aheadOf now := by
  rw [aheadOf_iff]
  rw [rephaseEntry_true] at h
  cases hclass : classify now e.body with
  | ended =>
    rw [hclass] at h
    cases h
  | running =>
    rw [hclass] at h
    cases h
    exact ⟨not_ended (by rw [hclass]; decide), nofun⟩
  | future =>
    rw [hclass] at h
    cases h
    exact ⟨not_ended (by rw [hclass]; decide), fun _ => not_begun_of_future hclass⟩

theorem aheadOf_rephased {now : Nat} {table : List Entry} {d : Entry} (h : d ∈ rephased true now table) : d.aheadOf now := by
  obtain ⟨e, -, he⟩ := List.mem_filterMap.1 h
  exact aheadOf_rephaseEntry he

theorem stepRephase_idle {s : State} (h : rephased true (nowMinute s) s.store.table = s.store.table) : stepRephase s = armComparator s := by
  rw [stepRephase, if_pos (.inr h)]
  refine reloadComparator_ahead _ fun e he => ?_
  rw [← h] at he
  exact aheadOf_rephased he

theorem stepRephase_moves {s : State} (hset : s.time.isSet = true) (h : rephased true (nowMinute s) s.store.table ≠ s.store.table) :
    stepRephase s = recompose (shownNow s) none (armComparator (changeTable (rephased true (nowMinute s) s.store.table) s)) := by
  rw [stepRephase, if_neg (by simp [hset, h]), commitTable]
  rw [reloadComparator_ahead _ fun e he => aheadOf_rephased he]

theorem storeOnly_stepRephase {s : State} (hset : s.time.isSet = true) : StoreOnly s (stepRephase s) := by
  by_cases h : rephased true (nowMinute s) s.store.table = s.store.table
  · rw [stepRephase_idle h]
    exact storeOnly_armComparator s
  · rw [stepRephase_moves hset h]
    exact ((storeOnly_changeTable _ s).trans (storeOnly_armComparator _)).trans (storeOnly_recompose _ _ _)

/-- The re-phasing in one statement. -/
theorem stepRephase_spec {s : State} (hset : s.time.isSet = true) :
    let t := stepRephase s
    t.store.table = rephased true (nowMinute s) s.store.table
      ∧ (t.store.table = s.store.table → t.store.generation = s.store.generation ∧ t.store.view = s.store.view)
      ∧ (t.store.table ≠ s.store.table → t.store.generation = s.store.generation + 1 ∧ t.store.view = composedView t)
      ∧ t.store.comparator = boundary t
      ∧ eventSet .programme t = (eventSet .programme s || decide (shownNow t ≠ shownNow s))
      ∧ t.events.flags ||| Event.programme.mask = s.events.flags ||| Event.programme.mask ∧ t.events.enables = s.events.enables := by
  dsimp only
  by_cases h : rephased true (nowMinute s) s.store.table = s.store.table
  · have hshown : shownNow (armComparator s) = shownNow s := shownNow_congr rfl rfl
    have hevent : eventSet .programme (armComparator s) = eventSet .programme s := rfl
    rw [stepRephase_idle h, hshown, hevent]
    exact ⟨h.symm, fun _ => ⟨rfl, rfl⟩, fun hne => absurd rfl hne, boundary_armComparator s, by simp, rfl, rfl⟩
  · rw [stepRephase_moves hset h]
    obtain ⟨htable, hgeneration, hview, hcomparator⟩ := store_recomposed (shownNow s) none (rephased true (nowMinute s) s.store.table) s
    refine ⟨htable, fun heq => absurd (htable.symm.trans heq) h, fun _ => ⟨hgeneration, hview⟩, hcomparator, ?_, flags_recompose _ _ _,
      enables_recompose _ _ _⟩
    rw [event_recompose, Shown.namesReplaced, Option.any_none, Bool.or_false]
    rfl

end Sys2Proof.Machine
end

