-- ==== Sys2Proof/Proofs/Views.lean ====
section
/-! PROOFS. The match of the comparator, and what a view shows (O19). -/

namespace Sys2Proof.Machine

/-! ### Flags that an operation leaves -/

/-- A flag that no part of the footprint is stands as it stood. -/
theorem Writes.eventSet_eq {ps : List Part} {r s : State} (h : Writes ps r s) (hflags : ps.contains .flags = false) {e : Event}
    (hne : e ≠ .transmitLoss) : Machine.eventSet e s = Machine.eventSet e r := by
  have hsame : s.events.flags ||| Event.transmitLoss.mask = r.events.flags ||| Event.transmitLoss.mask := h.same .flags hflags
  have hsplit (x : Half) : (x ||| Event.transmitLoss.mask) &&& e.mask = x &&& e.mask := by
    have hdistrib : (x ||| Event.transmitLoss.mask) &&& e.mask = (x &&& e.mask) ||| (Event.transmitLoss.mask &&& e.mask) := by
      ext
      simp [Bool.and_or_distrib_right]
    rw [hdistrib, Event.mask_and_mask hne.symm, BitVec.or_zero]
  unfold Machine.eventSet
  rw [← hsplit s.events.flags, hsame, hsplit]

/-! ### What settling the attention line leaves -/

theorem store_settleAttention (s : State) : (settleAttention s).store = s.store := by
  obtain ⟨a, l, h⟩ := settleAttention_eq s
  rw [h]

theorem flags_settleAttention (s : State) : (settleAttention s).events.flags = s.events.flags := by
  obtain ⟨a, l, h⟩ := settleAttention_eq s
  rw [h]

theorem enables_settleAttention (s : State) : (settleAttention s).events.enables = s.events.enables := by
  obtain ⟨a, l, h⟩ := settleAttention_eq s
  rw [h]

theorem eventSet_congr {s t : State} (h : t.events.flags = s.events.flags) (e : Event) : eventSet e t = eventSet e s := by
  simp only [eventSet, h]

/-! ### The comparator's match -/

theorem names_iff (table : List Entry) (v : View) (key : Nat × Nat) : (shownBy table v).names key = true ↔
    ∃ i e, (i ∈ v.onNow ∨ i ∈ v.next ∨ ∃ p ∈ v.venues, p.1 = some i ∨ p.2 = some i) ∧ table[i]? = some e ∧ e.body.key = key := by
  have hnamed (i : Nat) : (table[i]?.map (·.body.key) = some key) ↔ ∃ e, table[i]? = some e ∧ e.body.key = key := by
    rw [Option.map_eq_some_iff]
  simp only [Shown.names, shownBy, List.any_map, Bool.or_eq_true, List.any_eq_true, Function.comp_apply, decide_eq_true_eq, Option.any_map, hnamed]
  constructor
  · rintro ((⟨i, hi, e, he⟩ | ⟨i, hi, e, he⟩) | ⟨p, hp, h⟩)
    · exact ⟨i, e, .inl hi, he⟩
    · exact ⟨i, e, .inr (.inl hi), he⟩
    · simp only [Option.any_eq_true, decide_eq_true_eq] at h
      rcases h with ⟨i, hi, e, he⟩ | ⟨i, hi, e, he⟩
      · exact ⟨i, e, .inr (.inr ⟨p, hp, .inl hi⟩), he⟩
      · exact ⟨i, e, .inr (.inr ⟨p, hp, .inr hi⟩), he⟩
  · rintro ⟨i, e, hi | hi | ⟨p, hp, hi⟩, he⟩
    · exact .inl (.inl ⟨i, hi, e, he⟩)
    · exact .inl (.inr ⟨i, hi, e, he⟩)
    · refine .inr ⟨p, hp, ?_⟩
      simp only [Option.any_eq_true, decide_eq_true_eq]
      exact hi.imp (fun h => ⟨i, h, e, he⟩) fun h => ⟨i, h, e, he⟩

/-- Two lists of positions named alike are the same positions, each with the same item. -/
theorem map_named_eq_iff (f g : Nat → Option (Nat × Nat)) (l l' : List Nat) :
    l.map (fun i => ((i, f i) : Named)) = l'.map (fun i => (i, g i)) ↔ l = l' ∧ ∀ i ∈ l, f i = g i := by
  induction l generalizing l' with
  | nil => cases l' <;> simp
  | cons a l ih =>
    cases l' with
    | nil => simp
    | cons b l' =>
      simp only [List.map_cons, List.cons.injEq, Prod.mk.injEq, ih, List.forall_mem_cons]
      constructor
      · rintro ⟨⟨rfl, h⟩, rfl, hl⟩
        exact ⟨⟨rfl, rfl⟩, h, hl⟩
      · rintro ⟨⟨rfl, rfl⟩, h, hl⟩
        exact ⟨⟨rfl, h⟩, rfl, hl⟩

theorem option_named_eq_iff (f g : Nat → Option (Nat × Nat)) (o o' : Option Nat) :
    o.map (fun i => ((i, f i) : Named)) = o'.map (fun i => (i, g i)) ↔ o = o' ∧ ∀ i, o = some i → f i = g i := by
  cases o with
  | none => cases o' <;> simp
  | some a =>
    cases o' with
    | none => simp
    | some b =>
      simp only [Option.map_some, Option.some.injEq, Prod.mk.injEq, forall_eq']
      constructor <;> rintro ⟨rfl, h⟩ <;> exact ⟨rfl, h⟩

theorem map_venues_eq_iff (f g : Nat → Option (Nat × Nat)) (l l' : List (Option Nat × Option Nat)) :
    l.map (fun p => (p.1.map fun i => ((i, f i) : Named), p.2.map fun i => ((i, f i) : Named))) = l'.map (fun p => (p.1.map fun i => (i, g i), p.2.map fun i => (i, g i)))
      ↔ l = l' ∧ ∀ p ∈ l, ∀ i, p.1 = some i ∨ p.2 = some i → f i = g i := by
  induction l generalizing l' with
  | nil => cases l' <;> simp
  | cons p l ih =>
    cases l' with
    | nil => simp
    | cons q l' =>
      simp only [List.map_cons, List.cons.injEq, ih, List.forall_mem_cons, option_named_eq_iff, Prod.ext_iff, or_imp, forall_and]
      tauto

theorem shownBy_eq_iff (table table' : List Entry) (v v' : View) : shownBy table v = shownBy table' v' ↔
    v.onNow = v'.onNow ∧ v.next = v'.next ∧ v.venues = v'.venues
      ∧ ∀ i, (i ∈ v.onNow ∨ i ∈ v.next ∨ ∃ p ∈ v.venues, p.1 = some i ∨ p.2 = some i) →
          table[i]?.map (·.body.key) = table'[i]?.map (·.body.key) := by
  unfold shownBy
  simp only [Shown.mk.injEq]
  rw [map_named_eq_iff, map_named_eq_iff, map_venues_eq_iff]
  constructor
  · rintro ⟨⟨hon, hon'⟩, ⟨hnext, hnext'⟩, hven, hven'⟩
    refine ⟨hon, hnext, hven, fun i hi => ?_⟩
    rcases hi with hi | hi | ⟨p, hp, hi⟩
    · exact hon' i hi
    · exact hnext' i hi
    · exact hven' p hp i hi
  · rintro ⟨hon, hnext, hven, h⟩
    exact ⟨⟨hon, fun i hi => h i (.inl hi)⟩, ⟨hnext, fun i hi => h i (.inr (.inl hi))⟩, hven, fun p hp i hi => h i (.inr (.inr ⟨p, hp, hi⟩))⟩

/-- Settles O19. -/
theorem comparatorMatchRephases : Obligations.ComparatorMatchRephases := by
  unfold Obligations.ComparatorMatchRephases
  refine ⟨fun s hdue => ?_, names_iff, shownBy_eq_iff⟩
  obtain ⟨htable, hkept, hmoved, hcomparator, hevent, hflags, henables⟩ := takeMatch_spec s
  have honly := storeOnly_takeMatch (shownNow s) s
  refine ⟨settleAttention (takeMatch (shownNow s) s), congrArg Host.Outcome.next (if_pos hdue), ?_⟩
  generalize takeMatch (shownNow s) s = u at *
  have hstore := store_settleAttention u
  have hattend := storeOnly_settleAttention u
  have hview : composedView (settleAttention u) = composedView u := composedView_congr hattend.node (by rw [hstore]) (by rw [hstore])
  have hboundary : boundary (settleAttention u) = boundary u :=
    boundary_congr (by rw [hattend.time]) (by rw [hattend.time]) (by rw [hstore])
  have hshown : shownNow (settleAttention u) = shownNow u := shownNow_congr (by rw [hstore]) (by rw [hstore])
  rw [hstore, eventSet_congr (flags_settleAttention u), flags_settleAttention, enables_settleAttention, hview, hboundary, hshown]
  exact ⟨htable, fun h => (hkept h).1, hmoved, hcomparator, hevent, hflags, henables, (honly.trans hattend).restored⟩

end Sys2Proof.Machine
end

