-- ==== Sys2Proof/Proofs/ShipTimes.lean ====
section
/-! PROOFS. Ship time: the wrap and the mark timer (O9), SET TIME (O12). -/

namespace Sys2Proof.Machine

/-! ### A STEP of ship time (R5, R50) -/

/-- Ship time set to a value. -/
def State.setTo (s : State) (t : ShipTime) : State := { s with time := { s.time with ship := t, isSet := true } }

theorem stepTime_eq (t : ShipTime) (s : State) : stepTime t s = stepRephase (setEvent .time (s.setTo t)) := rfl

theorem stepTime_only (t : ShipTime) (s : State) : StoreOnly (s.setTo t) (stepTime t s) := by
  have hevent : StoreOnly (s.setTo t) (setEvent .time (s.setTo t)) := ⟨_, _, rfl⟩
  have hstep : StoreOnly (setEvent .time (s.setTo t)) (stepRephase (setEvent .time (s.setTo t))) := storeOnly_stepRephase rfl
  exact hevent.trans hstep

/-- A STEP in one statement: the time, TIME, the store re-phased, and PROGRAMME as the view has it. -/
theorem stepTime_spec (t : ShipTime) (s : State) :
    let u := stepTime t s
    eventSet .time u = true
      ∧ u.store.table = rephased true t.minuteNumber s.store.table
      ∧ (u.store.table = s.store.table → u.store.generation = s.store.generation ∧ u.store.view = s.store.view)
      ∧ (u.store.table ≠ s.store.table → u.store.generation = s.store.generation + 1 ∧ u.store.view = composedView u)
      ∧ u.store.comparator = boundary u
      ∧ eventSet .programme u = (eventSet .programme s || decide (shownNow u ≠ shownNow s))
      ∧ u.events.flags ||| Event.programme.mask = s.events.flags ||| Event.time.mask ||| Event.programme.mask
      ∧ u.events.enables = s.events.enables := by
  dsimp only
  have hspec := stepRephase_spec (s := setEvent .time (s.setTo t)) rfl
  dsimp only at hspec
  have hprogramme : eventSet .programme (setEvent .time (s.setTo t)) = eventSet .programme s := eventSet_setEvent_of_ne (by decide) (s.setTo t)
  have hshown : shownNow (setEvent .time (s.setTo t)) = shownNow s := shownNow_congr rfl rfl
  rw [← stepTime_eq, hprogramme, hshown] at hspec
  obtain ⟨htable, hkept, hmoved, hcomparator, hevent, hflags, henables⟩ := hspec
  have hw : Writes [.store, .flags] (setEvent .time (s.setTo t)) (stepTime t s) := writes_stepRephase (.refl _ _) (List.Subset.refl _)
  exact ⟨hw.eventSet (eventSet_setEvent _ _), htable, hkept, hmoved, hcomparator, hevent, hflags, henables⟩

/-! ### A mark sent (R11, R12) -/

/-- A frame of a mark carries the pending shift already. -/
theorem loadShift_mark (shift : Int) (q : Octet) :
    loadShift shift ⟨.timeMark, 255, q, markPayload ⟨0, 0, 0, 0⟩ (shiftOctet shift), [], false⟩
      = ⟨.timeMark, 255, q, markPayload ⟨0, 0, 0, 0⟩ (shiftOctet shift), [], false⟩ := rfl

/-- The mark timer started now. -/
def State.marking (s : State) : State := { s with time := { s.time with markTimer := some { start := s.time.now, len := 20000 } } }

/-- The offer of a mark. -/
def markOffer (s : State) : Offer := ⟨.timeMark, 255, markPayload ⟨0, 0, 0, 0⟩ (shiftOctet s.time.pendingShift), [], false⟩

theorem steady_sendMark (s : State) : (sendMark s).steady = { s.steady with time := { s.time with markTimer := some { start := s.time.now, len := 20000 } } } :=
  steady_offer (markOffer s) s.marking

theorem sendMark_stands {s : State} (hpart : participates s = true) (hroom : s.bus.queue.length < 8) : (sendMark s).stands
    ⟨.timeMark, 255, s.bus.nextSeq, markPayload ⟨0, 0, 0, 0⟩ (shiftOctet s.time.pendingShift), [], false⟩ :=
  stands_offer_self (o := markOffer s) (s := s.marking) (loadShift_mark _ _) (not_refused hpart rfl) hroom

theorem sendMark_stands_room {s : State} (hpart : participates s = true) (hsound : s.queueSound) (hroom : hasRoom .timeMark s.bus.queue = true) :
    (sendMark s).stands ⟨.timeMark, 255, s.bus.nextSeq, markPayload ⟨0, 0, 0, 0⟩ (shiftOctet s.time.pendingShift), [], false⟩ :=
  stands_offer_room (o := markOffer s) (s := s.marking) (loadShift_mark _ _) (not_refused hpart rfl) hsound hroom

theorem queue_length_sendMark {s : State} (hroom : s.bus.queue.length < 8) : (sendMark s).bus.queue.length ≤ s.bus.queue.length + 1 :=
  queue_length_offer (markOffer s) (s := s.marking) hroom

/-- Settles O9. -/
theorem dayWrapAndMarkTimer : Obligations.DayWrapAndMarkTimer := by
  unfold Obligations.DayWrapAndMarkTimer
  refine ⟨fun s hset hlast => ?wrap, fun now table => ?rephased, fun s hdue => ?mark⟩
  case wrap =>
    have hexec : exec .dayWrap s = .next (settleAttention (stepTime ⟨0, 0, 0, 0⟩ s)) := by
      refine congrArg Host.Outcome.next (if_pos ?_)
      rw [hset, hlast]
      rfl
    refine ⟨_, hexec, ?_⟩
    obtain ⟨htime, htable, hkept, hmoved, hcomparator, hevent, hflags, henables⟩ := stepTime_spec ⟨0, 0, 0, 0⟩ s
    have honly := stepTime_only ⟨0, 0, 0, 0⟩ s
    generalize stepTime ⟨0, 0, 0, 0⟩ s = u at *
    have hstore := store_settleAttention u
    have hattend := storeOnly_settleAttention u
    have hview : composedView (settleAttention u) = composedView u := composedView_congr hattend.node (by rw [hstore]) (by rw [hstore])
    have hboundary : boundary (settleAttention u) = boundary u :=
      boundary_congr (by rw [hattend.time]) (by rw [hattend.time]) (by rw [hstore])
    have hshown : shownNow (settleAttention u) = shownNow u := shownNow_congr (by rw [hstore]) (by rw [hstore])
    rw [hstore, eventSet_congr (flags_settleAttention u), eventSet_congr (flags_settleAttention u), flags_settleAttention, enables_settleAttention,
      hview, hboundary, hshown]
    obtain ⟨st, ev, hall⟩ := honly.trans hattend
    refine ⟨?_, htime, htable, hkept, hmoved, hcomparator, hflags, hevent, henables, ?_⟩
    · rw [hall]
      exact congrArg (fun b => ({ s.time with ship := ⟨0, 0, 0, 0⟩, isSet := b } : Timebase)) hset.symm
    · rw [hall]
      rfl
  case rephased =>
    unfold Machine.rephased
    exact congrArg (fun g => table.filterMap g) (funext fun e => rephaseEntry_true now e)
  case mark =>
    refine ⟨_, congrArg Host.Outcome.next (if_pos hdue), fun hpart hsound hroom => stands_taken (sendMark_stands_room hpart hsound hroom), ?_⟩
    rw [steady_settleAttention, steady_settleAnswers, steady_sendMark]

/-! ### SET TIME (R13) -/

theorem shiftOctet_toInt (o : Octet) : shiftOctet o.toInt = o := BitVec.ofInt_toInt

theorem markEligible_iff (s : State) : markEligible s = true ↔ (roles s).timeSource = true ∧ s.time.isSet = true ∧ participates s = true
    ∧ ∃ own, ownStation s = some own ∧ ∀ r ∈ s.time.sources, own ≤ r.station := by
  unfold markEligible
  cases ownStation s <;> simp [and_assoc]

theorem doSetTime_notPermitted {args : List Octet} {s : State} (h : (roles s).timeSource = false) : doSetTime args s = (s, [0x02]) := if_pos h

theorem doSetTime_invalid {args : List Octet} {s : State} (hrole : (roles s).timeSource = true)
    (h : (readShipTime args).inRange = false ∨ (octetAt args 6).toInt < -120 ∨ 120 < (octetAt args 6).toInt
      ∨ ((octetAt args 6).toInt ≠ 0 ∧ s.time.isSet = false)) : doSetTime args s = (s, [0x03]) :=
  (if_neg (by simp [hrole])).trans (if_pos h)

theorem doSetTime_taken {args : List Octet} {s : State} (hrole : (roles s).timeSource = true) (hrange : (readShipTime args).inRange = true)
    (hlow : -120 ≤ (octetAt args 6).toInt) (hhigh : (octetAt args 6).toInt ≤ 120) (hset : (octetAt args 6).toInt = 0 ∨ s.time.isSet = true) :
    doSetTime args s = (takeSetTime (readShipTime args) (octetAt args 6).toInt s, [0x00]) := by
  refine (if_neg (by simp [hrole])).trans (if_neg ?_)
  rintro (h | h | h | ⟨hne, hunset⟩)
  · rw [hrange] at h
    cases h
  · omega
  · omega
  · rcases hset with hset | hset
    · exact hne hset
    · rw [hset] at hunset
      cases hunset

theorem exec_setTime {args : List Octet} {s u : State} {r : List Octet} (hpart : participates s = true) (hport : s.port.state = .idle)
    (hlong : 7 ≤ args.length) (hdo : doSetTime args s = (u, r)) : exec (.setTime args) s = .next (settleSend (u.answered (0x0B :: args) r)) := by
  have hrun := portRun_owner (code := 0x0B) (args := args) (doSetTime args) (not_reset_of_participates hpart) hport (stateAllows_of_participates _ hpart)
    (tooShort_of_long rfl (by decide) hlong)
  rw [hdo, answer_eq] at hrun
  exact congrArg (fun v => Host.Outcome.next (settleSend v)) hrun

/-- The pending shift set. -/
def State.shifted (s : State) (shift : Int) : State := { s with time := { s.time with pendingShift := shift } }

theorem takeSetTime_eq (t : ShipTime) (shift : Int) (s : State) : takeSetTime t shift s =
    if markEligible (stepTime t (s.shifted shift)) then sendMark (stepTime t (s.shifted shift)) else stepTime t (s.shifted shift) := rfl

theorem writes_sendMark' (s : State) : Writes (Part.offered ++ [.markTimer]) s (sendMark s) := writes_sendMark (.refl _ s) (List.Subset.refl _)

/-- What the end of a step that sends writes. -/
abbrev Part.sentAfter : List Part := Part.offered ++ [.answers, .pendingReports, .outstanding, .builderWaits, .line]

theorem writes_markAtOnce (u : State) : Writes (Part.offered ++ [.markTimer]) u (if markEligible u then sendMark u else u) := by
  split
  · exact writes_sendMark' u
  · exact .refl _ u

/-- The mark that an eligible node sends at a SET TIME, with the shift given. -/
theorem setTime_mark_stands {o : Octet} {u : State} {block response : List Octet} (heligible : (roles u).timeSource = true ∧ u.time.isSet = true
    ∧ participates u = true ∧ ∃ own, ownStation u = some own ∧ ∀ r ∈ u.time.sources, own ≤ r.station) (hshift : u.time.pendingShift = o.toInt)
    (hroom : u.bus.queue.length ≤ 6) : (settleSend ((if markEligible u then sendMark u else u).answered block response)).stands
      ⟨.timeMark, 255, u.bus.nextSeq, markPayload ⟨0, 0, 0, 0⟩ o, [], false⟩ := by
  have hstands := sendMark_stands heligible.2.2.1 (show u.bus.queue.length < 8 by omega)
  have hlen := queue_length_sendMark (s := u) (by omega)
  have hkept : (sendMark u).time.pendingShift = u.time.pendingShift := (writes_sendMark' u).same .shift rfl
  have hload := loadShift_mark u.time.pendingShift u.bus.nextSeq
  rw [← hkept] at hload
  rw [if_pos ((markEligible_iff u).2 heligible)]
  rw [hshift, shiftOctet_toInt] at hstands
  rw [hkept, hshift, shiftOctet_toInt, ← hshift, ← hkept] at hload
  exact stands_settleSend hload (.inl (show (sendMark u).bus.queue.length < 8 by omega)) hstands

/-- Settles O12. -/
theorem setTimeSteps : Obligations.SetTimeSteps := by
  unfold Obligations.SetTimeSteps
  intro args s hpart hport hlong
  refine ⟨fun hrole hrange hlow hhigh hset => ?taken,
    fun hrole => ⟨_, exec_setTime hpart hport hlong (doSetTime_notPermitted hrole), steady_refused keepsSteady_settleSend _ _ s⟩,
    fun hrole hbad => ⟨_, exec_setTime hpart hport hlong (doSetTime_invalid hrole hbad), steady_refused keepsSteady_settleSend _ _ s⟩⟩
  refine ⟨_, exec_setTime hpart hport hlong (doSetTime_taken hrole hrange hlow hhigh hset), ?_⟩
  rw [takeSetTime_eq]
  obtain ⟨htime, htable, hkept, hmoved, hcomparator, hevent, -, -⟩ := stepTime_spec (readShipTime args) (s.shifted (octetAt args 6).toInt)
  obtain ⟨st, ev, honly⟩ := stepTime_only (readShipTime args) (s.shifted (octetAt args 6).toInt)
  generalize stepTime (readShipTime args) (s.shifted (octetAt args 6).toInt) = u at *
  have hu : u.time = { s.time with ship := readShipTime args, isSet := true, pendingShift := (octetAt args 6).toInt } := by subst honly; rfl
  have hnode : u.node = s.node := by subst honly; rfl
  have hbus : u.bus = s.bus := by subst honly; rfl
  have hstands := @setTime_mark_stands (octetAt args 6) u (0x0B :: args) [0x00]
  have hmark := writes_markAtOnce u
  generalize (if markEligible u then sendMark u else u) = v at *
  have hend : Writes Part.sentAfter (v.answered (0x0B :: args) [0x00]) (settleSend (v.answered (0x0B :: args) [0x00])) :=
    writes_settleSend (.refl _ _) (List.Subset.refl _)
  generalize settleSend (v.answered (0x0B :: args) [0x00]) = t at *
  have hstore : t.store = u.store := (hend.store rfl).trans (hmark.store rfl)
  have hship : t.time.ship = u.time.ship := (hend.same .ship rfl).trans (hmark.same .ship rfl)
  have hisSet : t.time.isSet = u.time.isSet := (hend.same .isSet rfl).trans (hmark.same .isSet rfl)
  have hshown : shownNow t = shownNow u := shownNow_congr (by rw [hstore]) (by rw [hstore])
  have hboundary : boundary t = boundary u := boundary_congr hisSet hship (by rw [hstore])
  have hview : composedView t = composedView u := composedView_congr (hend.node.trans hmark.node) (by rw [hstore]) (by rw [hstore])
  have hprogramme : eventSet .programme t = eventSet .programme u := (hend.eventSet_eq rfl (by decide)).trans (hmark.eventSet_eq rfl (by decide))
  have hminute : nowMinute t = (readShipTime args).minuteNumber := by rw [nowMinute, hship, hu]
  rw [hstore, hship, hisSet, hshown, hboundary, hview, hprogramme, hminute, hu]
  refine ⟨rfl, rfl, (hend.same .shift rfl).trans ((hmark.same .shift rfl).trans (by rw [hu])), hend.now.trans (hmark.now.trans (by rw [hu])),
    (hend.same .sources rfl).trans ((hmark.same .sources rfl).trans (by rw [hu])), hend.eventSet (hmark.eventSet htime), htable, hcomparator, hkept,
    hmoved, hevent, ?_, fun own hown hlowest hroom => ?_, (hend.mon rfl).trans ((hmark.mon rfl).trans (by subst honly; rfl)),
    (hend.route rfl).trans ((hmark.route rfl).trans (by subst honly; rfl)), hend.node.trans (hmark.node.trans hnode),
    hend.record.trans (hmark.record.trans (by subst honly; rfl))⟩
  · rw [hend.port]
    exact congrArg (fun p : LocalPort => { p with state := .ready, command := 0x0B :: args, response := [0x00] }) (hmark.port.trans (by subst honly; rfl))
  · rw [hbus] at hstands
    exact hstands ⟨by rw [roles, hnode]; exact hrole, by rw [hu], by rw [participates, hnode]; exact hpart, own,
      by rw [ownStation, hnode]; exact hown, by rw [hu]; exact hlowest⟩ (by rw [hu]) hroom

end Sys2Proof.Machine
end

