-- ==== Sys2Proof/Proofs/Marks.lean ====
section
/-! PROOFS. Time sources and their marks (O11). -/

namespace Sys2Proof.Machine

/-! ### The list of sources (R6) -/

/-- Where a record is inserted: behind those up to its station, before the next. -/
theorem insertSource_split (r : SourceRecord) (l : List SourceRecord) : ∃ a b, l = a ++ b ∧ insertSource r l = a ++ r :: b
    ∧ (∀ q ∈ a, q.station ≤ r.station) ∧ ∀ q, b.head? = some q → r.station < q.station := by
  induction l with
  | nil => exact ⟨[], [], rfl, rfl, by simp, by simp⟩
  | cons d l ih =>
    by_cases hd : r.station < d.station
    · exact ⟨[], d :: l, rfl, if_pos hd, by simp, by simpa using hd⟩
    · obtain ⟨a, b, hsplit, hinsert, ha, hb⟩ := ih
      refine ⟨d :: a, b, by rw [hsplit]; rfl, ?_, ?_, hb⟩
      · rw [insertSource, if_neg hd, hinsert]
        rfl
      · rintro q hq
        rcases List.mem_cons.1 hq with rfl | hq
        · omega
        · exact ha q hq

theorem updateSources_listed {r : SourceRecord} {l : List SourceRecord} (h : ∃ q ∈ l, q.station = r.station) :
    updateSources r l = l.map fun q => if q.station = r.station then r else q := if_pos (by simpa using h)

theorem updateSources_short {r : SourceRecord} {l : List SourceRecord} (hnew : ∀ q ∈ l, q.station ≠ r.station) (hlen : l.length < 4) :
    updateSources r l = insertSource r l := (if_neg (by simpa using hnew)).trans (if_pos hlen)

theorem updateSources_full {r h : SourceRecord} {l : List SourceRecord} (hnew : ∀ q ∈ l, q.station ≠ r.station) (hlen : 4 ≤ l.length)
    (hlast : l.getLast? = some h) : updateSources r l = if r.station < h.station then insertSource r l.dropLast else l := by
  unfold updateSources
  rw [if_neg (by simpa using hnew), if_neg (by omega), hlast]

/-! ### The time of a mark (R9) -/

theorem markSteps_iff (m : Mark) (newMs : Nat) (s : State) : markSteps m newMs s = true ↔
    s.time.isSet = false ∨ m.shift ≠ 0 ∨ 2000 < ((newMs : Int) - (s.time.ship.toMs : Int)).natAbs := by
  simp only [markSteps, Bool.or_eq_true, Bool.not_eq_true', decide_eq_true_eq, or_assoc]
  exact Iff.rfl

theorem toMs_lt {t : ShipTime} (h : t.inRange = true) : t.toMs < cycleMs := by
  simp only [ShipTime.inRange, decide_eq_true_eq] at h
  simp only [ShipTime.toMs, cycleMs]
  omega

/-- A mark read has its time in range. -/
theorem inRange_of_readMark {l : List Octet} {m : Mark} (h : readMark l = some m) : m.ship.inRange = true := by
  unfold readMark at h
  dsimp only at h
  split at h
  · rename_i hok
    cases h
    exact hok.2.1
  · cases h

theorem markTime_eq {m : Mark} (h : m.ship.inRange = true) (capture : Tick) (s : State) :
    markTime m capture s = (m.ship.toMs + (s.time.now - capture).toNat) % 22118400000 := by
  have hlt := toMs_lt h
  have helapsed : (s.time.now - capture).toNat < 4294967296 := (s.time.now - capture).isLt
  have hcycle : cycleMs = 22118400000 := rfl
  unfold markTime
  dsimp only
  split <;> omega

/-! ### A mark applied (R10) -/

/-- Ship time moved. -/
def State.shipAt (s : State) (t : ShipTime) : State := { s with time := { s.time with ship := t } }

theorem adjustTime_eq (t : ShipTime) (s : State) : adjustTime t s =
    if t.minuteNumber ≠ nowMinute s ∧ matchDue (s.shipAt t) = true then takeMatch (shownNow (s.shipAt t)) (s.shipAt t) else s.shipAt t := rfl

/-- An ADJUST: ship time, and the comparator tested when the minute changed. -/
theorem adjustTime_spec (t : ShipTime) (s : State) : (adjustTime t s).time = { s.time with ship := t }
    ∧ (adjustTime t s).store.table = if t.minuteNumber ≠ nowMinute s ∧ matchDue (s.shipAt t) = true
        then rephased false t.minuteNumber s.store.table else s.store.table := by
  rw [adjustTime_eq]
  split
  · exact ⟨(storeOnly_takeMatch _ _).time, (takeMatch_spec (s.shipAt t)).1⟩
  · exact ⟨rfl, rfl⟩

/-- A mark of the preferred source: ship time is its time, SET, with no shift pending; the store follows a STEP or an ADJUST. -/
theorem applyMark_spec (m : Mark) (newMs : Nat) (s : State) :
    let u := applyMark m newMs s
    u.time = { s.time with ship := ShipTime.ofMs newMs, isSet := true, pendingShift := 0 }
      ∧ (markSteps m newMs s = true → eventSet .time u = true
          ∧ u.store.table = rephased true (ShipTime.ofMs newMs).minuteNumber s.store.table ∧ u.store.comparator = boundary u)
      ∧ (markSteps m newMs s = false → u.store.table =
          if (ShipTime.ofMs newMs).minuteNumber ≠ nowMinute s ∧ matchDue { s with time := u.time } = true
          then rephased false (ShipTime.ofMs newMs).minuteNumber s.store.table else s.store.table) := by
  dsimp only
  cases hsteps : markSteps m newMs s with
  | true =>
    rw [show applyMark m newMs s = stepTime (ShipTime.ofMs newMs) (s.shifted 0) from if_pos hsteps]
    obtain ⟨htime, htable, -, -, hcomparator, -⟩ := stepTime_spec (ShipTime.ofMs newMs) (s.shifted 0)
    exact ⟨(stepTime_only _ _).time, fun _ => ⟨htime, htable, hcomparator⟩, nofun⟩
  | false =>
    rw [show applyMark m newMs s = adjustTime (ShipTime.ofMs newMs) (s.shifted 0) from if_neg (by rw [hsteps]; decide)]
    obtain ⟨htime, htable⟩ := adjustTime_spec (ShipTime.ofMs newMs) (s.shifted 0)
    have hset : s.time.isSet = true := by
      by_contra hne
      rw [(markSteps_iff m newMs s).2 (.inl (by simpa using hne))] at hsteps
      cases hsteps
    have htime' : (adjustTime (ShipTime.ofMs newMs) (s.shifted 0)).time = { s.time with ship := ShipTime.ofMs newMs, isSet := true, pendingShift := 0 } := by
      rw [htime, ← hset]
      rfl
    refine ⟨htime', nofun, fun _ => ?_⟩
    rw [htable, htime', ← hset]
    rfl

/-! ### TIME_MARK -/

/-- The source's record of a mark at a time. -/
def sourceOf (station newMs : Nat) (s : State) : SourceRecord := { station, lastHeard := ShipTime.ofMs newMs, heardAt := s.time.now }

/-- The record of a mark in the list. -/
def State.heardSource (station newMs : Nat) (s : State) : State :=
  { s with time := { s.time with sources := updateSources (sourceOf station newMs s) s.time.sources } }

theorem acceptMark_eq (m : Mark) (station : Nat) (capture : Tick) (s : State) : acceptMark m station capture s =
    settleMarks (if preferredSource (s.heardSource station (markTime m capture s)) = some station
      then applyMark m (markTime m capture s) (s.heardSource station (markTime m capture s)) else s.heardSource station (markTime m capture s)) := rfl

theorem writes_settleMarks' (s : State) : Writes (Part.offered ++ [.markTimer]) s (settleMarks s) := writes_settleMarks (.refl _ s) (List.Subset.refl _)

theorem exec_timeMark {f : RxFrame} {rest : List RxFrame} {s u : State} (hqueue : s.bus.timeQ = f :: rest) (hpart : participates s = true)
    (htaken : (readMark f.payload = none ∧ u = s) ∨ ∃ m, readMark f.payload = some m ∧ u = acceptMark m f.source f.capture s) :
    exec .timeMark s = .next (settleAttention (settleAnswers (u.modBus fun b => { b with timeQ := rest }))) := by
  show execTimeMark s = _
  rcases htaken with ⟨hnone, rfl⟩ | ⟨m, hsome, rfl⟩
  · simp [execTimeMark, hqueue, hpart, hnone]
  · simp [execTimeMark, hqueue, hpart, hsome]

/-- What a mark writes. -/
abbrev Part.marked : List Part := Part.offered ++ [.isSet, .ship, .sources, .shift, .markTimer, .store, .flags]

/-- Settles O11. -/
theorem timeSourcesAreFollowed : Obligations.TimeSourcesAreFollowed := by
  unfold Obligations.TimeSourcesAreFollowed
  refine ⟨fun s f rest hqueue hpart => ?mark, markSteps_iff, fun r l => ⟨updateSources_listed, fun hnew hlen => ?short, fun h hnew hlen hlast => ?full⟩,
    fun s r hr hheld => ?hold⟩
  case short =>
    rw [updateSources_short hnew hlen]
    exact insertSource_split r l
  case full =>
    rw [updateSources_full hnew hlen hlast]
    refine ⟨fun hlower => ?_, fun hhigher => if_neg (by omega)⟩
    rw [if_pos hlower]
    exact insertSource_split r l.dropLast
  case mark =>
    cases hread : readMark f.payload with
    | none =>
      have hend := writes_taken (s.modBus fun b => { b with timeQ := rest })
      exact ⟨_, exec_timeMark hqueue hpart (.inl ⟨hread, rfl⟩), hend.timeQ, hend.programmeQ, hend.routeQ, hend.musterQ, hend.node, hend.port,
        hend.mon rfl, hend.route rfl, hend.record, hend.now, hend.time rfl, hend.store rfl⟩
    | some m =>
      refine ⟨_, exec_timeMark hqueue hpart (.inr ⟨m, hread, rfl⟩), ?_⟩
      have haccept : Writes Part.marked s (acceptMark m f.source f.capture s) := writes_acceptMark m f.source f.capture (.refl _ s) (List.Subset.refl _)
      have hmarks := acceptMark_eq m f.source f.capture s
      rw [markTime_eq (inRange_of_readMark hread)] at hmarks
      dsimp only
      generalize (m.ship.toMs + (s.time.now - f.capture).toNat) % 22118400000 = newMs at *
      generalize acceptMark m f.source f.capture s = u at *
      have hend := writes_taken (u.modBus fun b => { b with timeQ := rest })
      generalize settleAttention (settleAnswers (u.modBus fun b => { b with timeQ := rest })) = t at *
      refine ⟨hend.timeQ, hend.programmeQ.trans haccept.programmeQ, hend.routeQ.trans haccept.routeQ, hend.musterQ.trans haccept.musterQ,
        hend.node.trans haccept.node, hend.port.trans haccept.port, (hend.mon rfl).trans (haccept.mon rfl), (hend.route rfl).trans (haccept.route rfl),
        hend.record.trans haccept.record, hend.now.trans haccept.now, ?_⟩
      have htime : t.time = u.time := hend.time rfl
      have hstore : t.store = u.store := hend.store rfl
      have hsettled := writes_settleMarks' (if preferredSource (s.heardSource f.source newMs) = some f.source
        then applyMark m newMs (s.heardSource f.source newMs) else s.heardSource f.source newMs)
      rw [← hmarks] at hsettled
      obtain ⟨happlied, hstep, hadjust⟩ := applyMark_spec m newMs (s.heardSource f.source newMs)
      by_cases hpreferred : preferredSource (s.heardSource f.source newMs) = some f.source
      · rw [if_pos hpreferred] at hsettled
        have hship : t.time.ship = ShipTime.ofMs newMs := by rw [htime, hsettled.same .ship rfl, happlied]
        have hisSet : t.time.isSet = true := by rw [htime, hsettled.same .isSet rfl, happlied]
        have hustore : t.store = (applyMark m newMs (s.heardSource f.source newMs)).store := hstore.trans (hsettled.store rfl)
        have hminute : nowMinute t = (ShipTime.ofMs newMs).minuteNumber := by rw [nowMinute, hship]
        refine ⟨?_, fun _ => ⟨hship, hisSet, ?_, fun hsteps => ?_, fun hsteps => ?_⟩, fun hne => absurd hpreferred hne⟩
        · rw [htime, hsettled.same .sources rfl, happlied]
          rfl
        · rw [htime, hsettled.same .shift rfl, happlied]
        · obtain ⟨hevent, htable, hcomparator⟩ := hstep hsteps
          refine ⟨hend.eventSet (hsettled.eventSet hevent), by rw [hustore, htable, hminute]; rfl, ?_⟩
          rw [hustore, hcomparator]
          exact (boundary_congr (by rw [hisSet, happlied]) (by rw [hship, happlied]) (by rw [hustore])).symm
        · have htable := hadjust hsteps
          have hdue : matchDue { s with time := t.time } = matchDue { s.heardSource f.source newMs with
              time := (applyMark m newMs (s.heardSource f.source newMs)).time } := by
            simp only [matchDue, nowMinute, hship, hisSet, happlied]
            rfl
          rw [hustore, htable, hminute, hdue]
          rfl
      · rw [if_neg hpreferred] at hsettled
        refine ⟨?_, fun h => absurd h hpreferred, fun _ => ⟨?_, ?_, ?_, hstore.trans (hsettled.store rfl)⟩⟩
        · rw [htime, hsettled.same .sources rfl]
          rfl
        · rw [htime, hsettled.same .ship rfl]
          rfl
        · rw [htime, hsettled.same .isSet rfl]
          rfl
        · rw [htime, hsettled.same .shift rfl]
          rfl
  case hold =>
    have hany : s.time.sources.any (fun q => q.station = r.station && q.held s.time.now) = true := by
      simp only [List.any_eq_true, Bool.and_eq_true, decide_eq_true_eq]
      exact ⟨r, hr, rfl, decide_eq_true hheld⟩
    refine ⟨_, congrArg Host.Outcome.next (if_pos hany), ?_⟩
    let u : State := { s with time := { s.time with sources := s.time.sources.filter (·.station ≠ r.station) } }
    have hevent : eventSet .time (setEvent .time u) = true := eventSet_setEvent _ _
    have hmarks := writes_settleMarks' (setEvent .time u)
    have hend := writes_taken (settleMarks (setEvent .time u))
    exact ⟨(hend.same .sources rfl).trans (hmarks.same .sources rfl), hend.eventSet (hmarks.eventSet hevent),
      (hend.same .ship rfl).trans (hmarks.same .ship rfl), (hend.same .isSet rfl).trans (hmarks.same .isSet rfl), hend.now.trans hmarks.now,
      (hend.store rfl).trans (hmarks.store rfl), (hend.mon rfl).trans (hmarks.mon rfl), (hend.route rfl).trans (hmarks.route rfl),
      hend.node.trans hmarks.node, hend.port.trans hmarks.port, hend.record.trans hmarks.record⟩

end Sys2Proof.Machine
end

