-- ==== Sys2Proof/Proofs/Records.lean ====
section
/-! PROOFS. Publisher records and catch-up requests (R57, R62, R64): the frames of the PROGRAMME queue (O20), the exchange's timers (O23) and the
request timer (O24). -/

namespace Sys2Proof.Machine

/-! ### The records (R57) -/

theorem recordOf_congr {s t : State} (h : t.exch.records = s.exch.records) (p : Nat) : recordOf p t = recordOf p s := by
  simp only [recordOf, h]

theorem Writes.recordOf {ps : List Part} {s t : State} (h : Writes ps s t) (hp : ps.contains .records = false) (p : Nat) :
    Machine.recordOf p t = Machine.recordOf p s := recordOf_congr (h.same .records hp) p

theorem find?_map_record (f : PubRecord → PubRecord) (hf : ∀ r, (f r).station = r.station) (p : Nat) (l : List PubRecord) :
    (l.map f).find? (·.station = p) = (l.find? (·.station = p)).map f := by
  rw [List.find?_map]
  simp only [Function.comp_def, hf]

theorem station_of_recordOf {p : Nat} {s : State} {r : PubRecord} (h : recordOf p s = some r) : r.station = p := by
  simpa using List.find?_some h

/-- The records with one publisher's updated: that record alone. -/
theorem recordOf_modRecord {f : PubRecord → PubRecord} (hf : ∀ r, (f r).station = r.station) (p : Nat) (s : State) :
    recordOf p (modRecord p f s) = (recordOf p s).map f := by
  refine (find?_map_record _ (fun r => ?_) p s.exch.records).trans ?_
  · split
    · exact hf r
    · rfl
  · show Option.map _ (recordOf p s) = _
    cases h : recordOf p s with
    | none => rfl
    | some r => rw [Option.map_some, if_pos (station_of_recordOf h), Option.map_some]

theorem recordOf_dropSequence (p : Nat) (seq : Octet) (s : State) : recordOf p (dropSequence p seq s) = recordOf p s := by
  refine (find?_map_record _ (fun r => ?_) p s.exch.records).trans ?_
  · split <;> rfl
  · show Option.map _ (recordOf p s) = _
    cases h : recordOf p s with
    | none => rfl
    | some r => rw [Option.map_some, if_neg fun hne => hne.1 (station_of_recordOf h)]

/-! ### Offers of routine frames -/

/-- Nothing is of a lower class than a routine frame: it finds room among fewer than 8, or in its own place. -/
theorem hasRoom_routine {k : FrameKind} (hrank : k.rank = 0) {q : List TxFrame} :
    hasRoom k q = true ↔ q.length < 8 ∨ (k.single = true ∧ queued k q = true) := by
  simp [hasRoom, hrank]

theorem stands_offer_routine {o : Offer} {s : State} (hrank : o.kind.rank = 0) (hload : loadShift s.time.pendingShift (o.frame s) = o.frame s)
    (hpass : ¬ refusedByState o s) (hroom : hasRoom o.kind s.bus.queue = true) : (offer o s).1.stands (o.frame s) := by
  refine stands_offer_of_base hload ?_
  rcases (hasRoom_routine hrank).1 hroom with hlen | ⟨hsingle, hqueued⟩
  · exact stands_offerBase_self hload hpass hlen
  · rw [offerBase_replaces hpass hsingle hqueued]
    obtain ⟨g, hg, hkind⟩ := (queued_iff _ _).1 hqueued
    exact stands_acceptOffer hload (.inl (mem_replaceFrame_self hg hkind))

/-- A programme frame is offered in JOINING and RUN below MUSTER. -/
theorem not_refused_below {o : Offer} {s : State} (hpart : participates s = true) (hlevel : level s ≠ .muster) : ¬ refusedByState o s := by
  rintro (h | ⟨h, -⟩)
  · rw [hpart] at h
    cases h
  · exact hlevel h

theorem level_ne_muster_of_calm {s : State} (h : (level s).calm = true) : level s ≠ .muster := by
  intro heq
  rw [heq] at h
  cases h

/-! ### A catch-up request (R62) -/

/-- The offer of a request for what lies above a revision. -/
def requestOffer (p after : Nat) : Offer := ⟨.itemRequest, 255, o8 p :: le16 after, [], false⟩

/-- A record WAITING under a request sequence, one attempt on. -/
def PubRecord.requested (r : PubRecord) (now : Tick) (q : Option Octet) : PubRecord :=
  { r with waiting := true, attempts := r.attempts + 1, timer := some { start := now, len := 4000 }, reqSeq := q }

theorem recordOf_markWaiting (p : Nat) (q : Option Octet) (s : State) :
    recordOf p (markWaiting p q s) = (recordOf p s).map (·.requested s.time.now q) :=
  recordOf_modRecord (f := fun r => r.requested s.time.now q) (fun _ => rfl) p s

/-- What a request does: the record waits under the sequence of the request when the offer is accepted, and under none else. -/
theorem startCatchUp_cases (p after : Nat) (s : State) :
    (∃ seq e, (offer (requestOffer p after) s).2 = .accepted seq e
        ∧ startCatchUp p after s = markWaiting p (some seq) (dropSequence p seq (offer (requestOffer p after) s).1))
      ∨ ((offer (requestOffer p after) s).2 = .refusedFull ∨ (offer (requestOffer p after) s).2 = .refusedState)
        ∧ startCatchUp p after s = markWaiting p none (offer (requestOffer p after) s).1 := by
  unfold startCatchUp
  rw [show (⟨.itemRequest, 255, o8 p :: le16 after, [], false⟩ : Offer) = requestOffer p after from rfl]
  generalize offer (requestOffer p after) s = w
  obtain ⟨u, a⟩ := w
  cases a with
  | accepted seq e => exact .inl ⟨seq, e, rfl, rfl⟩
  | refusedFull => exact .inr ⟨.inl rfl, rfl⟩
  | refusedState => exact .inr ⟨.inr rfl, rfl⟩

theorem offer_answer (o : Offer) (s : State) : (offer o s).2 = (offerBase o s).2 := by
  unfold offer
  split
  · rename_i h
    rw [h]
  · rfl

theorem answer_of_room {p after : Nat} {s : State} (hpass : ¬ refusedByState (requestOffer p after) s) (hlen : s.bus.queue.length < 8) :
    (offer (requestOffer p after) s).2 = .accepted s.bus.nextSeq none := by rw [offer_accepted hpass hlen]

theorem answer_refused {p after : Nat} {s : State} (h : participates s = false ∨ hasRoom .itemRequest s.bus.queue = false) :
    ∀ seq e, (offer (requestOffer p after) s).2 ≠ .accepted seq e := by
  intro seq e heq
  rw [offer_answer] at heq
  obtain hs | hs | ⟨hsingle, -, -⟩ | ⟨-, hlen, hs⟩ | ⟨g, -, -, -, hrank, -⟩ := offerBase_cases (requestOffer p after) s
  · rw [hs] at heq
    cases heq
  · rw [hs] at heq
    cases heq
  · cases hsingle
  · rcases h with h | h
    · rw [offerBase_refusedState (.inl h)] at heq
      cases heq
    · rw [(hasRoom_routine rfl).2 (.inl hlen)] at h
      cases h
  · exact absurd hrank (Nat.not_lt_zero _)

/-- A request in one statement. -/
theorem startCatchUp_spec (p after : Nat) (s : State) : ∃ q,
    recordOf p (startCatchUp p after s) = (recordOf p s).map (·.requested s.time.now q)
      ∧ (participates s = true → level s ≠ .muster → hasRoom .itemRequest s.bus.queue = true → q = some s.bus.nextSeq
          ∧ (startCatchUp p after s).stands ⟨.itemRequest, 255, s.bus.nextSeq, o8 p :: le16 after, [], false⟩)
      ∧ (participates s = false ∨ hasRoom .itemRequest s.bus.queue = false → q = none) := by
  have hoffer : Writes Part.offered s (offer (requestOffer p after) s).1 := writes_offer _ (.refl _ s) (List.Subset.refl _)
  have hrecord := hoffer.recordOf rfl p
  obtain ⟨seq, e, haccepted, hs⟩ | ⟨hrefused, hs⟩ := startCatchUp_cases p after s
  · refine ⟨some seq, ?_, fun hpart hlevel hroom => ?_, fun h => absurd haccepted (answer_refused h seq e)⟩
    · rw [hs, recordOf_markWaiting, recordOf_dropSequence, hrecord]
      exact congrArg (fun now => (recordOf p s).map (·.requested now (some seq))) hoffer.now
    · have hpass : ¬ refusedByState (requestOffer p after) s := not_refused_below hpart hlevel
      have hlen : s.bus.queue.length < 8 := ((hasRoom_routine rfl).1 hroom).resolve_right nofun
      rw [answer_of_room hpass hlen] at haccepted
      cases haccepted
      refine ⟨rfl, ?_⟩
      rw [hs]
      exact stands_offer_self rfl hpass hlen
  · refine ⟨none, ?_, fun hpart hlevel hroom => ?_, fun _ => rfl⟩
    · rw [hs, recordOf_markWaiting, hrecord, hoffer.now]
    · rw [answer_of_room (not_refused_below hpart hlevel) (((hasRoom_routine rfl).1 hroom).resolve_right nofun)] at hrefused
      rcases hrefused with h | h <;> cases h

/-! ### The request timer (R64) -/

theorem writes_modRecord' (p : Nat) (f : PubRecord → PubRecord) (s : State) : Writes [.records] s (modRecord p f s) :=
  writes_modRecord p f (.refl _ s) (List.Subset.refl _)

/-- Settles O24. -/
theorem requestTimerDecides : Obligations.RequestTimerDecides := by
  unfold Obligations.RequestTimerDecides
  intro r s hrecord hwaiting hdue
  have hexec : exec (.requestTimer r.station) s = .next (settleAttention (settleAnswers (requestExpired r s))) := by
    show execRequestTimer r.station s = _
    simp [execRequestTimer, hrecord, hwaiting, hdue]
  have hexpired : Writes (Part.offered ++ [.records, .flags]) s (requestExpired r s) := writes_requestExpired r (.refl _ s) (List.Subset.refl _)
  have hidled : recordOf r.station (modRecord r.station PubRecord.idled s) = some { r with waiting := false, attempts := 0, timer := none } := by
    rw [recordOf_modRecord (f := PubRecord.idled) (fun _ => rfl), hrecord]
    rfl
  have hend := writes_taken (requestExpired r s)
  refine ⟨_, hexec, ?_, (hend.store rfl).trans (hexpired.store rfl), (hend.time rfl).trans (hexpired.time rfl), (hend.mon rfl).trans (hexpired.mon rfl),
    (hend.route rfl).trans (hexpired.route rfl), hend.node.trans hexpired.node, hend.port.trans hexpired.port⟩
  rw [hend.recordOf rfl]
  by_cases hfailed : 3 ≤ r.attempts
  · have hs : requestExpired r s = setEvent .catchUpFailed (modRecord r.station PubRecord.idled s) := if_pos hfailed
    rw [if_pos hfailed]
    refine ⟨?_, hend.eventSet ?_⟩
    · rw [hs]
      exact hidled
    · rw [hs]
      exact eventSet_setEvent _ _
  rw [if_neg hfailed]
  by_cases hcalm : (level s).calm = true
  · have hs : requestExpired r s = startCatchUp r.station r.settled s := (if_neg hfailed).trans (if_pos hcalm)
    obtain ⟨q, hrequested, hstands, hrefused⟩ := startCatchUp_spec r.station r.settled s
    rw [if_pos hcalm]
    refine ⟨q, ?_, fun hpart hroom => ?_, hrefused⟩
    · rw [hs, hrequested, hrecord]
      rfl
    · obtain ⟨hq, hframe⟩ := hstands hpart (level_ne_muster_of_calm hcalm) hroom
      rw [← hs] at hframe
      exact ⟨hq, stands_taken hframe⟩
  · have hs : requestExpired r s = modRecord r.station PubRecord.idled s := (if_neg hfailed).trans (if_neg hcalm)
    rw [if_neg hcalm]
    have hflags := (hend.same .flags rfl)
    rw [hs] at hflags ⊢
    exact ⟨hidled, hflags.trans ((writes_modRecord' _ _ s).same .flags rfl)⟩

/-! ### The frames of the PROGRAMME queue -/

/-- What a frame of the PROGRAMME queue writes. -/
abbrev Part.programmed : List Part := Part.offered ++ [.store, .records, .early, .answers, .flags, .counters]

theorem exec_programmeItem {f : RxFrame} {rest : List RxFrame} {s : State} (hqueue : s.bus.programmeQ = f :: rest) (hkind : f.kind = .programmeItem)
    (hpart : participates s = true) :
    exec .programmeItem s = .next (settleAttention (settleAnswers (freeProgramme (takeItem f.payload s)))) := by
  show execProgrammeItem s = _
  simp [execProgrammeItem, hqueue, hpart, hkind]

theorem exec_programmeSummary {f : RxFrame} {rest : List RxFrame} {s : State} (hqueue : s.bus.programmeQ = f :: rest)
    (hkind : f.kind = .programmeSummary) (hpart : participates s = true) :
    exec .programmeSummary s = .next (settleAttention (settleAnswers (freeProgramme (takeSummary f.payload s)))) := by
  show execProgrammeSummary s = _
  simp [execProgrammeSummary, hqueue, hpart, hkind]

theorem exec_itemRequest {f : RxFrame} {rest : List RxFrame} {s : State} (hqueue : s.bus.programmeQ = f :: rest) (hkind : f.kind = .itemRequest)
    (hpart : participates s = true) : exec .itemRequest s = .next (settleAttention (settleAnswers (freeProgramme (takeRequest f s)))) := by
  show execItemRequest s = _
  simp [execItemRequest, hqueue, hpart, hkind]

/-- A frame taken off the PROGRAMME queue leaves all but the exchange's own parts. -/
theorem programme_taken {f : RxFrame} {rest : List RxFrame} {s u : State} (hqueue : s.bus.programmeQ = f :: rest) (h : Writes Part.programmed s u) :
    let t := settleAttention (settleAnswers (freeProgramme u))
    t.bus.programmeQ = rest
      ∧ t.bus.timeQ = s.bus.timeQ ∧ t.bus.routeQ = s.bus.routeQ ∧ t.bus.musterQ = s.bus.musterQ
      ∧ t.bus.receiver = s.bus.receiver
      ∧ t.time = s.time ∧ t.mon = s.mon ∧ t.route = s.route ∧ t.node = s.node ∧ t.supply = s.supply ∧ t.port = s.port
      ∧ t.muster.record = s.muster.record ∧ t.muster.highestSeen = s.muster.highestSeen := by
  have hend := writes_taken (freeProgramme u)
  refine ⟨hend.programmeQ.trans ?_, hend.timeQ.trans h.timeQ, hend.routeQ.trans h.routeQ, hend.musterQ.trans h.musterQ, hend.receiver.trans h.receiver,
    (hend.time rfl).trans (h.time rfl), (hend.mon rfl).trans (h.mon rfl), (hend.route rfl).trans (h.route rfl), hend.node.trans h.node,
    hend.supply.trans h.supply, hend.port.trans h.port, hend.record.trans h.record, hend.highestSeen.trans h.highestSeen⟩
  show u.bus.programmeQ.drop 1 = rest
  rw [h.programmeQ, hqueue]
  rfl

/-- Settles O20. -/
theorem programmeFramesAreTaken : Obligations.ProgrammeFramesAreTaken := by
  unfold Obligations.ProgrammeFramesAreTaken
  intro c k f rest s hc hqueue hkind hpart
  rcases hc with ⟨rfl, rfl⟩ | ⟨rfl, rfl⟩ | ⟨rfl, rfl⟩
  · have htaken : Writes Part.programmed s (takeItem f.payload s) := writes_takeItem _ (.refl _ s) (by simp)
    obtain ⟨h1, h2, h3, h4, h5, h6, h7, h8, h9, h10, h11, h12, h13⟩ := programme_taken hqueue htaken
    exact ⟨_, exec_programmeItem hqueue hkind hpart, h1, h2, h3, h4, h5, h6, h7, h8, h9, h10, h11, h12, h13, fun h => absurd rfl h⟩
  · have htaken : Writes (Part.offered ++ [.records, .early]) s (takeSummary f.payload s) := writes_takeSummary _ (.refl _ s) (List.Subset.refl _)
    obtain ⟨h1, h2, h3, h4, h5, h6, h7, h8, h9, h10, h11, h12, h13⟩ := programme_taken hqueue (htaken.mono (by simp))
    exact ⟨_, exec_programmeSummary hqueue hkind hpart, h1, h2, h3, h4, h5, h6, h7, h8, h9, h10, h11, h12, h13,
      fun _ => ((writes_taken (freeProgramme _)).store rfl).trans (htaken.store rfl)⟩
  · have htaken : Writes [.answers] s (takeRequest f s) := writes_takeRequest _ (.refl _ s) (List.Subset.refl _)
    obtain ⟨h1, h2, h3, h4, h5, h6, h7, h8, h9, h10, h11, h12, h13⟩ := programme_taken hqueue (htaken.mono (by simp))
    exact ⟨_, exec_itemRequest hqueue hkind hpart, h1, h2, h3, h4, h5, h6, h7, h8, h9, h10, h11, h12, h13,
      fun _ => ((writes_taken (freeProgramme _)).store rfl).trans (htaken.store rfl)⟩

/-! ### The exchange's timers (R58, R60, R66 to R69) -/

/-- The offer of a summary. -/
def summaryOffer (s : State) : Offer := ⟨.programmeSummary, 255, summaryPayload s.exch.records, [], false⟩

theorem offerSummary_stands {s : State} (hpart : participates s = true) (hlevel : level s ≠ .muster)
    (hroom : hasRoom .programmeSummary s.bus.queue = true) :
    (offerSummary s).stands ⟨.programmeSummary, 255, s.bus.nextSeq, summaryPayload s.exch.records, [], false⟩ :=
  stands_offer_routine (o := summaryOffer s) rfl rfl (not_refused_below hpart hlevel) hroom

theorem steady_offerSummary (s : State) : (offerSummary s).steady = s.steady := steady_offer_ _ s

/-- The answer walking, with the frame it sends next outstanding. -/
def ActiveAnswer.sending (a : ActiveAnswer) (table : List Entry) : ActiveAnswer :=
  match nextToSend a.entry.publisher a.lastSent table with
  | some b => { a with phase := .walk, lastSent := b.revision, outstanding := true, closing := false }
  | none => { a with phase := .walk, outstanding := true, closing := true }

/-- The frame of an answer: the next item, or the close. -/
def answerPayload (a : ActiveAnswer) (s : State) : List Octet :=
  match nextToSend a.entry.publisher a.lastSent s.store.table with
  | some b => itemPayload (some b) (some { requester := a.entry.requester, seq := a.entry.seq, final := false, through := 0 })
  | none => itemPayload none (some { requester := a.entry.requester, seq := a.entry.seq, final := true, through := highWaterOf a.entry.publisher s })

/-- The offer of an answer's frame. -/
def frameOffer (a : ActiveAnswer) (s : State) : Offer := ⟨.programmeItem, 255, answerPayload a s, [], true⟩

/-- With room in the queue the answer offers its frame, and that is outstanding. -/
theorem answerOffer_accepted {a : ActiveAnswer} {s : State} (hpass : ¬ refusedByState (frameOffer a s) s) (hroom : s.bus.queue.length < 8) :
    answerOffer a s = (offerBase (frameOffer a s) s).1.modExch fun x => { x with active := some (a.sending s.store.table) } := by
  have haccept := offer_accepted hpass hroom
  rw [offer_of_room _ hroom] at haccept
  unfold answerOffer
  simp only [frameOffer, answerPayload, ActiveAnswer.sending] at haccept ⊢
  cases hnext : nextToSend a.entry.publisher a.lastSent s.store.table with
  | some b =>
    rw [hnext] at haccept
    dsimp only at haccept ⊢
    rw [haccept]
  | none =>
    rw [hnext] at haccept
    dsimp only at haccept ⊢
    rw [haccept]

theorem settleAnswers_active {s : State} {a : ActiveAnswer} (h : s.exch.active = some a) : settleAnswers s = s := by
  unfold settleAnswers
  rw [h]

/-- Settles O23. -/
theorem exchangeTimersRun : Obligations.ExchangeTimersRun := by
  unfold Obligations.ExchangeTimersRun
  refine ⟨⟨fun s hdue => ?summary, fun s hdue => ?early⟩, fun a tm s hactive hphase hexpired hpart hlevel hroom => ?hold⟩
  case summary =>
    refine ⟨_, drawValue 22500 37500 s, (drawValue_range 22500 37500 s (by omega)).1, (drawValue_range 22500 37500 s (by omega)).2,
      congrArg Host.Outcome.next (if_pos hdue), fun hpart hlevel hfree => stands_taken (offerSummary_stands hpart hlevel hfree), ?_⟩
    rw [steady_settleAttention, steady_settleAnswers, steady_offerSummary]
    rfl
  case early =>
    refine ⟨_, congrArg Host.Outcome.next (if_pos hdue), fun hpart hlevel hfree => stands_taken (offerSummary_stands hpart hlevel hfree), ?_⟩
    rw [steady_settleAttention, steady_settleAnswers, steady_offerSummary]
    rfl
  case hold =>
    have hexec : exec .answerHold s = .next (settleAttention (settleAnswers (answerOffer { a with phase := .walk } s))) := by
      show execAnswerHold s = _
      simp [execAnswerHold, hactive, hphase, hexpired]
    have hpass : ¬ refusedByState (frameOffer { a with phase := .walk } s) s := not_refused_below hpart hlevel
    have hoffer := answerOffer_accepted hpass hroom
    have hstands : (answerOffer { a with phase := .walk } s).stands ((frameOffer { a with phase := .walk } s).frame s) := by
      rw [hoffer]
      exact stands_offerBase_self rfl hpass hroom
    have hwalks : (answerOffer { a with phase := .walk } s).exch.active = some (ActiveAnswer.sending { a with phase := .walk } s.store.table) := by
      rw [hoffer]
      rfl
    refine ⟨_, hexec, ?_, stands_taken hstands, by rw [steady_settleAttention, steady_settleAnswers, steady_answerOffer]⟩
    rw [settleAnswers_active hwalks]
    refine ((writes_settleAttention (.refl [.line] _) (List.Subset.refl _)).same .active rfl).trans (hwalks.trans ?_)
    unfold ActiveAnswer.sending
    cases nextToSend a.entry.publisher a.lastSent s.store.table <;> rfl

end Sys2Proof.Machine
end

