-- ==== Sys2Proof/Proofs/ItemBodies.lean ====
section
/-! PROOFS. The application of an item body (R40 to R46, R54): the record, the table, the flag and the counters, branch by branch. -/

namespace Sys2Proof.Machine

/-! ### A table committed (R46) -/

/-- Recomposing again what has been recomposed shows the same. -/
theorem shownNow_recompose_again (before before' : Shown) (replaced replaced' : Option (Nat × Nat)) (s : State) :
    shownNow (recompose before replaced (recompose before' replaced' s)) = shownNow (recompose before' replaced' s) := by
  have houter := store_recompose before replaced (recompose before' replaced' s)
  exact shownNow_congr (by rw [houter]) (by rw [houter, view_recompose])

theorem commitTable_eq (table : List Entry) (replaced : Option (Nat × Nat)) (s : State) :
    commitTable table replaced s = recompose (shownNow s) replaced (reloadComparator (shownNow s) (changeTable table s)) := rfl

theorem storeOnly_commitTable (table : List Entry) (replaced : Option (Nat × Nat)) (s : State) : StoreOnly s (commitTable table replaced s) :=
  ((storeOnly_changeTable table s).trans (storeOnly_reloadComparator _ _)).trans (storeOnly_recompose _ _ _)

/-- PROGRAMME is set exactly when what the view shows has changed, or names the replaced item. -/
theorem commitTable_event (table : List Entry) (replaced : Option (Nat × Nat)) (s : State) :
    let t := commitTable table replaced s
    eventSet .programme t = (eventSet .programme s || decide (shownNow t ≠ shownNow s) || (shownNow t).namesReplaced replaced)
      ∧ t.events.flags ||| Event.programme.mask = s.events.flags ||| Event.programme.mask ∧ t.events.enables = s.events.enables := by
  dsimp only
  rw [commitTable_eq, event_recompose, flags_recompose, enables_recompose]
  obtain h | ⟨-, -, h⟩ := reloadComparator_cases (shownNow s) (changeTable table s)
  · rw [h]
    exact ⟨rfl, rfl, rfl⟩
  · rw [h, shownNow_recompose_again, event_recompose, flags_recompose, enables_recompose, Shown.namesReplaced, Option.any_none, Bool.or_false]
    refine ⟨?_, rfl, rfl⟩
    rw [show eventSet .programme (armComparator (changeTable _ (changeTable table s))) = eventSet .programme s from rfl, Bool.or_assoc,
      Bool.or_assoc, Bool.or_self_left, Bool.or_assoc]

/-- A table no entry of which is due for a change of phase is the table committed. -/
theorem commitTable_settled {table : List Entry} (replaced : Option (Nat × Nat)) {s : State}
    (h : s.time.isSet = true → ∀ e ∈ table, rephaseEntry false (nowMinute s) e = some e) :
    let t := commitTable table replaced s
    t.store.table = table ∧ t.store.generation = s.store.generation + 1 ∧ t.store.view = composedView t := by
  dsimp only
  rw [commitTable_eq]
  obtain hreload | ⟨hdue, hmoved, -⟩ := reloadComparator_cases (shownNow s) (changeTable table s)
  · rw [hreload]
    obtain ⟨htable, hgeneration, hview, -⟩ := store_recomposed (shownNow s) replaced table s
    exact ⟨htable, hgeneration, hview⟩
  · have hset : s.time.isSet = true := (Bool.and_eq_true_iff.1 hdue).1
    refine absurd ?_ hmoved
    show table.filterMap (rephaseEntry false (nowMinute s)) = table
    exact (List.filterMap_congr (g := some) (h hset)).trans (List.filterMap_some)

/-! ### The record of the publisher (R41, R57) -/

/-- The state with other records. -/
def State.withRecords (s : State) (l : List PubRecord) : State := { s with exch := { s.exch with records := l } }

theorem find?_insertRecord {r : PubRecord} {l : List PubRecord} (h : ∀ q ∈ l, q.station ≠ r.station) :
    (insertRecord r l).find? (·.station = r.station) = some r := by
  induction l with
  | nil => simp [insertRecord]
  | cons q l ih =>
    unfold insertRecord
    split
    · simp
    · rw [List.find?_cons_of_neg (by simpa using h q (by simp))]
      exact ih fun d hd => h d (by simp [hd])

theorem recordOf_eq_none {p : Nat} {s : State} (h : recordOf p s = none) : ∀ q ∈ s.exch.records, q.station ≠ p := by
  simpa [recordOf] using h

theorem ensureRecord_idle {p : Nat} {s : State} (h : (recordOf p s).isSome = true ∨ 8 ≤ s.exch.records.length) : ensureRecord p s = s := by
  refine if_neg ?_
  rintro ⟨hnone, hlen⟩
  rcases h with h | h
  · rw [Option.isNone_iff_eq_none] at hnone
    rw [hnone] at h
    cases h
  · omega

theorem ensureRecord_new {p : Nat} {s : State} (hnone : recordOf p s = none) (hlen : s.exch.records.length < 8) :
    ensureRecord p s = s.withRecords (insertRecord (newRecord p) s.exch.records) := if_pos ⟨by rw [hnone]; rfl, hlen⟩

/-- A record can be had: there is one, or room for one. -/
def State.canRecord (p : Nat) (s : State) : Prop := (recordOf p s).isSome = true ∨ s.exch.records.length < 8

theorem recordOf_ensureRecord {p : Nat} {s : State} (h : s.canRecord p) : recordOf p (ensureRecord p s) = some ((recordOf p s).getD (newRecord p)) := by
  cases hrecord : recordOf p s with
  | some r =>
    rw [ensureRecord_idle (.inl (by rw [hrecord]; rfl)), hrecord]
    rfl
  | none =>
    rw [ensureRecord_new hrecord (h.resolve_left (by rw [hrecord]; decide))]
    exact find?_insertRecord (r := newRecord p) (recordOf_eq_none hrecord)

theorem ensureRecord_records (p : Nat) (s : State) : ∃ l, ensureRecord p s = s.withRecords l := by
  unfold ensureRecord
  split
  · exact ⟨_, rfl⟩
  · exact ⟨s.exch.records, rfl⟩

theorem modRecord_records (p : Nat) (f : PubRecord → PubRecord) (s : State) : ∃ l, modRecord p f s = s.withRecords l := ⟨_, rfl⟩

/-- The record as a body leaves it: made if it was not there, its high-water raised. -/
def PubRecord.raisedTo (r : PubRecord) (revision : Nat) : PubRecord := { r with highWater := max r.highWater revision }

theorem recordOf_raiseHighWater (p revision : Nat) (s : State) : recordOf p (raiseHighWater p revision s) = (recordOf p s).map (·.raisedTo revision) :=
  recordOf_modRecord (f := fun r => r.raisedTo revision) (fun _ => rfl) p s

/-- The state in which the table is looked at: the record is made and its high-water raised. -/
def State.recorded (b : ItemBody) (s : State) : State := raiseHighWater b.publisher b.revision (ensureRecord b.publisher s)

theorem recorded_eq (b : ItemBody) (s : State) : ∃ l, s.recorded b = s.withRecords l := by
  obtain ⟨l, hl⟩ := ensureRecord_records b.publisher s
  obtain ⟨k, hk⟩ := modRecord_records b.publisher (fun r => { r with highWater := max r.highWater b.revision }) (s.withRecords l)
  exact ⟨k, by rw [State.recorded, hl]; exact hk⟩

theorem recordOf_recorded {b : ItemBody} {s : State} (h : s.canRecord b.publisher) :
    recordOf b.publisher (s.recorded b) = some (((recordOf b.publisher s).getD (newRecord b.publisher)).raisedTo b.revision) := by
  rw [State.recorded, recordOf_raiseHighWater, recordOf_ensureRecord h]
  rfl

/-! ### The branches of the application (R41 to R44) -/

theorem applyBody_refused {b : ItemBody} {s : State} (h : ¬ s.canRecord b.publisher) :
    applyBody b s = (countOutcome .refusedPublisher s, .refusedPublisher) := by
  rw [State.canRecord, not_or, Bool.not_eq_true, Option.isSome_eq_false_iff, Option.isNone_iff_eq_none] at h
  obtain ⟨hnone, hlen⟩ := h
  unfold applyBody
  rw [ensureRecord_idle (.inr (by omega))]
  dsimp only
  rw [hnone]

theorem applyBody_recorded {b : ItemBody} {s : State} (h : s.canRecord b.publisher) : applyBody b s =
    match s.store.table.find? (·.body.key = b.key) with
    | some e => applyHeld b e (s.recorded b)
    | none => applyNew b (s.recorded b) := by
  have hstore : (s.recorded b).store = s.store := by
    obtain ⟨l, hl⟩ := recorded_eq b s
    rw [hl]
    rfl
  unfold applyBody
  dsimp only
  rw [recordOf_ensureRecord h]
  exact congrArg (fun o : Option Entry => match o with
    | some e => applyHeld b e (s.recorded b)
    | none => applyNew b (s.recorded b)) (congrArg (fun t : Store => t.table.find? (·.body.key = b.key)) hstore)

theorem applyHeld_stale {b : ItemBody} {e : Entry} (h : b.revision ≤ e.body.revision) (s : State) :
    applyHeld b e s = (countOutcome .stale s, .stale) := if_pos h

theorem applyHeld_replaced {b : ItemBody} {e : Entry} (h : e.body.revision < b.revision) (s : State) : applyHeld b e s =
    (commitTable (if hasEnded s b then removeEntry b.key s.store.table else insertEntry { body := b, phase := phaseFor s b } (removeEntry b.key s.store.table))
      (some b.key) s, .replaced) := if_neg (by omega)

theorem applyNew_past {b : ItemBody} {s : State} (h : hasEnded s b = true) : applyNew b s = (s, .past) := if_pos h

theorem applyNew_inserted {b : ItemBody} {s : State} (h : hasEnded s b = false) (hlen : s.store.table.length < 192) :
    applyNew b s = (commitTable (insertEntry { body := b, phase := phaseFor s b } s.store.table) none s, .inserted) :=
  (if_neg (by rw [h]; decide)).trans (if_pos hlen)

theorem applyNew_full {b : ItemBody} {s : State} {last : Entry} (h : hasEnded s b = false) (hlen : 192 ≤ s.store.table.length)
    (hlast : s.store.table.getLast? = some last) : applyNew b s =
      if b.before last.body then
        (commitTable (insertEntry { body := b, phase := phaseFor s b } s.store.table.dropLast) none (countOutcome .insertedEvicting s), .insertedEvicting)
      else (countOutcome .refusedFull s, .refusedFull) := by
  have htable : ¬ s.store.table.length < tableSize := by
    rw [tableSize]
    omega
  unfold applyNew
  dsimp only
  rw [if_neg (by rw [h]; decide), if_neg htable, hlast]

/-- The table is full, so it has a last entry. -/
theorem getLast_of_full {table : List Entry} (h : 192 ≤ table.length) : ∃ last, table.getLast? = some last := by
  have hne : table ≠ [] := by
    rintro rfl
    simp at h
  exact ⟨_, List.getLast?_eq_some_getLast hne⟩

/-- Every outcome of an application with a record, from the state with the record. -/
theorem applyNew_cases (b : ItemBody) (s : State) : applyNew b s = (s, .past)
    ∨ applyNew b s = (commitTable (insertEntry { body := b, phase := phaseFor s b } s.store.table) none s, .inserted)
    ∨ applyNew b s = (commitTable (insertEntry { body := b, phase := phaseFor s b } s.store.table.dropLast) none (countOutcome .insertedEvicting s),
        .insertedEvicting)
    ∨ applyNew b s = (countOutcome .refusedFull s, .refusedFull) := by
  cases hended : hasEnded s b with
  | true => exact .inl (applyNew_past hended)
  | false =>
    by_cases hlen : s.store.table.length < 192
    · exact .inr (.inl (applyNew_inserted hended hlen))
    · obtain ⟨last, hlast⟩ := getLast_of_full (Nat.le_of_not_lt hlen)
      rw [applyNew_full hended (by omega) hlast]
      split
      · exact .inr (.inr (.inl rfl))
      · exact .inr (.inr (.inr rfl))

/-! ### The flag -/

/-- PROGRAMME follows the view, and a replaced item that is named in it; the other flags and the enables stand. -/
def ProgrammeFollows (b : ItemBody) (s : State) (w : State × StoreOutcome) : Prop :=
  eventSet .programme w.1 = (eventSet .programme s || decide (shownNow w.1 ≠ shownNow s) || (decide (w.2 = .replaced) && (shownNow w.1).names b.key))
    ∧ w.1.events.flags ||| Event.programme.mask = s.events.flags ||| Event.programme.mask ∧ w.1.events.enables = s.events.enables

/-- A state with the events and the store of another counts as that one. -/
theorem ProgrammeFollows.of_eq {b : ItemBody} {s u : State} {w : State × StoreOutcome} (h : ProgrammeFollows b u w) (hevents : u.events = s.events)
    (hstore : u.store = s.store) : ProgrammeFollows b s w := by
  unfold ProgrammeFollows at *
  rw [shownNow_congr (s := s) (t := u) (by rw [hstore]) (by rw [hstore]), hevents, eventSet_congr (s := s) (t := u) (by rw [hevents])] at h
  exact h

theorem programmeFollows_stands {b : ItemBody} {s u : State} {o : StoreOutcome} (hevents : u.events = s.events) (hstore : u.store = s.store)
    (ho : o ≠ .replaced) : ProgrammeFollows b s (u, o) := by
  unfold ProgrammeFollows
  rw [shownNow_congr (s := s) (t := u) (by rw [hstore]) (by rw [hstore]), hevents, eventSet_congr (s := s) (t := u) (by rw [hevents])]
  simp [ho]

theorem programmeFollows_committed {b : ItemBody} {s : State} (table : List Entry) {replaced : Option (Nat × Nat)} {o : StoreOutcome}
    (h : (o = .replaced ∧ replaced = some b.key) ∨ (o ≠ .replaced ∧ replaced = none)) : ProgrammeFollows b s (commitTable table replaced s, o) := by
  obtain ⟨hevent, hflags, henables⟩ := commitTable_event table replaced s
  refine ⟨hevent.trans ?_, hflags, henables⟩
  rcases h with ⟨rfl, rfl⟩ | ⟨ho, rfl⟩
  · simp [Shown.namesReplaced]
  · simp [Shown.namesReplaced, ho]

theorem events_countOutcome (o : StoreOutcome) (s : State) : (countOutcome o s).events = s.events ∧ (countOutcome o s).store = s.store := by
  cases o <;> exact ⟨rfl, rfl⟩

theorem programmeFollows_applyHeld (b : ItemBody) (e : Entry) (s : State) : ProgrammeFollows b s (applyHeld b e s) := by
  by_cases h : b.revision ≤ e.body.revision
  · rw [applyHeld_stale h]
    exact programmeFollows_stands (events_countOutcome _ s).1 (events_countOutcome _ s).2 (by decide)
  · rw [applyHeld_replaced (by omega)]
    exact programmeFollows_committed _ (.inl ⟨rfl, rfl⟩)

theorem programmeFollows_applyNew (b : ItemBody) (s : State) : ProgrammeFollows b s (applyNew b s) := by
  obtain h | h | h | h := applyNew_cases b s <;> rw [h]
  · exact programmeFollows_stands rfl rfl (by decide)
  · exact programmeFollows_committed _ (.inr ⟨by decide, rfl⟩)
  · exact (programmeFollows_committed _ (.inr ⟨by decide, rfl⟩)).of_eq (events_countOutcome _ s).1 (events_countOutcome _ s).2
  · exact programmeFollows_stands (events_countOutcome _ s).1 (events_countOutcome _ s).2 (by decide)

theorem programmeFollows_applyBody (b : ItemBody) (s : State) : ProgrammeFollows b s (applyBody b s) := by
  by_cases h : s.canRecord b.publisher
  · obtain ⟨l, hl⟩ := recorded_eq b s
    rw [applyBody_recorded h, hl]
    cases s.store.table.find? (·.body.key = b.key) with
    | some e => exact (programmeFollows_applyHeld b e _).of_eq rfl rfl
    | none => exact (programmeFollows_applyNew b _).of_eq rfl rfl
  · rw [applyBody_refused h]
    exact programmeFollows_stands (events_countOutcome _ s).1 (events_countOutcome _ s).2 (by decide)

/-! ### The record after the application -/

theorem recordOf_applyBody {b : ItemBody} {s : State} (h : s.canRecord b.publisher) :
    recordOf b.publisher (applyBody b s).1 = some (((recordOf b.publisher s).getD (newRecord b.publisher)).raisedTo b.revision) := by
  rw [applyBody_recorded h, ← recordOf_recorded h]
  cases s.store.table.find? (·.body.key = b.key) with
  | some e => exact (writes_applyHeld b e (.refl _ (s.recorded b)) (List.Subset.refl _)).recordOf rfl _
  | none => exact (writes_applyNew b (.refl _ (s.recorded b)) (List.Subset.refl _)).recordOf rfl _

/-- The publisher is refused when no record can be had, and only then. -/
theorem applyBody_outcome_refused {b : ItemBody} {s : State} : (applyBody b s).2 = .refusedPublisher ↔ ¬ s.canRecord b.publisher := by
  refine ⟨fun h hcan => ?_, fun h => by rw [applyBody_refused h]⟩
  rw [applyBody_recorded hcan] at h
  cases hfind : s.store.table.find? (·.body.key = b.key) with
  | some e =>
    rw [hfind] at h
    dsimp only at h
    by_cases hle : b.revision ≤ e.body.revision
    · rw [applyHeld_stale hle] at h
      cases h
    · rw [applyHeld_replaced (by omega)] at h
      cases h
  | none =>
    rw [hfind] at h
    dsimp only at h
    obtain hn | hn | hn | hn := applyNew_cases b (s.recorded b) <;>
      (rw [hn] at h
       cases h)

/-- No outcome of an application is BAD. -/
theorem recorded_applyBody {b : ItemBody} {s : State} (h : s.canRecord b.publisher) : (applyBody b s).2.recorded = true := by
  have hne : (applyBody b s).2 ≠ .refusedPublisher := fun heq => applyBody_outcome_refused.1 heq h
  rw [applyBody_recorded h]
  cases s.store.table.find? (·.body.key = b.key) with
  | some e =>
    dsimp only
    by_cases hle : b.revision ≤ e.body.revision
    · rw [applyHeld_stale hle]
      rfl
    · rw [applyHeld_replaced (by omega)]
      rfl
  | none =>
    dsimp only
    obtain hn | hn | hn | hn := applyNew_cases b (s.recorded b) <;> (rw [hn]; rfl)

end Sys2Proof.Machine
end

