-- ==== Sys2Proof/Proofs/ItemFrames.lean ====
section
/-! PROOFS. Items are applied, and their frames taken (O21). -/

namespace Sys2Proof.Machine

/-! ### The application, part by part -/

theorem phaseFor_eq (s : State) (b : ItemBody) :
    phaseFor s b = if s.time.isSet = true ∧ classify (nowMinute s) b = .running then .onNow else .pending := by
  unfold phaseFor
  generalize classify (nowMinute s) b = c
  cases s.time.isSet <;> cases c <;> rfl

theorem counters_commitTable (table : List Entry) (replaced : Option (Nat × Nat)) (s : State) : (commitTable table replaced s).counters = s.counters := by
  obtain ⟨st, ev, h⟩ := storeOnly_commitTable table replaced s
  rw [h]

/-- The entry that a body makes. -/
def ItemBody.entryAt (b : ItemBody) (s : State) : Entry :=
  { body := b, phase := if s.time.isSet = true ∧ classify (nowMinute s) b = .running then .onNow else .pending }

/-- The outcome of a body of an identity held in an older revision. -/
theorem applyBody_replaced {b : ItemBody} {s : State} {e : Entry} (hcan : s.canRecord b.publisher)
    (hfind : s.store.table.find? (·.body.key = b.key) = some e) (hnewer : e.body.revision < b.revision) : ∃ l, applyBody b s =
      (commitTable (if hasEnded s b then removeEntry b.key s.store.table else insertEntry (b.entryAt s) (removeEntry b.key s.store.table))
        (some b.key) (s.withRecords l), .replaced) := by
  obtain ⟨l, hl⟩ := recorded_eq b s
  refine ⟨l, ?_⟩
  rw [applyBody_recorded hcan, hfind, hl, ItemBody.entryAt, ← phaseFor_eq]
  exact applyHeld_replaced hnewer _

theorem applyBody_stale {b : ItemBody} {s : State} {e : Entry} (hcan : s.canRecord b.publisher)
    (hfind : s.store.table.find? (·.body.key = b.key) = some e) (holder : b.revision ≤ e.body.revision) :
    ∃ l, applyBody b s = (countOutcome .stale (s.withRecords l), .stale) := by
  obtain ⟨l, hl⟩ := recorded_eq b s
  refine ⟨l, ?_⟩
  rw [applyBody_recorded hcan, hfind, hl]
  exact applyHeld_stale holder _

/-- A body of an identity new to the table is dealt with in the state with the record. -/
theorem applyBody_new {b : ItemBody} {s : State} (hcan : s.canRecord b.publisher) (hfind : s.store.table.find? (·.body.key = b.key) = none) :
    ∃ l, applyBody b s = applyNew b (s.withRecords l) := by
  obtain ⟨l, hl⟩ := recorded_eq b s
  refine ⟨l, ?_⟩
  rw [applyBody_recorded hcan, hfind, hl]

/-- The table that a commitment leaves, when no entry of it is due for a change of phase. -/
def Becomes (s t : State) (table : List Entry) : Prop :=
  (s.time.isSet = true → ∀ e ∈ table, rephaseEntry false (nowMinute s) e = some e) →
    t.store.table = table ∧ t.store.generation = s.store.generation + 1 ∧ t.store.view = composedView t

theorem becomes_commitTable (table : List Entry) (replaced : Option (Nat × Nat)) {s u : State} (htime : u.time = s.time) (hstore : u.store = s.store) :
    Becomes s (commitTable table replaced u) table := by
  intro h
  have hu : u.time.isSet = true → ∀ e ∈ table, rephaseEntry false (nowMinute u) e = some e := by
    rw [nowMinute, htime]
    exact h
  obtain ⟨htable, hgeneration, hview⟩ := commitTable_settled replaced hu
  exact ⟨htable, by rw [hgeneration, hstore], hview⟩

theorem items_record {b : ItemBody} {s : State} (hcan : s.canRecord b.publisher) :
    ∃ r ∈ (applyBody b s).1.exch.records, r.station = b.publisher ∧ b.revision ≤ r.highWater := by
  have h := recordOf_applyBody hcan
  exact ⟨_, List.mem_of_find?_eq_some h, station_of_recordOf h, Nat.le_max_right _ _⟩

/-- A new identity: past, inserted, inserted with eviction or refused. -/
theorem items_new {b : ItemBody} {s : State} (hcan : s.canRecord b.publisher) (hfind : s.store.table.find? (·.body.key = b.key) = none) :
    let t := (applyBody b s).1
    (hasEnded s b = true → (applyBody b s).2 = .past ∧ t.store = s.store ∧ t.counters = s.counters)
      ∧ (hasEnded s b = false → s.store.table.length < 192 →
          (applyBody b s).2 = .inserted ∧ t.counters = s.counters ∧ Becomes s t (insertEntry (b.entryAt s) s.store.table))
      ∧ ∀ last, hasEnded s b = false → 192 ≤ s.store.table.length → s.store.table.getLast? = some last →
          (b.before last.body = true → (applyBody b s).2 = .insertedEvicting
            ∧ t.counters = { s.counters with evictedItems := raised s.counters.evictedItems }
            ∧ Becomes s t (insertEntry (b.entryAt s) s.store.table.dropLast))
          ∧ (b.before last.body = false → (applyBody b s).2 = .refusedFull ∧ t.store = s.store
            ∧ t.counters = { s.counters with refusedItems := raised s.counters.refusedItems }) := by
  obtain ⟨l, hl⟩ := applyBody_new hcan hfind
  dsimp only
  rw [hl, ItemBody.entryAt, ← phaseFor_eq]
  refine ⟨fun hended => ?_, fun hended hlen => ?_, fun last hended hlen hlast => ⟨fun hbefore => ?_, fun hbefore => ?_⟩⟩
  · rw [applyNew_past (s := s.withRecords l) hended]
    exact ⟨rfl, rfl, rfl⟩
  · rw [applyNew_inserted (s := s.withRecords l) hended hlen]
    exact ⟨rfl, counters_commitTable _ _ _, becomes_commitTable _ _ rfl rfl⟩
  · rw [applyNew_full (s := s.withRecords l) hended hlen hlast, if_pos hbefore]
    exact ⟨rfl, counters_commitTable _ _ _, becomes_commitTable _ _ rfl rfl⟩
  · rw [applyNew_full (s := s.withRecords l) hended hlen hlast, if_neg (by rw [hbefore]; decide)]
    exact ⟨rfl, rfl, rfl⟩

/-! ### The direct item (R61, R62) -/

theorem directItem_next {p revision : Nat} {s : State} {r : PubRecord} (hrecord : recordOf p s = some r) (h : revision = r.settled + 1) :
    directItem p revision s = raiseSettled p revision s := by
  unfold directItem
  rw [hrecord]
  exact if_pos h

theorem directItem_gap {p revision : Nat} {s : State} {r : PubRecord} (hrecord : recordOf p s = some r) (h : r.settled + 1 < revision) :
    directItem p revision s = catchUpIfIdle p r.settled s := by
  unfold directItem
  rw [hrecord]
  exact (if_neg (by omega)).trans (if_pos h)

theorem directItem_old {p revision : Nat} {s : State} {r : PubRecord} (hrecord : recordOf p s = some r) (h : revision ≤ r.settled) :
    directItem p revision s = s := by
  unfold directItem
  rw [hrecord]
  exact (if_neg (by omega)).trans (if_neg (by omega))

theorem recordOf_raiseSettled {p revision : Nat} {s : State} {r : PubRecord} (hrecord : recordOf p s = some r) :
    recordOf p (raiseSettled p revision s) = some { r with settled := max r.settled revision } := by
  refine (recordOf_modRecord (f := fun r => { r with settled := max r.settled revision }) (fun _ => rfl) p s).trans ?_
  rw [hrecord]
  rfl

theorem catchUpIfIdle_requests {p after : Nat} {s : State} {r : PubRecord} (hrecord : recordOf p s = some r)
    (h : r.waiting = false ∧ (level s).calm = true) : catchUpIfIdle p after s = startCatchUp p after s := by
  unfold catchUpIfIdle
  rw [hrecord]
  exact if_pos (by rw [h.1, h.2]; rfl)

theorem catchUpIfIdle_idle {p after : Nat} {s : State} {r : PubRecord} (hrecord : recordOf p s = some r)
    (h : ¬ (r.waiting = false ∧ (level s).calm = true)) : catchUpIfIdle p after s = s := by
  unfold catchUpIfIdle
  rw [hrecord]
  exact if_neg (by simpa using h)

/-- A gap starts a catch-up of an IDLE record at NORMAL or STANDBY, with its request where the queue has room. -/
theorem catchUp_spec {p after : Nat} {s : State} {r : PubRecord} (hpart : participates s = true) (hrecord : recordOf p s = some r) :
    if r.waiting = false ∧ (level s).calm = true then
      ∃ q, recordOf p (catchUpIfIdle p after s) = some (r.requested s.time.now q)
        ∧ (hasRoom .itemRequest s.bus.queue = true → q = some s.bus.nextSeq
            ∧ (catchUpIfIdle p after s).stands ⟨.itemRequest, 255, s.bus.nextSeq, o8 p :: le16 after, [], false⟩)
    else recordOf p (catchUpIfIdle p after s) = some r := by
  split
  · rename_i h
    obtain ⟨q, hrequested, hstands, -⟩ := startCatchUp_spec p after s
    rw [catchUpIfIdle_requests hrecord h]
    exact ⟨q, by rw [hrequested, hrecord]; rfl, hstands hpart (level_ne_muster_of_calm h.2)⟩
  · rename_i h
    rw [catchUpIfIdle_idle hrecord h]
    exact hrecord

/-! ### The frame of an item (R40) -/

theorem takeItem_bad {payload : List Octet} {s : State} (h : readItemParts payload = none
    ∨ ∃ octets, readItemParts payload = some { body := some octets, reply := none } ∧ readBody octets = none) :
    takeItem payload s = countOutcome .bad s := by
  unfold takeItem
  rcases h with h | ⟨octets, h, hbody⟩
  · rw [h]
  · rw [h]
    dsimp only
    rw [hbody]
    rfl

theorem takeItem_body {payload octets : List Octet} {b : ItemBody} {reply : Option ReplyPart} {s : State}
    (h : readItemParts payload = some { body := some octets, reply := reply }) (hbody : readBody octets = some b) :
    takeItem payload s = finishItem (some (b, (applyBody b s).2)) reply (applyBody b s).1 := by
  unfold takeItem
  rw [h]
  dsimp only
  rw [hbody]

theorem takeItem_reply {payload : List Octet} {reply : ReplyPart} {s : State} (h : readItemParts payload = some { body := none, reply := some reply }) :
    takeItem payload s = suppressAnswer reply (matchAnswer reply s) := by
  unfold takeItem
  rw [h]
  rfl

theorem finishItem_direct (b : ItemBody) (o : StoreOutcome) (s : State) :
    finishItem (some (b, o)) none s = if o.recorded then directItem b.publisher b.revision s else s := rfl

theorem finishItem_reply (b : ItemBody) (o : StoreOutcome) (r : ReplyPart) (s : State) :
    finishItem (some (b, o)) (some r) s = suppressAnswer r (matchAnswer r s) := rfl

/-- Flags and TRANSMIT LOSS both left, the flags stand. -/
theorem Writes.flags_eq {ps : List Part} {r s : State} (h : Writes ps r s) (hp : Part.apart [.flags, .loss] ps = true) : s.events.flags = r.events.flags := by
  have hor : s.events.flags ||| Event.transmitLoss.mask = r.events.flags ||| Event.transmitLoss.mask := h.sameOf hp (p := .flags) (by simp)
  have hand : s.events.flags &&& Event.transmitLoss.mask = r.events.flags &&& Event.transmitLoss.mask := h.sameOf hp (p := .loss) (by simp)
  refine BitVec.eq_of_getElem_eq fun i hi => ?_
  have hor' := congrArg (fun x : Half => x[i]) hor
  have hand' := congrArg (fun x : Half => x[i]) hand
  simp only [BitVec.getElem_or, BitVec.getElem_and] at hor' hand'
  generalize s.events.flags[i] = a at *
  generalize r.events.flags[i] = b at *
  generalize Event.transmitLoss.mask[i] = m at *
  revert a b m
  decide

/-- The counters but the queue refusals. -/
theorem Writes.counters_eq {ps : List Part} {r s : State} (h : Writes ps r s) (hp : ps.contains .counters = false) :
    s.counters = { r.counters with queueRefusals := s.counters.queueRefusals } := by
  have hsame : ({ s.counters with queueRefusals := 0 } : Counters) = { r.counters with queueRefusals := 0 } := h.same .counters hp
  have hput := congrArg (fun c : Counters => { c with queueRefusals := s.counters.queueRefusals }) hsame
  exact hput

theorem writes_applyBody' (b : ItemBody) (s : State) : Writes [.store, .records, .flags, .counters] s (applyBody b s).1 :=
  writes_applyBody b (.refl _ s) (List.Subset.refl _)

/-- All the counters. -/
theorem Writes.counters_same {ps : List Part} {r s : State} (h : Writes ps r s) (hp : Part.apart [.counters, .refusals] ps = true) :
    s.counters = r.counters := by
  have hbut : ({ s.counters with queueRefusals := 0 } : Counters) = { r.counters with queueRefusals := 0 } := h.sameOf hp (p := .counters) (by simp)
  have hrefusals : s.counters.queueRefusals = r.counters.queueRefusals := h.sameOf hp (p := .refusals) (by simp)
  have hput := congrArg (fun c : Counters => { c with queueRefusals := s.counters.queueRefusals }) hbut
  refine hput.trans ?_
  show ({ r.counters with queueRefusals := s.counters.queueRefusals } : Counters) = r.counters
  rw [hrefusals]

/-- The queue of answers without the first one that a reply part suppresses, counted (R67). -/
def State.unqueued (reply : ReplyPart) (s : State) : State :=
  if s.exch.answers.any (·.matches reply) then
    countSuppressed (s.modExch fun x => { x with answers := x.answers.eraseP (·.matches reply) })
  else s

theorem active_unqueued (reply : ReplyPart) (s : State) : (s.unqueued reply).exch.active = s.exch.active := by
  unfold State.unqueued
  split <;> rfl

theorem counters_unqueued (reply : ReplyPart) (s : State) : (s.unqueued reply).counters =
    { s.counters with answersSuppressed :=
        if s.exch.answers.any (·.matches reply) then raised s.counters.answersSuppressed else s.counters.answersSuppressed } := by
  unfold State.unqueued
  split <;> rfl

theorem counters_countSuppressed (s : State) : (countSuppressed (endAnswer s)).counters =
    { s.counters with answersSuppressed := raised s.counters.answersSuppressed } := rfl

/-- The reply part is that of the answer, in HOLD. -/
def ActiveAnswer.dropped (reply : ReplyPart) (a : ActiveAnswer) : Bool :=
  (match a.phase with | .hold _ => true | .walk => false) && a.entry.matches reply

/-- An answer in HOLD is dropped and counted. -/
theorem suppressAnswer_dropped {reply : ReplyPart} {a : ActiveAnswer} {s : State} (hactive : s.exch.active = some a) (hdropped : a.dropped reply = true) :
    suppressAnswer reply s = countSuppressed (endAnswer (s.unqueued reply)) := by
  have hkept := (active_unqueued reply s).trans hactive
  show (match (s.unqueued reply).exch.active with
    | some a => match a.phase with
      | .hold _ => if a.entry.matches reply then countSuppressed (endAnswer (s.unqueued reply)) else s.unqueued reply
      | .walk => s.unqueued reply
    | none => s.unqueued reply) = _
  rw [hkept]
  dsimp only
  cases hphase : a.phase with
  | hold tm =>
    rw [ActiveAnswer.dropped, hphase] at hdropped
    exact if_pos hdropped
  | walk =>
    rw [ActiveAnswer.dropped, hphase] at hdropped
    cases hdropped

/-- No answer in HOLD is hit. -/
theorem suppressAnswer_kept {reply : ReplyPart} {s : State} (hkept : ∀ a, s.exch.active = some a → a.dropped reply = false) :
    suppressAnswer reply s = s.unqueued reply := by
  rw [← active_unqueued reply s] at hkept
  show (match (s.unqueued reply).exch.active with
    | some a => match a.phase with
      | .hold _ => if a.entry.matches reply then countSuppressed (endAnswer (s.unqueued reply)) else s.unqueued reply
      | .walk => s.unqueued reply
    | none => s.unqueued reply) = _
  cases hactive : (s.unqueued reply).exch.active with
  | none => rfl
  | some a =>
    have hno := hkept a hactive
    dsimp only
    cases hphase : a.phase with
    | hold tm =>
      rw [ActiveAnswer.dropped, hphase] at hno
      exact if_neg (by rw [show a.entry.matches reply = false from hno]; decide)
    | walk => rfl

theorem counters_suppressAnswer (r : ReplyPart) (s : State) : (suppressAnswer r s).counters =
    { s.counters with answersSuppressed := (suppressAnswer r s).counters.answersSuppressed } := by
  by_cases h : ∃ a, s.exch.active = some a ∧ a.dropped r = true
  · obtain ⟨a, hactive, hdropped⟩ := h
    rw [suppressAnswer_dropped hactive hdropped, counters_countSuppressed, counters_unqueued]
  · have hkept : suppressAnswer r s = s.unqueued r := suppressAnswer_kept fun a hactive => Bool.eq_false_iff.2 fun hdropped => h ⟨a, hactive, hdropped⟩
    rw [hkept, counters_unqueued]

theorem matchAnswer_other {r : ReplyPart} {s : State} (h : ownStation s ≠ some r.requester
    ∨ s.exch.records.find? (fun q => q.waiting && q.reqSeq = some r.seq) = none) : matchAnswer r s = s := by
  have hnone : answeredRecord r s = none := by
    unfold answeredRecord
    split
    · exact h.resolve_left (not_not_intro ‹_›)
    · rfl
  unfold matchAnswer
  rw [hnone]

theorem writes_suppressAnswer' (r : ReplyPart) (s : State) : Writes [.answers, .active, .counters] s (suppressAnswer r s) :=
  writes_suppressAnswer r (.refl _ s) (List.Subset.refl _)

theorem writes_matchAnswer' (r : ReplyPart) (s : State) : Writes [.records] s (matchAnswer r s) := writes_matchAnswer r (.refl _ s) (List.Subset.refl _)

theorem programmeQ_taken {f : RxFrame} {rest : List RxFrame} {s u : State} (hqueue : s.bus.programmeQ = f :: rest) (h : u.bus.programmeQ = s.bus.programmeQ) :
    (settleAttention (settleAnswers (freeProgramme u))).bus.programmeQ = rest := by
  refine (writes_taken (freeProgramme u)).programmeQ.trans ?_
  show u.bus.programmeQ.drop 1 = rest
  rw [h, hqueue]
  rfl

/-- Settles O21. -/
theorem itemsAreApplied : Obligations.ItemsAreApplied := by
  unfold Obligations.ItemsAreApplied
  refine ⟨fun b s => ⟨items_record, programmeFollows_applyBody b s, fun hnone hlen => ?refused, fun e hsome hfind holder => ?stale⟩,
    fun b s hcan => ⟨fun e hfind hnewer => ?replaced, fun hfind => items_new hcan hfind⟩,
    fun f rest s hqueue hkind hpart hbad => ?bad, fun f rest octets b s hqueue hkind hpart hparts hbody => ?direct,
    fun f rest octets b x s hqueue hkind hpart hparts hbody => ?reply⟩
  case refused =>
    refine applyBody_refused ?_
    rintro (h | h)
    · rw [Option.isNone_iff_eq_none] at hnone
      rw [hnone] at h
      cases h
    · omega
  case stale =>
    obtain ⟨l, hl⟩ := applyBody_stale (.inl hsome) hfind holder
    rw [hl]
    exact ⟨rfl, rfl, rfl⟩
  case replaced =>
    obtain ⟨l, hl⟩ := applyBody_replaced hcan hfind hnewer
    dsimp only
    rw [hl]
    exact ⟨rfl, counters_commitTable _ _ _, becomes_commitTable _ _ rfl rfl⟩
  case bad =>
    refine ⟨_, exec_programmeItem hqueue hkind hpart, ?_⟩
    rw [steady_settleAttention, steady_settleAnswers, takeItem_bad hbad]
    have hrest : s.bus.programmeQ.drop 1 = rest := by rw [hqueue]; rfl
    rw [← hrest]
    rfl
  case direct =>
    have hexec := exec_programmeItem hqueue hkind hpart
    rw [takeItem_body hparts hbody, finishItem_direct] at hexec
    refine ⟨_, hexec, ?_⟩
    have happly := writes_applyBody' b s
    have hcan := @applyBody_outcome_refused b s
    have hrecorded := @recorded_applyBody b s
    have hrefused := @applyBody_refused b s
    have hpartu : participates (applyBody b s).1 = true := happly.participates.trans hpart
    have hqueueu : (applyBody b s).1.bus.queue = s.bus.queue := happly.same .queue rfl
    have hsequ : (applyBody b s).1.bus.nextSeq = s.bus.nextSeq := happly.same .nextSeq rfl
    generalize applyBody b s = w at *
    have hdirect : Writes (Part.offered ++ [.records]) w.1 (if w.2.recorded then directItem b.publisher b.revision w.1 else w.1) := by
      split
      · exact writes_directItem _ _ (.refl _ w.1) (List.Subset.refl _)
      · exact .refl _ _
    have hend := writes_taken (freeProgramme (if w.2.recorded then directItem b.publisher b.revision w.1 else w.1))
    refine ⟨programmeQ_taken hqueue (hdirect.programmeQ.trans happly.programmeQ), (hend.store rfl).trans (hdirect.store rfl), ?_,
      (hend.same .flags rfl).trans (hdirect.same .flags rfl), fun hno => ?_, fun r hrecord => ?_⟩
    · have hcounters := hend.counters_eq rfl
      rw [show (freeProgramme _).counters = _ from hdirect.counters_eq rfl] at hcounters
      exact hcounters
    · have hw := hrefused (hcan.1 hno)
      have hrecords := hend.same .records rfl
      rw [hw] at hrecords ⊢
      exact hrecords
    · have hyes : w.2.recorded = true := by
        refine hrecorded ?_
        by_contra hno
        have hw := hrefused hno
        rw [hw] at hrecord
        exact hno (.inl (by rw [show recordOf b.publisher s = some r from hrecord]; rfl))
      have hrec (p : Nat) : recordOf p (settleAttention (settleAnswers (freeProgramme (directItem b.publisher b.revision w.1))))
          = recordOf p (directItem b.publisher b.revision w.1) := (writes_taken (freeProgramme _)).recordOf rfl p
      rw [hyes, if_pos rfl, hrec]
      refine ⟨fun hnext => ?_, fun hold => ?_, fun hgap => ?_⟩
      · rw [directItem_next hrecord hnext, recordOf_raiseSettled hrecord, Nat.max_eq_right (by omega)]
      · rw [directItem_old hrecord hold]
        exact hrecord
      · have hcatch := catchUp_spec (after := r.settled) hpartu hrecord
        rw [directItem_gap hrecord hgap]
        rw [happly.level, happly.now, hqueueu, hsequ] at hcatch
        by_cases hidle : r.waiting = false ∧ (level s).calm = true
        · rw [if_pos hidle] at hcatch ⊢
          obtain ⟨q, hq, hstands⟩ := hcatch
          exact ⟨q, hq, fun hroom => ⟨(hstands hroom).1, stands_taken (hstands hroom).2⟩⟩
        · rw [if_neg hidle] at hcatch ⊢
          exact hcatch
  case reply =>
    have hexec := exec_programmeItem hqueue hkind hpart
    rw [takeItem_body hparts hbody, finishItem_reply] at hexec
    refine ⟨_, hexec, ?_⟩
    have happly := writes_applyBody' b s
    generalize applyBody b s = w at *
    have hmatch := writes_matchAnswer' x w.1
    have hsuppress := writes_suppressAnswer' x (matchAnswer x w.1)
    have hend := writes_taken (freeProgramme (suppressAnswer x (matchAnswer x w.1)))
    have hcounters := counters_suppressAnswer x (matchAnswer x w.1)
    have hother := @matchAnswer_other x w.1
    refine ⟨programmeQ_taken hqueue (hsuppress.programmeQ.trans (hmatch.programmeQ.trans happly.programmeQ)),
      (hend.store rfl).trans ((hsuppress.store rfl).trans (hmatch.store rfl)), ?_,
      (hend.flags_eq rfl).trans ((hsuppress.flags_eq rfl).trans (hmatch.flags_eq rfl)), fun hne => ?_⟩
    · have hall := hend.counters_same rfl
      have hmatched := hmatch.counters_same rfl
      rw [hall]
      refine hcounters.trans ?_
      rw [hmatched]
      rfl
    · refine (hend.same .records rfl).trans ((hsuppress.same .records rfl).trans ?_)
      rw [hother (.inl ?_)]
      rw [ownStation, happly.node]
      exact hne

end Sys2Proof.Machine
end

