-- ==== Sys2Proof/Proofs/SummaryFrames.lean ====
section
/-! PROOFS. Summaries, requests and replies are taken (O22). -/

namespace Sys2Proof.Machine

theorem Writes.exch {ps : List Part} {r s : State} (h : Writes ps r s) (hp : Part.apart [.records, .summaryTimer, .early, .answers, .active] ps = true) :
    s.exch = r.exch :=
  (Exchange.mk.injEq ..).mpr ⟨h.sameOf hp (p := .records) (by simp), h.sameOf hp (p := .summaryTimer) (by simp),
    h.sameOf hp (p := .early) (by simp), h.sameOf hp (p := .answers) (by simp), h.sameOf hp (p := .active) (by simp)⟩

theorem exch_settleAttention (s : State) : (settleAttention s).exch = s.exch :=
  (writes_settleAttention (.refl [.line] s) (List.Subset.refl _)).exch rfl

/-! ### A pair of a summary (R59) -/

theorem takePair_outside {p h : Nat} (hp : p < 1 ∨ 127 < p) (s : State) : takePair s (p, h) = s := if_pos hp

/-- The state with the pair's record in it, raised at the PUBLISHER of that number. -/
def State.paired (p h : Nat) (s : State) : State :=
  if ownStation s = some p ∧ (roles s).publisher = true then raiseHighWater p h (ensureRecord p s) else ensureRecord p s

/-- The pair's record, raised at the PUBLISHER of that number. -/
def pairRecord (p h : Nat) (s : State) : PubRecord :=
  if ownStation s = some p ∧ (roles s).publisher = true then { (recordOf p s).getD (newRecord p) with highWater := max ((recordOf p s).getD (newRecord p)).highWater h }
  else (recordOf p s).getD (newRecord p)

theorem recordOf_paired {p : Nat} (h : Nat) {s : State} (hcan : s.canRecord p) : recordOf p (s.paired p h) = some (pairRecord p h s) := by
  unfold State.paired pairRecord
  split
  · rw [recordOf_raiseHighWater, recordOf_ensureRecord hcan]
    rfl
  · exact recordOf_ensureRecord hcan

theorem paired_eq (p h : Nat) (s : State) : ∃ l, s.paired p h = s.withRecords l := by
  obtain ⟨l, hl⟩ := ensureRecord_records p s
  unfold State.paired
  split
  · rw [hl]
    exact modRecord_records _ _ _
  · exact ⟨l, hl⟩

theorem takePair_inside {p h : Nat} {s : State} (hp : ¬ (p < 1 ∨ 127 < p)) (hcan : s.canRecord p) : takePair s (p, h) =
    if (pairRecord p h s).settled < h then catchUpIfIdle p (pairRecord p h s).settled (s.paired p h) else s.paired p h := by
  obtain ⟨l, hl⟩ := ensureRecord_records p s
  have hown : ownStation (ensureRecord p s) = ownStation s ∧ roles (ensureRecord p s) = roles s := by
    rw [hl]
    exact ⟨rfl, rfl⟩
  have hrecord := recordOf_paired h hcan
  have hpaired : (if ownStation (ensureRecord p s) = some p ∧ (roles (ensureRecord p s)).publisher = true then
      raiseHighWater p h (ensureRecord p s) else ensureRecord p s) = s.paired p h := by
    rw [hown.1, hown.2]
    rfl
  unfold takePair
  dsimp only
  rw [if_neg hp, recordOf_ensureRecord hcan]
  dsimp only
  rw [hpaired, hrecord]

/-- A pair with a record, or room for one, raises it and catches up when it lies behind. -/
theorem takePair_spec {p h : Nat} {s : State} (hpart : participates s = true) (hp : ¬ (p < 1 ∨ 127 < p)) (hcan : s.canRecord p) :
    let r := pairRecord p h s
    if r.settled < h ∧ r.waiting = false ∧ (level s).calm = true then
      ∃ q, recordOf p (takePair s (p, h)) = some (r.requested s.time.now q)
        ∧ (hasRoom .itemRequest s.bus.queue = true → q = some s.bus.nextSeq
            ∧ (takePair s (p, h)).stands ⟨.itemRequest, 255, s.bus.nextSeq, o8 p :: le16 r.settled, [], false⟩)
    else recordOf p (takePair s (p, h)) = some r := by
  have hrecord := recordOf_paired h hcan
  obtain ⟨l, hl⟩ := paired_eq p h s
  rw [takePair_inside hp hcan]
  generalize pairRecord p h s = r at *
  generalize s.paired p h = u at *
  have hcatch := catchUp_spec (p := p) (after := r.settled) (s := u) (by rw [hl]; exact hpart) hrecord
  have hlevel : level u = level s := by rw [hl]; rfl
  have hbus : u.bus = s.bus ∧ u.time = s.time := by rw [hl]; exact ⟨rfl, rfl⟩
  rw [hlevel, hbus.1, hbus.2] at hcatch
  dsimp only
  by_cases hbehind : r.settled < h
  · rw [if_pos hbehind]
    by_cases hidle : r.waiting = false ∧ (level s).calm = true
    · rw [if_pos ⟨hbehind, hidle⟩]
      rwa [if_pos hidle] at hcatch
    · rw [if_neg fun h => hidle h.2]
      rwa [if_neg hidle] at hcatch
  · rw [if_neg hbehind, if_neg fun h => hbehind h.1]
    exact hrecord

/-- The state with the early summary cancelled. -/
def State.withoutEarly (s : State) : State := s.modExch fun x => { x with early := none }

theorem takeSummary_pairs {payload : List Octet} {pairs : List (Nat × Nat)} (h : readPairs payload = some pairs) (s : State) :
    takeSummary payload s = pairs.foldl takePair s.withoutEarly := by
  unfold takeSummary
  rw [h]
  rfl

theorem writes_takeSummary' (payload : List Octet) (s : State) : Writes (Part.offered ++ [.records]) s.withoutEarly (takeSummary payload s) := by
  unfold takeSummary
  cases readPairs payload with
  | none => exact .refl _ _
  | some pairs => exact writes_foldl _ (fun p hu => writes_takePair p hu (List.Subset.refl _)) _ (.refl _ _)

/-! ### A request (R65, R66) -/

/-- The request that a frame carries. -/
def requestEntry (f : RxFrame) : AnswerEntry :=
  { requester := f.source, publisher := (octetAt f.payload 0).toNat, after := rd16At f.payload 1, seq := f.seq }

/-- R65 keeps the request. -/
def State.keeps (f : RxFrame) (s : State) : Prop :=
  f.payload.length = 3 ∧ 1 ≤ (octetAt f.payload 0).toNat ∧ (octetAt f.payload 0).toNat ≤ 127 ∧ s.node.state = .run ∧ (level s).calm = true
    ∧ rd16At f.payload 1 < highWaterOf (octetAt f.payload 0).toNat s

theorem takeRequest_keeps {f : RxFrame} {s : State} (h : s.keeps f) :
    takeRequest f s = s.modExch fun x => { x with answers := keepRequest (requestEntry f) x.answers } := if_pos h

theorem takeRequest_drops {f : RxFrame} {s : State} (h : ¬ s.keeps f) : takeRequest f s = s := if_neg h

theorem settleAnswers_empty {s : State} (h : s.exch.answers = []) : settleAnswers s = s := by
  unfold settleAnswers
  rw [h]
  cases s.exch.active <;> rfl

/-- The first answer of the queue becomes active, in HOLD. -/
theorem settleAnswers_first {s : State} {e : AnswerEntry} {rest : List AnswerEntry} (hactive : s.exch.active = none) (hanswers : s.exch.answers = e :: rest)
    (h : s.node.state = .run ∧ (level s).calm = true) : (settleAnswers s).exch = { s.exch with
      answers := rest, active := some { entry := e, phase := .hold ⟨s.time.now, drawValue 0 400 s⟩, lastSent := e.after, outstanding := false, closing := false } } := by
  unfold settleAnswers
  rw [hactive, hanswers]
  dsimp only
  rw [if_pos h]
  rfl

theorem keepRequest_merged {e : AnswerEntry} {l : List AnswerEntry} (h : ∃ q ∈ l, q.requester = e.requester ∧ q.publisher = e.publisher) :
    keepRequest e l = l.map fun q =>
      if q.requester = e.requester ∧ q.publisher = e.publisher then { q with seq := e.seq, after := min q.after e.after } else q := by
  unfold keepRequest
  dsimp only
  rw [if_pos (by simpa using h)]
  simp only [Bool.and_eq_true, decide_eq_true_eq]

theorem keepRequest_appended {e : AnswerEntry} {l : List AnswerEntry} (h : ∀ q ∈ l, ¬ (q.requester = e.requester ∧ q.publisher = e.publisher)) :
    keepRequest e l = if l.length < 4 then l ++ [e] else l := by
  unfold keepRequest
  exact if_neg (by simpa using h)

/-! ### A reply (R63, R67) -/

theorem matchAnswer_record {r : ReplyPart} {q : PubRecord} {s : State} (hown : ownStation s = some r.requester)
    (hfind : s.exch.records.find? (fun q => q.waiting && q.reqSeq = some r.seq) = some q) :
    (matchAnswer r s).exch.records = s.exch.records.map fun x =>
      if x.station = q.station then
        if r.final then
          { x with
            waiting := false, attempts := 0, timer := none, highWater := max x.highWater r.through,
            settled := max x.settled r.through }
        else { x with timer := some { start := s.time.now, len := 4000 } }
      else x := by
  have hanswered : answeredRecord r s = some q := (if_pos hown).trans hfind
  unfold matchAnswer
  rw [hanswered]
  dsimp only
  cases r.final <;> rfl

theorem answers_unqueued (r : ReplyPart) (s : State) : (s.unqueued r).exch.answers = s.exch.answers.eraseP (·.matches r) := by
  unfold State.unqueued
  split
  · rfl
  · rename_i h
    exact (List.eraseP_of_forall_not (by simpa using h)).symm

theorem suppressed_suppressAnswer {r : ReplyPart} {a : ActiveAnswer} {s : State} (hactive : s.exch.active = some a) :
    (suppressAnswer r s).counters.answersSuppressed =
      let once := if s.exch.answers.any (·.matches r) then raised s.counters.answersSuppressed else s.counters.answersSuppressed
      if a.dropped r then raised once else once := by
  cases hdropped : a.dropped r with
  | true =>
    rw [suppressAnswer_dropped hactive hdropped, counters_countSuppressed, counters_unqueued]
    rfl
  | false =>
    have hkept : suppressAnswer r s = s.unqueued r := suppressAnswer_kept fun b hb => by
      rw [hactive] at hb
      cases hb
      exact hdropped
    rw [hkept, counters_unqueued]
    rfl

/-- An answer that is not dropped stays active, and the first hit of the queue is removed. -/
theorem settleAnswers_kept {r : ReplyPart} {a : ActiveAnswer} {s : State} (hactive : s.exch.active = some a) (hdropped : a.dropped r = false) :
    (settleAnswers (freeProgramme (suppressAnswer r s))).exch = (s.unqueued r).exch := by
  have hkept : suppressAnswer r s = s.unqueued r := suppressAnswer_kept fun b hb => by
    rw [hactive] at hb
    cases hb
    exact hdropped
  have hstill : (freeProgramme (s.unqueued r)).exch.active = some a := (active_unqueued r s).trans hactive
  rw [hkept, settleAnswers_active hstill]
  rfl

/-- An answer dropped with none queued leaves none. -/
theorem settleAnswers_dropped {r : ReplyPart} {a : ActiveAnswer} {s : State} (hactive : s.exch.active = some a) (hdropped : a.dropped r = true)
    (hanswers : s.exch.answers = []) : (settleAnswers (freeProgramme (suppressAnswer r s))).exch = { s.exch with active := none } := by
  have hnone : s.unqueued r = s := if_neg (by rw [hanswers]; exact Bool.false_ne_true)
  have hempty : (freeProgramme (countSuppressed (endAnswer s))).exch.answers = [] := hanswers
  rw [suppressAnswer_dropped hactive hdropped, hnone, settleAnswers_empty hempty]
  rfl

/-- A conditional statement is weakened in both its branches. -/
theorem ite_weakened {c A A' B B' : Prop} [Decidable c] (h : if c then A else B) (hthen : A → A') (helse : B → B') : if c then A' else B' := by
  split
  · rename_i hc
    exact hthen (by rwa [if_pos hc] at h)
  · rename_i hc
    exact helse (by rwa [if_neg hc] at h)

/-- Settles O22. -/
theorem summaryAndRequestAreTaken : Obligations.SummaryAndRequestAreTaken := by
  unfold Obligations.SummaryAndRequestAreTaken
  refine ⟨fun f rest s hqueue hkind hpart => ?summary, fun f rest s hqueue hkind hpart => ?request,
    fun e l => ⟨keepRequest_merged, keepRequest_appended⟩, fun f rest r s hqueue hkind hpart hparts => ?reply⟩
  case summary =>
    have htaken := writes_takeSummary' f.payload s
    have hend := writes_taken (freeProgramme (takeSummary f.payload s))
    refine ⟨_, exec_programmeSummary hqueue hkind hpart, (hend.same .early rfl).trans (htaken.same .early rfl),
      (hend.same .summaryTimer rfl).trans (htaken.same .summaryTimer rfl), fun p h hpairs => ?_⟩
    have hrec (p : Nat) : recordOf p (settleAttention (settleAnswers (freeProgramme (takeSummary f.payload s)))) = recordOf p (takeSummary f.payload s) :=
      hend.recordOf rfl p
    have hsame := hend.same .records rfl
    rw [takeSummary_pairs hpairs] at hsame hrec ⊢
    refine ⟨fun hout => ?_, fun hlow hhigh hcan => ?_⟩
    · refine hsame.trans ?_
      show (takePair s.withoutEarly (p, h)).exch.records = _
      rw [takePair_outside hout]
      rfl
    · have hpair := takePair_spec (p := p) (h := h) (s := s.withoutEarly) hpart (by omega) hcan
      rw [hrec]
      refine ite_weakened hpair (fun ⟨q, hq, hstands⟩ => ⟨q, hq, fun hroom => ?_⟩) id
      exact ⟨(hstands hroom).1, stands_taken (hstands hroom).2⟩
  case request =>
    dsimp only
    have hexch (u : State) : (settleAttention (settleAnswers (freeProgramme u))).exch = (settleAnswers (freeProgramme u)).exch := exch_settleAttention _
    refine ⟨_, exec_itemRequest hqueue hkind hpart, fun a hactive => ?_, fun hactive hanswers => ⟨fun hkept => ?_, fun hdropped => ?_⟩⟩
    · rw [hexch]
      have hstill : (freeProgramme (takeRequest f s)).exch.active = some a :=
        ((writes_takeRequest f (.refl [.answers] s) (List.Subset.refl _)).same .active rfl).trans hactive
      rw [settleAnswers_active hstill]
      by_cases hkept : s.keeps f
      · rw [takeRequest_keeps hkept]
        exact (congrArg (fun l => { s.exch with answers := l }) (if_pos hkept)).symm
      · rw [takeRequest_drops hkept]
        exact (congrArg (fun l => { s.exch with answers := l }) (if_neg hkept)).symm
    · obtain ⟨hlow, hhigh⟩ := drawValue_range 0 400 (freeProgramme (takeRequest f s)) (by omega)
      refine ⟨_, hhigh, ?_⟩
      rw [hexch]
      have hkept' : s.keeps f := hkept
      rw [takeRequest_keeps hkept'] at hhigh ⊢
      have hone : keepRequest (requestEntry f) s.exch.answers = [requestEntry f] := by
        rw [hanswers]
        rfl
      refine (settleAnswers_first (s := freeProgramme (s.modExch fun x => { x with answers := keepRequest (requestEntry f) x.answers })) hactive hone ⟨hkept.2.2.2.1, hkept.2.2.2.2.1⟩).trans ?_
      rw [hanswers]
      rfl
    · have hdropped' : ¬ s.keeps f := hdropped
      rw [hexch, takeRequest_drops hdropped', settleAnswers_empty (s := freeProgramme s) hanswers]
      rfl
  case reply =>
    have hmatch := writes_matchAnswer' r s
    have hsuppress := writes_suppressAnswer' r (matchAnswer r s)
    have hend := writes_taken (freeProgramme (suppressAnswer r (matchAnswer r s)))
    have hexec := exec_programmeItem hqueue hkind hpart
    rw [takeItem_reply hparts] at hexec
    have hrecords := (hend.same .records rfl).trans (hsuppress.same .records rfl)
    have hexch : (settleAttention (settleAnswers (freeProgramme (suppressAnswer r (matchAnswer r s))))).exch =
        (settleAnswers (freeProgramme (suppressAnswer r (matchAnswer r s)))).exch := exch_settleAttention _
    refine ⟨_, hexec, (hend.store rfl).trans ((hsuppress.store rfl).trans (hmatch.store rfl)), fun q hown hfind => ?_, fun hother => ?_, fun a hactive => ?_⟩
    · exact hrecords.trans (matchAnswer_record hown hfind)
    · rw [matchAnswer_other hother] at hrecords ⊢
      exact hrecords
    · have hstill : (matchAnswer r s).exch.active = some a := (hmatch.same .active rfl).trans hactive
      have hanswers : (matchAnswer r s).exch.answers = s.exch.answers := hmatch.same .answers rfl
      have hbefore : (matchAnswer r s).counters = s.counters := hmatch.counters_same rfl
      have hsuppressed := (congrArg Counters.answersSuppressed (hend.counters_same rfl)).trans (suppressed_suppressAnswer hstill)
      rw [hanswers, hbefore] at hsuppressed
      refine ⟨?_, fun hkept => ?_, fun hdropped hempty => ?_⟩
      · exact congrArg (fun n => { (settleAttention (settleAnswers (freeProgramme (suppressAnswer r (matchAnswer r s))))).counters with
          answersSuppressed := n }) hsuppressed
      · rw [hexch, settleAnswers_kept hstill hkept]
        refine ⟨(active_unqueued r _).trans hstill, (answers_unqueued r _).trans ?_⟩
        rw [hanswers]
        rfl
      · rw [hexch, settleAnswers_dropped hstill hdropped (hanswers.trans hempty)]
        exact ⟨rfl, hanswers.trans hempty⟩

end Sys2Proof.Machine
end

