-- ==== Sys2Proof/Proofs/Publishing.lean ====
section
/-! PROOFS. An item published and withdrawn takes the next revision (O25). -/

namespace Sys2Proof.Machine

/-! ### The body under the next revision (R70) -/

theorem highWaterOf_eq (p : Nat) (s : State) : highWaterOf p s = ((recordOf p s).getD (newRecord p)).highWater := by
  show (match recordOf p s with | some r => r.highWater | none => 0) = _
  cases recordOf p s <;> rfl

theorem highWaterOf_of_record {p : Nat} {s : State} {r : PubRecord} (h : recordOf p s = some r) : highWaterOf p s = r.highWater := by
  rw [highWaterOf_eq, h]
  rfl

theorem canRecord_ensureRecord {p : Nat} {s : State} (h : s.canRecord p) : (recordOf p (ensureRecord p s)).isSome = true := by
  rw [recordOf_ensureRecord h]
  rfl

/-- The application makes the record itself, so one made before it changes nothing. -/
theorem applyBody_ensureRecord {b : ItemBody} {s : State} (h : s.canRecord b.publisher) : applyBody b (ensureRecord b.publisher s) = applyBody b s := by
  have hsome := canRecord_ensureRecord h
  have hrecorded : (ensureRecord b.publisher s).recorded b = s.recorded b := by
    unfold State.recorded
    rw [ensureRecord_idle (.inl hsome)]
  obtain ⟨l, hl⟩ := ensureRecord_records b.publisher s
  rw [applyBody_recorded (.inl hsome), applyBody_recorded h, hrecorded, hl]
  rfl

theorem publisher_of_readBody {l : List Octet} {b : ItemBody} (h : readBody l = some b) : b.publisher = (octetAt l 0).toNat := by
  unfold readBody at h
  dsimp only at h
  split at h
  · rw [Option.ite_none_right_eq_some] at h
    obtain ⟨-, h⟩ := h
    cases h
    rfl
  · cases h

theorem publisher_published {own : Nat} {args : List Octet} {b : ItemBody} (hown : own ≤ 127) (h : readBody (publishOctets own 1 args) = some b) :
    b.publisher = own := by
  rw [publisher_of_readBody h]
  show (BitVec.ofNat 8 own).toNat = own
  rw [BitVec.toNat_ofNat]
  omega

/-- The direct item leaves the high-water. -/
theorem highWater_directItem {p revision : Nat} {s : State} {r : PubRecord} (hpart : participates s = true) (hrecord : recordOf p s = some r) :
    ∃ r', recordOf p (directItem p revision s) = some r' ∧ r'.highWater = r.highWater := by
  rcases Nat.lt_trichotomy revision (r.settled + 1) with hold | hnext | hgap
  · rw [directItem_old hrecord (by omega)]
    exact ⟨r, hrecord, rfl⟩
  · rw [directItem_next hrecord hnext, recordOf_raiseSettled hrecord]
    exact ⟨_, rfl, rfl⟩
  · have hcatch := catchUp_spec (after := r.settled) hpart hrecord
    rw [directItem_gap hrecord hgap]
    split at hcatch
    · obtain ⟨q, hq, -⟩ := hcatch
      exact ⟨_, hq, rfl⟩
    · exact ⟨r, hcatch, rfl⟩

theorem queue_length_catchUpIfIdle (p after : Nat) {s : State} (hroom : s.bus.queue.length < 8) :
    (catchUpIfIdle p after s).bus.queue.length ≤ s.bus.queue.length + 1 := by
  have hoffer := queue_length_offer (requestOffer p after) hroom
  unfold catchUpIfIdle
  (repeat' split)
  · obtain ⟨seq, e, -, hs⟩ | ⟨-, hs⟩ := startCatchUp_cases p after s <;> rw [hs] <;> exact hoffer
  · exact Nat.le_succ _
  · exact Nat.le_succ _

/-- A direct item places one frame at most. -/
theorem queue_length_directItem (p revision : Nat) {s : State} (hroom : s.bus.queue.length < 8) :
    (directItem p revision s).bus.queue.length ≤ s.bus.queue.length + 1 := by
  unfold directItem
  (repeat' split)
  · exact Nat.le_succ _
  · exact Nat.le_succ _
  · exact queue_length_catchUpIfIdle _ _ hroom
  · exact Nat.le_succ _

/-- The offer of an item. -/
def itemOffer (b : ItemBody) : Offer := ⟨.programmeItem, 255, itemPayload (some b) none, [], false⟩

/-- The state after a publication. -/
def State.published (b : ItemBody) (s : State) : State := offer' (itemOffer b) (directItem b.publisher b.revision (applyBody b s).1)

theorem publishBody_eq {b : ItemBody} {s : State} (h : s.canRecord b.publisher) :
    publishBody b s = (s.published b, respond .done (le16 b.revision ++ [o8 (applyBody b s).2.code])) := by
  unfold publishBody
  dsimp only
  rw [applyBody_ensureRecord h]
  rfl

theorem writes_published (b : ItemBody) (s : State) : Writes (Part.offered ++ [.store, .records, .flags, .counters]) s (s.published b) := by
  have happly : Writes (Part.offered ++ [.store, .records, .flags, .counters]) s (applyBody b s).1 := (writes_applyBody' b s).mono (by simp)
  exact writes_offer_ _ (writes_directItem _ _ happly (by simp)) (by simp)

theorem store_published (b : ItemBody) (s : State) : (s.published b).store = (applyBody b s).1.store :=
  (writes_offer_ (itemOffer b) (writes_directItem b.publisher b.revision (.refl _ (applyBody b s).1) (List.Subset.refl _)) (by simp)).store rfl

theorem recordOf_published (p : Nat) (b : ItemBody) (s : State) :
    recordOf p (s.published b) = recordOf p (directItem b.publisher b.revision (applyBody b s).1) :=
  (writes_offer_ (itemOffer b) (.refl Part.offered _) (List.Subset.refl _)).recordOf rfl p

/-- The own record after a publication under the revision one above the high-water. -/
theorem highWaterOf_published {b : ItemBody} {s : State} (hpart : participates s = true) (hcan : s.canRecord b.publisher)
    (hrevision : b.revision = highWaterOf b.publisher s + 1) : highWaterOf b.publisher (s.published b) = b.revision := by
  have hrecord := recordOf_applyBody hcan
  obtain ⟨r, hr, hhigh⟩ := highWater_directItem (revision := b.revision) ((writes_applyBody' b s).participates.trans hpart) hrecord
  rw [highWaterOf_of_record ((recordOf_published _ b s).trans hr), hhigh]
  rw [highWaterOf_eq] at hrevision
  exact Nat.max_eq_right (by omega)

theorem settled_published {b : ItemBody} {s : State} {r : PubRecord} (hrecord : recordOf b.publisher (applyBody b s).1 = some r)
    (hnext : b.revision = r.settled + 1) : recordOf b.publisher (s.published b) = some { r with settled := b.revision } := by
  rw [recordOf_published, directItem_next hrecord hnext, recordOf_raiseSettled hrecord, Nat.max_eq_right (by omega)]

/-- With room for three frames the item stands, and there is room for the end of the step. -/
theorem stands_published {b : ItemBody} {s : State} (hpart : participates s = true) (hlevel : level s ≠ .muster) (hroom : s.bus.queue.length ≤ 5) :
    (∃ q, (s.published b).stands ⟨.programmeItem, 255, q, itemPayload (some b) none, [], false⟩) ∧ (s.published b).bus.queue.length < 8 := by
  have happly := writes_applyBody' b s
  have hqueue : (applyBody b s).1.bus.queue = s.bus.queue := happly.same .queue rfl
  have hdirect : Writes (Part.offered ++ [.records]) (applyBody b s).1 (directItem b.publisher b.revision (applyBody b s).1) :=
    writes_directItem _ _ (.refl _ _) (List.Subset.refl _)
  have hlen := queue_length_directItem b.publisher b.revision (s := (applyBody b s).1) (by rw [hqueue]; omega)
  rw [hqueue] at hlen
  have hpass : ¬ refusedByState (itemOffer b) (directItem b.publisher b.revision (applyBody b s).1) :=
    not_refused_below ((hdirect.participates.trans happly.participates).trans hpart) (by rwa [hdirect.level, happly.level])
  have hafter := queue_length_offer (itemOffer b) (s := directItem b.publisher b.revision (applyBody b s).1) (by omega)
  exact ⟨⟨_, stands_offer_self (o := itemOffer b) rfl hpass (by omega)⟩, by rw [State.published, offer']; omega⟩

/-! ### The commands (Table 4-4) -/

theorem exec_publishItem {args : List Octet} {s u : State} {r : List Octet} (hpart : participates s = true) (hport : s.port.state = .idle)
    (hlong : 13 ≤ args.length) (hdo : doPublish args s = (u, r)) : exec (.publishItem args) s = .next (settleSend (u.answered (0x0C :: args) r)) := by
  have hrun := portRun_owner (code := 0x0C) (args := args) (doPublish args) (not_reset_of_participates hpart) hport (stateAllows_of_participates _ hpart)
    (tooShort_of_long rfl (by decide) hlong)
  rw [hdo, answer_eq] at hrun
  exact congrArg (fun v => Host.Outcome.next (settleSend v)) hrun

theorem exec_withdrawItem {args : List Octet} {s u : State} {r : List Octet} (hpart : participates s = true) (hport : s.port.state = .idle)
    (hlong : 2 ≤ args.length) (hdo : doWithdraw args s = (u, r)) : exec (.withdrawItem args) s = .next (settleSend (u.answered (0x0D :: args) r)) := by
  have hrun := portRun_owner (code := 0x0D) (args := args) (doWithdraw args) (not_reset_of_participates hpart) hport (stateAllows_of_participates _ hpart)
    (tooShort_of_long rfl (by decide) hlong)
  rw [hdo, answer_eq] at hrun
  exact congrArg (fun v => Host.Outcome.next (settleSend v)) hrun

/-- The checks of the role, the state and the level. -/
theorem publishAllowed_eq (s : State) : ((roles s).publisher = false → publishAllowed s = some .notPermitted)
    ∧ ((roles s).publisher = true → s.node.state = .joining → publishAllowed s = some .notReady)
    ∧ ((roles s).publisher = true → s.node.state = .run → level s = .muster → publishAllowed s = some .busy)
    ∧ ((roles s).publisher = true ∧ s.node.state = .run ∧ level s ≠ .muster → publishAllowed s = none) := by
  unfold publishAllowed
  refine ⟨fun h => ?_, fun h hjoining => ?_, fun h hrun hmuster => ?_, fun ⟨h, hrun, hmuster⟩ => ?_⟩ <;> simp [*]

/-- The checks of the high-water and the room. -/
theorem publishRoom_eq (own : Nat) (s : State) : (highWaterOf own s = 65535 → publishRoom own s = some .exhausted)
    ∧ (highWaterOf own s < 65535 → ¬ (s.canRecord own ∧ hasRoom .programmeItem s.bus.queue = true) → publishRoom own s = some .full)
    ∧ (highWaterOf own s < 65535 → s.canRecord own ∧ hasRoom .programmeItem s.bus.queue = true → publishRoom own s = none) := by
  have hcan : s.canRecord own ↔ ¬ ((recordOf own s).isNone = true ∧ 8 ≤ s.exch.records.length) := by
    rw [State.canRecord, not_and_or, Nat.not_le]
    cases recordOf own s <;> simp
  unfold publishRoom
  refine ⟨fun h => if_pos h, fun h hno => ?_, fun h hroom => ?_⟩
  · rw [hcan] at hno
    refine (if_neg (by omega)).trans (if_pos ?_)
    by_cases hfull : (recordOf own s).isNone = true ∧ 8 ≤ s.exch.records.length
    · exact .inl hfull
    · exact .inr (by simpa using fun h => hno ⟨hfull, h⟩)
  · obtain ⟨hrecord, hroom⟩ := hroom
    rw [hcan] at hrecord
    refine (if_neg (by omega)).trans (if_neg ?_)
    rw [hroom]
    rintro (h | h)
    · exact hrecord h
    · cases h

/-- What a publication leaves, and answers. -/
structure PublishedAs (own : Nat) (b : ItemBody) (block : List Octet) (s t : State) : Prop where
  highWater : highWaterOf own t = b.revision
  store : t.store = (applyBody b s).1.store
  port : t.port = { s.port with state := .ready, command := block, response := 0x00 :: le16 b.revision ++ [o8 (applyBody b s).2.code] }
  settled : ∀ r, recordOf own (applyBody b s).1 = some r → b.revision = r.settled + 1 → recordOf own t = some { r with settled := b.revision }
  item : s.bus.queue.length ≤ 5 → ∃ q, t.stands ⟨.programmeItem, 255, q, itemPayload (some b) none, [], false⟩

theorem publishedAs {own : Nat} {b : ItemBody} {s : State} (hpart : participates s = true) (hlevel : level s ≠ .muster) (hpublisher : b.publisher = own)
    (hcan : s.canRecord own) (hrevision : b.revision = highWaterOf own s + 1) (block : List Octet) :
    PublishedAs own b block s (settleSend ((s.published b).answered block (0x00 :: (le16 b.revision ++ [o8 (applyBody b s).2.code])))) := by
  subst hpublisher
  have hpublished := writes_published b s
  have hhigh := highWaterOf_published hpart hcan hrevision
  have hsettled := @settled_published b s
  have hstands := @stands_published b s hpart hlevel
  have hstore := store_published b s
  generalize s.published b = u at *
  have hend := writes_settleSend (.refl _ (u.answered block (0x00 :: (le16 b.revision ++ [o8 (applyBody b s).2.code])))) (List.Subset.refl _)
  refine ⟨?_, (hend.store rfl).trans hstore, hend.port.trans ?_, fun r hrecord hnext => (hend.recordOf rfl _).trans (hsettled hrecord hnext),
    fun hroom => ?_⟩
  · rw [highWaterOf_eq, hend.recordOf rfl]
    rw [highWaterOf_eq] at hhigh
    exact hhigh
  · exact congrArg (fun p : LocalPort => { p with
      state := .ready, command := block, response := 0x00 :: (le16 b.revision ++ [o8 (applyBody b s).2.code]) }) hpublished.port
  · obtain ⟨⟨q, hq⟩, hlen⟩ := hstands hroom
    exact ⟨q, stands_settleSend rfl (.inl hlen) hq⟩

/-- The body that WITHDRAW ITEM publishes. -/
def withdrawnBody (own : Nat) (args : List Octet) (s : State) : Option ItemBody :=
  (s.store.table.find? (·.body.key = (own, rd16At args 0))).map fun e => { e.body with status := .cancelled }

/-- What both commands do with the body they have, or have not. -/
def publishing (own : Nat) (body : Option ItemBody) (s : State) : State × List Octet :=
  match publishAllowed s with
  | some st => (s, respond st [])
  | none =>
    match body with
    | none => (s, respond .invalid [])
    | some b =>
      match publishRoom own s with
      | some st => (s, respond st [])
      | none => publishBody { b with revision := nextRevision own s } s

theorem doPublish_eq {own : Nat} {args : List Octet} {s : State} (hown : ownStation s = some own) :
    doPublish args s = publishing own (readBody (publishOctets own 1 args)) s := by
  unfold doPublish publishing
  cases publishAllowed s with
  | some st => simp
  | none =>
    cases hbody : readBody (publishOctets own 1 args) with
    | none => simp [hown, hbody]
    | some b => cases hroom : publishRoom own s <;> simp [hown, hbody, hroom]

theorem doWithdraw_eq {own : Nat} {args : List Octet} {s : State} (hown : ownStation s = some own) :
    doWithdraw args s = publishing own (withdrawnBody own args s) s := by
  unfold doWithdraw publishing withdrawnBody
  cases publishAllowed s with
  | some st => simp
  | none =>
    cases hentry : s.store.table.find? (·.body.key = (own, rd16At args 0)) with
    | none => simp [hown, hentry]
    | some e => cases hroom : publishRoom own s <;> simp [hown, hentry, hroom]

theorem publishing_refused {own : Nat} {body : Option ItemBody} {s : State} {st : Status} (h : publishAllowed s = some st) :
    publishing own body s = (s, [st.code]) := by
  unfold publishing
  rw [h]
  rfl

theorem publishing_invalid {own : Nat} {s : State} (h : publishAllowed s = none) : publishing own none s = (s, [0x03]) := by
  unfold publishing
  rw [h]
  rfl

theorem publishing_full {own : Nat} {b : ItemBody} {s : State} {st : Status} (h : publishAllowed s = none) (hroom : publishRoom own s = some st) :
    publishing own (some b) s = (s, [st.code]) := by
  unfold publishing
  rw [h, hroom]
  rfl

theorem publishing_taken {own : Nat} {b : ItemBody} {s : State} (h : publishAllowed s = none) (hroom : publishRoom own s = none)
    (hpublisher : b.publisher = own) (hcan : s.canRecord own) : publishing own (some b) s =
      (s.published { b with revision := highWaterOf own s + 1 },
        0x00 :: (le16 (highWaterOf own s + 1) ++ [o8 (applyBody { b with revision := highWaterOf own s + 1 } s).2.code])) := by
  subst hpublisher
  unfold publishing
  rw [h, hroom]
  exact publishBody_eq (b := { b with revision := highWaterOf b.publisher s + 1 }) hcan

/-- The two commands in one statement: a command that ends in what `publishing` does with its body. -/
theorem publishing_decides {own : Nat} {body : Option ItemBody} {s : State} {block : List Octet} {outcome : Host.Outcome State Fault Refusal}
    (hpart : participates s = true) (hpublisher : ∀ b, body = some b → b.publisher = own)
    (hexec : outcome = .next (settleSend ((publishing own body s).1.answered block (publishing own body s).2))) :
    let refused (status : Octet) : Prop := ∃ t, outcome = .next t
      ∧ t.steady = { s.steady with port := { s.port with state := .ready, command := block, response := [status] } }
    let allowed : Prop := (roles s).publisher = true ∧ s.node.state = .run ∧ level s ≠ .muster
    let room : Prop := s.canRecord own ∧ hasRoom .programmeItem s.bus.queue = true
    ((roles s).publisher = false → refused 0x02)
      ∧ ((roles s).publisher = true → s.node.state = .joining → refused 0x01)
      ∧ ((roles s).publisher = true → s.node.state = .run → level s = .muster → refused 0x06)
      ∧ (allowed → body = none → refused 0x03)
      ∧ ∀ b, allowed → body = some b →
          (highWaterOf own s = 65535 → refused 0x05)
          ∧ (highWaterOf own s < 65535 → ¬ room → refused 0x04)
          ∧ (highWaterOf own s < 65535 → room → ∃ t, outcome = .next t
              ∧ PublishedAs own { b with revision := highWaterOf own s + 1 } block s t) := by
  have hrefused {status : Octet} (h : publishing own body s = (s, [status])) : ∃ t, outcome = .next t
      ∧ t.steady = { s.steady with port := { s.port with state := .ready, command := block, response := [status] } } := by
    rw [h] at hexec
    exact ⟨_, hexec, steady_refused keepsSteady_settleSend _ _ _⟩
  obtain ⟨hrole, hjoining, hmuster, hallowed⟩ := publishAllowed_eq s
  refine ⟨fun h => hrefused (publishing_refused (hrole h)), fun h hstate => hrefused (publishing_refused (hjoining h hstate)),
    fun h hstate hlevel => hrefused (publishing_refused (hmuster h hstate hlevel)), fun hyes hnone => ?_, fun b hyes hbody => ?_⟩
  · subst hnone
    exact hrefused (publishing_invalid (hallowed hyes))
  · subst hbody
    obtain ⟨hexhausted, hfull, hroom⟩ := publishRoom_eq own s
    refine ⟨fun h => hrefused (publishing_full (hallowed hyes) (hexhausted h)), fun h hno => hrefused (publishing_full (hallowed hyes) (hfull h hno)),
      fun h hyesRoom => ?_⟩
    rw [publishing_taken (hallowed hyes) (hroom h hyesRoom) (hpublisher b rfl) hyesRoom.1] at hexec
    exact ⟨_, hexec, publishedAs (b := { b with revision := highWaterOf own s + 1 }) hpart hyes.2.2 (hpublisher b rfl) hyesRoom.1 rfl block⟩

theorem withdrawnBody_some {own : Nat} {args : List Octet} {s : State} {e : Entry}
    (h : s.store.table.find? (·.body.key = (own, rd16At args 0)) = some e) : withdrawnBody own args s = some { e.body with status := .cancelled } := by
  rw [withdrawnBody, h]
  rfl

theorem publisher_withdrawn {own : Nat} {args : List Octet} {s : State} {b : ItemBody} (h : withdrawnBody own args s = some b) : b.publisher = own := by
  obtain ⟨e, hfind, rfl⟩ := Option.map_eq_some_iff.1 h
  have hkey : e.body.key = (own, rd16At args 0) := by simpa using List.find?_some hfind
  exact congrArg Prod.fst hkey

/-- Settles O25. -/
theorem publishTakesNextRevision : Obligations.PublishTakesNextRevision := by
  unfold Obligations.PublishTakesNextRevision
  intro own args s hpart hport hown hsmall
  refine ⟨fun hlong => ?publish, fun hlong => ?withdraw⟩
  case publish =>
    obtain ⟨hrole, hjoining, hmuster, hinvalid, htaken⟩ :=
      publishing_decides hpart (fun b => publisher_published hsmall) (exec_publishItem hpart hport hlong (doPublish_eq hown))
    refine ⟨hrole, hjoining, hmuster, hinvalid, fun b hallowed hbody => ?_⟩
    obtain ⟨hexhausted, hfull, hpublished⟩ := htaken b hallowed hbody
    refine ⟨hexhausted, hfull, fun h hroom => ?_⟩
    obtain ⟨t, hexec, hhigh, hstore, hport, hsettled, hitem⟩ := hpublished h hroom
    refine ⟨t, hexec, hhigh, hstore, hport.trans ?_, fun r hrecord hs => hsettled r hrecord (congrArg (· + 1) hs.symm), hitem⟩
    dsimp only
    cases (applyBody { b with revision := highWaterOf own s + 1 } s).2 <;> rfl
  case withdraw =>
    obtain ⟨hrole, hjoining, hmuster, hinvalid, htaken⟩ :=
      publishing_decides hpart (fun b => publisher_withdrawn) (exec_withdrawItem hpart hport hlong (doWithdraw_eq hown))
    refine ⟨hrole, hjoining, hmuster, fun hallowed hnone => hinvalid hallowed (congrArg _ hnone), fun e hallowed hentry => ?_⟩
    obtain ⟨hexhausted, hfull, hpublished⟩ := htaken _ hallowed (withdrawnBody_some hentry)
    refine ⟨hexhausted, hfull, fun h hroom => ?_⟩
    obtain ⟨t, hexec, hhigh, hstore, hport, hsettled, hitem⟩ := hpublished h hroom
    refine ⟨t, hexec, hhigh, hstore, hport.trans ?_, fun r hrecord hs => hsettled r hrecord (congrArg (· + 1) hs.symm), hitem⟩
    dsimp only
    cases (applyBody { e.body with status := .cancelled, revision := highWaterOf own s + 1 } s).2 <;> rfl

end Sys2Proof.Machine
end

