-- ==== Sys2Proof/Proofs/PlateRules.lean ====
section
/-! PROOFS. The rules of the plates and the refreshes (R131, R145 to R148): what each operation of the Scheduler does to them, and the end of a step (O26). -/

namespace Sys2Proof.Machine

/-! ### Plates -/

theorem plate_modPlate (i j : Nat) (f : Plate → Plate) (s : State) :
    (modPlate i f s).sched.plates[j]? = if i = j then s.sched.plates[j]?.map f else s.sched.plates[j]? := getElem?_modAt f i j _

theorem plate_modPlate_self {i : Nat} {p : Plate} {s : State} (f : Plate → Plate) (h : s.sched.plates[i]? = some p) :
    (modPlate i f s).sched.plates[i]? = some (f p) := by
  rw [plate_modPlate, if_pos rfl, h]
  rfl

theorem plate_modPlate_of_ne {i j : Nat} (hne : i ≠ j) (f : Plate → Plate) (s : State) : (modPlate i f s).sched.plates[j]? = s.sched.plates[j]? := by
  rw [plate_modPlate, if_neg hne]

theorem map_modAt {α β : Type} {f : α → α} {g : α → β} (h : ∀ x, g (f x) = g x) (i : Nat) (l : List α) : (modAt f i l).map g = l.map g := by
  refine List.ext_getElem? fun j => ?_
  rw [List.getElem?_map, List.getElem?_map, getElem?_modAt]
  split
  · cases l[j]? with
    | none => rfl
    | some x => exact congrArg some (h x)
  · rfl

/-- A plate by what is seen of it. -/
theorem plate_of_map {β : Type} {g : Plate → β} {s t : State} (h : t.sched.plates.map g = s.sched.plates.map g) {i : Nat} {p : Plate}
    (hp : s.sched.plates[i]? = some p) : ∃ q, t.sched.plates[i]? = some q ∧ g q = g p := by
  have hi := congrArg (fun l : List β => l[i]?) h
  simp only [List.getElem?_map, hp, Option.map_some, Option.map_eq_some_iff] at hi
  exact hi

/-! ### The comparison (R146) -/

/-- The plate's shown content is absent or differs from its target. -/
theorem stale_iff (p : Plate) : p.stale = true ↔ ∀ c stamp, p.shown = some (c, stamp) → c ≠ p.target := by
  unfold Plate.stale
  cases p.shown with
  | none => simp
  | some x => simp [Prod.ext_iff]

/-- The plate at a position with another refresh state, and the queue with it. -/
def State.placed (s : State) (i : Nat) (x : RefreshState) (queue : List Nat) : State :=
  modPlate i (fun p => { p with refresh := x }) (s.modSched fun c => { c with queue := queue })

theorem plate_placed {i : Nat} {p : Plate} {s : State} (h : s.sched.plates[i]? = some p) (x : RefreshState) (queue : List Nat) :
    (s.placed i x queue).sched.plates[i]? = some { p with refresh := x } := plate_modPlate_self (s := s.modSched fun c => { c with queue := queue }) _ h

theorem comparePlate_queues {i : Nat} {p : Plate} {s : State} (h : s.sched.plates[i]? = some p) (hrefreshing : refreshing s = true)
    (hidle : p.refresh = .idle) (hstale : p.stale = true) : comparePlate i s = s.placed i .queued (s.sched.queue ++ [i]) := by
  unfold comparePlate
  rw [h]
  dsimp only
  rw [if_pos hrefreshing, hidle]
  exact if_pos hstale

theorem comparePlate_unqueues {i : Nat} {p : Plate} {s : State} (h : s.sched.plates[i]? = some p) (hrefreshing : refreshing s = true)
    (hqueued : p.refresh = .queued) (hstale : p.stale = false) : comparePlate i s = s.placed i .idle (s.sched.queue.filter (· ≠ i)) := by
  unfold comparePlate
  rw [h]
  dsimp only
  rw [if_pos hrefreshing, hqueued]
  exact if_neg (by rw [hstale]; decide)

theorem comparePlate_stands {i : Nat} {p : Plate} {s : State} (h : s.sched.plates[i]? = some p)
    (hstands : refreshing s = false ∨ p.refresh = .load ∨ p.refresh = .drive ∨ (p.refresh = .queued ∧ p.stale = true) ∨ (p.refresh = .idle ∧ p.stale = false)) :
    comparePlate i s = s := by
  unfold comparePlate
  rw [h]
  dsimp only
  rcases hstands with hno | hload | hdrive | ⟨hqueued, hstale⟩ | ⟨hidle, hstale⟩
  · exact if_neg (by rw [hno]; decide)
  · rw [hload]
    exact ite_self _
  · rw [hdrive]
    exact ite_self _
  · rw [hqueued, hstale]
    exact ite_self _
  · rw [hidle, hstale]
    exact ite_self _

theorem comparePlate_none {i : Nat} {s : State} (h : s.sched.plates[i]? = none) : comparePlate i s = s := by
  unfold comparePlate
  rw [h]

theorem comparePlate_cases (i : Nat) (s : State) : comparePlate i s = s
    ∨ ∃ p, s.sched.plates[i]? = some p ∧ refreshing s = true
      ∧ ((p.refresh = .idle ∧ p.stale = true ∧ comparePlate i s = s.placed i .queued (s.sched.queue ++ [i]))
        ∨ (p.refresh = .queued ∧ p.stale = false ∧ comparePlate i s = s.placed i .idle (s.sched.queue.filter (· ≠ i)))) := by
  cases h : s.sched.plates[i]? with
  | none => exact .inl (comparePlate_none h)
  | some p =>
    cases hrefreshing : refreshing s with
    | false => exact .inl (comparePlate_stands h (.inl hrefreshing))
    | true =>
      cases hstale : p.stale with
      | true =>
        cases hstate : p.refresh with
        | idle => exact .inr ⟨p, rfl, rfl, .inl ⟨hstate, hstale, comparePlate_queues h hrefreshing hstate hstale⟩⟩
        | queued => exact .inl (comparePlate_stands h (.inr (.inr (.inr (.inl ⟨hstate, hstale⟩)))))
        | load => exact .inl (comparePlate_stands h (.inr (.inl hstate)))
        | drive => exact .inl (comparePlate_stands h (.inr (.inr (.inl hstate))))
      | false =>
        cases hstate : p.refresh with
        | idle => exact .inl (comparePlate_stands h (.inr (.inr (.inr (.inr ⟨hstate, hstale⟩)))))
        | queued => exact .inr ⟨p, rfl, rfl, .inr ⟨hstate, hstale, comparePlate_unqueues h hrefreshing hstate hstale⟩⟩
        | load => exact .inl (comparePlate_stands h (.inr (.inl hstate)))
        | drive => exact .inl (comparePlate_stands h (.inr (.inr (.inl hstate))))

/-- What is seen of a plate that does not see its refresh state. -/
def Plate.blindToRefresh {β : Type} (g : Plate → β) : Prop := ∀ (p : Plate) (x : RefreshState), g { p with refresh := x } = g p

/-- What is seen of a plate that does not see when its poll is due. -/
def Plate.blindToPoll {β : Type} (g : Plate → β) : Prop := ∀ (p : Plate) (x : Option Timer), g { p with pollDue := x } = g p

theorem seen_placed {β : Type} {g : Plate → β} (hg : Plate.blindToRefresh g) (s : State) (i : Nat) (x : RefreshState) (queue : List Nat) :
    (s.placed i x queue).sched.plates.map g = s.sched.plates.map g := map_modAt (fun p => hg p x) i _

theorem seen_comparePlate {β : Type} {g : Plate → β} (hg : Plate.blindToRefresh g) (i : Nat) (s : State) :
    (comparePlate i s).sched.plates.map g = s.sched.plates.map g := by
  obtain h | ⟨p, -, -, ⟨-, -, h⟩ | ⟨-, -, h⟩⟩ := comparePlate_cases i s <;> rw [h]
  · exact seen_placed hg ..
  · exact seen_placed hg ..

theorem flight_comparePlate (i : Nat) (s : State) : (comparePlate i s).sched.flight = s.sched.flight :=
  (writes_comparePlate i (.refl [.plates, .waiting] s) (List.Subset.refl _)).same .flight rfl

theorem plate_comparePlate_of_ne {i j : Nat} (hne : i ≠ j) (s : State) : (comparePlate i s).sched.plates[j]? = s.sched.plates[j]? := by
  obtain h | ⟨p, -, -, ⟨-, -, h⟩ | ⟨-, -, h⟩⟩ := comparePlate_cases i s <;> rw [h] <;> exact plate_modPlate_of_ne hne ..

/-! ### The start (R147, R148) -/

/-- The state with the refresh of a plate started. -/
def State.started (s : State) (i : Nat) (p : Plate) : State :=
  modPlate i (fun p => { p with refresh := .load }) (s.modSched fun c => { c with queue := c.queue.filter (· ≠ i), flight := c.flight ++ [p.newRefresh i] })

theorem startOne_starts {i : Nat} {p : Plate} {s : State} (hallowed : startAllowed s = true) (hfirst : (queueOrder s).find? (startable s) = some i)
    (hp : s.sched.plates[i]? = some p) : startOne s = s.started i p := by
  unfold startOne
  rw [if_pos hallowed, hfirst]
  dsimp only
  rw [hp]
  rfl

theorem startOne_forbidden {s : State} (h : startAllowed s = false) : startOne s = s := if_neg (by rw [h]; decide)

theorem startOne_none {s : State} (h : (queueOrder s).find? (startable s) = none) : startOne s = s := by
  unfold startOne
  rw [h]
  exact ite_self _

theorem startable_iff (s : State) (i : Nat) : startable s i = true ↔ ∃ p, s.sched.plates[i]? = some p ∧ p.health ≠ .notResponding := by
  unfold startable
  cases s.sched.plates[i]? <;> simp

theorem mem_queueOrder {s : State} {i : Nat} : i ∈ queueOrder s ↔ i ∈ s.sched.queue := by
  unfold queueOrder
  rw [List.mem_append, List.mem_filter, List.mem_filter, ← and_or_left, and_iff_left]
  cases entryPriority s i <;> simp

theorem startOne_cases (s : State) : (startOne s = s ∧ (startAllowed s = false ∨ (queueOrder s).find? (startable s) = none))
    ∨ ∃ i p, startAllowed s = true ∧ (queueOrder s).find? (startable s) = some i ∧ i ∈ s.sched.queue ∧ s.sched.plates[i]? = some p
        ∧ p.health ≠ .notResponding ∧ startOne s = s.started i p := by
  cases hallowed : startAllowed s with
  | false => exact .inl ⟨startOne_forbidden hallowed, .inl rfl⟩
  | true =>
    cases hfirst : (queueOrder s).find? (startable s) with
    | none => exact .inl ⟨startOne_none hfirst, .inr rfl⟩
    | some i =>
      obtain ⟨p, hp, hhealth⟩ := (startable_iff s i).1 (List.find?_some hfirst)
      exact .inr ⟨i, p, rfl, rfl, mem_queueOrder.1 (List.mem_of_find?_eq_some hfirst), hp, hhealth, startOne_starts hallowed hfirst hp⟩

theorem seen_started {β : Type} {g : Plate → β} (hg : Plate.blindToRefresh g) (s : State) (i : Nat) (p : Plate) :
    (s.started i p).sched.plates.map g = s.sched.plates.map g := map_modAt (fun p => hg p .load) i _

theorem seen_startOne {β : Type} {g : Plate → β} (hg : Plate.blindToRefresh g) (s : State) : (startOne s).sched.plates.map g = s.sched.plates.map g := by
  obtain ⟨h, -⟩ | ⟨i, p, -, -, -, -, -, h⟩ := startOne_cases s <;> rw [h]
  exact seen_started hg s i p

theorem seen_settleRefreshes {β : Type} {g : Plate → β} (hg : Plate.blindToRefresh g) (s : State) :
    (settleRefreshes s).sched.plates.map g = s.sched.plates.map g := (seen_startOne hg _).trans (seen_startOne hg s)

/-! ### The refreshes in flight -/

theorem refreshOf_congr {s t : State} (h : t.sched.flight = s.sched.flight) (i : Nat) : refreshOf i t = refreshOf i s := by
  rw [refreshOf, refreshOf, h]

theorem position_of_refreshOf {i : Nat} {s : State} {r : Refresh} (h : refreshOf i s = some r) : r.position = i := by
  simpa using List.find?_some h

theorem refreshOf_started (s : State) (i j : Nat) (p : Plate) :
    refreshOf j (s.started i p) = (refreshOf j s).or (if i = j then some (p.newRefresh i) else none) := by
  show (s.sched.flight ++ [p.newRefresh i]).find? (·.position = j) = (s.sched.flight.find? (·.position = j)).or _
  rw [List.find?_append]
  refine congrArg _ ?_
  by_cases h : i = j <;> simp [h, Plate.newRefresh]

/-- A refresh that starts is one with the target of its plate, at the first write. -/
def State.fresh (s : State) (i : Nat) (x : Refresh) : Prop := ∃ p, s.sched.plates[i]? = some p ∧ p.health ≠ .notResponding ∧ x = p.newRefresh i

theorem refreshOf_startOne_some {i : Nat} {s : State} {r : Refresh} (h : refreshOf i s = some r) : refreshOf i (startOne s) = some r := by
  obtain ⟨hs, -⟩ | ⟨j, p, -, -, -, -, -, hs⟩ := startOne_cases s <;> rw [hs]
  · exact h
  · rw [refreshOf_started, h]
    rfl

theorem refreshOf_startOne {i : Nat} {s : State} {x : Refresh} (h : refreshOf i (startOne s) = some x) : refreshOf i s = some x ∨ s.fresh i x := by
  obtain ⟨hs, -⟩ | ⟨j, p, -, -, -, hp, hhealth, hs⟩ := startOne_cases s <;> rw [hs] at h
  · exact .inl h
  · rw [refreshOf_started, Option.or_eq_some_iff] at h
    rcases h with h | ⟨-, h⟩
    · exact .inl h
    · split at h
      · rename_i heq
        cases h
        subst heq
        exact .inr ⟨p, hp, hhealth, rfl⟩
      · cases h

theorem newRefresh_congr {p q : Plate} (h : { q with refresh := .idle } = { p with refresh := .idle }) (i : Nat) : q.newRefresh i = p.newRefresh i := by
  have := congrArg (fun x : Plate => x.newRefresh i) h
  exact this

/-- All of a plate but its refresh state. -/
def Plate.still (p : Plate) : Plate := { p with refresh := .idle }

theorem blind_still : Plate.blindToRefresh Plate.still := fun _ _ => rfl

theorem fresh_of_seen {s t : State} (h : t.sched.plates.map Plate.still = s.sched.plates.map Plate.still) {i : Nat} {x : Refresh} (hx : t.fresh i x) : s.fresh i x := by
  obtain ⟨q, hq, hhealth, rfl⟩ := hx
  obtain ⟨p, hp, hseen⟩ := plate_of_map h.symm hq
  have hsame : p.still.health = q.still.health := congrArg Plate.health hseen
  exact ⟨p, hp, fun h => hhealth (hsame.symm.trans h), newRefresh_congr hseen.symm i⟩

theorem refreshOf_settleRefreshes_some {i : Nat} {s : State} {r : Refresh} (h : refreshOf i s = some r) : refreshOf i (settleRefreshes s) = some r :=
  refreshOf_startOne_some (refreshOf_startOne_some h)

theorem refreshOf_settleRefreshes {i : Nat} {s : State} {x : Refresh} (h : refreshOf i (settleRefreshes s) = some x) :
    refreshOf i s = some x ∨ s.fresh i x := by
  rcases refreshOf_startOne h with h | h
  · exact refreshOf_startOne h
  · exact .inr (fresh_of_seen (seen_startOne blind_still s) h)

/-! ### The arbiter (R131) -/

/-- The transaction of a poll that starts now. -/
def State.pollNow (s : State) (i : Nat) : Engine := .transaction ⟨i, .poll, if s.pins.busy then .start else .finish, s.time.now, s.time.now⟩

theorem arbitrate_polls {i : Nat} {s : State} (h : duePoll s = some i) : arbitrate s = startPoll i s := by
  unfold arbitrate
  rw [h]

theorem sched_startTransaction (position : Nat) (op : ChainOp) (s : State) : (startTransaction position op s).sched = s.sched := rfl

theorem sched_arbitrate {s : State} (h : duePoll s = none) : (arbitrate s).sched = s.sched := by
  unfold arbitrate
  rw [h]
  dsimp only
  (repeat' split) <;> rfl

theorem seen_arbitrate {β : Type} {g : Plate → β} (hg : Plate.blindToPoll g) (s : State) : (arbitrate s).sched.plates.map g = s.sched.plates.map g := by
  cases h : duePoll s with
  | none => rw [sched_arbitrate h]
  | some i =>
    rw [arbitrate_polls h]
    exact map_modAt (fun p => hg p none) i _

/-- A poll that starts takes the due poll of its plate away, and stands on the chain. -/
theorem plate_arbitrate {i : Nat} {p : Plate} {s : State} (hp : s.sched.plates[i]? = some p) : (arbitrate s).sched.plates[i]? = some p
    ∨ (duePoll s = some i ∧ (arbitrate s).sched.plates[i]? = some { p with pollDue := none } ∧ (arbitrate s).chain.engine = s.pollNow i) := by
  cases h : duePoll s with
  | none =>
    rw [sched_arbitrate h]
    exact .inl hp
  | some j =>
    rw [arbitrate_polls h]
    by_cases hij : j = i
    · subst hij
      exact .inr ⟨rfl, plate_modPlate_self _ hp, rfl⟩
    · exact .inl ((plate_modPlate_of_ne hij ..).trans hp)

/-! ### The end of a step -/

/-- The state before the arbiter's part of the end of a step. -/
def State.beforeArbiter (s : State) : State := settleAnswers (settleReports (settleRefreshes s))

theorem writes_beforeArbiter (s : State) :
    Writes (Part.offered ++ [.answers, .pendingReports, .outstanding, .builderWaits]) (settleRefreshes s) s.beforeArbiter :=
  writes_settleAnswers (writes_settleReports (.refl _ (settleRefreshes s)) (by simp)) (by simp)

theorem writes_afterArbiter (s : State) : Writes [.lights, .line] (arbitrate s.beforeArbiter) (settle s) :=
  writes_settleAttention (writes_settleLights (.refl _ (arbitrate s.beforeArbiter)) (by simp)) (by simp)

theorem sched_beforeArbiter (s : State) : s.beforeArbiter.sched = (settleRefreshes s).sched := (writes_beforeArbiter s).sched rfl

theorem sched_settle (s : State) : (settle s).sched = (arbitrate s.beforeArbiter).sched := (writes_afterArbiter s).sched rfl

theorem writes_arbitrate' (s : State) : Writes [.engine, .plates] s (arbitrate s) := writes_arbitrate (.refl _ s) (List.Subset.refl _)

theorem queue_settle (s : State) : (settle s).sched.queue = (settleRefreshes s).sched.queue := by
  rw [sched_settle, ← sched_beforeArbiter]
  exact (writes_arbitrate' s.beforeArbiter).same .waiting rfl

theorem flight_settle (s : State) : (settle s).sched.flight = (settleRefreshes s).sched.flight := by
  rw [sched_settle, ← sched_beforeArbiter]
  exact (writes_arbitrate' s.beforeArbiter).same .flight rfl

theorem seen_settle {β : Type} {g : Plate → β} (hpoll : Plate.blindToPoll g) (s : State) :
    (settle s).sched.plates.map g = (settleRefreshes s).sched.plates.map g := by
  rw [sched_settle, seen_arbitrate hpoll, sched_beforeArbiter]

/-- What is neither the refresh state nor the poll that is due, the end of a step leaves. -/
theorem seen_settle_both {β : Type} {g : Plate → β} (hrefresh : Plate.blindToRefresh g) (hpoll : Plate.blindToPoll g) (s : State) :
    (settle s).sched.plates.map g = s.sched.plates.map g := (seen_settle hpoll s).trans (seen_settleRefreshes hrefresh s)

theorem refreshOf_settle_some {i : Nat} {s : State} {r : Refresh} (h : refreshOf i s = some r) : refreshOf i (settle s) = some r := by
  rw [refreshOf_congr (flight_settle s)]
  exact refreshOf_settleRefreshes_some h

theorem refreshOf_settle {i : Nat} {s : State} {x : Refresh} (h : refreshOf i (settle s) = some x) : refreshOf i s = some x ∨ s.fresh i x := by
  rw [refreshOf_congr (flight_settle s)] at h
  exact refreshOf_settleRefreshes h

/-! ### None waits that may start -/

theorem startAllowed_iff (s : State) : startAllowed s = true ↔ (s.node.state = .run ∨ s.node.state = .fault) ∧ s.sched.flight.length < allowance s
    ∧ s.chain.service = .inService ∧ s.chain.testPending = false := by
  simp [startAllowed, refreshing, and_assoc]

theorem allowance_le (s : State) : allowance s ≤ 2 := by
  unfold allowance allowanceOf
  split <;> omega

theorem length_started (s : State) (i : Nat) (p : Plate) : (s.started i p).sched.flight.length = s.sched.flight.length + 1 := List.length_append

/-- After two starts none may start, or none can. -/
theorem settleRefreshes_settled (s : State) : startAllowed (settleRefreshes s) = false
    ∨ (queueOrder (settleRefreshes s)).find? (startable (settleRefreshes s)) = none := by
  unfold settleRefreshes
  obtain ⟨hfirst, hwhy⟩ | ⟨i, p, -, -, -, -, -, hfirst⟩ := startOne_cases s
  · rw [hfirst, hfirst]
    exact hwhy
  · obtain ⟨hsecond, hwhy⟩ | ⟨j, q, -, -, -, -, -, hsecond⟩ := startOne_cases (startOne s)
    · rwa [hsecond]
    · refine .inl (Bool.eq_false_iff.2 fun hallowed => ?_)
      obtain ⟨-, hlength, -⟩ := (startAllowed_iff _).1 hallowed
      rw [hsecond, length_started, hfirst, length_started] at hlength
      have := allowance_le ((s.started i p).started j q)
      omega

theorem writes_afterRefreshes (s : State) :
    Writes (Part.offered ++ [.answers, .pendingReports, .outstanding, .builderWaits, .engine, .plates, .lights, .line]) (settleRefreshes s) (settle s) :=
  writes_settleAttention (writes_settleLights (writes_arbitrate (writes_settleAnswers (writes_settleReports (.refl _ (settleRefreshes s))
    (by simp)) (by simp)) (by simp)) (by simp)) (by simp)

theorem startAllowed_settle (s : State) : startAllowed (settle s) = startAllowed (settleRefreshes s) := by
  have hend := writes_afterRefreshes s
  obtain ⟨hservice, -⟩ : (settle s).chain.service = (settleRefreshes s).chain.service ∧ _ := hend.same .service rfl
  have hpending : (settle s).chain.testPending = (settleRefreshes s).chain.testPending := hend.same .testPending rfl
  unfold startAllowed allowance refreshing
  rw [hend.node, flight_settle, hend.supplyState, hservice, hpending]

theorem startable_settle (s : State) (i : Nat) : startable (settle s) i = startable (settleRefreshes s) i := by
  have hseen : (settle s).sched.plates.map Plate.health = (settleRefreshes s).sched.plates.map Plate.health := seen_settle (fun _ _ => rfl) s
  rw [Bool.eq_iff_iff, startable_iff, startable_iff]
  constructor
  · rintro ⟨q, hq, hhealth⟩
    obtain ⟨p, hp, hsame⟩ := plate_of_map hseen.symm hq
    exact ⟨p, hp, by rwa [hsame]⟩
  · rintro ⟨p, hp, hhealth⟩
    obtain ⟨q, hq, hsame⟩ := plate_of_map hseen hp
    exact ⟨q, hq, by rwa [hsame]⟩

theorem entryPriority_eq (s : State) (i : Nat) : entryPriority s i = match s.sched.plates[i]? with
    | none => false
    | some p => decide (level s = .muster) && match p.shown with
      | none => true
      | some (c, _) => decide (c.layout ≠ p.target.layout ∨ c.code ≠ p.target.code ∨ c.drill ≠ p.target.drill ∨ c.mark ≠ p.target.mark) := by
  unfold entryPriority musterPriority
  cases s.sched.plates[i]? with
  | none => simp
  | some p => cases hshown : p.shown <;> simp [hshown, Bool.or_assoc]

theorem allowance_eq (s : State) : allowance s = match supplyState s with | .mains => 2 | .emergency => 1 | .low => 1 | .critical => 0 := by
  unfold allowance allowanceOf
  cases supplyState s <;> simp

theorem find?_startable (s : State) : (queueOrder s).find? (startable s) = (queueOrder s).find? fun i =>
    match s.sched.plates[i]? with | some p => decide (p.health ≠ .notResponding) | none => false := rfl

theorem needsFull_iff (p : Plate) : p.needsFull = true ↔ (∀ c stamp, p.shown = some (c, stamp) → c.layout ≠ p.target.layout) ∨ p.partialCount = 19 := by
  unfold Plate.needsFull
  cases p.shown with
  | none => simp
  | some x => simp [Prod.ext_iff]

/-- Settles O26. -/
theorem refreshesAreQueuedAndStarted : Obligations.RefreshesAreQueuedAndStarted := by
  unfold Obligations.RefreshesAreQueuedAndStarted
  refine ⟨fun i p s hp => ⟨fun hrefreshing hidle hdiffers => ?queues, fun hrefreshing hqueued hagrees => ?unqueues, fun hstands => ?stands⟩,
    fun s => ?order, fun s => ⟨fun i p hmay hfirst hp => ?starts, fun hnone => ?waits⟩, fun s hallowed i hi => ?settled⟩
  case queues =>
    rw [comparePlate_queues hp hrefreshing hidle ((stale_iff p).2 hdiffers)]
    exact ⟨rfl, plate_placed hp ..⟩
  case unqueues =>
    rw [comparePlate_unqueues hp hrefreshing hqueued (Bool.eq_false_iff.2 fun h => hagrees ((stale_iff p).1 h))]
    exact ⟨rfl, plate_placed hp ..⟩
  case stands =>
    refine comparePlate_stands hp (hstands.imp_right (Or.imp_right (Or.imp_right (Or.imp ?_ ?_))))
    · exact fun ⟨hqueued, hdiffers⟩ => ⟨hqueued, (stale_iff p).2 hdiffers⟩
    · exact fun ⟨hidle, hagrees⟩ => ⟨hidle, Bool.eq_false_iff.2 fun h => hagrees ((stale_iff p).1 h)⟩
  case order =>
    have hpriority : entryPriority s = fun i => match s.sched.plates[i]? with
        | none => false
        | some p => decide (level s = .muster) && match p.shown with
          | none => true
          | some (c, _) => decide (c.layout ≠ p.target.layout ∨ c.code ≠ p.target.code ∨ c.drill ≠ p.target.drill ∨ c.mark ≠ p.target.mark) := by
      funext i
      exact entryPriority_eq s i
    exact congrArg (fun muster : Nat → Bool => s.sched.queue.filter muster ++ s.sched.queue.filter (!muster ·)) hpriority
  case starts =>
    have hallowed : startAllowed s = true := (startAllowed_iff s).2 ⟨hmay.1, by rw [allowance_eq]; exact hmay.2.1, hmay.2.2⟩
    rw [startOne_starts hallowed ((find?_startable s).trans hfirst) hp]
    exact ⟨rfl, plate_modPlate_self _ hp, p.needsFull, needsFull_iff p, rfl⟩
  case waits =>
    rcases hnone with hmay | hnone
    · refine startOne_forbidden (Bool.eq_false_iff.2 fun hallowed => hmay ?_)
      obtain ⟨hstate, hlength, hrest⟩ := (startAllowed_iff s).1 hallowed
      rw [allowance_eq] at hlength
      exact ⟨hstate, hlength, hrest⟩
    · exact startOne_none ((find?_startable s).trans hnone)
  case settled =>
    rw [startAllowed_settle] at hallowed
    rw [queue_settle] at hi
    rw [startable_settle]
    have hnone := (settleRefreshes_settled s).resolve_left (by rw [hallowed]; decide)
    exact Bool.eq_false_iff.2 (List.find?_eq_none.1 hnone i (mem_queueOrder.2 hi))

end Sys2Proof.Machine
end

