-- ==== Sys2Proof/Proofs/Presses.lean ====
section
/-! PROOFS. Presses (R119, R136, R153): the table, and what a press does to its plate (O47). -/

namespace Sys2Proof.Machine

/-! ### A plate and its target -/

theorem plate_comparePlate {i : Nat} {p : Plate} {s : State} (hp : s.sched.plates[i]? = some p) :
    ∃ x, (comparePlate i s).sched.plates[i]? = some { p with refresh := x } := by
  obtain h | ⟨q, -, -, ⟨-, -, h⟩ | ⟨-, -, h⟩⟩ := comparePlate_cases i s <;> rw [h]
  · exact ⟨p.refresh, hp⟩
  · exact ⟨_, plate_placed hp ..⟩
  · exact ⟨_, plate_placed hp ..⟩

theorem retargeted_eq (node : NodeState) (r : OrderRecord) (p : Plate) :
    ∃ stamp, p.retargeted node r = { p with target := targetFor node r p, targetStamp := stamp } := by
  unfold Plate.retargeted
  dsimp only
  split
  · rename_i h
    exact ⟨p.targetStamp, by rw [h]⟩
  · exact ⟨_, rfl⟩

theorem plate_retarget {i : Nat} {p : Plate} {s : State} (hp : s.sched.plates[i]? = some p) : ∃ stamp x,
    (retarget i s).sched.plates[i]? = some { p with target := targetFor s.node.state s.muster.record p, targetStamp := stamp, refresh := x } := by
  obtain ⟨stamp, hstamp⟩ := retargeted_eq s.node.state s.muster.record p
  have hmod := plate_modPlate_self (Plate.retargeted s.node.state s.muster.record) hp
  rw [hstamp] at hmod
  obtain ⟨x, hx⟩ := plate_comparePlate hmod
  exact ⟨stamp, x, hx⟩

theorem sched_reportPlate (i : Nat) (s : State) : (reportPlate i s).sched = s.sched :=
  (writes_reportPlate i (.refl [.pendingReports, .builderWaits] s) (List.Subset.refl _)).sched rfl

theorem sched_setEvent (e : Event) (s : State) : (setEvent e s).sched = s.sched := rfl

/-- A sweep by a press: the sweep state, with the target it gives. -/
theorem plate_sweepByPress {i : Nat} {p : Plate} {s : State} (hp : s.sched.plates[i]? = some p) (swept : Bool) : ∃ stamp x,
    (sweepByPress i swept s).sched.plates[i]? = some { p with
      swept := swept, target := targetFor s.node.state s.muster.record { p with swept := swept }, targetStamp := stamp, refresh := x } := by
  unfold sweepByPress
  rw [sched_reportPlate]
  exact plate_retarget (s := setEvent .sweep (modPlate i (fun p => { p with swept }) s)) (plate_modPlate_self _ hp)

theorem eventSet_sweepByPress (i : Nat) (swept : Bool) (s : State) : eventSet .sweep (sweepByPress i swept s) = true := by
  have h : Writes [.plates, .waiting, .pendingReports, .builderWaits] (setEvent .sweep (modPlate i (fun p => { p with swept }) s)) (sweepByPress i swept s) :=
    writes_reportPlate i (writes_retarget i (.refl _ _) (by simp)) (by simp)
  exact h.eventSet (eventSet_setEvent _ _)

/-! ### A press taken (R119, R136) -/

theorem pressAtMuster_sweeps {i : Nat} {p : Plate} {swept : Bool} {s : State} (hp : s.sched.plates[i]? = some p) (h : p.swept ≠ swept) :
    pressAtMuster i swept s = sweepByPress i swept s := by
  unfold pressAtMuster
  rw [hp]
  exact if_neg h

theorem pressAtMuster_stands {i : Nat} {p : Plate} {swept : Bool} {s : State} (hp : s.sched.plates[i]? = some p) (h : p.swept = swept) :
    pressAtMuster i swept s = s := by
  unfold pressAtMuster
  rw [hp]
  exact if_pos h

theorem pressReport_long_muster {i : Nat} {s : State} (h : level s = .muster) : pressReport i .long s = pressAtMuster i true s := if_pos h

theorem pressReport_short_muster {i : Nat} {s : State} (h : level s = .muster) : pressReport i .short s = pressAtMuster i false s := if_pos h

theorem pressReport_long_below {i : Nat} {s : State} (h : level s ≠ .muster) : pressReport i .long s = s := if_neg h

theorem pressReport_short_below {i : Nat} {s : State} (h : level s ≠ .muster) : pressReport i .short s = shortPressRefresh i s := if_neg h

/-- A short press below MUSTER makes the shown content absent. -/
theorem plate_shortPressRefresh {i : Nat} {p : Plate} {s : State} (hp : s.sched.plates[i]? = some p) :
    ∃ x, (shortPressRefresh i s).sched.plates[i]? = some { p with shown := none, refresh := x } :=
  plate_comparePlate (s := modPlate i (fun p => { p with shown := none }) (modRefresh i (fun r => { r with pressNoted := true }) s))
    (plate_modPlate_self (s := modRefresh i (fun r => { r with pressNoted := true }) s) _ hp)

/-- Settles O47: the table by its rows, a press by the level and the plate's sweep state. -/
theorem pressesAreClassified : Obligations.PressesAreClassified := by
  unfold Obligations.PressesAreClassified
  refine ⟨⟨rfl, rfl, fun n _ hn => ?holds, rfl, rfl, fun n hlow hhigh => ?short, fun n hlow hhigh => ?ignored, rfl, rfl⟩, fun i p s hp =>
    ⟨fun hmuster => ⟨fun hunswept => ?sweeps, fun hswept => ?stays, fun hswept => ?unsweeps, fun hunswept => ?remains⟩, rfl, rfl,
      fun hbelow => ⟨pressReport_long_below hbelow, ?below⟩⟩⟩
  case holds => exact if_pos (by omega)
  case short =>
    show (Press.released, classifyPress n) = _
    rw [classifyPress, if_neg (by omega), if_pos (by omega)]
  case ignored =>
    show (Press.released, classifyPress n) = _
    rw [classifyPress, if_neg (by omega), if_neg (by omega)]
  case sweeps =>
    obtain ⟨stamp, x, hplate⟩ := plate_sweepByPress hp true
    rw [pressReport_long_muster hmuster, pressAtMuster_sweeps hp (by simp [hunswept]), hplate]
    exact ⟨eventSet_sweepByPress i true s, rfl⟩
  case stays => rw [pressReport_long_muster hmuster, pressAtMuster_stands hp hswept]
  case unsweeps =>
    obtain ⟨stamp, x, hplate⟩ := plate_sweepByPress hp false
    rw [pressReport_short_muster hmuster, pressAtMuster_sweeps hp (by simp [hswept]), hplate]
    exact ⟨eventSet_sweepByPress i false s, rfl⟩
  case remains => rw [pressReport_short_muster hmuster, pressAtMuster_stands hp hunswept]
  case below =>
    obtain ⟨x, hplate⟩ := plate_shortPressRefresh hp
    rw [pressReport_short_below hbelow, hplate]
    rfl

end Sys2Proof.Machine
end

