-- ==== Sys2Proof/Proofs/Drives.lean ====
section
/-! PROOFS. The end of a refresh in DRIVE (R150, R151): what completes, what fails, and the drive timer (O50). -/

namespace Sys2Proof.Machine

/-! ### The comparison of an IDLE plate -/

/-- An IDLE plate after the comparison: queued at the tail when the node refreshes and the plate is stale. -/
theorem comparePlate_idle {i : Nat} {p : Plate} {s : State} (hp : s.sched.plates[i]? = some p) (hidle : p.refresh = .idle) :
    (comparePlate i s).sched.plates[i]? = some { p with refresh := if refreshing s = true ∧ p.stale = true then .queued else .idle }
      ∧ (comparePlate i s).sched.queue = s.sched.queue ++ (if refreshing s = true ∧ p.stale = true then [i] else []) := by
  by_cases h : refreshing s = true ∧ p.stale = true
  · rw [comparePlate_queues hp h.1 hidle h.2, if_pos h, if_pos h]
    exact ⟨plate_placed hp .., rfl⟩
  · have hstands : refreshing s = false ∨ p.stale = false := by simpa [or_iff_not_imp_left] using h
    rw [comparePlate_stands hp (hstands.imp_right fun hstale => .inr (.inr (.inr ⟨hidle, hstale⟩))), if_neg h, if_neg h, ← hidle]
    exact ⟨hp, (List.append_nil _).symm⟩

theorem refreshing_comparePlate (i : Nat) (s : State) : refreshing (comparePlate i s) = refreshing s := by
  unfold refreshing
  rw [(writes_comparePlate i (.refl [.plates, .waiting] s) (List.Subset.refl _)).node]

/-! ### A refresh leaves flight -/

theorem refreshOf_leaveFlight (i : Nat) (s : State) : refreshOf i (leaveFlight i s) = none := by
  show (s.sched.flight.filter (·.position ≠ i)).find? (·.position = i) = none
  rw [List.find?_filter, List.find?_eq_none]
  simp

/-- The plate after a refresh that has failed. -/
theorem failRefresh_spec {i : Nat} {p : Plate} {s : State} (hp : s.sched.plates[i]? = some p) :
    (failRefresh i s).sched.plates[i]? = some { p with shown := none, refresh := if refreshing s = true then .queued else .idle }
      ∧ (failRefresh i s).sched.flight = s.sched.flight.filter (·.position ≠ i)
      ∧ (failRefresh i s).sched.queue = s.sched.queue ++ (if refreshing s = true then [i] else []) := by
  have hmod : (modPlate i (fun p => { p with shown := none, refresh := .idle }) (leaveFlight i s)).sched.plates[i]? =
      some { p with shown := none, refresh := .idle } := plate_modPlate_self (s := leaveFlight i s) _ hp
  obtain ⟨hplate, hqueue⟩ := comparePlate_idle hmod rfl
  have hwhen : (refreshing (modPlate i (fun p => { p with shown := none, refresh := .idle }) (leaveFlight i s)) = true
      ∧ Plate.stale { p with shown := none, refresh := .idle } = true) ↔ refreshing s = true := and_iff_left rfl
  simp only [hwhen] at hplate hqueue
  exact ⟨hplate, flight_comparePlate _ _, hqueue⟩

theorem refreshOf_failRefresh (i : Nat) (s : State) : refreshOf i (failRefresh i s) = none := by
  rw [failRefresh, refreshOf_congr (flight_comparePlate _ _)]
  exact refreshOf_leaveFlight i s

theorem refreshing_failRefresh (i : Nat) (s : State) : refreshing (failRefresh i s) = refreshing s := refreshing_comparePlate _ _

/-- The plate after a refresh that is complete. -/
theorem completeRefresh_spec {r : Refresh} {p : Plate} {s : State} (hp : s.sched.plates[r.position]? = some p) :
    (completeRefresh r s).sched.plates[r.position]? = some { p with
        shown := if r.pressNoted then none else some (r.content, r.stamp),
        partialCount := if r.full then 0 else p.partialCount + 1,
        refresh := if refreshing s = true ∧ (r.pressNoted = true ∨ r.content ≠ p.target) then .queued else .idle }
      ∧ (completeRefresh r s).sched.queue = s.sched.queue ++
          (if refreshing s = true ∧ (r.pressNoted = true ∨ r.content ≠ p.target) then [r.position] else [])
      ∧ (completeRefresh r s).sched.flight = s.sched.flight.filter (·.position ≠ r.position) := by
  have hmod := plate_modPlate_self (s := leaveFlight r.position s) (fun p => { p with
    shown := if r.pressNoted then none else some (r.content, r.stamp), partialCount := if r.full then 0 else p.partialCount + 1,
    refresh := .idle }) hp
  obtain ⟨hplate, hqueue⟩ := comparePlate_idle hmod rfl
  have hstale : Plate.stale { p with
      shown := if r.pressNoted then none else some (r.content, r.stamp), partialCount := if r.full then 0 else p.partialCount + 1,
      refresh := .idle } = true ↔ r.pressNoted = true ∨ r.content ≠ p.target := by
    unfold Plate.stale
    cases r.pressNoted <;> simp
  have hrefreshing (f : Plate → Plate) : refreshing (modPlate r.position f (leaveFlight r.position s)) = refreshing s := rfl
  simp only [hstale, hrefreshing] at hplate hqueue
  exact ⟨hplate, hqueue, flight_comparePlate _ _⟩

/-! ### A plate that waits or loads, over the starts -/

/-- The plate is queued, or its refresh has started. -/
def State.waitsOrLoads (s : State) (i : Nat) : Prop := ∃ p, s.sched.plates[i]? = some p
  ∧ ((p.refresh = .queued ∧ i ∈ s.sched.queue) ∨ (p.refresh = .load ∧ (refreshOf i s).isSome = true ∧ i ∉ s.sched.queue))

theorem waitsOrLoads_startOne {i : Nat} {s : State} (h : s.waitsOrLoads i) : (startOne s).waitsOrLoads i := by
  obtain ⟨p, hp, hstate⟩ := h
  obtain ⟨hs, -⟩ | ⟨j, q, -, -, hj, hq, -, hs⟩ := startOne_cases s
  · rw [hs]
    exact ⟨p, hp, hstate⟩
  · rw [hs]
    by_cases hij : j = i
    · subst hij
      refine ⟨_, plate_modPlate_self _ hp, .inr ⟨rfl, ?_, ?_⟩⟩
      · rw [refreshOf_started, if_pos rfl]
        cases refreshOf j s <;> rfl
      · show j ∉ s.sched.queue.filter (· ≠ j)
        simp
    · refine ⟨p, (plate_modPlate_of_ne hij _ _).trans hp, hstate.imp (fun ⟨hqueued, hmem⟩ => ⟨hqueued, ?_⟩) (fun ⟨hload, hsome, hnot⟩ => ⟨hload, ?_, ?_⟩)⟩
      · exact List.mem_filter.2 ⟨hmem, by simpa using Ne.symm hij⟩
      · rw [refreshOf_started, if_neg hij, Option.or_none]
        exact hsome
      · exact fun hmem => hnot (List.mem_of_mem_filter hmem)

theorem waitsOrLoads_settle {i : Nat} {s : State} (h : s.waitsOrLoads i) : (settle s).waitsOrLoads i := by
  obtain ⟨p, hp, hstate⟩ := waitsOrLoads_startOne (waitsOrLoads_startOne h)
  have hseen : (settle s).sched.plates.map Plate.refresh = (settleRefreshes s).sched.plates.map Plate.refresh := seen_settle (fun _ _ => rfl) s
  obtain ⟨q, hq, hsame⟩ := plate_of_map hseen hp
  refine ⟨q, hq, ?_⟩
  rw [hsame, queue_settle, refreshOf_congr (flight_settle s)]
  exact hstate

/-- Outside RUN and FAULT no refresh starts. -/
theorem settleRefreshes_idle {s : State} (h : refreshing s = false) : settleRefreshes s = s := by
  have hstays : startOne s = s := startOne_forbidden (by rw [startAllowed, h]; rfl)
  rw [settleRefreshes, hstays, hstays]

/-! ### The drive timer and the drive status -/

theorem exec_driveTimer {i : Nat} {r : Refresh} {s : State} (h : refreshOf i s = some r) (hdue : timerDue r.driveTimer s = true) :
    exec (.driveTimer i) s = .next (settle (failRefresh i s)) := by
  refine congrArg Host.Outcome.next (if_pos ?_)
  rw [driveTimedOut, h]
  exact hdue

theorem driveReading_drive {i : Nat} {r : Refresh} {s : State} (h : refreshOf i s = some r) (hdrive : r.driveTimer.isSome = true) :
    driveReading i .done s = completeRefresh r s ∧ driveReading i .idle s = failRefresh i s ∧ driveReading i .driving s = s := by
  have hsome : r.driveTimer.isNone = false := by simpa using hdrive
  unfold driveReading
  rw [h]
  simp [hsome]

theorem driveReading_other {i : Nat} {s : State} (h : ∀ r, refreshOf i s = some r → r.driveTimer = none) (d : DriveStatus) : driveReading i d s = s := by
  unfold driveReading
  cases hr : refreshOf i s with
  | none => rfl
  | some r => exact if_pos (by rw [h r hr]; rfl)

/-- Settles O50. -/
theorem driveTimerFailsRefresh : Obligations.DriveTimerFailsRefresh := by
  unfold Obligations.DriveTimerFailsRefresh
  refine ⟨fun i r p s hr hdue hp => ?timer, fun i r p s hr hdrive hp => ?reading, fun i d s hnone => driveReading_other hnone d⟩
  case timer =>
    obtain ⟨hplate, -, hqueue⟩ := failRefresh_spec hp
    have hnone := refreshOf_failRefresh i s
    have hrefreshing := refreshing_failRefresh i s
    have hsteady : (settle (failRefresh i s)).steady = s.steady := by simp
    have hexec := exec_driveTimer hr hdue
    generalize failRefresh i s = u at *
    have hseen : (settle u).sched.plates.map (fun p => (p.shown, p.partialCount, p.target)) = u.sched.plates.map fun p => (p.shown, p.partialCount, p.target) :=
      seen_settle_both (fun _ _ => rfl) (fun _ _ => rfl) u
    obtain ⟨q, hq, hsame⟩ := plate_of_map hseen hplate
    obtain ⟨hshown, hcount, htarget⟩ : q.shown = none ∧ q.partialCount = p.partialCount ∧ q.target = p.target := by
      simpa using hsame
    refine ⟨_, q, hexec, hq, hshown, hcount, htarget, fun x hx => ?_, fun hyes => ?_, fun hno => ?_, hsteady⟩
    · obtain ⟨p', hp', -, rfl⟩ := (refreshOf_settle hx).resolve_left (by rw [hnone]; simp)
      rw [hplate] at hp'
      cases hp'
      exact ⟨rfl, rfl, rfl, rfl⟩
    · have hwaits : u.waitsOrLoads i := ⟨_, hplate, .inl ⟨if_pos hyes, by rw [hqueue, if_pos hyes]; simp⟩⟩
      obtain ⟨q', hq', hstate⟩ := waitsOrLoads_settle hwaits
      rw [hq] at hq'
      cases hq'
      exact hstate.imp_right fun ⟨hload, hsome, _⟩ => ⟨hload, hsome⟩
    · have hstays : settleRefreshes u = u := settleRefreshes_idle (hrefreshing.trans hno)
      have hidle : (settle u).sched.plates.map Plate.refresh = (settleRefreshes u).sched.plates.map Plate.refresh := seen_settle (fun _ _ => rfl) u
      rw [hstays] at hidle
      obtain ⟨q', hq', hstate⟩ := plate_of_map hidle hplate
      rw [hq] at hq'
      cases hq'
      refine ⟨hstate.trans (if_neg (by rw [hno]; decide)), ?_⟩
      rw [refreshOf_congr (flight_settle u), hstays]
      exact hnone
  case reading =>
    obtain ⟨hdone, hidle, hdriving⟩ := driveReading_drive hr hdrive
    have hposition := position_of_refreshOf hr
    subst hposition
    rw [hdone, hidle, hdriving]
    obtain ⟨hcomplete, htail, hflight⟩ := completeRefresh_spec hp
    obtain ⟨hplate, hflight', hqueue⟩ := failRefresh_spec hp
    refine ⟨⟨_, hcomplete, rfl, hflight, htail.trans ?_⟩, ⟨_, hplate, rfl, hflight', hqueue.trans ?_⟩, rfl⟩
    · dsimp only
      split <;> simp
    · dsimp only
      split <;> simp

end Sys2Proof.Machine
end

