-- ==== Sys2Proof/Proofs/Polls.lean ====
section
/-! PROOFS. The poll that is due (R131, R133): which it is, that a step starts it, and a release of BUSY in START (O43). -/

namespace Sys2Proof.Machine

/-! ### The plate due longest (R131) -/

/-- A plate's lateness stands in the list at a place, and none in it is greater, or as great at a lower place. -/
def LongestDue (l : List (Option Nat)) (i late : Nat) : Prop :=
  l[i]? = some (some late) ∧ ∀ (j late' : Nat), l[j]? = some (some late') → late' < late ∨ (late' = late ∧ i ≤ j)

theorem LongestDue.unique {l : List (Option Nat)} {i j x y : Nat} (hx : LongestDue l i x) (hy : LongestDue l j y) : i = j ∧ x = y := by
  have h := hx.2 j y hy.1
  have h' := hy.2 i x hx.1
  omega

theorem getElem?_concat {α : Type} (l : List α) (x : α) (j : Nat) (y : α) : (l ++ [x])[j]? = some y ↔ l[j]? = some y ∨ (j = l.length ∧ x = y) := by
  rcases Nat.lt_trichotomy j l.length with h | h | h
  · rw [List.getElem?_append_left h]
    exact ⟨.inl, fun h' => h'.resolve_right fun hj => absurd hj.1 (by omega)⟩
  · subst h
    rw [List.getElem?_concat_length, List.getElem?_eq_none (Nat.le_refl _)]
    simp
  · rw [List.getElem?_eq_none (by rw [List.length_append, List.length_singleton]; omega), List.getElem?_eq_none (by omega)]
    simp
    omega

/-- The choice among the plates of a list. -/
def longestDue (l : List (Option Nat)) : Option (Nat × Nat) := l.zipIdx.foldl longerDue none

theorem longestDue_concat (l : List (Option Nat)) (x : Option Nat) : longestDue (l ++ [x]) = longerDue (longestDue l) (x, l.length) := by
  rw [longestDue, List.zipIdx_append, List.foldl_append]
  simp [longestDue]

/-- The choice is the plate due longest, or none is due. -/
theorem longestDue_spec (l : List (Option Nat)) : (longestDue l = none ∧ ∀ (j late : Nat), l[j]? ≠ some (some late))
    ∨ ∃ i late, longestDue l = some (i, late) ∧ LongestDue l i late := by
  induction l using List.reverseRecOn with
  | nil => exact .inl ⟨rfl, fun j late h => by simp at h⟩
  | append_singleton l x ih =>
    rw [longestDue_concat]
    unfold LongestDue
    simp only [getElem?_concat]
    cases x with
    | none =>
      obtain ⟨hnone, hall⟩ | ⟨i, late, hsome, hi, hall⟩ := ih
      · exact .inl ⟨hnone, fun j late h => by simpa [hall] using (getElem?_concat ..).1 h⟩
      · exact .inr ⟨i, late, hsome, .inl hi, fun j late' h => hall j late' (h.resolve_right fun h' => by simpa using h'.2)⟩
    | some late =>
      obtain ⟨hnone, hall⟩ | ⟨i, best, hsome, hi, hall⟩ := ih
      · rw [hnone]
        refine .inr ⟨l.length, late, rfl, .inr ⟨rfl, rfl⟩, fun j late' h => ?_⟩
        obtain ⟨rfl, hlate⟩ := h.resolve_left (hall j late')
        cases hlate
        exact .inr ⟨rfl, Nat.le_refl _⟩
      · rw [hsome]
        have hlt : i < l.length := (List.getElem?_eq_some_iff.1 hi).1
        by_cases hlater : best < late
        · refine .inr ⟨l.length, late, if_pos hlater, .inr ⟨rfl, rfl⟩, fun j late' h => ?_⟩
          rcases h with h | ⟨rfl, h⟩
          · have := hall j late' h
            omega
          · cases h
            omega
        · refine .inr ⟨i, best, if_neg hlater, .inl hi, fun j late' h => ?_⟩
          rcases h with h | ⟨rfl, h⟩
          · exact hall j late' h
          · cases h
            omega

theorem longestDue_iff (l : List (Option Nat)) (i : Nat) : (longestDue l).map (·.1) = some i ↔ ∃ late, LongestDue l i late := by
  constructor
  · intro h
    obtain ⟨hnone, -⟩ | ⟨j, late, hsome, hlongest⟩ := longestDue_spec l
    · rw [hnone] at h
      cases h
    · rw [hsome] at h
      cases h
      exact ⟨late, hlongest⟩
  · rintro ⟨late, hlongest⟩
    obtain ⟨-, hnone⟩ | ⟨j, late', hsome, hlongest'⟩ := longestDue_spec l
    · exact absurd hlongest.1 (hnone i late)
    · rw [hsome, (hlongest.unique hlongest').1]
      rfl

theorem pollChoice_eq (s : State) : pollChoice s = (longestDue (s.sched.plates.map (·.overdue s.time.now))).map (·.1) := by
  rw [longestDue, List.zipIdx_map]
  rfl

theorem overdue_eq_some {now : Tick} {p : Plate} {late : Nat} : p.overdue now = some late ↔
    ∃ x, p.pollDue = some x ∧ x.len ≤ (now - x.start).toNat ∧ late = (now - x.start).toNat - x.len := by
  unfold Plate.overdue
  cases hdue : p.pollDue with
  | none => simp
  | some x => simp [Timer.expired, eq_comm]

/-- A plate's lateness, from its poll that is due. -/
theorem late_iff (s : State) (j late : Nat) : (s.sched.plates.map (·.overdue s.time.now))[j]? = some (some late) ↔
    ∃ x : Timer, ((s.sched.plates[j]?.bind (·.pollDue)) = some x ∧ x.len ≤ (s.time.now - x.start).toNat) ∧ late = (s.time.now - x.start).toNat - x.len := by
  rw [List.getElem?_map]
  cases s.sched.plates[j]? with
  | none => simp
  | some p =>
    rw [Option.map_some, Option.some_inj, overdue_eq_some]
    simp only [Option.bind_some, and_assoc]

/-! ### The poll that a step starts -/

theorem polling_iff (s : State) : polling s = true ↔ s.node.state = .joining ∨ s.node.state = .run ∨ s.node.state = .fault := by
  simp [polling, participates, or_assoc]

theorem duePoll_eq (s : State) : duePoll s = if chainFree s && polling s then (longestDue (s.sched.plates.map (·.overdue s.time.now))).map (·.1) else none := by
  rw [duePoll, pollChoice_eq]

theorem chainFree_iff (s : State) : chainFree s = true ↔ s.chain.engine = .idle ∧ s.chain.testPending = false ∧ s.chain.service = .inService := by
  simp [chainFree, and_assoc]

/-- What comes before the arbiter in the end of a step leaves the choice of the poll. -/
theorem duePoll_beforeArbiter (s : State) : duePoll s.beforeArbiter = duePoll s := by
  have hrefresh : Writes Part.refreshed s (settleRefreshes s) := writes_settleRefreshes (.refl _ s) (List.Subset.refl _)
  have hbefore := writes_beforeArbiter s
  have hnow : s.beforeArbiter.time.now = s.time.now := hbefore.now.trans hrefresh.now
  have hnode := hbefore.node.trans hrefresh.node
  have hengine : s.beforeArbiter.chain.engine = s.chain.engine := (hbefore.same .engine rfl).trans (hrefresh.same .engine rfl)
  have hpending : s.beforeArbiter.chain.testPending = s.chain.testPending := (hbefore.same .testPending rfl).trans (hrefresh.same .testPending rfl)
  obtain ⟨hservice, -⟩ : s.beforeArbiter.chain.service = s.chain.service ∧ s.beforeArbiter.chain.lastResult = s.chain.lastResult :=
    ⟨(hbefore.same .service rfl).1.trans (hrefresh.same .service rfl).1, (hbefore.same .service rfl).2.trans (hrefresh.same .service rfl).2⟩
  have hseen : s.beforeArbiter.sched.plates.map (·.overdue s.time.now) = s.sched.plates.map (·.overdue s.time.now) := by
    rw [sched_beforeArbiter]
    exact seen_settleRefreshes (fun _ _ => rfl) s
  rw [duePoll_eq, duePoll_eq, chainFree, chainFree, polling, polling, participates, participates, hnow, hnode, hengine, hpending, hservice, hseen]

theorem pollNow_beforeArbiter (s : State) (i : Nat) : s.beforeArbiter.pollNow i = s.pollNow i := by
  have hrefresh : Writes Part.refreshed s (settleRefreshes s) := writes_settleRefreshes (.refl _ s) (List.Subset.refl _)
  have hbefore := writes_beforeArbiter s
  rw [State.pollNow, State.pollNow, hbefore.now, hrefresh.now, hbefore.pins, hrefresh.pins]

theorem engine_settle (s : State) : (settle s).chain.engine = (arbitrate s.beforeArbiter).chain.engine := (writes_afterArbiter s).same .engine rfl

/-- A poll that is due is started by the end of the step. -/
theorem settle_polls {i : Nat} {s : State} (h : duePoll s = some i) : (settle s).chain.engine = s.pollNow i
    ∧ ∀ p, (settle s).sched.plates[i]? = some p → p.pollDue = none := by
  have hpolls := arbitrate_polls ((duePoll_beforeArbiter s).trans h)
  rw [engine_settle, sched_settle, hpolls, ← pollNow_beforeArbiter]
  refine ⟨rfl, fun p hp => ?_⟩
  have hmod : (startPoll i s.beforeArbiter).sched.plates[i]? = (s.beforeArbiter.sched.plates[i]?).map fun p => { p with pollDue := none } := by
    rw [startPoll, sched_startTransaction, plate_modPlate, if_pos rfl]
  rw [hmod, Option.map_eq_some_iff] at hp
  obtain ⟨q, -, rfl⟩ := hp
  rfl

/-- A plate over the end of a step: all but its refresh state stands, and its poll unless that starts. -/
theorem plate_settle {i : Nat} {p : Plate} {s : State} (hp : s.sched.plates[i]? = some p) : ∃ q, (settle s).sched.plates[i]? = some q
    ∧ (q = { p with refresh := q.refresh } ∨ (q = { p with refresh := q.refresh, pollDue := none } ∧ duePoll s = some i ∧ (settle s).chain.engine = s.pollNow i)) := by
  obtain ⟨u, hu, hstill⟩ := plate_of_map (seen_settleRefreshes blind_still s) hp
  have hsame : u = { p with refresh := u.refresh } := congrArg (fun x : Plate => { x with refresh := u.refresh }) hstill
  have hbefore : s.beforeArbiter.sched.plates[i]? = some u := by rw [sched_beforeArbiter, hu]
  rw [sched_settle, engine_settle, ← pollNow_beforeArbiter, ← duePoll_beforeArbiter]
  obtain h | ⟨hdue, h, hengine⟩ := plate_arbitrate hbefore
  · exact ⟨u, h, .inl hsame⟩
  · refine ⟨_, h, .inr ⟨?_, hdue, hengine⟩⟩
    exact congrArg (fun x : Plate => { x with refresh := u.refresh, pollDue := none }) hstill

/-! ### The rows -/

theorem exec_pollDue {busy : Bool} {i : Nat} {s : State} (h : duePoll s = some i) : exec (.pollDue busy) s = .next (settle (readBusy busy s)) :=
  congrArg Host.Outcome.next (if_pos (by rw [h]; rfl))

theorem inPhase_of {phase : ChainPhase} {tr : Transaction} {s : State} (hengine : s.chain.engine = .transaction tr) (hphase : tr.phase = phase) :
    inPhase phase s = some tr := by
  unfold inPhase
  rw [hengine]
  exact if_pos hphase

theorem inPhase_none {phase : ChainPhase} {s : State} (h : ∀ tr, s.chain.engine = .transaction tr → tr.phase ≠ phase) : inPhase phase s = none := by
  unfold inPhase
  cases hengine : s.chain.engine with
  | transaction tr => exact if_neg (h tr hengine)
  | idle => rfl
  | test w => rfl

/-- What a release of BUSY does with the transaction in START, if there is one. -/
def releaseOutcome (s : State) (tr : Option Transaction) : Host.Outcome State Fault Refusal :=
  match tr with
  | some t => .next ((readBusy false s).modChain fun c => { c with engine := .transaction { t with phase := .finish, phaseAt := s.time.now } })
  | none => .next (readBusy false s)

/-- Settles O43. -/
theorem pollDueAndBusyRelease : Obligations.PollDueAndBusyRelease := by
  unfold Obligations.PollDueAndBusyRelease
  refine ⟨fun busy i s hdue => ?starts, fun i s => ?choice, fun tr s hengine hphase => ⟨?release, fun s hother => ?reads⟩⟩
  case starts =>
    obtain ⟨hengine, hplate⟩ := settle_polls (s := readBusy busy s) (i := i) hdue
    refine ⟨_, exec_pollDue hdue, hengine, hplate, ?_⟩
    rw [keepsSteady_settle]
    rfl
  case choice =>
    dsimp only
    rw [duePoll_eq, Option.ite_none_right_eq_some, Bool.and_eq_true, chainFree_iff, polling_iff, longestDue_iff]
    refine and_congr (by rw [and_assoc, and_assoc]) ⟨?_, ?_⟩
    · rintro ⟨late, hi, hall⟩
      obtain ⟨x, hx, rfl⟩ := (late_iff s i late).1 hi
      exact ⟨x, hx, fun j y hy => hall j _ ((late_iff s j _).2 ⟨y, hy, rfl⟩)⟩
    · rintro ⟨x, hx, hall⟩
      refine ⟨_, (late_iff s i _).2 ⟨x, hx, rfl⟩, fun j late hj => ?_⟩
      obtain ⟨y, hy, rfl⟩ := (late_iff s j late).1 hj
      exact hall j y hy
  case release => exact congrArg (releaseOutcome s) (inPhase_of hengine hphase)
  case reads => exact congrArg (releaseOutcome s) (inPhase_none hother)

end Sys2Proof.Machine
end

