-- ==== Sys2Proof/Proofs/PlatesLost.lean ====
section
/-! PROOFS. A chain that goes OUT OF SERVICE (R129, R130, R135, R140): every plate is lost (O44). -/

namespace Sys2Proof.Machine

/-! ### The loss of one plate (R135, R137, R151) -/

theorem refreshOf_leaveFlight_of_ne {i j : Nat} (hne : i ≠ j) (s : State) : refreshOf j (leaveFlight i s) = refreshOf j s := by
  show (s.sched.flight.filter (·.position ≠ i)).find? (·.position = j) = s.sched.flight.find? (·.position = j)
  rw [List.find?_filter]
  refine congrArg (fun p : Refresh → Bool => s.sched.flight.find? p) (funext fun r => ?_)
  by_cases h : r.position = j <;> simp [h, Ne.symm hne]

theorem refreshOf_failRefresh_of_ne {i j : Nat} (hne : i ≠ j) (s : State) : refreshOf j (failRefresh i s) = refreshOf j s := by
  rw [failRefresh, refreshOf_congr (flight_comparePlate _ _)]
  exact refreshOf_leaveFlight_of_ne hne s

theorem plate_failRefresh_of_ne {i j : Nat} (hne : i ≠ j) (s : State) : (failRefresh i s).sched.plates[j]? = s.sched.plates[j]? := by
  rw [failRefresh, plate_comparePlate_of_ne hne]
  exact plate_modPlate_of_ne hne ..

/-- A loss handed to the Scheduler: nothing of the plate is shown, and it has no refresh. -/
theorem lossRefresh_spec {i : Nat} {p : Plate} {s : State} (hp : s.sched.plates[i]? = some p) :
    (∃ x, (lossRefresh i s).sched.plates[i]? = some { p with shown := none, refresh := x }) ∧ refreshOf i (lossRefresh i s) = none := by
  unfold lossRefresh
  split
  · exact ⟨⟨_, (failRefresh_spec hp).1⟩, refreshOf_failRefresh i s⟩
  · rename_i hnone
    refine ⟨plate_comparePlate (plate_modPlate_self _ hp), ?_⟩
    rw [refreshOf_congr (flight_comparePlate _ _)]
    exact Option.not_isSome_iff_eq_none.1 hnone

theorem lossRefresh_of_ne {i j : Nat} (hne : i ≠ j) (s : State) :
    (lossRefresh i s).sched.plates[j]? = s.sched.plates[j]? ∧ refreshOf j (lossRefresh i s) = refreshOf j s := by
  unfold lossRefresh
  split
  · exact ⟨plate_failRefresh_of_ne hne s, refreshOf_failRefresh_of_ne hne s⟩
  · refine ⟨?_, refreshOf_congr (flight_comparePlate _ _) j⟩
    rw [plate_comparePlate_of_ne hne]
    exact plate_modPlate_of_ne hne ..

/-! ### Reports (R120, R121) -/

theorem mem_joinReport (e : CabinEntry) (l : List CabinEntry) : e ∈ joinReport e l := by
  unfold joinReport
  split
  · rename_i h
    obtain ⟨q, hq, hposition⟩ := List.any_eq_true.1 h
    exact List.mem_map.2 ⟨q, hq, if_pos (by simpa using hposition)⟩
  · exact List.mem_append_right _ (List.mem_singleton_self e)

theorem mem_joinReport_of_ne {d e : CabinEntry} {l : List CabinEntry} (hne : d.position ≠ e.position) (h : d ∈ l) : d ∈ joinReport e l := by
  unfold joinReport
  split
  · exact List.mem_map.2 ⟨d, h, if_neg hne⟩
  · exact List.mem_append_left _ h

theorem reportPlate_eq {i : Nat} {p : Plate} {s : State} (hp : s.sched.plates[i]? = some p) :
    reportPlate i s = s.modMuster fun m => { m with pendingReports := joinReport (reportFor i p) m.pendingReports, builderWaits := false } := by
  unfold reportPlate
  rw [hp]

theorem sched_reportAtMuster (i : Nat) (s : State) : (reportAtMuster i s).sched = s.sched := by
  unfold reportAtMuster
  split
  · exact sched_reportPlate i s
  · rfl

/-- A report of another plate stays pending. -/
theorem mem_reportAtMuster_of_ne {i : Nat} {e : CabinEntry} {s : State} (hne : e.position ≠ i) (h : e ∈ s.muster.pendingReports) :
    e ∈ (reportAtMuster i s).muster.pendingReports := by
  unfold reportAtMuster reportPlate
  (repeat' split)
  · exact mem_joinReport_of_ne (e := reportFor i _) hne h
  · exact h
  · exact h

/-! ### Plates lost together (R140) -/

/-- A plate as it is lost. -/
def Plate.lost (p : Plate) (x : RefreshState) : Plate :=
  { p with health := .notResponding, failureRun := 0, press := .released, shown := none, refresh := x }

/-- The plate that was `p` is lost. -/
def State.hasLost (s : State) (i : Nat) (p : Plate) : Prop := (∃ x, s.sched.plates[i]? = some (p.lost x)) ∧ refreshOf i s = none
  ∧ eventSet .plate s = true ∧ (level s = .muster → reportFor i (p.lost .idle) ∈ s.muster.pendingReports)

theorem writes_losePlate' (i : Nat) (s : State) : Writes (Part.refreshed ++ [.pendingReports, .builderWaits, .flags]) s (losePlate i s) :=
  writes_losePlate i (.refl _ s) (List.Subset.refl _)

theorem hasLost_losePlate {i : Nat} {p : Plate} {s : State} (hp : s.sched.plates[i]? = some p) : (losePlate i s).hasLost i p := by
  have hmod : (setEvent .plate (modPlate i (fun p => { p with health := .notResponding, failureRun := 0, press := .released }) s)).sched.plates[i]? =
      some { p with health := .notResponding, failureRun := 0, press := .released } := plate_modPlate_self _ hp
  obtain ⟨⟨x, hplate⟩, hrefresh⟩ := lossRefresh_spec hmod
  have hloss : Writes Part.refreshed (setEvent .plate (modPlate i (fun p => { p with health := .notResponding, failureRun := 0, press := .released }) s))
      (lossRefresh i (setEvent .plate (modPlate i (fun p => { p with health := .notResponding, failureRun := 0, press := .released }) s))) :=
    writes_lossRefresh i (.refl _ _) (List.Subset.refl _)
  have hevent := hloss.eventSet (eventSet_setEvent .plate _)
  unfold losePlate
  generalize lossRefresh i (setEvent .plate (modPlate i (fun p => { p with health := .notResponding, failureRun := 0, press := .released }) s)) = u at *
  have hreport : Writes [.pendingReports, .builderWaits] u (reportAtMuster i u) := writes_reportAtMuster i (.refl _ u) (List.Subset.refl _)
  refine ⟨⟨x, by rw [sched_reportAtMuster]; exact hplate⟩, ?_, hreport.eventSet hevent, fun hmuster => ?_⟩
  · rw [refreshOf_congr (congrArg Scheduler.flight (sched_reportAtMuster i u))]
    exact hrefresh
  · rw [hreport.level] at hmuster
    rw [reportAtMuster, if_pos hmuster, reportPlate_eq hplate]
    exact mem_joinReport (reportFor i (p.lost x)) _

theorem hasLost_losePlate_of_ne {i j : Nat} {p : Plate} {s : State} (hne : i ≠ j) (h : s.hasLost j p) : (losePlate i s).hasLost j p := by
  obtain ⟨⟨x, hplate⟩, hrefresh, hevent, hreported⟩ := h
  have hwrites := writes_losePlate' i s
  obtain ⟨hkeptPlate, hkeptRefresh⟩ := lossRefresh_of_ne hne (setEvent .plate
    (modPlate i (fun p => { p with health := .notResponding, failureRun := 0, press := .released }) s))
  have hsched : (losePlate i s).sched = (lossRefresh i (setEvent .plate
      (modPlate i (fun p => { p with health := .notResponding, failureRun := 0, press := .released }) s))).sched := sched_reportAtMuster i _
  refine ⟨⟨x, ?_⟩, ?_, hwrites.eventSet hevent, fun hmuster => ?_⟩
  · rw [hsched, hkeptPlate, sched_setEvent]
    exact (plate_modPlate_of_ne hne ..).trans hplate
  · rw [refreshOf_congr (congrArg Scheduler.flight hsched), hkeptRefresh]
    exact hrefresh
  · rw [hwrites.level] at hmuster
    have hloss : Writes Part.refreshed (setEvent .plate (modPlate i (fun p => { p with health := .notResponding, failureRun := 0, press := .released }) s))
      (lossRefresh i (setEvent .plate (modPlate i (fun p => { p with health := .notResponding, failureRun := 0, press := .released }) s))) :=
      writes_lossRefresh i (.refl _ _) (List.Subset.refl _)
    refine mem_reportAtMuster_of_ne (Ne.symm hne) ?_
    rw [show (lossRefresh i _).muster.pendingReports = _ from hloss.same .pendingReports rfl]
    exact hreported hmuster

theorem plate_losePlate_of_ne {i j : Nat} (hne : i ≠ j) (s : State) : (losePlate i s).sched.plates[j]? = s.sched.plates[j]? := by
  have hsched : (losePlate i s).sched = (lossRefresh i (setEvent .plate
      (modPlate i (fun p => { p with health := .notResponding, failureRun := 0, press := .released }) s))).sched := sched_reportAtMuster i _
  rw [hsched, (lossRefresh_of_ne hne _).1]
  exact plate_modPlate_of_ne hne ..

theorem foldl_hasLost {is : List Nat} {i : Nat} {p : Plate} {s : State} (hnot : i ∉ is) (h : s.hasLost i p) :
    (is.foldl (fun s i => losePlate i s) s).hasLost i p := by
  induction is generalizing s with
  | nil => exact h
  | cons j is ih =>
    rw [List.mem_cons, not_or] at hnot
    exact ih hnot.2 (hasLost_losePlate_of_ne (Ne.symm hnot.1) h)

/-- The cabins of the plates, which no operation of the Scheduler changes. -/
theorem cabins_losePlate (i : Nat) (s : State) : (losePlate i s).sched.plates.map Plate.cabin = s.sched.plates.map Plate.cabin := by
  have hblind : Plate.blindToRefresh Plate.cabin := fun _ _ => rfl
  have hmod {f : Plate → Plate} (hf : ∀ p, (f p).cabin = p.cabin) (u : State) : (modPlate i f u).sched.plates.map Plate.cabin = u.sched.plates.map Plate.cabin :=
    map_modAt hf i _
  unfold losePlate lossRefresh
  rw [sched_reportAtMuster]
  split
  · rw [failRefresh, seen_comparePlate hblind]
    refine Eq.trans (hmod ?_ _) (hmod ?_ s)
    · exact fun _ => rfl
    · exact fun _ => rfl
  · rw [seen_comparePlate hblind]
    refine Eq.trans (hmod ?_ _) (hmod ?_ s)
    · exact fun _ => rfl
    · exact fun _ => rfl

theorem cabins_loseAll (s : State) : (loseAll s).sched.plates.map Plate.cabin = s.sched.plates.map Plate.cabin := by
  unfold loseAll
  generalize (s.sched.plates.zipIdx.filter fun p => p.1.health ≠ .notResponding).map (·.2) = is
  induction is generalizing s with
  | nil => rfl
  | cons i is ih => exact (ih _).trans (cabins_losePlate i s)

/-- Plates lost in turn: those of the list are lost, the others stand. -/
theorem foldl_losePlate {is : List Nat} (hnodup : is.Nodup) {i : Nat} {p : Plate} {s : State} (hp : s.sched.plates[i]? = some p) :
    (i ∈ is → (is.foldl (fun s i => losePlate i s) s).hasLost i p) ∧ (i ∉ is → (is.foldl (fun s i => losePlate i s) s).sched.plates[i]? = some p) := by
  induction is generalizing s p with
  | nil => exact ⟨fun h => absurd h List.not_mem_nil, fun _ => hp⟩
  | cons j is ih =>
    obtain ⟨hj, his⟩ := List.nodup_cons.1 hnodup
    rw [List.foldl_cons]
    by_cases hij : j = i
    · subst hij
      exact ⟨fun _ => foldl_hasLost hj (hasLost_losePlate hp), fun hnot => absurd List.mem_cons_self hnot⟩
    · obtain ⟨hlost, hstands⟩ := ih his ((plate_losePlate_of_ne hij s).trans hp)
      exact ⟨fun hmem => hlost ((List.mem_cons.1 hmem).resolve_left (Ne.symm hij)), fun hnot => hstands fun hmem => hnot (List.mem_cons_of_mem _ hmem)⟩

/-- Every plate that responds, or may, is lost; one lost already stands. -/
theorem loseAll_spec {i : Nat} {p : Plate} {s : State} (hp : s.sched.plates[i]? = some p) :
    (p.health ≠ .notResponding → (loseAll s).hasLost i p) ∧ (p.health = .notResponding → (loseAll s).sched.plates[i]? = some p) := by
  have hnodup := nodup_places (fun p : Plate => decide (p.health ≠ .notResponding)) s.sched.plates
  have hmem := mem_places (fun p : Plate => decide (p.health ≠ .notResponding)) s.sched.plates i
  obtain ⟨hlost, hstands⟩ := foldl_losePlate hnodup hp
  refine ⟨fun h => hlost (hmem.2 ⟨p, hp, decide_eq_true h⟩), fun h => hstands fun hi => ?_⟩
  obtain ⟨q, hq, hhealth⟩ := hmem.1 hi
  rw [hp] at hq
  cases hq
  exact of_decide_eq_true hhealth h

/-! ### The chain OUT OF SERVICE -/

theorem writes_loseAll' (s : State) : Writes (Part.refreshed ++ [.pendingReports, .builderWaits, .flags]) s (loseAll s) :=
  writes_loseAll (.refl _ s) (List.Subset.refl _)

/-- The state in which the chain is out of service, before the plates are lost. -/
def State.unserved (r : ChainResult) (s : State) : State :=
  setEvent .chainFault ((s.modChain fun c => { c with service := .outOfService, lastResult := r }).modSched fun c =>
    { c with plates := c.plates.map fun p => { p with pollDue := none } })

theorem eventSet_outOfService (r : ChainResult) (s : State) : eventSet .chainFault (outOfService r s) = true :=
  (writes_loseAll' (s.unserved r)).eventSet (eventSet_setEvent _ _)

/-- While a report is outstanding, and outside JOINING and RUN, the end of a step leaves the reports pending. -/
theorem pendingReports_settle {s : State} (h : participates s = false ∨ s.muster.reportOutstanding = true) :
    (settle s).muster.pendingReports = s.muster.pendingReports := by
  have hrefresh : Writes Part.refreshed s (settleRefreshes s) := writes_settleRefreshes (.refl _ s) (List.Subset.refl _)
  have hidle : settleReports (settleRefreshes s) = settleRefreshes s := by
    rcases h with h | h
    · exact settleReports_idle (.inr (.inr (.inr (hrefresh.participates.trans h))))
    · exact settleReports_idle (.inr (.inl ((hrefresh.same .outstanding rfl).trans h)))
  have hafter : Writes [.answers, .active, .free, .engine, .plates, .lights, .line] (settleRefreshes s) (settle s) := by
    unfold settle
    rw [hidle]
    exact writes_settleAttention (writes_settleLights (writes_arbitrate (writes_settleAnswers (.refl _ _) (by simp)) (by simp)) (by simp)) (by simp)
  exact (hafter.same .pendingReports rfl).trans (hrefresh.same .pendingReports rfl)

/-- The end of a step leaves no refresh to a plate that is lost. -/
theorem hasLost_settle {i : Nat} {p : Plate} {s : State} (h : s.hasLost i p) : refreshOf i (settle s) = none ∧ eventSet .plate (settle s) = true
    ∧ (level s = .muster → s.muster.reportOutstanding = true → reportFor i (p.lost .idle) ∈ (settle s).muster.pendingReports) := by
  obtain ⟨⟨x, hplate⟩, hrefresh, hevent, hreported⟩ := h
  refine ⟨?_, (writes_settle (.refl _ s) (List.Subset.refl _)).eventSet hevent, fun hmuster houtstanding => ?_⟩
  · rw [Option.eq_none_iff_forall_not_mem]
    intro r hr
    rcases refreshOf_settle hr with h | ⟨q, hq, hhealth, -⟩
    · rw [hrefresh] at h
      cases h
    · rw [hplate] at hq
      cases hq
      exact hhealth rfl
  · rw [pendingReports_settle (.inr houtstanding)]
    exact hreported hmuster

/-- Each plate of the one state is lost in the other, with no poll due. -/
def State.losesPlates (s u : State) : Prop := ∀ (i : Nat) (p : Plate), s.sched.plates[i]? = some p →
  (p.health ≠ .notResponding → u.hasLost i { p with pollDue := none })
    ∧ (p.health = .notResponding → u.sched.plates[i]? = some { p with pollDue := none })

theorem losesPlates_outOfService {r : ChainResult} {s u : State} (hsched : u.sched = s.sched) : s.losesPlates (outOfService r u) := by
  intro i p hp
  refine loseAll_spec (p := { p with pollDue := none }) ?_
  show (u.sched.plates.map fun p => { p with pollDue := none })[i]? = _
  rw [hsched, List.getElem?_map, hp]
  rfl

/-- Plates lost, over the end of the step. -/
theorem platesLost_settle {s u : State} (h : s.losesPlates u) (hlevel : level u = level s)
    (houtstanding : u.muster.reportOutstanding = s.muster.reportOutstanding) : PlatesLost s (settle u) := by
  intro i p hp
  obtain ⟨hlost, hstands⟩ := h i p hp
  by_cases hhealth : p.health = .notResponding
  · obtain ⟨q, hq, hsame⟩ := plate_settle (hstands hhealth)
    refine ⟨q, hq, ?_⟩
    rcases hsame with hsame | ⟨hsame, -⟩
    · rw [hsame]
      exact ⟨hhealth, rfl, fun _ => ⟨rfl, rfl, rfl⟩, fun h => absurd hhealth h⟩
    · rw [hsame]
      exact ⟨hhealth, rfl, fun _ => ⟨rfl, rfl, rfl⟩, fun h => absurd hhealth h⟩
  · have h := hlost hhealth
    obtain ⟨hrefresh, hevent, hreport⟩ := hasLost_settle h
    rw [hlevel, houtstanding] at hreport
    obtain ⟨⟨x, hplate⟩, -⟩ := h
    obtain ⟨q, hq, hsame⟩ := plate_settle hplate
    refine ⟨q, hq, ?_⟩
    rcases hsame with hsame | ⟨hsame, -⟩
    · rw [hsame]
      exact ⟨rfl, rfl, fun h => absurd h hhealth, fun _ => ⟨rfl, rfl, rfl, hrefresh, hevent, hreport⟩⟩
    · rw [hsame]
      exact ⟨rfl, rfl, fun h => absurd h hhealth, fun _ => ⟨rfl, rfl, rfl, hrefresh, hevent, hreport⟩⟩

theorem service_outOfService (r : ChainResult) (s : State) :
    (outOfService r s).chain.service = .outOfService ∧ (outOfService r s).chain.lastResult = r := (writes_loseAll' (s.unserved r)).same .service rfl

theorem length_outOfService (r : ChainResult) (s : State) : (settle (outOfService r s)).sched.plates.length = s.sched.plates.length := by
  have hseen : (settle (outOfService r s)).sched.plates.map Plate.cabin = (outOfService r s).sched.plates.map Plate.cabin :=
    seen_settle_both (fun _ _ => rfl) (fun _ _ => rfl) _
  have hsame := congrArg List.length (hseen.trans (cabins_loseAll (s.unserved r)))
  rw [List.length_map, List.length_map] at hsame
  exact hsame.trans (List.length_map _)

/-- What every plate has come to, when each that stood before has come to it. -/
theorem all_plates {s t : State} {P : Plate → Prop} (hlength : t.sched.plates.length = s.sched.plates.length)
    (h : ∀ (i : Nat) (p : Plate), s.sched.plates[i]? = some p → ∃ q, t.sched.plates[i]? = some q ∧ P q) : ∀ q ∈ t.sched.plates, P q := by
  intro q hq
  obtain ⟨i, hi⟩ := List.mem_iff_getElem?.1 hq
  have hlt : i < s.sched.plates.length := hlength ▸ (List.getElem?_eq_some_iff.1 hi).1
  obtain ⟨q', hq', hP⟩ := h i _ (List.getElem?_eq_getElem hlt)
  rw [hi] at hq'
  cases hq'
  exact hP

/-! ### What stands over a row of the chain -/

/-- The time, the programme, the Monitor, the routes, the node and the port stand. -/
def State.outsideStands (s t : State) : Prop :=
  t.time = s.time ∧ t.store = s.store ∧ t.mon = s.mon ∧ t.route = s.route ∧ t.node = s.node ∧ t.port = s.port

/-- The parts that stand so. -/
abbrev Part.outside : List Part := [.isSet, .ship, .sources, .shift, .markTimer, .store, .neighbours, .filters, .declared] ++ Part.advertised

theorem Part.apart_of_subset {l m ps : List Part} (h : Part.apart m ps = true) (hl : l ⊆ m) : Part.apart l ps = true :=
  List.all_eq_true.2 fun p hp => List.all_eq_true.1 h p (hl hp)

theorem Writes.outsideStands {ps : List Part} {s t : State} (h : Writes ps s t) (hp : Part.apart Part.outside ps = true) : s.outsideStands t :=
  ⟨h.time (Part.apart_of_subset hp (by simp)), h.store (by simpa [Part.apart] using Part.apart_of_subset (l := [.store]) hp (by simp)),
    h.mon (Part.apart_of_subset hp (by simp)), h.route (Part.apart_of_subset hp (by simp)), h.node, h.port⟩

theorem State.outsideStands.trans {r s t : State} (h : r.outsideStands s) (k : s.outsideStands t) : r.outsideStands t := by
  obtain ⟨htime, hstore, hmon, hroute, hnode, hport⟩ := h
  obtain ⟨htime', hstore', hmon', hroute', hnode', hport'⟩ := k
  exact ⟨htime'.trans htime, hstore'.trans hstore, hmon'.trans hmon, hroute'.trans hroute, hnode'.trans hnode, hport'.trans hport⟩

theorem outsideStands_settle (s : State) : s.outsideStands (settle s) := (writes_settle (.refl _ s) (List.Subset.refl _)).outsideStands rfl

/-! ### The rows -/

theorem exec_chainStall {tr : Transaction} {s : State} (hengine : s.chain.engine = .transaction tr) (hphase : tr.phase = .start)
    (hover : 20 ≤ (s.time.now - tr.phaseAt).toNat) : exec .chainStall s = .next (settle (outOfService .busyStuck (engineIdle (readBusy true s)))) := by
  have hlong : phaseOver tr s = true := decide_eq_true hover
  show execChainStall s = _
  simp [execChainStall, inPhase_of hengine hphase, hlong]

/-- The state in which a timeout is counted and the reset pulse begun. -/
def State.timedOut (s : State) : State :=
  resetPulse (engineIdle ((readBusy true s).modCounters fun c => { c with chainTimeouts := raised c.chainTimeouts }))

theorem exec_chainTimeout {tr : Transaction} {s : State} (hengine : s.chain.engine = .transaction tr) (hphase : tr.phase = .finish)
    (hover : 20 ≤ (s.time.now - tr.phaseAt).toNat) : exec .chainTimeout s = .next (settle (transactionFailed tr s.timedOut)) := by
  have hlong : phaseOver tr s = true := decide_eq_true hover
  show execChainTimeout s = _
  simp [execChainTimeout, inPhase_of hengine hphase, hlong, State.timedOut]

/-- Settles O44. -/
theorem busyLimitsEndTransactions : Obligations.BusyLimitsEndTransactions := by
  unfold Obligations.BusyLimitsEndTransactions
  refine ⟨fun tr s hengine hphase hover => ?stall, fun tr s hengine hphase hover => ?timeout⟩
  case stall =>
    have hwrites : Writes (Part.refreshed ++ [.pendingReports, .builderWaits, .service, .flags]) (engineIdle (readBusy true s))
        (outOfService .busyStuck (engineIdle (readBusy true s))) := writes_outOfService _ (.refl _ _) (List.Subset.refl _)
    have hlost : PlatesLost s (settle (outOfService .busyStuck (engineIdle (readBusy true s)))) :=
      platesLost_settle (losesPlates_outOfService rfl) hwrites.level (hwrites.same .outstanding rfl)
    obtain ⟨hservice, hresult⟩ := service_outOfService .busyStuck (engineIdle (readBusy true s))
    have hevent := eventSet_outOfService .busyStuck (engineIdle (readBusy true s))
    have hlength := length_outOfService .busyStuck (engineIdle (readBusy true s))
    have hall := all_plates (P := fun q => q.health = .notResponding ∧ q.pollDue = none) hlength fun i p hp => by
      obtain ⟨q, hq, hhealth, hpoll, -⟩ := hlost i p hp
      exact ⟨q, hq, hhealth, hpoll⟩
    refine ⟨_, exec_chainStall hengine hphase hover, ?_⟩
    generalize outOfService .busyStuck (engineIdle (readBusy true s)) = v at *
    have hend := writes_settle (.refl _ v) (List.Subset.refl _)
    have hcounters := congrArg Counters.chainTimeouts (hend.counters_eq rfl)
    have hcounters' := congrArg Counters.chainTimeouts (hwrites.counters_same rfl)
    have hstands : s.outsideStands (engineIdle (readBusy true s)) := ⟨rfl, rfl, rfl, rfl, rfl, rfl⟩
    exact ⟨(hend.same .service rfl).1.trans hservice, (hend.same .service rfl).2.trans hresult, hend.eventSet hevent, hall, hlost,
      hcounters.trans hcounters', (hstands.trans (hwrites.outsideStands rfl)).trans (outsideStands_settle v)⟩
  case timeout =>
    have hfailed : Writes (Part.refreshed ++ [.pendingReports, .builderWaits, .flags]) s.timedOut (transactionFailed tr s.timedOut) :=
      writes_transactionFailed tr (.refl _ _) (List.Subset.refl _)
    refine ⟨_, exec_chainTimeout hengine hphase hover, ?_⟩
    generalize transactionFailed tr s.timedOut = v at *
    have hend := writes_settle (.refl _ v) (List.Subset.refl _)
    have hcounters := congrArg Counters.chainTimeouts (hend.counters_eq rfl)
    have hcounters' := congrArg Counters.chainTimeouts (hfailed.counters_same rfl)
    obtain ⟨hreset, hpulse⟩ : v.chain.chainReset = true ∧ v.chain.pulse = some { start := s.time.now, len := 1 } := hfailed.same .pulse rfl
    have hstands : s.outsideStands s.timedOut := ⟨rfl, rfl, rfl, rfl, rfl, rfl⟩
    obtain ⟨htime, hstore, hmon, hroute, hnode, hport⟩ := (hstands.trans (hfailed.outsideStands rfl)).trans (outsideStands_settle v)
    exact ⟨hcounters.trans hcounters', (hend.same .pulse rfl).1.trans hreset, (hend.same .pulse rfl).2.trans hpulse,
      (hend.same .service rfl).1.trans (hfailed.same .service rfl).1, htime, hstore, hmon, hroute, hnode, hport, hend.record.trans hfailed.record⟩

end Sys2Proof.Machine
end

