-- ==== Sys2Proof/Proofs/LoadEnds.lean ====
section
/-! PROOFS. The end of a transaction of a refresh in LOAD (R128, R135, R149, R152) (O46). -/

namespace Sys2Proof.Machine

/-! ### Refreshes updated -/

theorem refreshOf_modRefresh {f : Refresh → Refresh} (hf : ∀ r, (f r).position = r.position) (i j : Nat) (s : State) :
    refreshOf j (modRefresh i f s) = (refreshOf j s).map fun r => if i = j then f r else r := by
  show (s.sched.flight.map fun r => if r.position = i then f r else r).find? (·.position = j) = (s.sched.flight.find? (·.position = j)).map _
  rw [List.find?_map]
  have hsame : ((fun r : Refresh => decide (r.position = j)) ∘ fun r => if r.position = i then f r else r) = fun r => decide (r.position = j) := by
    funext r
    by_cases h : r.position = i <;> simp [h, hf]
  rw [hsame]
  cases hfind : s.sched.flight.find? (·.position = j) with
  | none => rfl
  | some r =>
    have hposition : r.position = j := by simpa using List.find?_some hfind
    simp [hposition, eq_comm]

theorem refreshOf_modPlate (i j : Nat) (f : Plate → Plate) (s : State) : refreshOf j (modPlate i f s) = refreshOf j s := rfl

/-! ### The comparison of a QUEUED plate -/

theorem stale_eq_false_iff (p : Plate) : p.stale = false ↔ p.shown.map (·.1) = some p.target := by
  unfold Plate.stale
  cases p.shown <;> simp

/-- A QUEUED plate after the comparison: out of the queue when the node refreshes and the plate shows its target. -/
theorem comparePlate_queued {i : Nat} {p : Plate} {s : State} (hp : s.sched.plates[i]? = some p) (hqueued : p.refresh = .queued) :
    ((refreshing s = true ∧ p.shown.map (·.1) = some p.target) →
        (comparePlate i s).sched.plates[i]? = some { p with refresh := .idle } ∧ (comparePlate i s).sched.queue = s.sched.queue.filter (· ≠ i))
      ∧ (¬ (refreshing s = true ∧ p.shown.map (·.1) = some p.target) → comparePlate i s = s) := by
  rw [← stale_eq_false_iff]
  refine ⟨fun ⟨hrefreshing, hstale⟩ => ?_, fun h => comparePlate_stands hp ?_⟩
  · rw [comparePlate_unqueues hp hrefreshing hqueued hstale]
    exact ⟨plate_placed hp .., rfl⟩
  · by_cases hrefreshing : refreshing s = true
    · exact .inr (.inr (.inr (.inl ⟨hqueued, by simpa using fun hstale => h ⟨hrefreshing, hstale⟩⟩)))
    · exact .inl (Bool.eq_false_iff.2 hrefreshing)

/-! ### A refresh queued again ahead of every entry (R146, R152) -/

theorem requeueFront_spec {i : Nat} {p : Plate} {s : State} (hp : s.sched.plates[i]? = some p) :
    let shows : Prop := refreshing s = true ∧ p.shown.map (·.1) = some p.target
    (requeueFront i s).sched.flight = s.sched.flight.filter (·.position ≠ i)
      ∧ (¬ shows → (requeueFront i s).sched.queue = i :: s.sched.queue ∧ (requeueFront i s).sched.plates[i]? = some { p with refresh := .queued })
      ∧ (shows → (requeueFront i s).sched.queue = s.sched.queue.filter (· ≠ i) ∧ (requeueFront i s).sched.plates[i]? = some { p with refresh := .idle }) := by
  have hmod : (modPlate i (fun p => { p with refresh := .queued }) ((leaveFlight i s).modSched fun c => { c with queue := i :: c.queue })).sched.plates[i]? =
      some { p with refresh := .queued } := plate_modPlate_self (s := (leaveFlight i s).modSched fun c => { c with queue := i :: c.queue }) _ hp
  obtain ⟨hleaves, hstays⟩ := comparePlate_queued hmod rfl
  refine ⟨flight_comparePlate _ _, fun hno => ?_, fun hshows => ?_⟩
  · have hsame : requeueFront i s = _ := hstays hno
    rw [hsame]
    exact ⟨rfl, hmod⟩
  · obtain ⟨hplate, hqueue⟩ := hleaves hshows
    refine ⟨hqueue.trans ?_, hplate⟩
    show (i :: s.sched.queue).filter (· ≠ i) = _
    simp

theorem refreshOf_requeueFront (i : Nat) (s : State) : refreshOf i (requeueFront i s) = none := by
  rw [requeueFront, refreshOf_congr (flight_comparePlate _ _)]
  exact refreshOf_leaveFlight i s

theorem plate_requeueFront {i : Nat} {p : Plate} {s : State} (hp : s.sched.plates[i]? = some p) :
    ∃ x, (requeueFront i s).sched.plates[i]? = some { p with refresh := x } := by
  obtain ⟨-, hno, hyes⟩ := requeueFront_spec hp
  by_cases h : refreshing s = true ∧ p.shown.map (·.1) = some p.target
  · exact ⟨_, (hyes h).2⟩
  · exact ⟨_, (hno h).2⟩

/-! ### The outcome of a LOAD transaction, by cases (R149, R152) -/

section
variable {i : Nat} {ok : Bool} {r : Refresh} {s : State}

theorem loadOutcome_none (h : refreshOf i s = none) : loadOutcome i ok s = s := by
  unfold loadOutcome
  rw [h]

theorem loadOutcome_drive (h : refreshOf i s = some r) (hload : r.driveTimer = none) (hnext : r.next = .drive) : loadOutcome i true s = enterDrive i s := by
  unfold loadOutcome
  rw [h]
  simp [hload, hnext]

theorem loadOutcome_next (h : refreshOf i s = some r) (hload : r.driveTimer = none) (hnext : r.next ≠ .drive) (hcancelled : r.cancelled = false) :
    loadOutcome i true s = modRefresh i (fun r => { r with next := r.next.following }) s := by
  unfold loadOutcome
  rw [h]
  simp [hload, hnext, hcancelled]

theorem loadOutcome_failed (h : refreshOf i s = some r) (hload : r.driveTimer = none) (hcancelled : r.cancelled = false) : loadOutcome i false s = s := by
  unfold loadOutcome
  rw [h]
  simp [hload, hcancelled]

/-- A cancelled refresh leaves LOAD, but on a DRIVE write that is complete. -/
theorem loadOutcome_cancelled (h : refreshOf i s = some r) (hload : r.driveTimer = none) (hcancelled : r.cancelled = true)
    (hends : r.next ≠ .drive ∨ ok = false) :
    loadOutcome i ok s = requeueFront i (if r.next = .drive then modPlate i (fun p => { p with shown := none }) s else s) := by
  unfold loadOutcome
  rw [h]
  rcases hends with hnext | hbad
  · simp [hload, hcancelled, hnext]
  · simp [hload, hcancelled, hbad]

theorem refreshOf_enterDrive (h : refreshOf i s = some r) :
    refreshOf i (enterDrive i s) = some { r with driveTimer := some { start := s.time.now, len := 4000 }, cancelled := false } := by
  have hmod := refreshOf_modRefresh (f := fun r => { r with driveTimer := startTimer s Config.driveTime, cancelled := false }) (fun _ => rfl) i i s
  rw [enterDrive, refreshOf_modPlate, hmod, h, Option.map_some, if_pos rfl]
  rfl

theorem plate_enterDrive {p : Plate} (hp : s.sched.plates[i]? = some p) : (enterDrive i s).sched.plates[i]? = some { p with refresh := .drive } :=
  plate_modPlate_self (s := modRefresh i (fun r => { r with driveTimer := startTimer s Config.driveTime, cancelled := false }) s) _ hp

/-- The plate of a refresh that is cancelled and leaves LOAD. -/
theorem plate_loadOutcome_cancelled {p : Plate} (h : refreshOf i s = some r) (hload : r.driveTimer = none) (hcancelled : r.cancelled = true)
    (hends : r.next ≠ .drive ∨ ok = false) (hp : s.sched.plates[i]? = some p) :
    refreshOf i (loadOutcome i ok s) = none
      ∧ ∃ x, (loadOutcome i ok s).sched.plates[i]? = some { p with shown := if r.next = .drive then none else p.shown, refresh := x } := by
  rw [loadOutcome_cancelled h hload hcancelled hends]
  refine ⟨refreshOf_requeueFront i _, ?_⟩
  split
  · obtain ⟨x, hx⟩ := plate_requeueFront (plate_modPlate_self (fun p => { p with shown := none }) hp)
    exact ⟨x, hx⟩
  · exact plate_requeueFront hp

end

/-! ### Health (R135) -/

section
variable {i : Nat} {p : Plate} {s : State}

theorem sched_healthComplete (hp : s.sched.plates[i]? = some p) :
    (healthComplete i s).sched = (modPlate i (fun p => { p with failureRun := 0, health := .responding }) s).sched := by
  unfold healthComplete
  rw [hp]
  dsimp only
  split
  · rw [sched_reportAtMuster, sched_setEvent]
  · rfl

theorem healthFailed_run (hp : s.sched.plates[i]? = some p) (h : p.failureRun < 2) :
    healthFailed i s = modPlate i (fun p => { p with failureRun := p.failureRun + 1 }) s := by
  unfold healthFailed
  rw [hp]
  exact if_pos h

theorem healthFailed_lost (hp : s.sched.plates[i]? = some p) (h : 2 ≤ p.failureRun) (hlost : p.health = .notResponding) :
    healthFailed i s = modPlate i (fun p => { p with failureRun := 0 }) s := by
  unfold healthFailed
  rw [hp]
  exact (if_neg (by omega)).trans (if_pos hlost)

theorem healthFailed_loses (hp : s.sched.plates[i]? = some p) (h : 2 ≤ p.failureRun) (hlost : p.health ≠ .notResponding) :
    healthFailed i s = losePlate i s := by
  unfold healthFailed
  rw [hp]
  exact (if_neg (by omega)).trans (if_neg hlost)

end

/-! ### The two outcomes of a LOAD transaction -/

/-- The refresh after a complete write: the next write, or the drive. -/
def Refresh.advanced (r : Refresh) (now : Tick) : Refresh :=
  if r.next = .drive then { r with driveTimer := some { start := now, len := 4000 } } else { r with next := r.next.following }

section
variable {i : Nat} {p : Plate} {r : Refresh} {s : State}

/-- A complete write. -/
theorem loadComplete_spec (hp : s.sched.plates[i]? = some p) (hr : refreshOf i s = some r) (hload : r.driveTimer = none) :
    ∃ q, (loadOutcome i true (healthComplete i s)).sched.plates[i]? = some q ∧ q.health = .responding ∧ q.failureRun = 0 ∧ q.shown = p.shown
      ∧ (r.cancelled = false → refreshOf i (loadOutcome i true (healthComplete i s)) = some (r.advanced s.time.now))
      ∧ (r.next = .drive → refreshOf i (loadOutcome i true (healthComplete i s)) =
          some { r with driveTimer := some { start := s.time.now, len := 4000 }, cancelled := false })
      ∧ (r.next ≠ .drive → r.cancelled = true → refreshOf i (loadOutcome i true (healthComplete i s)) = none) := by
  have hsched := sched_healthComplete hp
  have hplate : (healthComplete i s).sched.plates[i]? = some { p with failureRun := 0, health := .responding } := by
    rw [hsched]
    exact plate_modPlate_self _ hp
  have hrefresh : refreshOf i (healthComplete i s) = some r := (refreshOf_congr (congrArg Scheduler.flight hsched) i).trans hr
  have hnow : (healthComplete i s).time.now = s.time.now := (writes_healthComplete i (.refl [.pendingReports, .builderWaits, .plates, .flags] s) (List.Subset.refl _)).now
  generalize healthComplete i s = u at *
  by_cases hnext : r.next = .drive
  · have hdrive := refreshOf_enterDrive hrefresh
    rw [hnow] at hdrive
    rw [loadOutcome_drive hrefresh hload hnext]
    refine ⟨_, plate_enterDrive hplate, rfl, rfl, rfl, fun hcancelled => hdrive.trans ?_, fun _ => hdrive, fun hno => absurd hnext hno⟩
    rw [Refresh.advanced, if_pos hnext, ← hcancelled]
  · cases hcancelled : r.cancelled with
    | false =>
      rw [loadOutcome_next hrefresh hload hnext hcancelled]
      refine ⟨_, hplate, rfl, rfl, rfl, fun _ => ?_, fun hyes => absurd hyes hnext, fun _ => nofun⟩
      have hmod := refreshOf_modRefresh (f := fun r => { r with next := r.next.following }) (fun _ => rfl) i i u
      rw [hmod, hrefresh, Option.map_some, if_pos rfl, Refresh.advanced, if_neg hnext]
    | true =>
      obtain ⟨hnone, x, hx⟩ := plate_loadOutcome_cancelled (ok := true) hrefresh hload hcancelled (.inl hnext) hplate
      refine ⟨_, hx, rfl, rfl, if_neg hnext, nofun, fun hyes => absurd hyes hnext, fun _ _ => hnone⟩

/-- A failed write. -/
theorem loadFailed_spec (hp : s.sched.plates[i]? = some p) (hr : refreshOf i s = some r) (hload : r.driveTimer = none) :
    ∃ q, (loadOutcome i false (healthFailed i s)).sched.plates[i]? = some q
      ∧ (r.cancelled = false → p.failureRun < 2 → q.health = p.health ∧ q.failureRun = p.failureRun + 1
          ∧ refreshOf i (loadOutcome i false (healthFailed i s)) = some r)
      ∧ (r.cancelled = true → refreshOf i (loadOutcome i false (healthFailed i s)) = none ∧ (r.next = .drive → q.shown = none)
          ∧ (r.next ≠ .drive → p.failureRun < 2 → q.shown = p.shown)) := by
  by_cases hrun : p.failureRun < 2
  · rw [healthFailed_run hp hrun]
    have hplate := plate_modPlate_self (fun p => { p with failureRun := p.failureRun + 1 }) hp
    cases hcancelled : r.cancelled with
    | false =>
      rw [loadOutcome_failed (s := modPlate i _ s) hr hload hcancelled]
      exact ⟨_, hplate, fun _ _ => ⟨rfl, rfl, hr⟩, nofun⟩
    | true =>
      obtain ⟨hnone, x, hx⟩ := plate_loadOutcome_cancelled (ok := false) (s := modPlate i _ s) hr hload hcancelled (.inr rfl) hplate
      exact ⟨_, hx, nofun, fun _ => ⟨hnone, fun hyes => if_pos hyes, fun hno _ => if_neg hno⟩⟩
  · by_cases hlost : p.health = .notResponding
    · rw [healthFailed_lost hp (by omega) hlost]
      have hplate := plate_modPlate_self (fun p => { p with failureRun := 0 }) hp
      cases hcancelled : r.cancelled with
      | false =>
        rw [loadOutcome_failed (s := modPlate i _ s) hr hload hcancelled]
        exact ⟨_, hplate, fun _ hless => absurd hless hrun, nofun⟩
      | true =>
        obtain ⟨hnone, x, hx⟩ := plate_loadOutcome_cancelled (ok := false) (s := modPlate i _ s) hr hload hcancelled (.inr rfl) hplate
        exact ⟨_, hx, nofun, fun _ => ⟨hnone, fun hyes => if_pos hyes, fun _ hless => absurd hless hrun⟩⟩
    · rw [healthFailed_loses hp (by omega) hlost]
      obtain ⟨⟨x, hplate⟩, hnone, -⟩ := hasLost_losePlate hp
      rw [loadOutcome_none hnone]
      exact ⟨_, hplate, fun _ hless => absurd hless hrun, fun _ => ⟨hnone, fun _ => rfl, fun _ hless => absurd hless hrun⟩⟩

end

/-! ### TRANSACTION_END -/

/-- The state in which the transaction has left the chain. -/
def State.offChain (s : State) : State := engineIdle (readBusy false s)

theorem exec_transactionEnd {tr : Transaction} {reply : List Octet} {s : State} (hengine : s.chain.engine = .transaction tr) (hphase : tr.phase = .finish) :
    exec (.transactionEnd reply) s = .next (settle (transactionEnded tr reply s.offChain)) := by
  show execTransactionEnd reply s = _
  simp [execTransactionEnd, inPhase_of hengine hphase, State.offChain]

theorem transactionEnded_load {tr : Transaction} {reply : List Octet} {r : Refresh} {p : Plate} {s : State} (hop : tr.op ≠ .poll)
    (hp : s.sched.plates[tr.position]? = some p) (hr : refreshOf tr.position s = some r) :
    (writeReplyOk (writeOctets tr.op p.cabin r.content r.full) reply = true →
        transactionEnded tr reply s = loadOutcome tr.position true (healthComplete tr.position s))
      ∧ (writeReplyOk (writeOctets tr.op p.cabin r.content r.full) reply = false →
          transactionEnded tr reply s = loadOutcome tr.position false (healthFailed tr.position s)) := by
  unfold transactionEnded transactionFailed
  constructor
  · intro hsound
    simp [hop, hr, hp, hsound]
  · intro hbad
    simp [hop, hr, hp, hbad]

/-- What stands over the end of a transaction. -/
theorem outsideStands_transactionEnd (tr : Transaction) (reply : List Octet) (s : State) :
    s.outsideStands (settle (transactionEnded tr reply s.offChain)) ∧ (settle (transactionEnded tr reply s.offChain)).muster.record = s.muster.record := by
  have hended : Writes (Part.refreshed ++ [.pendingReports, .builderWaits, .flags, .counters]) s.offChain (transactionEnded tr reply s.offChain) :=
    writes_transactionEnded tr reply (.refl _ _) (List.Subset.refl _)
  have hend := writes_settle (.refl _ (transactionEnded tr reply s.offChain)) (List.Subset.refl _)
  have hoff : s.outsideStands s.offChain := ⟨rfl, rfl, rfl, rfl, rfl, rfl⟩
  exact ⟨(hoff.trans (hended.outsideStands rfl)).trans (outsideStands_settle _), hend.record.trans hended.record⟩

/-- Settles O46. -/
theorem loadTransactionEnds : Obligations.LoadTransactionEnds := by
  unfold Obligations.LoadTransactionEnds
  refine ⟨fun tr r p reply s hengine hphase hop hp hr hload hcancelled => ?stands, fun i ok r p s hr hload hcancelled hp => ?cancels,
    fun tr r p reply s hengine hphase hop hp hr hload hcancelled => ?ends⟩
  case stands =>
    obtain ⟨hsound, hbad⟩ := transactionEnded_load (s := s.offChain) (reply := reply) hop hp hr
    obtain ⟨⟨htime, hstore, hmon, hroute, hnode, hport⟩, hrecord⟩ := outsideStands_transactionEnd tr reply s
    have hexec := exec_transactionEnd (reply := reply) hengine hphase
    cases hreply : writeReplyOk (writeOctets tr.op p.cabin r.content r.full) reply with
    | true =>
      obtain ⟨q, hq, hhealth, hrun, -, hrefresh, -⟩ := loadComplete_spec (s := s.offChain) hp hr hload
      rw [← hsound hreply] at hq hrefresh
      obtain ⟨q', hq', hsame⟩ := plate_of_map (seen_settle_both (g := fun p => (p.health, p.failureRun)) (fun _ _ => rfl) (fun _ _ => rfl) _) hq
      obtain ⟨hhealth', hrun'⟩ := Prod.ext_iff.1 hsame
      exact ⟨_, q', hexec, hq', fun _ => ⟨hhealth'.trans hhealth, hrun'.trans hrun, refreshOf_settle_some (hrefresh hcancelled)⟩, nofun,
        htime, hstore, hmon, hroute, hnode, hport, hrecord⟩
    | false =>
      obtain ⟨q, hq, hstands, -⟩ := loadFailed_spec (s := s.offChain) hp hr hload
      rw [← hbad hreply] at hq hstands
      obtain ⟨q', hq', hsame⟩ := plate_of_map (seen_settle_both (g := fun p => (p.health, p.failureRun)) (fun _ _ => rfl) (fun _ _ => rfl) _) hq
      obtain ⟨hhealth', hrun'⟩ := Prod.ext_iff.1 hsame
      refine ⟨_, q', hexec, hq', nofun, fun _ hless => ?_, htime, hstore, hmon, hroute, hnode, hport, hrecord⟩
      obtain ⟨hhealth, hrun, hrefresh⟩ := hstands hcancelled hless
      exact ⟨hhealth'.trans hhealth, hrun'.trans hrun, refreshOf_settle_some hrefresh⟩
  case cancels =>
    refine ⟨fun hnext => ?_, fun hnext hok => ?_, fun hnext hbad => ?_⟩
    · rw [loadOutcome_cancelled hr hload hcancelled (.inl hnext), if_neg hnext]
      exact requeueFront_spec hp
    · subst hok
      rw [loadOutcome_drive hr hload hnext]
      exact ⟨refreshOf_enterDrive hr, rfl, plate_enterDrive hp⟩
    · subst hbad
      rw [loadOutcome_cancelled hr hload hcancelled (.inr rfl), if_pos hnext]
      obtain ⟨hflight, hqueue, -⟩ := requeueFront_spec (plate_modPlate_self (fun p => { p with shown := none }) hp)
      exact ⟨hflight, hqueue fun hshows => nomatch hshows.2⟩
  case ends =>
    obtain ⟨hsound, hbad⟩ := transactionEnded_load (s := s.offChain) (reply := reply) hop hp hr
    have hexec := exec_transactionEnd (reply := reply) hengine hphase
    have hfresh {x : Refresh} (hnone : refreshOf tr.position (transactionEnded tr reply s.offChain) = none)
        (hx : refreshOf tr.position (settle (transactionEnded tr reply s.offChain)) = some x) : x.cancelled = false ∧ x.next = .ident := by
      obtain ⟨p', -, -, rfl⟩ := (refreshOf_settle hx).resolve_left (by rw [hnone]; simp)
      exact ⟨rfl, rfl⟩
    cases hreply : writeReplyOk (writeOctets tr.op p.cabin r.content r.full) reply with
    | true =>
      obtain ⟨q, hq, -, -, hshown, -, hdrive, hleaves⟩ := loadComplete_spec (s := s.offChain) hp hr hload
      rw [← hsound hreply] at hq hdrive hleaves
      obtain ⟨q', hq', hsame⟩ := plate_of_map (seen_settle_both (g := Plate.shown) (fun _ _ => rfl) (fun _ _ => rfl) _) hq
      exact ⟨_, q', hexec, hq', fun hnext _ => ⟨hsame.trans hshown, refreshOf_settle_some (hdrive hnext)⟩, fun _ _ => hsame.trans hshown, nofun,
        fun hno x hx => hfresh (hleaves (hno.resolve_right nofun) hcancelled) hx⟩
    | false =>
      obtain ⟨q, hq, -, hends⟩ := loadFailed_spec (s := s.offChain) hp hr hload
      rw [← hbad hreply] at hq hends
      obtain ⟨hnone, habsent, hkept⟩ := hends hcancelled
      obtain ⟨q', hq', hsame⟩ := plate_of_map (seen_settle_both (g := Plate.shown) (fun _ _ => rfl) (fun _ _ => rfl) _) hq
      exact ⟨_, q', hexec, hq', nofun, fun hnext hok => hsame.trans (hkept hnext (hok.resolve_left nofun)), fun hnext _ => hsame.trans (habsent hnext),
        fun _ x hx => hfresh hnone hx⟩

end Sys2Proof.Machine
end

