-- ==== Sys2Proof/Proofs/LineTests.lean ====
section
/-! PROOFS. Line tests requested and started (R138, R139, R152) (O49). -/

namespace Sys2Proof.Machine

/-! ### States reached in turn -/

theorem foldl_keeps {α : Type} {P : State → Prop} {f : State → α → State} {l : List α} (hkeeps : ∀ a ∈ l, ∀ s, P s → P (f s a)) {s : State} (h : P s) :
    P (l.foldl f s) := by
  induction l generalizing s with
  | nil => exact h
  | cons a l ih =>
    exact ih (fun b hb => hkeeps b (List.mem_cons_of_mem _ hb)) (hkeeps a List.mem_cons_self s h)

/-- What one step of a fold brings about, and every step keeps. -/
theorem foldl_reaches {α : Type} {P Q : State → Prop} {f : State → α → State} {l : List α} {a : α} (hmem : a ∈ l) (hkeeps : ∀ b ∈ l, ∀ s, P s → P (f s b))
    (hreaches : ∀ s, P s → Q (f s a)) (hstays : ∀ b ∈ l, ∀ s, Q s → Q (f s b)) {s : State} (h : P s) : Q (l.foldl f s) := by
  induction l generalizing s with
  | nil => cases hmem
  | cons b l ih =>
    rcases List.mem_cons.1 hmem with rfl | hmem
    · exact foldl_keeps (fun c hc => hstays c (List.mem_cons_of_mem _ hc)) (hreaches s h)
    · exact ih hmem (fun c hc => hkeeps c (List.mem_cons_of_mem _ hc)) (fun c hc => hstays c (List.mem_cons_of_mem _ hc)) (hkeeps b List.mem_cons_self s h)

/-! ### The end of a step with a test pending or on the chain -/

theorem arbitrate_busy {s : State} (h : chainFree s = false) : arbitrate s = s := by
  have hdue : duePoll s = none := by rw [duePoll, h]; rfl
  unfold arbitrate
  rw [hdue]
  exact if_neg (by rw [h]; decide)

theorem chainFree_beforeArbiter (s : State) : chainFree s.beforeArbiter = chainFree s := by
  have hrefresh : Writes Part.refreshed s (settleRefreshes s) := writes_settleRefreshes (.refl _ s) (List.Subset.refl _)
  have hbefore := writes_beforeArbiter s
  have hengine : s.beforeArbiter.chain.engine = s.chain.engine := (hbefore.same .engine rfl).trans (hrefresh.same .engine rfl)
  have hpending : s.beforeArbiter.chain.testPending = s.chain.testPending := (hbefore.same .testPending rfl).trans (hrefresh.same .testPending rfl)
  have hservice : s.beforeArbiter.chain.service = s.chain.service := (hbefore.same .service rfl).1.trans (hrefresh.same .service rfl).1
  rw [chainFree, chainFree, hengine, hpending, hservice]

theorem sched_settle_pending {s : State} (h : s.chain.testPending = true) : (settle s).sched = s.sched := by
  have hforbidden : startOne s = s := startOne_forbidden (by rw [startAllowed, h]; simp)
  have hstays : settleRefreshes s = s := by rw [settleRefreshes, hforbidden, hforbidden]
  rw [sched_settle, arbitrate_busy (by rw [chainFree_beforeArbiter, chainFree, h]; simp), sched_beforeArbiter, hstays]

theorem Writes.chain {ps : List Part} {r s : State} (h : Writes ps r s) (hp : Part.apart [.engine, .testPending, .pulse, .service] ps = true) :
    s.chain = r.chain := by
  have hengine : s.chain.engine = r.chain.engine := h.sameOf hp (p := .engine) (by simp)
  have hpending : s.chain.testPending = r.chain.testPending := h.sameOf hp (p := .testPending) (by simp)
  obtain ⟨hreset, hpulse⟩ : s.chain.chainReset = r.chain.chainReset ∧ s.chain.pulse = r.chain.pulse := h.sameOf hp (p := .pulse) (by simp)
  obtain ⟨hservice, hresult⟩ : s.chain.service = r.chain.service ∧ s.chain.lastResult = r.chain.lastResult := h.sameOf hp (p := .service) (by simp)
  exact (ChainControl.mk.injEq ..).mpr ⟨hengine, hservice, hresult, hpending, hreset, hpulse⟩

theorem chain_settle_busy {s : State} (h : chainFree s = false) : (settle s).chain = s.chain := by
  have hrefresh : Writes Part.refreshed s (settleRefreshes s) := writes_settleRefreshes (.refl _ s) (List.Subset.refl _)
  refine ((writes_afterArbiter s).chain rfl).trans ?_
  rw [arbitrate_busy ((chainFree_beforeArbiter s).trans h)]
  exact ((writes_beforeArbiter s).chain rfl).trans (hrefresh.chain rfl)

/-! ### One refresh cancelled (R152) -/

theorem writes_cancelOne' (s : State) (i : Nat) : Writes Part.refreshed s (cancelOne s i) := writes_cancelOne i (.refl _ s) (List.Subset.refl _)

theorem onChain_congr {s t : State} (h : t.chain.engine = s.chain.engine) (i : Nat) : onChain i t = onChain i s := by
  rw [onChain, onChain, h]

theorem Writes.onChain {ps : List Part} {r s : State} (h : Writes ps r s) (hp : ps.contains .engine = false) (i : Nat) : onChain i s = onChain i r :=
  onChain_congr (h.same .engine hp) i

theorem Writes.refreshing {ps : List Part} {r s : State} (h : Writes ps r s) : refreshing s = refreshing r := by
  rw [Machine.refreshing, Machine.refreshing, h.node]

theorem cancelOne_marks {i : Nat} {s : State} (h : onChain i s = true) : cancelOne s i = modRefresh i (fun r => { r with cancelled := true }) s := if_pos h

theorem cancelOne_requeues {i : Nat} {s : State} (h : onChain i s = false) : cancelOne s i = requeueFront i s := if_neg (by rw [h]; decide)

theorem plate_requeueFront_of_ne {i j : Nat} (hne : i ≠ j) (s : State) : (requeueFront i s).sched.plates[j]? = s.sched.plates[j]? := by
  rw [requeueFront, plate_comparePlate_of_ne hne]
  exact plate_modPlate_of_ne hne ..

theorem mem_queue_comparePlate_of_ne {i j : Nat} (hne : i ≠ j) (s : State) : j ∈ (comparePlate i s).sched.queue ↔ j ∈ s.sched.queue := by
  obtain h | ⟨p, -, -, ⟨-, -, h⟩ | ⟨-, -, h⟩⟩ := comparePlate_cases i s <;> rw [h]
  · show j ∈ s.sched.queue ++ [i] ↔ _
    simp [Ne.symm hne]
  · show j ∈ s.sched.queue.filter (· ≠ i) ↔ _
    simp [Ne.symm hne]

theorem mem_queue_requeueFront_of_ne {i j : Nat} (hne : i ≠ j) (s : State) : j ∈ (requeueFront i s).sched.queue ↔ j ∈ s.sched.queue := by
  rw [requeueFront, mem_queue_comparePlate_of_ne hne]
  show j ∈ i :: s.sched.queue ↔ _
  simp [Ne.symm hne]

theorem flight_requeueFront (i : Nat) (s : State) : (requeueFront i s).sched.flight = s.sched.flight.filter (·.position ≠ i) := flight_comparePlate _ _

/-- A cancellation of another plate's refresh. -/
theorem cancelOne_of_ne {i j : Nat} (hne : i ≠ j) (s : State) : (cancelOne s i).sched.plates[j]? = s.sched.plates[j]?
    ∧ (j ∈ (cancelOne s i).sched.queue ↔ j ∈ s.sched.queue)
    ∧ ∀ x, x.position = j → (x ∈ (cancelOne s i).sched.flight ↔ x ∈ s.sched.flight) := by
  cases h : onChain i s with
  | true =>
    rw [cancelOne_marks h]
    refine ⟨rfl, Iff.rfl, fun x hx => ?_⟩
    show x ∈ s.sched.flight.map (fun r => if r.position = i then { r with cancelled := true } else r) ↔ _
    rw [List.mem_map]
    constructor
    · rintro ⟨r, hr, rfl⟩
      by_cases hposition : r.position = i
      · rw [if_pos hposition] at hx
        exact absurd (hposition.symm.trans hx) hne
      · rwa [if_neg hposition]
    · exact fun hmem => ⟨x, hmem, if_neg fun hposition => hne (hposition.symm.trans hx)⟩
  | false =>
    rw [cancelOne_requeues h]
    refine ⟨plate_requeueFront_of_ne hne s, mem_queue_requeueFront_of_ne hne s, fun x hx => ?_⟩
    rw [flight_requeueFront, List.mem_filter]
    simp [hx, Ne.symm hne]

/-- The refreshes in flight after one is cancelled: none of that plate in LOAD but one marked, on the chain. -/
theorem mem_flight_cancelOne {i : Nat} {s : State} {x : Refresh} (h : x ∈ (cancelOne s i).sched.flight) :
    (x ∈ s.sched.flight ∧ x.position ≠ i) ∨ (x.position = i ∧ x.cancelled = true ∧ onChain i s = true) := by
  cases hon : onChain i s with
  | true =>
    rw [cancelOne_marks hon] at h
    obtain ⟨r, hr, rfl⟩ := List.mem_map.1 h
    by_cases hposition : r.position = i
    · rw [if_pos hposition]
      exact .inr ⟨hposition, rfl, rfl⟩
    · rw [if_neg hposition]
      exact .inl ⟨hr, hposition⟩
  | false =>
    rw [cancelOne_requeues hon, flight_requeueFront, List.mem_filter] at h
    exact .inl ⟨h.1, by simpa using h.2⟩

/-! ### All the refreshes in LOAD cancelled -/

theorem mem_loading {i : Nat} {s : State} : i ∈ loading s ↔ ∃ x ∈ s.sched.flight, x.driveTimer = none ∧ x.position = i := by
  simp [loading, and_assoc]

theorem writes_cancelLoads' (s : State) : Writes Part.refreshed s (cancelLoads s) := writes_cancelLoads (.refl _ s) (List.Subset.refl _)

theorem loads_foldl_cancelOne {is : List Nat} {s : State}
    (h : ∀ x ∈ s.sched.flight, x.driveTimer = none → x.position ∈ is ∨ (x.cancelled = true ∧ onChain x.position s = true)) :
    ∀ x ∈ (is.foldl cancelOne s).sched.flight, x.driveTimer = none → x.cancelled = true ∧ onChain x.position s = true := by
  induction is generalizing s with
  | nil => exact fun x hx hload => (h x hx hload).resolve_left List.not_mem_nil
  | cons i is ih =>
    have hon (j : Nat) : onChain j (cancelOne s i) = onChain j s := (writes_cancelOne' s i).onChain rfl j
    have hnext := @ih (cancelOne s i) fun x hx hload => by
      rw [hon]
      rcases mem_flight_cancelOne hx with ⟨hmem, hne⟩ | ⟨hposition, hcancelled, hchain⟩
      · exact (h x hmem hload).imp_left fun hin => (List.mem_cons.1 hin).resolve_left hne
      · exact .inr ⟨hcancelled, by rwa [hposition]⟩
    simp only [hon] at hnext
    exact hnext

/-- No refresh in LOAD is left but one cancelled, whose transaction is on the chain. -/
theorem loads_cancelLoads (s : State) : ∀ x ∈ (cancelLoads s).sched.flight, x.driveTimer = none → x.cancelled = true ∧ onChain x.position s = true :=
  loads_foldl_cancelOne fun x hx hload => .inl (List.mem_reverse.2 (mem_loading.2 ⟨x, hx, hload, rfl⟩))

/-- A refresh in DRIVE goes on. -/
theorem drive_cancelLoads {x : Refresh} {s : State} (hx : x ∈ s.sched.flight) (halone : ∀ y ∈ s.sched.flight, y.position = x.position → y = x)
    (hdrive : x.driveTimer.isSome = true) : x ∈ (cancelLoads s).sched.flight := by
  refine foldl_keeps (P := fun u => x ∈ u.sched.flight) (fun i hi u hu => ?_) hx
  have hne : i ≠ x.position := by
    rintro rfl
    obtain ⟨y, hy, hload, hposition⟩ := mem_loading.1 (List.mem_reverse.1 hi)
    rw [halone y hy hposition] at hload
    rw [hload] at hdrive
    cases hdrive
  exact ((cancelOne_of_ne hne u).2.2 x rfl).2 hu

/-- A plate's transaction is on the chain, the plate stands, and one of the refreshes is in flight. -/
def State.chained (s : State) (i : Nat) (p : Plate) (l : List Refresh) : Prop :=
  onChain i s = true ∧ s.sched.plates[i]? = some p ∧ ∃ y ∈ l, y ∈ s.sched.flight

theorem chained_cancelOne_self {i : Nat} {p : Plate} {l m : List Refresh} (hlm : ∀ y ∈ l, y.position = i ∧ { y with cancelled := true } ∈ m) {s : State}
    (h : s.chained i p l) : (cancelOne s i).chained i p m := by
  obtain ⟨hon, hp, y, hy, hflight⟩ := h
  obtain ⟨hposition, hm⟩ := hlm y hy
  refine ⟨((writes_cancelOne' s i).onChain rfl i).trans hon, ?_, _, hm, ?_⟩
  · rw [cancelOne_marks hon]
    exact hp
  · rw [cancelOne_marks hon]
    exact List.mem_map.2 ⟨y, hflight, if_pos hposition⟩

theorem chained_cancelOne {i : Nat} {p : Plate} {l : List Refresh} (hl : ∀ y ∈ l, y.position = i ∧ { y with cancelled := true } ∈ l) (j : Nat) {s : State}
    (h : s.chained i p l) : (cancelOne s j).chained i p l := by
  by_cases hj : j = i
  · subst hj
    exact chained_cancelOne_self hl h
  · obtain ⟨hon, hp, y, hy, hflight⟩ := h
    obtain ⟨hplate, -, hmem⟩ := cancelOne_of_ne hj s
    exact ⟨((writes_cancelOne' s j).onChain rfl i).trans hon, hplate.trans hp, y, hy, (hmem y (hl y hy).1).2 hflight⟩

/-- A refresh in LOAD whose transaction is on the chain stays, cancelled, and its plate stands. -/
theorem marked_cancelLoads {x : Refresh} {p : Plate} {s : State} (hx : x ∈ s.sched.flight) (hload : x.driveTimer = none)
    (hp : s.sched.plates[x.position]? = some p) (hon : onChain x.position s = true) :
    { x with cancelled := true } ∈ (cancelLoads s).sched.flight ∧ (cancelLoads s).sched.plates[x.position]? = some p := by
  have hmem : x.position ∈ (loading s).reverse := List.mem_reverse.2 (mem_loading.2 ⟨x, hx, hload, rfl⟩)
  have hstart : s.chained x.position p [x, { x with cancelled := true }] := ⟨hon, hp, x, List.mem_cons_self, hx⟩
  have hend : (cancelLoads s).chained x.position p [{ x with cancelled := true }] :=
    foldl_reaches (P := fun u => u.chained x.position p [x, { x with cancelled := true }])
      (Q := fun u => u.chained x.position p [{ x with cancelled := true }]) hmem (fun j _ _ => chained_cancelOne (by simp) j)
      (fun _ => chained_cancelOne_self (by simp)) (fun j _ _ => chained_cancelOne (by simp) j) hstart
  obtain ⟨-, hplate, y, hy, hflight⟩ := hend
  rw [List.mem_singleton] at hy
  exact ⟨hy ▸ hflight, hplate⟩

/-- Nothing of a plate's refresh is on the chain, and the plate is as it was but for its refresh state. -/
def State.unchained (s : State) (i : Nat) (p : Plate) : Prop := onChain i s = false ∧ ∃ y, s.sched.plates[i]? = some { p with refresh := y }

/-- The plate shows its target, in a node that compares. -/
def Plate.showsIn (p : Plate) (s : State) : Prop := refreshing s = true ∧ p.shown.map (·.1) = some p.target

/-- The plate's refresh has left LOAD, and the plate is queued unless it shows its target. -/
def State.leftLoad (s : State) (i : Nat) (p : Plate) : Prop := onChain i s = false
  ∧ (p.showsIn s → s.sched.plates[i]? = some { p with refresh := .idle } ∧ i ∉ s.sched.queue)
  ∧ (¬ p.showsIn s → s.sched.plates[i]? = some { p with refresh := .queued } ∧ i ∈ s.sched.queue)

theorem State.leftLoad.unchained {i : Nat} {p : Plate} {s : State} (h : s.leftLoad i p) : s.unchained i p := by
  obtain ⟨hoff, hshows, hno⟩ := h
  by_cases hyes : p.showsIn s
  · exact ⟨hoff, _, (hshows hyes).1⟩
  · exact ⟨hoff, _, (hno hyes).1⟩

theorem showsIn_cancelOne (p : Plate) (j : Nat) (s : State) : p.showsIn (cancelOne s j) ↔ p.showsIn s := by
  rw [Plate.showsIn, Plate.showsIn, (writes_cancelOne' s j).refreshing]

theorem leftLoad_cancelOne_self {i : Nat} {p : Plate} {s : State} (h : s.unchained i p) : (cancelOne s i).leftLoad i p := by
  obtain ⟨hoff, y, hp⟩ := h
  obtain ⟨-, hno, hyes⟩ := requeueFront_spec hp
  refine ⟨((writes_cancelOne' s i).onChain rfl i).trans hoff, fun hshows => ?_, fun hother => ?_⟩
  · obtain ⟨hqueue, hplate⟩ := hyes ((showsIn_cancelOne p i s).1 hshows)
    rw [cancelOne_requeues hoff, hqueue]
    exact ⟨hplate, by simp⟩
  · obtain ⟨hqueue, hplate⟩ := hno fun hshows => hother ((showsIn_cancelOne p i s).2 hshows)
    rw [cancelOne_requeues hoff, hqueue]
    exact ⟨hplate, List.mem_cons_self⟩

theorem unchained_cancelOne {i : Nat} {p : Plate} (j : Nat) {s : State} (h : s.unchained i p) : (cancelOne s j).unchained i p := by
  by_cases hj : j = i
  · subst hj
    exact (leftLoad_cancelOne_self h).unchained
  · obtain ⟨hoff, y, hp⟩ := h
    exact ⟨((writes_cancelOne' s j).onChain rfl i).trans hoff, y, (cancelOne_of_ne hj s).1.trans hp⟩

theorem leftLoad_cancelOne {i : Nat} {p : Plate} (j : Nat) {s : State} (h : s.leftLoad i p) : (cancelOne s j).leftLoad i p := by
  by_cases hj : j = i
  · subst hj
    exact leftLoad_cancelOne_self h.unchained
  · obtain ⟨hoff, hshows, hno⟩ := h
    obtain ⟨hplate, hqueue, -⟩ := cancelOne_of_ne hj s
    rw [State.leftLoad, hplate, hqueue, showsIn_cancelOne, (writes_cancelOne' s j).onChain rfl]
    exact ⟨hoff, hshows, hno⟩

/-- A refresh in LOAD with nothing on the chain leaves it at once. -/
theorem leftLoad_cancelLoads {x : Refresh} {p : Plate} {s : State} (hx : x ∈ s.sched.flight) (hload : x.driveTimer = none)
    (hp : s.sched.plates[x.position]? = some p) (hoff : onChain x.position s = false) : (cancelLoads s).leftLoad x.position p :=
  foldl_reaches (P := fun u => u.unchained x.position p) (Q := fun u => u.leftLoad x.position p)
    (List.mem_reverse.2 (mem_loading.2 ⟨x, hx, hload, rfl⟩)) (fun j _ _ => unchained_cancelOne j) (fun _ => leftLoad_cancelOne_self)
    (fun j _ _ => leftLoad_cancelOne j) ⟨hoff, p.refresh, hp⟩

theorem cancelLoads_one {x : Refresh} {s : State} (h : s.sched.flight.filter (·.driveTimer.isNone) = [x]) : cancelLoads s = cancelOne s x.position := by
  rw [cancelLoads, loading, h]
  rfl

/-! ### The rows -/

/-- The state in which a test is pending, the command at the port. -/
def State.testRequested (args : List Octet) (s : State) : State :=
  (s.modPort fun p => { p with state := .busy, command := 0x10 :: args, response := [] }).modChain fun c => { c with testPending := true }

theorem exec_testChain {args : List Octet} {s : State} (hpart : participates s = true) (hport : s.port.state = .idle) :
    exec (.testChain args) s = .next (settle (doTestChain (0x10 :: args) s)) :=
  congrArg (fun v => Host.Outcome.next (settle v)) (portTake_owner (code := 0x10) (args := args) _ (not_reset_of_participates hpart) hport
    (stateAllows_of_participates _ hpart) (tooShort_of_long rfl (by decide) (Nat.zero_le _)))

/-- Settles O49. -/
theorem lineTestsAreStarted : Obligations.LineTestsAreStarted := by
  unfold Obligations.LineTestsAreStarted
  refine ⟨fun args s hpart hport => ⟨fun hplates => ?requested, fun hplates => ?refused⟩, fun s hdue => ?released, fun s hpending hidle hdriven => ?started⟩
  case requested =>
    have hdo : doTestChain (0x10 :: args) s = cancelLoads (s.testRequested args) := if_neg (by rw [hplates]; decide)
    have hexec := exec_testChain (args := args) hpart hport
    rw [hdo] at hexec
    have hpending : (cancelLoads (s.testRequested args)).chain.testPending = true := (writes_cancelLoads' _).same .testPending rfl
    have hsched := sched_settle_pending hpending
    refine ⟨_, hexec, ?_, ?_, ?_⟩
    · rw [keepsSteady_settle, steady_cancelLoads]
      rfl
    · rw [hsched]
      exact loads_cancelLoads (s.testRequested args)
    · rw [hsched]
      have hleft (x : Refresh) (p : Plate) := @leftLoad_cancelLoads x p (s.testRequested args)
      have hshows (p : Plate) : p.showsIn (cancelLoads (s.testRequested args)) ↔ p.showsIn s := by
        rw [Plate.showsIn, (writes_cancelLoads' _).refreshing]
        rfl
      intro x hx halone
      refine ⟨fun hdrive => drive_cancelLoads (s := s.testRequested args) hx halone hdrive, fun p hload hp =>
        ⟨fun hon => marked_cancelLoads (s := s.testRequested args) hx hload hp hon, fun hoff hshown => ?_, fun hoff hother => ?_⟩⟩
      · exact (hleft x p hx hload hp hoff).2.1 ((hshows p).2 hshown)
      · obtain ⟨hplate, hmem⟩ := (hleft x p hx hload hp hoff).2.2 fun hyes => hother ((hshows p).1 hyes)
        refine ⟨hplate, hmem, fun hone => ?_⟩
        have hsingle : cancelLoads (s.testRequested args) = cancelOne (s.testRequested args) x.position := cancelLoads_one hone
        have hoff' : onChain x.position (s.testRequested args) = false := hoff
        rw [hsingle, cancelOne_requeues hoff']
        exact ((requeueFront_spec (s := s.testRequested args) hp).2.1 hother).1
  case refused =>
    have hdo : doTestChain (0x10 :: args) s = s.answered (0x10 :: args) [0x02] := if_pos hplates
    have hexec := exec_testChain (args := args) hpart hport
    rw [hdo] at hexec
    exact ⟨_, hexec, steady_refused keepsSteady_settle _ _ _⟩
  case released => exact congrArg Host.Outcome.next (if_pos hdue)
  case started =>
    have hnone : loading s = [] := List.eq_nil_iff_forall_not_mem.2 fun i hi => by
      obtain ⟨x, hx, hload, -⟩ := mem_loading.1 hi
      have hdrive := hdriven x hx
      rw [hload] at hdrive
      cases hdrive
    refine ⟨settle (startTest s), congrArg Host.Outcome.next (if_pos (by simp [testMayStart, hpending, hidle, hnone])), chain_settle_busy rfl, ?_⟩
    rw [keepsSteady_settle]
    rfl

end Sys2Proof.Machine
end

