-- ==== Sys2Proof/Proofs/Joining.lean ====
section
/-! PROOFS. The entry to JOINING (R11, R77, R96, R97, R127, R162): what every block has done at the end of that step. -/

namespace Sys2Proof.Machine

/-! ### Marks follow (R11) -/

theorem writes_settle' (s : State) : Writes (Part.offered ++ Part.refreshed ++ [.answers, .lights, .pendingReports, .outstanding, .builderWaits, .engine, .line])
    s (settle s) := writes_settle (.refl _ s) (List.Subset.refl _)

theorem sendsMarks_congr {s t : State} (hnode : t.node = s.node) (hset : t.time.isSet = s.time.isSet) (hsources : t.time.sources = s.time.sources) :
    t.sendsMarks ↔ s.sendsMarks := by
  rw [State.sendsMarks, State.sendsMarks, roles, participates, ownStation, hnode, hset, hsources]
  rfl

theorem settleMarks_sends {s : State} (h : s.sendsMarks) (hnone : s.time.markTimer = none) : settleMarks s = sendMark s :=
  (if_pos ((markEligible_iff s).2 h)).trans (if_pos (by rw [hnone]; rfl))

theorem settleMarks_stands {s : State} (h : s.sendsMarks) (hsome : s.time.markTimer ≠ none) : settleMarks s = s :=
  (if_pos ((markEligible_iff s).2 h)).trans (if_neg (by simpa using hsome))

theorem settleMarks_stops {s : State} (h : ¬ s.sendsMarks) : settleMarks s = s.modTime fun b => { b with markTimer := none } :=
  if_neg fun heligible => h ((markEligible_iff s).1 heligible)

/-- Marks follow, over the end of the step. -/
theorem marksFollow_settle {s u : State} (htime : u.time = s.time) (hlength : s.bus.queue.length ≤ 5 → u.bus.queue.length ≤ 6) :
    MarksFollow s (settle (settleMarks u)) := by
  have hmarks := writes_settleMarks' u
  have hend := writes_settle' (settleMarks u)
  have hsame : (settle (settleMarks u)).time = (settleMarks u).time := hend.time rfl
  have hsends : (settle (settleMarks u)).sendsMarks ↔ u.sendsMarks :=
    sendsMarks_congr (hend.node.trans hmarks.node) ((hend.same .isSet rfl).trans (hmarks.same .isSet rfl))
      ((hend.same .sources rfl).trans (hmarks.same .sources rfl))
  refine ⟨?_, fun hyes hnone => ?_, fun hyes hsome => ?_, fun hno => ?_⟩
  · rw [hsame, ← htime]
    exact (Timebase.mk.injEq ..).mpr ⟨hmarks.now, hmarks.same .isSet rfl, hmarks.same .ship rfl, hmarks.same .sources rfl, hmarks.same .shift rfl, rfl⟩
  · rw [hsends] at hyes
    rw [← htime] at hnone ⊢
    have hsend := settleMarks_sends hyes hnone
    rw [hsame, hsend]
    refine ⟨congrArg (fun t : Steady => t.time.markTimer) (steady_sendMark u), fun hroom => ⟨u.bus.nextSeq, ?_⟩⟩
    have hlen := hlength hroom
    have hafter := queue_length_sendMark (s := u) (by omega)
    have hkept : (sendMark u).time.pendingShift = u.time.pendingShift := (writes_sendMark' u).same .shift rfl
    exact stands_settle (by rw [hkept]; exact loadShift_mark _ _) (.inl (by omega)) (sendMark_stands hyes.2.2.1 (by omega))
  · rw [hsends] at hyes
    rw [← htime] at hsome ⊢
    rw [hsame, settleMarks_stands hyes hsome]
  · rw [hsends] at hno
    rw [hsame, settleMarks_stops hno]
    rfl

/-! ### An advert offered in JOINING (R96 to R99) -/

theorem offerSegments_joining {s : State} (h : s.node.state = .joining) : offerSegments s = s := if_neg (by rw [h]; decide)

/-- An advert offered restarts the advert timer, whatever the answer. -/
theorem advertTimer_offerAdvert (s : State) : ∃ n, (if (level s).alert = true then 1500 ≤ n ∧ n ≤ 2500 else 7500 ≤ n ∧ n ≤ 12500)
    ∧ (offerAdvert s).route.advertTimer = some { start := s.time.now, len := n } := by
  have hw := writes_offer (advertOffer s) (.refl Part.offered s) (List.Subset.refl _)
  have hsegments (l : Level) (a : OfferAnswer) (u : State) : ∃ n, (if l.alert = true then 1500 ≤ n ∧ n ≤ 2500 else 7500 ≤ n ∧ n ≤ 12500)
      ∧ (offerSegments (startAdvertTimer l (advertAnswered a u))).route.advertTimer = some { start := u.time.now, len := n } := by
    rw [route_offerSegments]
    obtain ⟨n, hn, hrange⟩ := advertLength_range l (advertAnswered a u)
    refine ⟨n, hrange, ?_⟩
    rw [← hn]
    cases a <;> rfl
  unfold offerAdvert
  rw [show (⟨.routeAdvert, 255, advertPayload s, [], false⟩ : Offer) = advertOffer s from rfl]
  generalize offer (advertOffer s) s = p at *
  rw [← hw.now, ← hw.level]
  exact hsegments (level p.1) p.2 p.1

/-- A mark on becoming eligible leaves what stands, with room for it. -/
theorem stands_settleMarks {s : State} {f : TxFrame} (hload : loadShift s.time.pendingShift f = f) (hkind : f.kind ≠ .timeMark)
    (hroom : s.bus.queue.length < 8) (h : s.stands f) : (settleMarks s).stands f := by
  unfold settleMarks
  (repeat' split)
  · exact stands_offer (o := markOffer s) (s := s.marking) hload (.inr (Ne.symm hkind)) (.inl hroom) h
  · exact h
  · exact h

theorem queue_length_settleMarks {s : State} (hroom : s.bus.queue.length < 8) : (settleMarks s).bus.queue.length ≤ s.bus.queue.length + 1 := by
  unfold settleMarks
  (repeat' split)
  · exact queue_length_sendMark hroom
  · exact Nat.le_succ _
  · exact Nat.le_succ _

/-! ### The payload of an advert (R96) -/

/-- The codes, states, distances and next hops of the routes are what an advert carries. -/
theorem advertPayload_congr {s t : State} (hstate : t.node.state = s.node.state) (hmon : t.mon = s.mon)
    (htable : t.route.table.map (fun e => { e with changed := false }) = s.route.table.map fun e => { e with changed := false }) :
    advertPayload t = advertPayload s := by
  have hblind (ns : List Neighbour) (l : List RouteEntry) : l.map (fun r => (advertEntry ns r).octets) =
      (l.map fun e => { e with changed := false }).map fun r => (advertEntry ns r).octets := by
    rw [List.map_map]
    rfl
  rw [advertPayload, advertPayload, hstate, hmon, hblind, htable, ← hblind]

theorem table_advertised (s : State) : s.advertised.route.table.map (fun e => { e with changed := false }) =
    s.route.table.map (fun e => { e with changed := false }) ∧ (∀ e ∈ s.advertised.route.table, e.changed = false)
    ∧ s.advertised.route.trigger = none := by
  obtain ⟨n, -, hsteady⟩ := steady_advertised s
  have hroute : s.advertised.route = s.route.advertisedNow s.time.now n := congrArg Steady.route hsteady
  rw [hroute]
  refine ⟨?_, fun e he => ?_, rfl⟩
  · show (s.route.table.map fun e => { e with changed := false }).map _ = _
    rw [List.map_map]
    rfl
  · obtain ⟨d, -, rfl⟩ := List.mem_map.1 he
    rfl

/-! ### The entry -/

/-- The state in which the node has joined, before it offers its advert. -/
def State.joined (s : State) : State :=
  startPresence ((s.modNode fun n => { n with state := .joining, joinTimer := some { start := s.time.now, len := 8000 } }).modChain fun c =>
    { c with chainReset := false })

theorem enterJoining_eq (s : State) : enterJoining s = settleMarks (offerAdvert s.joined) := rfl

theorem presence_joined (s : State) : ∀ n ∈ s.joined.mon.neighbours, n.presence = .unknown
    ∧ n.presenceTimer = some { start := s.time.now, len := if (level s).alert then 12000 else 32000 } := by
  intro n hn
  obtain ⟨m, -, rfl⟩ := List.mem_map.1 hn
  exact ⟨rfl, rfl⟩

theorem writes_offerAdvert' (s : State) : Writes (Part.offered ++ Part.advertised) s (offerAdvert s) := writes_offerAdvert (.refl _ s) (List.Subset.refl _)

/-- The routes' entries, as an advert carries them, stand over an offer. -/
theorem table_offerAdvert (s : State) : (offerAdvert s).route.table.map (fun e => { e with changed := false }) =
    s.route.table.map fun e => { e with changed := false } := by
  have hw := writes_offer (advertOffer s) (.refl Part.offered s) (List.Subset.refl _)
  have hanswered (l : Level) (a : OfferAnswer) (u : State) : (offerSegments (startAdvertTimer l (advertAnswered a u))).route.table.map
      (fun e => { e with changed := false }) = u.route.table.map fun e => { e with changed := false } := by
    rw [route_offerSegments]
    cases a with
    | accepted =>
      show (u.route.table.map fun e => { e with changed := false }).map _ = _
      rw [List.map_map]
      rfl
    | refusedFull => rfl
    | refusedState => rfl
  unfold offerAdvert
  rw [show (⟨.routeAdvert, 255, advertPayload s, [], false⟩ : Offer) = advertOffer s from rfl]
  generalize offer (advertOffer s) s = p at *
  rw [← hw.route rfl]
  exact hanswered (level p.1) p.2 p.1

/-- What the advert of a node that has joined comes to, with room in the queue. -/
theorem joined_advert {u : State} (hroom : u.bus.queue.length ≤ 5) :
    (offerAdvert u.joined).stands ⟨.routeAdvert, 255, u.bus.nextSeq, advertPayload u.joined, [], false⟩
      ∧ (offerAdvert u.joined).bus.queue.length ≤ 6 ∧ (offerAdvert u.joined).route.trigger = none
      ∧ ∀ e ∈ (offerAdvert u.joined).route.table, e.changed = false := by
  have hpart : participates u.joined = true := rfl
  have hfew : u.joined.bus.queue.length ≤ 5 := hroom
  have hjoining : u.joined.advertised.node.state = .joining := by
    obtain ⟨m, -, hsteady⟩ := steady_advertised u.joined
    exact congrArg (fun t : Steady => t.node.state) hsteady
  rw [offerAdvert_accepted hpart (by omega), offerSegments_joining hjoining]
  obtain ⟨-, hchanged, htrigger⟩ := table_advertised u.joined
  have hlength := queue_advertised (s := u.joined) (by omega)
  exact ⟨advertised_stands hpart (by omega), by omega, htrigger, hchanged⟩

/-- What every block has done, at the end of the step in which the node enters JOINING. -/
theorem entersJoining {s u : State} (htime : u.time = s.time) (hqueue : u.bus.queue = s.bus.queue) (hseq : u.bus.nextSeq = s.bus.nextSeq) (hlevel : level u = level s) :
    EntersJoining s (settle (enterJoining u)) := by
  have hadvert := writes_offerAdvert' u.joined
  have hlast : (offerAdvert u.joined).route.lastOffer = some u.time.now := lastOffer_offerAdvert (s := u.joined) rfl
  obtain ⟨n, hrange, htimer⟩ : ∃ n, (if (level u).alert = true then 1500 ≤ n ∧ n ≤ 2500 else 7500 ≤ n ∧ n ≤ 12500)
    ∧ (offerAdvert u.joined).route.advertTimer = some { start := u.time.now, len := n } := advertTimer_offerAdvert u.joined
  have htable := table_offerAdvert u.joined
  have hroomy := @joined_advert u
  have hpresence := presence_joined u
  rw [htime] at hlast htimer hpresence
  rw [hlevel] at hrange hpresence
  rw [hqueue, hseq] at hroomy
  rw [enterJoining_eq]
  have hjoined : u.joined.node.state = .joining ∧ u.joined.node.joinTimer = some { start := s.time.now, len := 8000 } := by
    rw [← htime]
    exact ⟨rfl, rfl⟩
  have hreset : u.joined.chain.chainReset = false := rfl
  have hclock : u.joined.time = s.time := htime
  generalize u.joined = w at *
  have hclock' := (hadvert.time rfl).trans hclock
  have hmon := hadvert.mon rfl
  obtain ⟨hpulse, -⟩ := hadvert.same .pulse rfl
  have hnode := hadvert.node
  generalize offerAdvert w = v at *
  have hmarks := writes_settleMarks' v
  have hend := writes_settle' (settleMarks v)
  have hfollow : MarksFollow s (settle (settleMarks v)) := marksFollow_settle hclock' fun hroom => (hroomy hroom).2.1
  have hstands {f : TxFrame} (hload : ∀ shift, loadShift shift f = f) (hkind : f.kind ≠ .timeMark) (hfew : v.bus.queue.length ≤ 6) (h : v.stands f) :
      (settle (settleMarks v)).stands f := by
    have hafter := queue_length_settleMarks (s := v) (by omega)
    exact stands_settle (hload _) (.inl (by omega)) (stands_settleMarks (hload _) hkind (by omega) h)
  have hroute := (hend.route rfl).trans (hmarks.route rfl)
  have hmon' := (hend.mon rfl).trans ((hmarks.mon rfl).trans hmon)
  have hnode' := hend.node.trans (hmarks.node.trans hnode)
  obtain ⟨hpulse', -⟩ := hend.same .pulse rfl
  obtain ⟨hpulse'', -⟩ := hmarks.same .pulse rfl
  generalize settle (settleMarks v) = t at *
  have hpayload : advertPayload t = advertPayload w := advertPayload_congr (by rw [hnode']) hmon' (by rw [hroute, htable])
  refine ⟨by rwa [hnode'], hpulse'.trans (hpulse''.trans (hpulse.trans hreset)), fun m hm => hpresence m (hmon' ▸ hm), ?_, ?_, hfollow⟩
  · rw [hroute]
    exact ⟨hlast, n, hrange, htimer⟩
  · refine ⟨?_, fun hroom => ?_⟩
    · rw [hpayload, advertPayload, hjoined.1]
      rfl
    · obtain ⟨hadvertised, hfew, htrigger, hchanged⟩ := hroomy hroom
      rw [hpayload, hroute]
      exact ⟨hstands (fun _ => rfl) nofun hfew hadvertised, htrigger, hchanged⟩

end Sys2Proof.Machine
end

