-- ==== Sys2Proof/Proofs/LineTestEnd.lean ====
section
/-! PROOFS. The end of a line test (R138 to R141, R162) (O48). -/

namespace Sys2Proof.Machine

/-! ### What the entry to JOINING leaves to the chain -/

/-- What the rows of the chain look at stands, and no flag is cleared. -/
structure ChainStands (s t : State) : Prop where
  sched : t.sched = s.sched
  engine : t.chain.engine = s.chain.engine
  service : t.chain.service = s.chain.service
  result : t.chain.lastResult = s.chain.lastResult
  pins : t.pins = s.pins
  now : t.time.now = s.time.now
  store : t.store = s.store
  supply : t.supply = s.supply
  port : t.port = s.port
  record : t.muster.record = s.muster.record
  pending : t.muster.pendingReports = s.muster.pendingReports
  outstanding : t.muster.reportOutstanding = s.muster.reportOutstanding
  events : ∀ e, eventSet e s = true → eventSet e t = true

theorem ChainStands.refl (s : State) : ChainStands s s := ⟨rfl, rfl, rfl, rfl, rfl, rfl, rfl, rfl, rfl, rfl, rfl, rfl, fun _ h => h⟩

theorem ChainStands.level {s t : State} (h : ChainStands s t) : level t = level s := congrArg OrderRecord.level h.record

theorem chainStands_enterJoining (s : State) : ChainStands s (enterJoining s) := by
  have hadvert := writes_offerAdvert' s.joined
  have hjoined : ChainStands s s.joined := ⟨rfl, rfl, rfl, rfl, rfl, rfl, rfl, rfl, rfl, rfl, rfl, rfl, fun _ h => h⟩
  rw [enterJoining_eq]
  generalize s.joined = u at *
  have hmarks := writes_settleMarks' (offerAdvert u)
  generalize offerAdvert u = v at *
  obtain ⟨hservice, hresult⟩ := hadvert.same .service rfl
  obtain ⟨hservice', hresult'⟩ := hmarks.same .service rfl
  exact ⟨(hmarks.sched rfl).trans ((hadvert.sched rfl).trans hjoined.sched), (hmarks.same .engine rfl).trans ((hadvert.same .engine rfl).trans hjoined.engine),
    hservice'.trans (hservice.trans hjoined.service), hresult'.trans (hresult.trans hjoined.result), hmarks.pins.trans (hadvert.pins.trans hjoined.pins),
    hmarks.now.trans (hadvert.now.trans hjoined.now), (hmarks.store rfl).trans ((hadvert.store rfl).trans hjoined.store),
    hmarks.supply.trans (hadvert.supply.trans hjoined.supply), hmarks.port.trans (hadvert.port.trans hjoined.port),
    hmarks.record.trans (hadvert.record.trans hjoined.record), (hmarks.same .pendingReports rfl).trans ((hadvert.same .pendingReports rfl).trans hjoined.pending),
    (hmarks.same .outstanding rfl).trans ((hadvert.same .outstanding rfl).trans hjoined.outstanding),
    fun e he => hmarks.eventSet (hadvert.eventSet (hjoined.events e he))⟩

theorem ChainStands.hasLost {s t : State} (h : ChainStands s t) {i : Nat} {p : Plate} (hlost : s.hasLost i p) : t.hasLost i p := by
  obtain ⟨hplate, hrefresh, hevent, hreport⟩ := hlost
  rw [State.hasLost, refreshOf_congr (congrArg Scheduler.flight h.sched), h.sched, h.level, h.pending]
  exact ⟨hplate, hrefresh, h.events _ hevent, hreport⟩

theorem ChainStands.losesPlates {r s t : State} (h : ChainStands s t) (hloses : r.losesPlates s) : r.losesPlates t := by
  intro i p hp
  obtain ⟨hlost, hstands⟩ := hloses i p hp
  exact ⟨fun hhealth => h.hasLost (hlost hhealth), fun hhealth => by rw [h.sched]; exact hstands hhealth⟩

/-! ### A result applied (R140) -/

theorem testResult_eq (busy low high : Bool) : testResult busy low high =
    if busy = true then .busyStuck else if low = true then .dataStuckHigh else if high = true then .dataStuckLow else .ok := rfl

/-- The state with the result applied, the engine IDLE. -/
def State.tested (s : State) (busy : Bool) (r : ChainResult) : State := applyResult r (engineIdle (readBusy busy s))

theorem writes_tested (s : State) (busy : Bool) (r : ChainResult) :
    Writes (Part.refreshed ++ [.pendingReports, .builderWaits, .service, .flags]) (engineIdle (readBusy busy s)) (s.tested busy r) :=
  writes_applyResult r (.refl _ _) (List.Subset.refl _)

/-- A plate over a test that has passed. -/
def Plate.passed (p : Plate) (s : State) : Plate :=
  if s.chain.service = .inService then p else { p with pollDue := some { start := s.time.now, len := 0 }, failureRun := 0 }

theorem tested_ok (s : State) (busy : Bool) : (s.tested busy .ok).chain.service = .inService ∧ (s.tested busy .ok).chain.lastResult = .ok
    ∧ (s.tested busy .ok).sched.plates = s.sched.plates.map (·.passed s) := by
  have hpassed : s.tested busy .ok = testPassed (engineIdle (readBusy busy s)) := by
    rw [State.tested, applyResult, if_pos rfl]
  rw [hpassed, testPassed]
  by_cases hservice : s.chain.service = .inService
  · have hsame : s.sched.plates.map (·.passed s) = s.sched.plates := by simp [Plate.passed, hservice]
    have hkept : (engineIdle (readBusy busy s)).chain.service = .inService := hservice
    rw [if_neg (not_not_intro hkept), hsame]
    exact ⟨rfl, rfl, rfl⟩
  · have hmoved : (fun p : Plate => p.passed s) = fun p => { p with pollDue := some { start := s.time.now, len := 0 }, failureRun := 0 } := by
      funext p
      exact if_neg hservice
    have hkept : (engineIdle (readBusy busy s)).chain.service ≠ .inService := hservice
    rw [if_pos hkept, hmoved]
    exact ⟨rfl, rfl, rfl⟩

theorem tested_bad {r : ChainResult} (hbad : r ≠ .ok) (s : State) (busy : Bool) : (s.tested busy r).chain.service = .outOfService
    ∧ (s.tested busy r).chain.lastResult = r ∧ eventSet .chainFault (s.tested busy r) = true ∧ s.losesPlates (s.tested busy r) := by
  have hout : s.tested busy r = outOfService r (engineIdle (readBusy busy s)) := if_neg hbad
  rw [hout]
  obtain ⟨hservice, hresult⟩ := service_outOfService r (engineIdle (readBusy busy s))
  exact ⟨hservice, hresult, eventSet_outOfService r _, losesPlates_outOfService rfl⟩

/-- The port with a TEST CHAIN that waits answered. -/
def LocalPort.testAnswered (p : LocalPort) (r : ChainResult) : LocalPort :=
  if p.state = .busy ∧ p.command.head? = some 0x10 then { p with state := .ready, response := [0x00, o8 r.code] } else p

/-- What a result has come to, with a TEST CHAIN answered. -/
structure ResultTaken (s a : State) (busy : Bool) (r : ChainResult) : Prop where
  result : a.chain.lastResult = r
  service : a.chain.service = if r = .ok then .inService else .outOfService
  lost : r ≠ .ok → eventSet .chainFault a = true ∧ s.losesPlates a
  plates : r = .ok → a.sched.plates = s.sched.plates.map (·.passed s)
  port : a.port = s.port.testAnswered r
  time : a.time = s.time
  store : a.store = s.store
  mon : a.mon = s.mon
  route : a.route = s.route
  node : a.node = s.node
  supply : a.supply = s.supply
  record : a.muster.record = s.muster.record
  outstanding : a.muster.reportOutstanding = s.muster.reportOutstanding
  queue : a.bus.queue = s.bus.queue
  seq : a.bus.nextSeq = s.bus.nextSeq
  pins : a.pins = { s.pins with busy := busy }

theorem resultTaken (s : State) (busy : Bool) (r : ChainResult) : ResultTaken s (answerTest r (s.tested busy r)) busy r := by
  have htested := writes_tested s busy r
  have hport : (answerTest r (s.tested busy r)).port = s.port.testAnswered r := congrArg (·.testAnswered r) htested.port
  have hstands : ResultTaken s (answerTest r (s.tested busy r)) busy r ↔ (s.tested busy r).chain.lastResult = r
      ∧ (s.tested busy r).chain.service = (if r = .ok then .inService else .outOfService)
      ∧ (r ≠ .ok → eventSet .chainFault (s.tested busy r) = true ∧ s.losesPlates (s.tested busy r))
      ∧ (r = .ok → (s.tested busy r).sched.plates = s.sched.plates.map (·.passed s)) := by
    constructor
    · exact fun h => ⟨h.result, h.service, h.lost, h.plates⟩
    · rintro ⟨hresult, hservice, hlost, hplates⟩
      exact ⟨hresult, hservice, hlost, hplates, hport, htested.time rfl, htested.store rfl, htested.mon rfl, htested.route rfl, htested.node, htested.supply,
        htested.record, htested.same .outstanding rfl, htested.same .queue rfl, htested.same .nextSeq rfl, htested.pins⟩
  rw [hstands]
  by_cases h : r = .ok
  · subst h
    obtain ⟨hservice, hresult, hplates⟩ := tested_ok s busy
    exact ⟨hresult, hservice, fun hno => absurd rfl hno, fun _ => hplates⟩
  · obtain ⟨hservice, hresult, hevent, hlost⟩ := tested_bad h s busy
    exact ⟨hresult, hservice.trans (if_neg h).symm, fun _ => ⟨hevent, hlost⟩, fun hyes => absurd hyes h⟩

/-- The node enters JOINING from CHAIN TEST. -/
def State.testedOn (s : State) : State := if s.node.state = .chainTest then enterJoining s else s

theorem chainStands_testedOn (s : State) : ChainStands s s.testedOn := by
  unfold State.testedOn
  split
  · exact chainStands_enterJoining s
  · exact .refl s

theorem node_enterJoining (s : State) : (enterJoining s).node = { s.node with state := .joining, joinTimer := some { start := s.time.now, len := 8000 } } :=
  (writes_settleMarks' _).node.trans (writes_offerAdvert' s.joined).node

/-! ### LINE_TEST_END -/

theorem exec_lineTestEnd {busy low high : Bool} {tm : Timer} {s : State} (hengine : s.chain.engine = .test (some tm))
    (hwait : busy = false ∨ tm.expired s.time.now = true) : exec (.lineTestEnd busy low high) s =
      .next (settle (answerTest (testResult busy low high) (s.tested busy (testResult busy low high))).testedOn) := by
  have hpast : (busy && !tm.expired s.time.now) = false := by
    rcases hwait with h | h <;> simp [h]
  show execLineTestEnd busy low high s = _
  unfold execLineTestEnd
  rw [hengine]
  exact if_neg (by rw [hpast]; decide)

/-- A plate over a test passed and the end of that step. -/
theorem plate_passed {s u : State} (hnow : u.time.now = s.time.now) (hbusy : u.pins.busy = false) (hplates : u.sched.plates = s.sched.plates.map (·.passed s))
    {i : Nat} {p : Plate} (hp : s.sched.plates[i]? = some p) : ∃ q, (settle u).sched.plates[i]? = some q
      ∧ q.health = p.health ∧ q.press = p.press ∧ q.shown = p.shown
      ∧ q.failureRun = (if s.chain.service = .inService then p.failureRun else 0)
      ∧ (q.pollDue = (if s.chain.service = .inService then p.pollDue else some { start := s.time.now, len := 0 })
          ∨ (q.pollDue = none ∧ (settle u).chain.engine = .transaction ⟨i, .poll, .finish, s.time.now, s.time.now⟩)) := by
  have hu : u.sched.plates[i]? = some (p.passed s) := by
    rw [hplates, List.getElem?_map, hp]
    rfl
  have hpoll : u.pollNow i = .transaction ⟨i, .poll, .finish, s.time.now, s.time.now⟩ := by
    rw [State.pollNow, hbusy, hnow]
    rfl
  obtain ⟨q, hq, hsame⟩ := plate_settle hu
  rw [hpoll] at hsame
  refine ⟨q, hq, ?_⟩
  unfold Plate.passed at hsame
  split at hsame
  · rename_i hservice
    rw [if_pos hservice, if_pos hservice]
    rcases hsame with h | ⟨h, -, hengine⟩ <;> rw [h]
    · exact ⟨rfl, rfl, rfl, rfl, .inl rfl⟩
    · exact ⟨rfl, rfl, rfl, rfl, .inr ⟨rfl, hengine⟩⟩
  · rename_i hservice
    rw [if_neg hservice, if_neg hservice]
    rcases hsame with h | ⟨h, -, hengine⟩ <;> rw [h]
    · exact ⟨rfl, rfl, rfl, rfl, .inl rfl⟩
    · exact ⟨rfl, rfl, rfl, rfl, .inr ⟨rfl, hengine⟩⟩

/-- Settles O48. -/
theorem lineTestEndGivesResult : Obligations.LineTestEndGivesResult := by
  unfold Obligations.LineTestEndGivesResult
  intro busy low high tm s hengine hwait
  have hexec := exec_lineTestEnd (low := low) (high := high) hengine hwait
  have hbusy : testResult busy low high = .ok → busy = false := by
    cases busy <;> simp [testResult]
  dsimp only
  rw [← testResult_eq]
  generalize testResult busy low high = r at *
  have htaken := resultTaken s busy r
  generalize answerTest r (s.tested busy r) = a at *
  have hon := chainStands_testedOn a
  have hjoins : s.node.state = .chainTest → a.testedOn = enterJoining a := fun h => if_pos (by rw [htaken.node]; exact h)
  have hstays : s.node.state ≠ .chainTest → a.testedOn = a := fun h => if_neg (by rw [htaken.node]; exact h)
  have hend := writes_settle' a.testedOn
  obtain ⟨hservice, hresult⟩ := hend.same .service rfl
  refine ⟨_, hexec, hresult.trans (hon.result.trans htaken.result), hservice.trans (hon.service.trans htaken.service), fun hbad => ?_,
    fun hok i p hp => ?_, fun hport hcommand => ?_, ?_, fun hstate => ?_, fun hstate => ?_, ?_, (hend.store rfl).trans (hon.store.trans htaken.store),
    hend.supply.trans (hon.supply.trans htaken.supply), hend.record.trans (hon.record.trans htaken.record)⟩
  · obtain ⟨hevent, hloses⟩ := htaken.lost hbad
    refine ⟨hend.eventSet (hon.events _ hevent), platesLost_settle (hon.losesPlates hloses) ?_ (hon.outstanding.trans htaken.outstanding)⟩
    exact hon.level.trans (congrArg OrderRecord.level htaken.record)
  · refine plate_passed (hon.now.trans (congrArg Timebase.now htaken.time)) ?_ ?_ hp
    · rw [hon.pins, htaken.pins]
      exact hbusy hok
    · rw [hon.sched]
      exact htaken.plates hok
  · rw [hend.port, hon.port, htaken.port]
    exact if_pos ⟨hport, hcommand⟩
  · rw [hend.node]
    split
    · rename_i hstate
      rw [hjoins hstate, node_enterJoining]
    · rename_i hstate
      rw [hstays hstate, htaken.node]
  · rw [hjoins hstate]
    exact entersJoining htaken.time htaken.queue htaken.seq (congrArg OrderRecord.level htaken.record)
  · rw [hstays hstate]
    obtain ⟨htime, -, hmon, hroute, hnode, -⟩ := outsideStands_settle a
    exact ⟨hnode.trans htaken.node, hroute.trans htaken.route, hmon.trans htaken.mon, htime.trans htaken.time⟩
  · rw [hend.node]
    by_cases hstate : s.node.state = .chainTest
    · rw [hjoins hstate, node_enterJoining, htaken.node]
    · rw [hstays hstate, htaken.node]

end Sys2Proof.Machine
end

