-- ==== Sys2Proof/Proofs/PollPresses.lean ====
section
/-! PROOFS. The readings of a poll (R119, R120, R134 to R136, R150, R154): what each reading does to its plate, step by step. -/

namespace Sys2Proof.Machine

/-! ### Reports pending (R121) -/

/-- A report joins the pending list when it is told, and the builder may offer again; otherwise both stand. -/
def State.joins (s u : State) (e : CabinEntry) (told : Prop) : Prop :=
  (told → u.muster.pendingReports = joinReport e s.muster.pendingReports ∧ u.muster.builderWaits = false)
    ∧ (¬ told → u.muster.pendingReports = s.muster.pendingReports ∧ u.muster.builderWaits = s.muster.builderWaits)

theorem joins_none {s u : State} {e : CabinEntry} {told : Prop} (h : ¬ told) (hpending : u.muster.pendingReports = s.muster.pendingReports)
    (hwaits : u.muster.builderWaits = s.muster.builderWaits) : s.joins u e told := ⟨fun hno => absurd hno h, fun _ => ⟨hpending, hwaits⟩⟩

theorem any_joinReport (e : CabinEntry) (l : List CabinEntry) : (joinReport e l).any (·.position = e.position) = true :=
  List.any_eq_true.2 ⟨e, mem_joinReport e l, decide_eq_true rfl⟩

/-- Of two reports of one plate, the later takes the place of the earlier. -/
theorem joinReport_joinReport {d e : CabinEntry} (h : e.position = d.position) (l : List CabinEntry) : joinReport e (joinReport d l) = joinReport e l := by
  rw [joinReport, if_pos (by rw [h]; exact any_joinReport d l)]
  unfold joinReport
  rw [h]
  split
  · rw [List.map_map]
    refine List.map_congr_left fun q _ => ?_
    by_cases hq : q.position = d.position <;> simp [hq]
  · rename_i hnone
    have hothers : ∀ q ∈ l, q.position ≠ d.position := by simpa using hnone
    rw [List.map_append, List.map_singleton, if_pos rfl, List.map_congr_left fun q hq => if_neg (hothers q hq), List.map_id']

/-- Two reports of one plate, one after the other. -/
theorem State.joins.trans {s u v : State} {d e : CabinEntry} {told told' : Prop} (h : s.joins u d told) (k : u.joins v e told')
    (hposition : e.position = d.position) (hsame : told → ¬ told' → e = d) : s.joins v e (told ∨ told') := by
  obtain ⟨hjoin, hstay⟩ := h
  obtain ⟨kjoin, kstay⟩ := k
  by_cases hlast : told'
  · obtain ⟨kpending, kwaits⟩ := kjoin hlast
    refine ⟨fun _ => ⟨?_, kwaits⟩, fun hno => absurd (.inr hlast) hno⟩
    by_cases hfirst : told
    · rw [kpending, (hjoin hfirst).1, joinReport_joinReport hposition]
    · rw [kpending, (hstay hfirst).1]
  · obtain ⟨kpending, kwaits⟩ := kstay hlast
    by_cases hfirst : told
    · obtain ⟨hpending, hwaits⟩ := hjoin hfirst
      exact ⟨fun _ => ⟨by rw [kpending, hpending, hsame hfirst hlast], kwaits.trans hwaits⟩, fun hno => absurd (.inl hfirst) hno⟩
    · obtain ⟨hpending, hwaits⟩ := hstay hfirst
      exact joins_none (not_or.2 ⟨hfirst, hlast⟩) (kpending.trans hpending) (kwaits.trans hwaits)

theorem joins_reportPlate {i : Nat} {p : Plate} {s : State} (hp : s.sched.plates[i]? = some p) {told : Prop} (h : told) :
    s.joins (reportPlate i s) (reportFor i p) told := by
  rw [reportPlate_eq hp]
  exact ⟨fun _ => ⟨rfl, rfl⟩, fun hno => absurd h hno⟩

theorem joins_reportAtMuster {i : Nat} {p : Plate} {s : State} (hp : s.sched.plates[i]? = some p) :
    s.joins (reportAtMuster i s) (reportFor i p) (level s = .muster) := by
  unfold reportAtMuster
  split
  · rename_i hmuster
    exact joins_reportPlate hp hmuster
  · rename_i hbelow
    exact joins_none hbelow rfl rfl

/-- What writes neither the pending reports nor the builder's wait is no part of a join. -/
theorem State.joins.after {ps : List Part} {r s u : State} {e : CabinEntry} {told : Prop} (h : s.joins u e told) (k : Writes ps r s)
    (hpending : ps.contains .pendingReports = false) (hwaits : ps.contains .builderWaits = false) : r.joins u e told := by
  have kpending : s.muster.pendingReports = r.muster.pendingReports := k.same .pendingReports hpending
  have kwaits : s.muster.builderWaits = r.muster.builderWaits := k.same .builderWaits hwaits
  unfold State.joins
  rw [← kpending, ← kwaits]
  exact h

theorem writes_retarget' (i : Nat) (s : State) : Writes [.plates, .waiting] s (retarget i s) := writes_retarget i (.refl _ s) (List.Subset.refl _)

theorem flight_retarget (i : Nat) (s : State) : (retarget i s).sched.flight = s.sched.flight := flight_comparePlate _ _

theorem sweepByPress_eq (i : Nat) (swept : Bool) (s : State) :
    sweepByPress i swept s = reportPlate i (retarget i (setEvent .sweep (modPlate i (fun p => { p with swept }) s))) := rfl

/-- The report of a sweep by a press. -/
theorem joins_sweepByPress {i : Nat} {p : Plate} {swept : Bool} {s : State} {told : Prop} (hp : (sweepByPress i swept s).sched.plates[i]? = some p) (h : told) :
    s.joins (sweepByPress i swept s) (reportFor i p) told := by
  rw [sweepByPress_eq, sched_reportPlate] at hp
  rw [sweepByPress_eq]
  have hretarget := writes_retarget' i (setEvent .sweep (modPlate i (fun p => { p with swept }) s))
  exact (joins_reportPlate hp h).after (r := setEvent .sweep (modPlate i (fun p => { p with swept }) s)) hretarget rfl rfl

theorem flight_sweepByPress (i : Nat) (swept : Bool) (s : State) : (sweepByPress i swept s).sched.flight = s.sched.flight := by
  rw [sweepByPress_eq, sched_reportPlate, flight_retarget]
  rfl

/-! ### The button (R119, R136, R154) -/

/-- The sweep state that a press gives at MUSTER, if it gives one. -/
def PressTaken.sweep : PressTaken → Option Bool
  | .long => some true
  | .short => some false
  | .nothing | .ignored => none

/-- A short press below MUSTER. -/
def State.shortBelow (s : State) (taken : PressTaken) : Bool := decide (taken = .short ∧ level s ≠ .muster)

/-- The sweep state of a plate after a press. -/
def State.sweptAfter (s : State) (taken : PressTaken) (p : Plate) : Bool := if level s = .muster then taken.sweep.getD p.swept else p.swept

/-- The refresh of a plate after a press: a short one below MUSTER is noted. -/
def Refresh.pressed (r : Refresh) (short : Bool) : Refresh := if short then { r with pressNoted := true } else r

/-- What a press report does to the plate `p` at the position, which it leaves as `q`. -/
structure Pressed (s u : State) (i : Nat) (p q : Plate) (taken : PressTaken) : Prop where
  plate : u.sched.plates[i]? = some q
  kept : q = { p with swept := q.swept, shown := q.shown, target := q.target, targetStamp := q.targetStamp, refresh := q.refresh }
  swept : q.swept = s.sweptAfter taken p
  shown : q.shown = if s.shortBelow taken then none else p.shown
  sweeps : q.swept ≠ p.swept → eventSet .sweep u = true ∧ q.target = targetFor s.node.state s.muster.record q
  reports : s.joins u (reportFor i q) (q.swept ≠ p.swept)
  refresh : refreshOf i u = (refreshOf i s).map (·.pressed (s.shortBelow taken))
  ignored : u.counters.ignoredPresses = if taken = .ignored then raised s.counters.ignoredPresses else s.counters.ignoredPresses
  queued : s.shortBelow taken = true → refreshing s = true → q.refresh ≠ .idle

theorem pressed_false (s : State) (i : Nat) : (refreshOf i s).map (·.pressed false) = refreshOf i s := by
  cases refreshOf i s <;> rfl

/-- A press that changes nothing. -/
theorem Pressed.unmoved {s : State} {i : Nat} {p : Plate} {taken : PressTaken} (hp : s.sched.plates[i]? = some p) (hswept : s.sweptAfter taken p = p.swept)
    (hshort : s.shortBelow taken = false) (hignored : taken ≠ .ignored) : Pressed s s i p p taken := by
  refine ⟨hp, rfl, hswept.symm, ?_, fun h => absurd rfl h, joins_none (not_not.2 rfl) rfl rfl, ?_, ?_, fun h => ?_⟩
  · rw [hshort]
    rfl
  · rw [hshort, pressed_false]
  · rw [if_neg hignored]
  · rw [hshort] at h
    cases h

/-- A press that sweeps the plate, or unsweeps it. -/
theorem Pressed.swept_by {s : State} {i : Nat} {p : Plate} {taken : PressTaken} {b : Bool} (hp : s.sched.plates[i]? = some p)
    (hmuster : level s = .muster) (htaken : taken.sweep = some b) (hne : p.swept ≠ b) : ∃ q, Pressed s (sweepByPress i b s) i p q taken := by
  have hshort : s.shortBelow taken = false := by simp [State.shortBelow, hmuster]
  have hignored : taken ≠ .ignored := by
    rintro rfl
    cases htaken
  obtain ⟨stamp, x, hplate⟩ := plate_sweepByPress hp b
  have hcounters : (sweepByPress i b s).counters = s.counters :=
    (writes_sweepByPress i b (.refl [.pendingReports, .builderWaits, .plates, .waiting, .flags] s) (List.Subset.refl _)).counters_same rfl
  refine ⟨_, hplate, rfl, ?_, ?_, fun _ => ⟨eventSet_sweepByPress i b s, rfl⟩, joins_sweepByPress hplate (Ne.symm hne), ?_, ?_, fun h => ?_⟩
  · rw [State.sweptAfter, if_pos hmuster, htaken]
    rfl
  · rw [hshort]
    rfl
  · rw [hshort, pressed_false, refreshOf_congr (flight_sweepByPress i b s)]
  · rw [hcounters, if_neg hignored]
  · rw [hshort] at h
    cases h

theorem stale_of_absent {p : Plate} (h : p.shown = none) : p.stale = true := by
  rw [Plate.stale, h]

/-- A stale plate is not left IDLE by the comparison, in a node that compares. -/
theorem comparePlate_stale {i : Nat} {p : Plate} {s : State} (hp : s.sched.plates[i]? = some p) (hstale : p.stale = true) (hrefreshing : refreshing s = true) :
    ∃ x, x ≠ .idle ∧ (comparePlate i s).sched.plates[i]? = some { p with refresh := x } := by
  cases hstate : p.refresh with
  | idle =>
    rw [comparePlate_queues hp hrefreshing hstate hstale]
    exact ⟨.queued, nofun, plate_placed hp ..⟩
  | queued =>
    rw [comparePlate_stands hp (.inr (.inr (.inr (.inl ⟨hstate, hstale⟩))))]
    exact ⟨.queued, nofun, by rw [hp, ← hstate]⟩
  | load =>
    rw [comparePlate_stands hp (.inr (.inl hstate))]
    exact ⟨.load, nofun, by rw [hp, ← hstate]⟩
  | drive =>
    rw [comparePlate_stands hp (.inr (.inr (.inl hstate)))]
    exact ⟨.drive, nofun, by rw [hp, ← hstate]⟩

/-- A short press below MUSTER: the shown content is absent, the press noted. -/
theorem Pressed.short {s : State} {i : Nat} {p : Plate} (hp : s.sched.plates[i]? = some p) (hbelow : level s ≠ .muster) :
    ∃ q, Pressed s (shortPressRefresh i s) i p q .short := by
  have hshort : s.shortBelow .short = true := by simp [State.shortBelow, hbelow]
  have hmod : (modPlate i (fun p => { p with shown := none }) (modRefresh i (fun r => { r with pressNoted := true }) s)).sched.plates[i]? =
      some { p with shown := none } := plate_modPlate_self (s := modRefresh i (fun r => { r with pressNoted := true }) s) _ hp
  have hwrites : Writes Part.refreshed s (shortPressRefresh i s) := writes_shortPressRefresh i (.refl _ s) (List.Subset.refl _)
  have hrefresh := refreshOf_modRefresh (f := fun r => { r with pressNoted := true }) (fun _ => rfl) i i s
  obtain ⟨x, hidle, hplate⟩ : ∃ x, (refreshing s = true → x ≠ .idle) ∧ (shortPressRefresh i s).sched.plates[i]? = some { p with shown := none, refresh := x } := by
    by_cases hrefreshing : refreshing s = true
    · obtain ⟨x, hx, hplate⟩ := comparePlate_stale hmod rfl hrefreshing
      exact ⟨x, fun _ => hx, hplate⟩
    · obtain ⟨x, hplate⟩ := plate_comparePlate hmod
      exact ⟨x, fun h => absurd h hrefreshing, hplate⟩
  refine ⟨_, hplate, rfl, (if_neg hbelow).symm, ?_, fun h => absurd rfl h,
    joins_none (not_not.2 rfl) (hwrites.same .pendingReports rfl) (hwrites.same .builderWaits rfl), ?_, ?_, fun _ => hidle⟩
  · rw [hshort]
    rfl
  · rw [shortPressRefresh, refreshOf_congr (flight_comparePlate _ _), refreshOf_modPlate, hrefresh, hshort]
    exact congrArg (fun f => (refreshOf i s).map f) (funext fun r => if_pos rfl)
  · rw [hwrites.counters_same rfl]
    exact (if_neg nofun).symm

/-- A press report, by what is taken, the level and the sweep state. -/
theorem pressed_pressReport {s : State} {i : Nat} {p : Plate} (taken : PressTaken) (hp : s.sched.plates[i]? = some p) :
    ∃ q, Pressed s (pressReport i taken s) i p q taken := by
  have hatMuster (b : Bool) (hmuster : level s = .muster) (htaken : taken.sweep = some b) : ∃ q, Pressed s (pressAtMuster i b s) i p q taken := by
    by_cases hsame : p.swept = b
    · rw [pressAtMuster_stands hp hsame]
      refine ⟨p, .unmoved hp ?_ (by simp [State.shortBelow, hmuster]) ?_⟩
      · rw [State.sweptAfter, if_pos hmuster, htaken]
        exact hsame.symm
      · rintro rfl
        cases htaken
    · rw [pressAtMuster_sweeps hp hsame]
      exact Pressed.swept_by hp hmuster htaken hsame
  cases taken with
  | nothing => exact ⟨p, .unmoved hp (ite_self _) (by simp [State.shortBelow]) nofun⟩
  | ignored => exact ⟨p, hp, rfl, (ite_self _).symm, rfl, fun h => absurd rfl h, joins_none (not_not.2 rfl) rfl rfl, (pressed_false s i).symm, rfl, nofun⟩
  | long =>
    by_cases hmuster : level s = .muster
    · rw [pressReport_long_muster hmuster]
      exact hatMuster true hmuster rfl
    · rw [pressReport_long_below hmuster]
      exact ⟨p, .unmoved hp (if_neg hmuster) (by simp [State.shortBelow]) nofun⟩
  | short =>
    by_cases hmuster : level s = .muster
    · rw [pressReport_short_muster hmuster]
      exact hatMuster false hmuster rfl
    · rw [pressReport_short_below hmuster]
      exact Pressed.short hp hmuster

end Sys2Proof.Machine
end

