-- ==== Sys2Proof/Proofs/PollSteps.lean ====
section
/-! PROOFS. The readings of a poll, continued (R134, R135, R150, R154): the switches, the drive status and the return of the plate, and the four of them one after the other. -/

namespace Sys2Proof.Machine

/-! ### The switches (R134, R120) -/

/-- The switch levels are those the plate has. -/
def Plate.switchesAt (p : Plate) (dnd mur : Bool) : Prop := p.switchDnd = dnd ∧ p.switchMur = mur

/-- What the switch readings do to the plate `p` at the position, which they leave as `q`. -/
structure Switched (s u : State) (i : Nat) (p q : Plate) (dnd mur : Bool) : Prop where
  plate : u.sched.plates[i]? = some q
  kept : q = { p with switchDnd := dnd, switchMur := mur, dnd := q.dnd, mur := q.mur, target := q.target, targetStamp := q.targetStamp, refresh := q.refresh }
  stays : p.switchesAt dnd mur → q = p
  differs : ¬ p.switchesAt dnd mur → q.dnd = dnd ∧ q.mur = mur ∧ q.target = targetFor s.node.state s.muster.record q
  reports : s.joins u (reportFor i q) (level s = .muster ∧ ¬ p.switchesAt dnd mur)
  refresh : refreshOf i u = refreshOf i s
  occupied : refreshing s = true → p.shown = none → p.refresh ≠ .idle → q.refresh ≠ .idle

theorem takeSwitches_same {i : Nat} {p : Plate} {dnd mur : Bool} {s : State} (hp : s.sched.plates[i]? = some p) (h : p.switchesAt dnd mur) :
    takeSwitches i dnd mur s = s := by
  unfold takeSwitches
  rw [hp]
  exact if_pos h

theorem takeSwitches_differ {i : Nat} {p : Plate} {dnd mur : Bool} {s : State} (hp : s.sched.plates[i]? = some p) (h : ¬ p.switchesAt dnd mur) :
    takeSwitches i dnd mur s =
      reportAtMuster i (retarget i (modPlate i (fun p => { p with switchDnd := dnd, switchMur := mur, dnd := dnd, mur := mur }) s)) := by
  unfold takeSwitches
  rw [hp]
  exact if_neg h

/-- A retargeted plate that shows nothing is not IDLE. -/
theorem plate_retarget_occupied {i : Nat} {p q : Plate} {s : State} (hp : s.sched.plates[i]? = some p) (hq : (retarget i s).sched.plates[i]? = some q)
    (hrefreshing : refreshing s = true) (habsent : p.shown = none) : q.refresh ≠ .idle := by
  obtain ⟨stamp, hretargeted⟩ := retargeted_eq s.node.state s.muster.record p
  have hmod := plate_modPlate_self (fun p => p.retargeted s.node.state s.muster.record) hp
  rw [hretargeted] at hmod
  obtain ⟨x, hx, hplate⟩ := comparePlate_stale hmod (stale_of_absent habsent) hrefreshing
  cases hq.symm.trans hplate
  exact hx

theorem switched_takeSwitches {i : Nat} {p : Plate} (dnd mur : Bool) {s : State} (hp : s.sched.plates[i]? = some p) :
    ∃ q, Switched s (takeSwitches i dnd mur s) i p q dnd mur := by
  by_cases hsame : p.switchesAt dnd mur
  · rw [takeSwitches_same hp hsame]
    refine ⟨p, hp, ?_, fun _ => rfl, fun h => absurd hsame h, joins_none (fun h => h.2 hsame) rfl rfl, rfl, fun _ _ => id⟩
    obtain ⟨rfl, rfl⟩ := hsame
    rfl
  · rw [takeSwitches_differ hp hsame]
    have hmod := plate_modPlate_self (fun p => { p with switchDnd := dnd, switchMur := mur, dnd := dnd, mur := mur }) hp
    have hwrites := writes_retarget' i (modPlate i (fun p => { p with switchDnd := dnd, switchMur := mur, dnd := dnd, mur := mur }) s)
    have hlevel : level (retarget i (modPlate i (fun p => { p with switchDnd := dnd, switchMur := mur, dnd := dnd, mur := mur }) s)) = level s :=
      congrArg OrderRecord.level hwrites.record
    have hflight := flight_retarget i (modPlate i (fun p => { p with switchDnd := dnd, switchMur := mur, dnd := dnd, mur := mur }) s)
    obtain ⟨stamp, x, hplate⟩ := plate_retarget hmod
    have hreports := joins_reportAtMuster hplate
    rw [hlevel] at hreports
    refine ⟨_, by rw [sched_reportAtMuster, hplate], rfl, fun h => absurd h hsame, fun _ => ⟨rfl, rfl, rfl⟩, ?_, ?_, fun hrefreshing habsent _ => ?_⟩
    · rw [and_iff_left hsame]
      exact hreports.after (r := modPlate i _ s) hwrites rfl rfl
    · rw [refreshOf_congr (congrArg (·.flight) (sched_reportAtMuster i _)), refreshOf_congr hflight, refreshOf_modPlate]
    · exact plate_retarget_occupied hmod hplate hrefreshing habsent

/-! ### The drive status (R134, R150, R151) -/

/-- The refresh in DRIVE among what the plate has. -/
def inDrive (o : Option Refresh) : Option Refresh := o.filter (·.driveTimer.isSome)

/-- The shown content after a drive status. -/
def shownAfter (driven : Option Refresh) (d : DriveStatus) (shown : Option (Content × Half)) : Option (Content × Half) :=
  match driven, d with
  | some x, .done => if x.pressNoted then none else some (x.content, x.stamp)
  | some _, .idle => none
  | _, _ => shown

/-- The partial count after a drive status. -/
def partialAfter (driven : Option Refresh) (d : DriveStatus) (count : Nat) : Nat :=
  match driven, d with
  | some x, .done => if x.full then 0 else count + 1
  | _, _ => count

/-- What the drive status does to the plate `p` at the position, which it leaves as `q`. -/
structure Driven (s u : State) (i : Nat) (p q : Plate) (d : DriveStatus) : Prop where
  plate : u.sched.plates[i]? = some q
  kept : q = { p with driveStatus := some d, shown := q.shown, partialCount := q.partialCount, refresh := q.refresh }
  shown : q.shown = shownAfter (inDrive (refreshOf i s)) d p.shown
  count : q.partialCount = partialAfter (inDrive (refreshOf i s)) d p.partialCount
  drives : d = .driving → refreshOf i u = refreshOf i s
  ends : ∀ x, inDrive (refreshOf i s) = some x → d ≠ .driving → refreshOf i u = none
  occupied : refreshing s = true → p.refresh ≠ .idle → q.shown = none → q.refresh ≠ .idle

theorem inDrive_eq_some {o : Option Refresh} {x : Refresh} : inDrive o = some x ↔ o = some x ∧ x.driveTimer.isSome = true := Option.filter_eq_some_iff

theorem inDrive_none {i : Nat} {s : State} (h : inDrive (refreshOf i s) = none) : ∀ r, refreshOf i s = some r → r.driveTimer = none := by
  intro r hr
  rw [hr] at h
  simpa [inDrive, Option.filter] using h

theorem shownAfter_driving (o : Option Refresh) (shown : Option (Content × Half)) : shownAfter o .driving shown = shown := by
  cases o <;> rfl

theorem partialAfter_driving (o : Option Refresh) (count : Nat) : partialAfter o .driving count = count := by
  cases o <;> rfl

theorem driven_takeDrive {i : Nat} {p : Plate} (d : DriveStatus) {s : State} (hp : s.sched.plates[i]? = some p) :
    ∃ q, Driven s (takeDrive i d s) i p q d := by
  have hmod := plate_modPlate_self (fun p => { p with driveStatus := some d }) hp
  cases hdriven : inDrive (refreshOf i s) with
  | none =>
    have hother : takeDrive i d s = modPlate i (fun p => { p with driveStatus := some d }) s :=
      driveReading_other (s := modPlate i (fun p => { p with driveStatus := some d }) s) (inDrive_none hdriven) d
    rw [hother]
    exact ⟨_, hmod, rfl, by rw [hdriven]; rfl, by rw [hdriven]; rfl, fun _ => rfl, fun x hx => (nomatch hdriven.symm.trans hx), fun _ hbusy _ => hbusy⟩
  | some x =>
    obtain ⟨hx, hdrive⟩ := inDrive_eq_some.1 hdriven
    obtain ⟨hdone, hidle, hdriving⟩ := driveReading_drive (s := modPlate i (fun p => { p with driveStatus := some d }) s) hx hdrive
    obtain rfl := position_of_refreshOf hx
    cases d with
    | driving =>
      rw [takeDrive, hdriving]
      exact ⟨_, hmod, rfl, (shownAfter_driving ..).symm, (partialAfter_driving ..).symm, fun _ => rfl, fun _ _ hno => absurd rfl hno, fun _ hbusy _ => hbusy⟩
    | done =>
      rw [takeDrive, hdone]
      obtain ⟨hplate, -, hflight⟩ := completeRefresh_spec (r := x) hmod
      refine ⟨_, hplate, rfl, by rw [hdriven]; rfl, by rw [hdriven]; rfl, nofun, fun _ _ _ => ?_, fun hrefreshing _ habsent => ?_⟩
      · rw [refreshOf_congr (s := leaveFlight x.position s) hflight]
        exact refreshOf_leaveFlight ..
      · have hnoted : x.pressNoted = true := by simpa using habsent
        show (if _ then RefreshState.queued else .idle) ≠ .idle
        rw [if_pos ⟨hrefreshing, .inl hnoted⟩]
        nofun
    | idle =>
      rw [takeDrive, hidle]
      obtain ⟨hplate, -⟩ := failRefresh_spec hmod
      refine ⟨_, hplate, rfl, by rw [hdriven]; rfl, by rw [hdriven]; rfl, nofun, fun _ _ _ => refreshOf_failRefresh _ _, fun hrefreshing _ _ => ?_⟩
      show (if refreshing s = true then RefreshState.queued else .idle) ≠ .idle
      rw [if_pos hrefreshing]
      nofun

/-! ### The return of the plate (R135, R120) -/

/-- The plate of a complete transaction. -/
def Plate.heard (p : Plate) : Plate := { p with failureRun := 0, health := .responding }

/-- What a complete transaction does to the plate `p` at the position. -/
structure Heard (s u : State) (i : Nat) (p : Plate) : Prop where
  sched : u.sched = (modPlate i Plate.heard s).sched
  event : p.health = .notResponding → eventSet .plate u = true
  reports : s.joins u (reportFor i p.heard) (level s = .muster ∧ p.health = .notResponding)

theorem heard_healthComplete {i : Nat} {p : Plate} {s : State} (hp : s.sched.plates[i]? = some p) : Heard s (healthComplete i s) i p := by
  refine ⟨sched_healthComplete hp, ?_, ?_⟩ <;> unfold healthComplete <;> rw [hp]
  · intro hlost
    dsimp only
    rw [if_pos hlost]
    have hset := eventSet_setEvent .plate (modPlate i Plate.heard s)
    exact (writes_reportAtMuster i (.refl [.pendingReports, .builderWaits] _) (List.Subset.refl _)).eventSet hset
  · dsimp only
    by_cases hlost : p.health = .notResponding
    · rw [if_pos hlost, and_iff_left hlost]
      exact joins_reportAtMuster (s := setEvent .plate (modPlate i Plate.heard s)) (plate_modPlate_self Plate.heard hp)
    · rw [if_neg hlost]
      exact joins_none (fun h => hlost h.2) rfl rfl

end Sys2Proof.Machine
end

