-- ==== Sys2Proof/Proofs/PollReadings.lean ====
section
/-! PROOFS. The four readings of a poll, one after the other (R134). -/

namespace Sys2Proof.Machine

theorem State.joins.congr {s u : State} {d e : CabinEntry} {told told' : Prop} (h : s.joins u d told) (htold : told ↔ told') (he : told' → e = d) :
    s.joins u e told' := by
  refine ⟨fun hyes => ?_, fun hno => h.2 fun hyes => hno (htold.1 hyes)⟩
  rw [he hyes]
  exact h.1 (htold.2 hyes)

theorem reportFor_congr {p q : Plate} (hcabin : q.cabin = p.cabin) (hswept : q.swept = p.swept) (hhealth : q.health = p.health) (hdnd : q.dnd = p.dnd)
    (hmur : q.mur = p.mur) (i : Nat) : reportFor i q = reportFor i p := by
  rw [reportFor, reportFor, hcabin, hswept, hhealth, hdnd, hmur]

theorem targetFor_congr {p q : Plate} (hassigned : q.assigned = p.assigned) (hswept : q.swept = p.swept) (hdnd : q.dnd = p.dnd) (hmur : q.mur = p.mur)
    (node : NodeState) (r : OrderRecord) : targetFor node r q = targetFor node r p := by
  rw [targetFor, targetFor, hassigned, hswept, hdnd, hmur]

/-- A press leaves the plate's sweep state, but at MUSTER. -/
theorem sweptAfter_below {s : State} {taken : PressTaken} {p : Plate} (h : s.sweptAfter taken p ≠ p.swept) : level s = .muster := by
  by_contra hbelow
  exact h (if_neg hbelow)

theorem inDrive_pressed (o : Option Refresh) (short : Bool) : inDrive (o.map (·.pressed short)) = (inDrive o).map (·.pressed short) := by
  unfold inDrive
  rw [Option.filter_map]
  cases short <;> rfl

/-- The health that a report made over a poll carries: the plate is not heard before the readings are taken, but its return is told after. -/
def Health.toldAs (h : Health) : Health := if h = .unknown then .unknown else .responding

/-- A report of the plate is due: at MUSTER a change of its sweep state or of a switch, or its return. -/
def State.tells (s : State) (p q : Plate) (r : Readings) : Prop :=
  level s = .muster ∧ (q.swept ≠ p.swept ∨ ¬ p.switchesAt r.dnd r.mur ∨ p.health = .notResponding)

/-- What the readings do to the plate `p` at the position, which they leave as `q`. -/
structure Polled (s u : State) (i : Nat) (p q : Plate) (r : Readings) (taken : PressTaken) : Prop where
  plate : u.sched.plates[i]? = some q
  heard : q.health = .responding ∧ q.failureRun = 0
  switches : q.switchesAt r.dnd r.mur
  drive : q.driveStatus = some r.drive
  press : q.press = (pressStep r.button p.press).1
  returns : p.health = .notResponding → eventSet .plate u = true
  stays : p.switchesAt r.dnd r.mur → q.dnd = p.dnd ∧ q.mur = p.mur
  differs : ¬ p.switchesAt r.dnd r.mur → q.dnd = r.dnd ∧ q.mur = r.mur ∧ q.target = targetFor s.node.state s.muster.record q
  swept : q.swept = s.sweptAfter taken p
  sweeps : q.swept ≠ p.swept → eventSet .sweep u = true ∧ q.target = targetFor s.node.state s.muster.record q
  ignored : u.counters.ignoredPresses = if taken = .ignored then raised s.counters.ignoredPresses else s.counters.ignoredPresses
  short : s.shortBelow taken = true → q.shown = none ∧ (refreshing s = true → q.refresh ≠ .idle)
  shown : s.shortBelow taken = false → q.shown = shownAfter (inDrive (refreshOf i s)) r.drive p.shown
  count : q.partialCount = partialAfter (inDrive (refreshOf i s)) r.drive p.partialCount
  drives : r.drive = .driving → refreshOf i u = (refreshOf i s).map (·.pressed (s.shortBelow taken))
  ends : ∀ x, inDrive (refreshOf i s) = some x → r.drive ≠ .driving → refreshOf i u = none
  reports : s.joins u (reportFor i { q with health := p.health.toldAs }) (s.tells p q r)

/-- The shown content after a press noted: absent, whatever the drive status. -/
theorem shownAfter_pressed (o : Option Refresh) (d : DriveStatus) : shownAfter (o.map (·.pressed true)) d none = none := by
  cases o <;> cases d <;> rfl

theorem partialAfter_pressed (o : Option Refresh) (short : Bool) (d : DriveStatus) (count : Nat) :
    partialAfter (o.map (·.pressed short)) d count = partialAfter o d count := by
  cases short <;> cases o <;> cases d <;> rfl

section
variable {s u v w x : State} {i : Nat} {p a b c : Plate} {r : Readings} {taken : PressTaken}

theorem Pressed.same_health (h : Pressed s u i p a taken) : a.health = p.health := (congrArg Plate.health h.kept :)
theorem Pressed.same_switches (h : Pressed s u i p a taken) : a.switchesAt r.dnd r.mur ↔ p.switchesAt r.dnd r.mur := by
  rw [Plate.switchesAt, Plate.switchesAt, (congrArg Plate.switchDnd h.kept :), (congrArg Plate.switchMur h.kept :)]
theorem Switched.same_health (h : Switched u v i a b r.dnd r.mur) : b.health = a.health := (congrArg Plate.health h.kept :)
theorem Switched.same_swept (h : Switched u v i a b r.dnd r.mur) : b.swept = a.swept := (congrArg Plate.swept h.kept :)
theorem Driven.same_health (h : Driven v w i b c r.drive) : c.health = b.health := (congrArg Plate.health h.kept :)
theorem Driven.same_swept (h : Driven v w i b c r.drive) : c.swept = b.swept := (congrArg Plate.swept h.kept :)
theorem Switched.same_assigned (h : Switched u v i a b r.dnd r.mur) : b.assigned = a.assigned := (congrArg Plate.assigned h.kept :)
theorem Driven.same_target (h : Driven v w i b c r.drive) : c.target = b.target := (congrArg Plate.target h.kept :)
theorem Driven.same_cabin (h : Driven v w i b c r.drive) : c.cabin = b.cabin := (congrArg Plate.cabin h.kept :)
theorem Driven.same_assigned (h : Driven v w i b c r.drive) : c.assigned = b.assigned := (congrArg Plate.assigned h.kept :)
theorem Driven.same_dnd (h : Driven v w i b c r.drive) : c.dnd = b.dnd := (congrArg Plate.dnd h.kept :)
theorem Driven.same_mur (h : Driven v w i b c r.drive) : c.mur = b.mur := (congrArg Plate.mur h.kept :)

/-- The reports of the four readings are one report of the plate as it is left. -/
theorem joins_readings (hpress : Pressed s u i p a taken) (hswitch : Switched u v i a b r.dnd r.mur) (hdrive : Driven v w i b c r.drive)
    (hheard : Heard w x i c) (hlevelu : level u = level s) (hlevelw : level w = level s) (hwrites : Writes Part.refreshed v w) :
    s.joins x (reportFor i { c.heard with health := p.health.toldAs }) (s.tells p c.heard r) := by
  have hhealthb : b.health = p.health := hswitch.same_health.trans hpress.same_health
  have hhealthc : c.health = p.health := hdrive.same_health.trans hhealthb
  have hsweptc : c.swept = a.swept := hdrive.same_swept.trans hswitch.same_swept
  have hmuster (h : a.swept ≠ p.swept) : level s = .muster := sweptAfter_below (hpress.swept ▸ h)
  have hlater := hheard.reports.after hwrites rfl rfl
  have hfirst := hpress.reports.trans hswitch.reports rfl fun hswept hno => by
    rw [hswitch.stays (by_contra fun hdiffers => hno ⟨hlevelu.trans (hmuster hswept), hdiffers⟩)]
  have hlast : v.joins x (reportFor i { c.heard with health := p.health.toldAs }) (level w = .muster ∧ c.health = .notResponding) :=
    hlater.congr Iff.rfl fun h => by
      rw [Health.toldAs, if_neg (by rw [← hhealthc, h.2]; nofun)]
      rfl
  refine (hfirst.trans hlast rfl fun hfirst hno => ?_).congr ?_ fun _ => rfl
  · have hpresent : p.health ≠ .notResponding := fun hlost => hno ⟨?_, hhealthc.trans hlost⟩
    · refine reportFor_congr (q := { c.heard with health := p.health.toldAs }) hdrive.same_cabin hdrive.same_swept ?_ hdrive.same_dnd hdrive.same_mur i
      show p.health.toldAs = b.health
      rw [hhealthb]
      cases h : p.health with
      | notResponding => exact absurd h hpresent
      | unknown => rfl
      | responding => rfl
    · rw [hlevelw]
      exact hfirst.elim hmuster fun h => hlevelu.symm.trans h.1
  · rw [State.tells, hlevelu, hlevelw, hhealthc, hpress.same_switches, show c.heard.swept = a.swept from hsweptc]
    constructor
    · rintro ((h | ⟨h, hdiffers⟩) | ⟨h, hlost⟩)
      · exact ⟨hmuster h, .inl h⟩
      · exact ⟨h, .inr (.inl hdiffers)⟩
      · exact ⟨h, .inr (.inr hlost)⟩
    · rintro ⟨h, hwhich⟩
      exact hwhich.elim (fun hswept => .inl (.inl hswept)) fun hrest => hrest.elim (fun hdiffers => .inl (.inr ⟨h, hdiffers⟩)) fun hlost => .inr ⟨h, hlost⟩

/-- The target of the plate as it is left is that of the plate when the target was made. -/
theorem target_readings (hdrive : Driven v w i b c r.drive) {node : NodeState} {record : OrderRecord} (h : b.target = targetFor node record b) :
    c.heard.target = targetFor node record c.heard :=
  (hdrive.same_target.trans h).trans
    (targetFor_congr (q := c.heard) hdrive.same_assigned hdrive.same_swept hdrive.same_dnd hdrive.same_mur node record).symm

end

theorem takeButton_eq {i : Nat} {p : Plate} {s : State} (hp : s.sched.plates[i]? = some p) (held : Bool) : takeButton i held s =
    pressReport i (pressStep held p.press).2 (modPlate i (fun q => { q with press := (pressStep held p.press).1 }) s) := by
  unfold takeButton
  rw [hp]

theorem polled_takeReadings {i : Nat} {p : Plate} {s : State} (r : Readings) (hp : s.sched.plates[i]? = some p) :
    ∃ q, Polled s (takeReadings i r s) i p q r (pressStep r.button p.press).2 := by
  have hmod := plate_modPlate_self (fun q => { q with press := (pressStep r.button p.press).1 }) hp
  obtain ⟨a, hpress⟩ := pressed_pressReport (pressStep r.button p.press).2 hmod
  have hwritesu := writes_takeButton i r.button (.refl _ s) (List.Subset.refl _)
  rw [← takeButton_eq hp] at hpress
  unfold takeReadings
  generalize takeButton i r.button s = u at *
  obtain ⟨b, hswitch⟩ := switched_takeSwitches r.dnd r.mur hpress.plate
  have hwritesv := writes_takeSwitches i r.dnd r.mur (.refl _ u) (List.Subset.refl _)
  generalize takeSwitches i r.dnd r.mur u = v at *
  obtain ⟨c, hdrive⟩ := driven_takeDrive r.drive hswitch.plate
  have hwritesw := writes_takeDrive i r.drive (.refl _ v) (List.Subset.refl _)
  generalize takeDrive i r.drive v = w at *
  have hheard := heard_healthComplete hdrive.plate
  have hwritesx := writes_healthComplete i (.refl _ w) (List.Subset.refl _)
  generalize healthComplete i w = x at *
  have hplate : x.sched.plates[i]? = some c.heard := by
    rw [hheard.sched]
    exact plate_modPlate_self Plate.heard hdrive.plate
  have hlevelu : level u = level s := congrArg OrderRecord.level hwritesu.record
  have hrecordw : w.muster.record = s.muster.record := (hwritesw.record.trans hwritesv.record).trans hwritesu.record
  have hrefreshingv : refreshing v = refreshing s := by rw [refreshing, hwritesv.node, hwritesu.node, refreshing]
  have hrefreshingu : refreshing u = refreshing s := by rw [refreshing, hwritesu.node, refreshing]
  have hrefresh : refreshOf i v = (refreshOf i s).map (·.pressed (s.shortBelow (pressStep r.button p.press).2)) := hswitch.refresh.trans hpress.refresh
  have hdriven : inDrive (refreshOf i v) = (inDrive (refreshOf i s)).map (·.pressed (s.shortBelow (pressStep r.button p.press).2)) := by
    rw [hrefresh, inDrive_pressed]
  have hreports := joins_readings hpress hswitch hdrive hheard hlevelu (congrArg OrderRecord.level hrecordw) hwritesw
  have hshown := hdrive.shown
  have hcount := hdrive.count
  rw [hdriven] at hshown hcount
  have hstays (h : p.switchesAt r.dnd r.mur) : b = a := hswitch.stays (hpress.same_switches.2 h)
  have hdiffers (h : ¬ p.switchesAt r.dnd r.mur) : b.dnd = r.dnd ∧ b.mur = r.mur ∧ b.target = targetFor s.node.state s.muster.record b := by
    rw [← hwritesu.node, ← hwritesu.record]
    exact hswitch.differs fun hsame => h (hpress.same_switches.1 hsame)
  have hswept : c.heard.swept = a.swept := hdrive.same_swept.trans hswitch.same_swept
  refine ⟨c.heard, hplate, ⟨rfl, rfl⟩, ?switches, (congrArg Plate.driveStatus hdrive.kept :), ?press, ?returns, fun h => ?stays, fun h => ?differs,
    hswept.trans hpress.swept, fun h => ?sweeps, ?ignored, fun h => ?noted, fun h => ?shown, ?count, fun h => ?drives, fun y hy h => ?ends, hreports⟩
  case switches =>
    exact ⟨(congrArg Plate.switchDnd hdrive.kept).trans (congrArg Plate.switchDnd hswitch.kept :),
      (congrArg Plate.switchMur hdrive.kept).trans (congrArg Plate.switchMur hswitch.kept :)⟩
  case press =>
    exact ((congrArg Plate.press hdrive.kept).trans (congrArg Plate.press hswitch.kept :)).trans (congrArg Plate.press hpress.kept :)
  case returns =>
    exact fun hlost => hheard.event ((hdrive.same_health.trans (hswitch.same_health.trans hpress.same_health)).trans hlost)
  case stays =>
    rw [hstays h] at hdrive
    exact ⟨hdrive.same_dnd.trans (congrArg Plate.dnd hpress.kept :), hdrive.same_mur.trans (congrArg Plate.mur hpress.kept :)⟩
  case differs =>
    obtain ⟨hdnd, hmur, htarget⟩ := hdiffers h
    exact ⟨hdrive.same_dnd.trans hdnd, hdrive.same_mur.trans hmur, target_readings hdrive htarget⟩
  case sweeps =>
    obtain ⟨hset, htarget⟩ := hpress.sweeps (hswept ▸ h)
    refine ⟨hwritesx.eventSet (hwritesw.eventSet (hwritesv.eventSet hset)), target_readings hdrive ?_⟩
    by_cases hsame : p.switchesAt r.dnd r.mur
    · rw [hstays hsame]
      exact htarget
    · exact (hdiffers hsame).2.2
  case ignored =>
    rw [hwritesx.counters_same rfl, hwritesw.counters_same rfl, hwritesv.counters_same rfl]
    exact hpress.ignored
  case noted =>
    have habsent : a.shown = none := hpress.shown.trans (if_pos h)
    have habsent' : b.shown = none := (congrArg Plate.shown hswitch.kept).trans habsent
    rw [habsent', h, shownAfter_pressed] at hshown
    refine ⟨hshown, fun hrefreshing => hdrive.occupied (hrefreshingv.trans hrefreshing) ?_ hshown⟩
    exact hswitch.occupied (hrefreshingu.trans hrefreshing) habsent (hpress.queued h hrefreshing)
  case shown =>
    have hkept : b.shown = p.shown := (congrArg Plate.shown hswitch.kept).trans (hpress.shown.trans (if_neg (by rw [← Bool.not_eq_true] at h; exact h)))
    rw [hkept, h, ← inDrive_pressed, pressed_false] at hshown
    exact hshown
  case count =>
    rw [partialAfter_pressed] at hcount
    exact hcount.trans (congrArg (partialAfter _ _) ((congrArg Plate.partialCount hswitch.kept).trans (congrArg Plate.partialCount hpress.kept :)))
  case drives =>
    rw [refreshOf_congr (s := w) (congrArg (·.flight) hheard.sched), hdrive.drives h]
    exact hrefresh
  case ends =>
    rw [refreshOf_congr (s := w) (congrArg (·.flight) hheard.sched)]
    exact hdrive.ends (y.pressed (s.shortBelow (pressStep r.button p.press).2)) (by rw [hdriven, hy]; rfl) h

end Sys2Proof.Machine
end

