-- ==== Sys2Proof/Proofs/ReportsSent.lean ====
section
/-! PROOFS. Cabin reports that are sent (R123): the builder with room in the queue and without. -/

namespace Sys2Proof.Machine

theorem Writes.muster {ps : List Part} {r s : State} (h : Writes ps r s)
    (hp : Part.apart [.standDown, .echoTimer, .joinEcho, .pendingReports, .outstanding, .builderWaits, .sweepRefresh, .roll] ps = true) : s.muster = r.muster :=
  (MusterControl.mk.injEq ..).mpr ⟨h.authorities, h.record, h.highestSeen, h.sameOf hp (p := .standDown) (by simp), h.sameOf hp (p := .echoTimer) (by simp),
    h.sameOf hp (p := .joinEcho) (by simp), h.sameOf hp (p := .pendingReports) (by simp), h.sameOf hp (p := .outstanding) (by simp),
    h.sameOf hp (p := .builderWaits) (by simp), h.sameOf hp (p := .sweepRefresh) (by simp), h.sameOf hp (p := .roll) (by simp)⟩

theorem queueSound_congr {s t : State} (h : t.bus.queue = s.bus.queue) : t.queueSound ↔ s.queueSound := by
  rw [queueSound_iff, queueSound_iff, h]

theorem offer_snd (o : Offer) (s : State) : (offer o s).2 = (offerBase o s).2 := by
  unfold offer
  split
  · rename_i heq
    rw [heq]
  · rfl

/-- An offer that R34 and R35 let pass is accepted on a sound queue with room, by eviction too. -/
theorem offer_accepted_room {o : Offer} {s : State} (hpass : ¬ refusedByState o s) (hsound : s.queueSound) (hroom : hasRoom o.kind s.bus.queue = true) :
    ∃ g, (offer o s).2 = .accepted s.bus.nextSeq g := by
  rw [offer_snd]
  by_cases hnew : (o.kind.single && queued o.kind s.bus.queue) = true
  · obtain ⟨hsingle, hqueued⟩ := Bool.and_eq_true_iff.1 hnew
    exact ⟨none, by rw [offerBase_replaces hpass hsingle hqueued]⟩
  by_cases hlen : s.bus.queue.length < 8
  · exact ⟨none, by rw [offerBase_places hpass (by simpa using hnew) hlen]⟩
  · simp only [hasRoom, hlen, hnew, decide_false, Bool.false_or, List.any_eq_true, decide_eq_true_eq] at hroom
    obtain ⟨g, hg, hrank⟩ := hroom
    obtain ⟨d, hlast⟩ : ∃ d, s.bus.queue.getLast? = some d := ⟨_, List.getLast?_eq_some_getLast (List.ne_nil_of_mem hg)⟩
    exact ⟨some d, by rw [offerBase_evicts hpass (by simpa using hnew) (by omega) hlast ((getLast_rank_le hsound.2.1 hg hlast).trans_lt hrank)]⟩

/-- An offer without room is refused. -/
theorem offer_refused_full {o : Offer} {s : State} (hpass : ¬ refusedByState o s) (hroom : hasRoom o.kind s.bus.queue = false) :
    (offer o s).2 = .refusedFull := by
  rw [offer_snd]
  simp only [hasRoom, Bool.or_eq_false_iff, decide_eq_false_iff_not, List.any_eq_false, decide_eq_true_eq] at hroom
  obtain ⟨⟨hlen, hnew⟩, hrank⟩ := hroom
  obtain ⟨d, hlast⟩ : ∃ d, s.bus.queue.getLast? = some d := by
    refine ⟨_, List.getLast?_eq_some_getLast fun hnil => ?_⟩
    rw [hnil] at hlen
    exact hlen (by decide)
  rw [offerBase_full hpass hnew (by omega) hlast (Nat.le_of_not_lt (hrank d (List.mem_of_getLast? hlast)))]

/-- The builder may offer. -/
def State.builds (s : State) : Prop :=
  participates s = true ∧ s.muster.pendingReports ≠ [] ∧ s.muster.reportOutstanding = false ∧ s.muster.builderWaits = false

theorem settleReports_builds {s : State} (h : s.builds) : settleReports s = buildReport s := by
  obtain ⟨hpart, hpending, houtstanding, hwaits⟩ := h
  refine if_pos ?_
  simp [hpart, hpending, houtstanding, hwaits]

/-- The CABIN REPORT that the builder offers. -/
def reportOffer (entries : List CabinEntry) : Offer := ⟨.cabinReport, 128, cabinPayload entries, [], false⟩

/-- The state whose oldest entries the builder has taken. -/
def State.reportsTaken (s : State) : State := s.modMuster fun m => { m with pendingReports := m.pendingReports.drop 6 }

section
variable {s : State}

theorem muster_reportOffered (s : State) : (offer (reportOffer (s.muster.pendingReports.take 6)) s.reportsTaken).1.muster =
    { s.muster with pendingReports := s.muster.pendingReports.drop 6 } :=
  (writes_offer (reportOffer (s.muster.pendingReports.take 6)) (.refl _ s.reportsTaken) (List.Subset.refl _)).muster rfl

theorem buildReport_accepted {q : Octet} {g : Option TxFrame} (h : (offer (reportOffer (s.muster.pendingReports.take 6)) s.reportsTaken).2 = .accepted q g) :
    buildReport s = (offer (reportOffer (s.muster.pendingReports.take 6)) s.reportsTaken).1.modMuster fun m => { m with reportOutstanding := true } := by
  unfold buildReport
  dsimp only
  split
  · rename_i heq
    exact congrArg (·.modMuster fun m => { m with reportOutstanding := true }) (congrArg Prod.fst heq).symm
  · rename_i hother heq
    exact absurd ((congrArg Prod.snd heq).symm.trans h) (hother _ _)

theorem buildReport_refused (h : (offer (reportOffer (s.muster.pendingReports.take 6)) s.reportsTaken).2 = .refusedFull) :
    buildReport s = (offer (reportOffer (s.muster.pendingReports.take 6)) s.reportsTaken).1.modMuster fun m => { m with builderWaits := true } := by
  unfold buildReport
  dsimp only
  split
  · rename_i heq
    cases (congrArg Prod.snd heq).symm.trans h
  · rename_i heq
    exact congrArg (·.modMuster fun m => { m with builderWaits := true }) (congrArg Prod.fst heq).symm

/-- With room the six oldest entries stand to be sent, and a report is outstanding. -/
theorem settleReports_sends (h : s.builds) (hsound : s.queueSound) (hroom : hasRoom .cabinReport s.bus.queue = true) :
    (settleReports s).stands ⟨.cabinReport, 128, s.bus.nextSeq, cabinPayload (s.muster.pendingReports.take 6), [], false⟩
      ∧ (settleReports s).muster = { s.muster with pendingReports := s.muster.pendingReports.drop 6, reportOutstanding := true } := by
  have hpass : ¬ refusedByState (reportOffer (s.muster.pendingReports.take 6)) s.reportsTaken := not_refused h.1 rfl
  obtain ⟨g, haccepted⟩ := offer_accepted_room hpass hsound hroom
  have hoffered := stands_offer_room (o := reportOffer (s.muster.pendingReports.take 6)) (s := s.reportsTaken) rfl hpass hsound hroom
  have hmuster := muster_reportOffered s
  rw [settleReports_builds h, buildReport_accepted haccepted]
  generalize (offer (reportOffer (s.muster.pendingReports.take 6)) s.reportsTaken).1 = u at *
  exact ⟨hoffered, congrArg (fun m : MusterControl => { m with reportOutstanding := true }) hmuster⟩

/-- Without room they are lost, and the builder waits. -/
theorem settleReports_waits (h : s.builds) (hroom : hasRoom .cabinReport s.bus.queue = false) :
    (settleReports s).muster = { s.muster with pendingReports := s.muster.pendingReports.drop 6, builderWaits := true } := by
  have hpass : ¬ refusedByState (reportOffer (s.muster.pendingReports.take 6)) s.reportsTaken := not_refused h.1 rfl
  have hmuster := muster_reportOffered s
  rw [settleReports_builds h, buildReport_refused (offer_refused_full hpass hroom)]
  exact congrArg (fun m : MusterControl => { m with builderWaits := true }) hmuster

theorem settleReports_stays (h : ¬ s.builds) : settleReports s = s := by
  refine if_neg fun hbuilds => h ?_
  simpa [and_assoc, State.builds] using hbuilds

/-- The end of a step that sends a report. -/
theorem settle_sends (h : s.builds) (hsound : s.queueSound) (hroom : hasRoom .cabinReport s.bus.queue = true) :
    (settle s).stands ⟨.cabinReport, 128, s.bus.nextSeq, cabinPayload (s.muster.pendingReports.take 6), [], false⟩
      ∧ (settle s).muster.pendingReports = s.muster.pendingReports.drop 6 ∧ (settle s).muster.reportOutstanding = true := by
  have hrefresh : Writes Part.refreshed s (settleRefreshes s) := writes_settleRefreshes (.refl _ s) (List.Subset.refl _)
  have hqueue : (settleRefreshes s).bus.queue = s.bus.queue := hrefresh.same .queue rfl
  have hseq : (settleRefreshes s).bus.nextSeq = s.bus.nextSeq := hrefresh.same .nextSeq rfl
  have hmuster : (settleRefreshes s).muster = s.muster := hrefresh.muster rfl
  have hbuilds : (settleRefreshes s).builds := by
    rw [State.builds, hrefresh.participates, hmuster]
    exact h
  have hafter : Writes [.answers, .active, .free, .engine, .plates, .lights, .line] (settleReports (settleRefreshes s)) (settle s) :=
    writes_settleAttention (writes_settleLights (writes_arbitrate (writes_settleAnswers (.refl _ _) (by simp)) (by simp)) (by simp)) (by simp)
  obtain ⟨hstands, hsent⟩ := settleReports_sends hbuilds ((queueSound_congr hqueue).2 hsound) (by rw [hqueue]; exact hroom)
  rw [hseq, hmuster] at hstands
  rw [hafter.muster rfl, hsent, hmuster]
  exact ⟨hafter.stands rfl hstands, rfl, rfl⟩

end

end Sys2Proof.Machine
end

