-- ==== Sys2Proof/Proofs/PollEnds.lean ====
section
/-! PROOFS. The end of a poll (R128, R133 to R136): its readings, a reply that is bad, and the next poll (O45). -/

namespace Sys2Proof.Machine

/-! ### The next poll (R133) -/

theorem pollPeriod_eq (h : Health) : pollPeriod h = if h = .notResponding then 2000 else 100 := by
  cases h <;> rfl

/-- The plate whose next poll falls due a period after the transaction entered START. -/
def Plate.rescheduled (tr : Transaction) (p : Plate) : Plate := { p with pollDue := some { start := tr.startedAt, len := pollPeriod p.health } }

theorem plate_nextPoll {tr : Transaction} {p : Plate} {s : State} (hp : s.sched.plates[tr.position]? = some p) :
    (nextPoll tr s).sched.plates[tr.position]? = some (p.rescheduled tr) := plate_modPlate_self _ hp

/-- A plate that is not IDLE stays so over a start. -/
theorem busy_startOne {i : Nat} {p : Plate} {s : State} (hp : s.sched.plates[i]? = some p) (hbusy : p.refresh ≠ .idle) :
    ∃ q, (startOne s).sched.plates[i]? = some q ∧ q.refresh ≠ .idle := by
  obtain ⟨hs, -⟩ | ⟨j, q, -, -, hj, hq, -, hs⟩ := startOne_cases s <;> rw [hs]
  · exact ⟨p, hp, hbusy⟩
  · by_cases hij : j = i
    · subst hij
      exact ⟨_, plate_modPlate_self _ hp, nofun⟩
    · exact ⟨p, (plate_modPlate_of_ne hij _ _).trans hp, hbusy⟩

theorem busy_settle {i : Nat} {p q : Plate} {s : State} (hp : s.sched.plates[i]? = some p) (hbusy : p.refresh ≠ .idle)
    (hq : (settle s).sched.plates[i]? = some q) : q.refresh ≠ .idle := by
  obtain ⟨a, ha, hbusya⟩ := busy_startOne hp hbusy
  obtain ⟨b, hb, hbusyb⟩ := busy_startOne ha hbusya
  have hseen : (settle s).sched.plates.map Plate.refresh = (settleRefreshes s).sched.plates.map Plate.refresh := seen_settle (fun _ _ => rfl) s
  obtain ⟨c, hc, hsame⟩ := plate_of_map hseen hb
  cases hq.symm.trans hc
  rw [hsame]
  exact hbusyb

/-- A poll that the arbiter starts was due. -/
theorem due_of_duePoll {i : Nat} {p : Plate} {x : Timer} {s : State} (h : duePoll s = some i) (hp : s.sched.plates[i]? = some p)
    (hx : p.pollDue = some x) : x.len ≤ (s.time.now - x.start).toNat := by
  rw [duePoll_eq] at h
  split at h
  · obtain ⟨late, hlongest, -⟩ := (longestDue_iff ..).1 h
    obtain ⟨y, ⟨hy, hlen⟩, -⟩ := (late_iff s i late).1 hlongest
    rw [hp, Option.bind_some, hx] at hy
    cases hy
    exact hlen
  · cases h

/-- The end of the step that ends a poll: the next one falls due, unless it has been started. -/
theorem settle_nextPoll {tr : Transaction} {p : Plate} {s : State} (hp : s.sched.plates[tr.position]? = some p) (hbusy : s.pins.busy = false) :
    ∃ q, (settle (nextPoll tr s)).sched.plates[tr.position]? = some q ∧ (∃ x due, q = { p with refresh := x, pollDue := due })
      ∧ (p.refresh ≠ .idle → q.refresh ≠ .idle)
      ∧ (q.pollDue = some { start := tr.startedAt, len := pollPeriod p.health }
          ∨ (pollPeriod p.health ≤ (s.time.now - tr.startedAt).toNat ∧ q.pollDue = none
              ∧ (settle (nextPoll tr s)).chain.engine = .transaction ⟨tr.position, .poll, .finish, s.time.now, s.time.now⟩)) := by
  have hnext := plate_nextPoll hp
  obtain ⟨q, hq, hsame | ⟨hsame, hdue, hengine⟩⟩ := plate_settle hnext
  · exact ⟨q, hq, ⟨_, _, hsame⟩, fun h => busy_settle hnext h hq, .inl (congrArg Plate.pollDue hsame)⟩
  · refine ⟨q, hq, ⟨_, _, hsame⟩, fun h => busy_settle hnext h hq, .inr ⟨due_of_duePoll hdue hnext rfl, congrArg Plate.pollDue hsame, ?_⟩⟩
    rw [hengine, State.pollNow, show (nextPoll tr s).pins.busy = false from hbusy]
    rfl

/-! ### A bad reply (R135) -/

/-- What a failed transaction does to the plate `p` at the position, which it leaves as `q`. -/
structure Unheard (s u : State) (i : Nat) (p q : Plate) : Prop where
  plate : u.sched.plates[i]? = some q
  same : q.dnd = p.dnd ∧ q.mur = p.mur ∧ q.swept = p.swept
  run : p.failureRun < 2 → q = { p with failureRun := p.failureRun + 1 }
  loses : 2 ≤ p.failureRun → p.health ≠ .notResponding → q.health = .notResponding ∧ q.failureRun = 0 ∧ q.press = .released ∧ eventSet .plate u = true

theorem unheard_healthFailed {i : Nat} {p : Plate} {s : State} (hp : s.sched.plates[i]? = some p) : ∃ q, Unheard s (healthFailed i s) i p q := by
  by_cases hrun : p.failureRun < 2
  · rw [healthFailed_run hp hrun]
    exact ⟨_, plate_modPlate_self _ hp, ⟨rfl, rfl, rfl⟩, fun _ => rfl, fun h => absurd hrun (by omega)⟩
  · by_cases hlost : p.health = .notResponding
    · rw [healthFailed_lost hp (by omega) hlost]
      exact ⟨_, plate_modPlate_self _ hp, ⟨rfl, rfl, rfl⟩, fun h => absurd h hrun, fun _ h => absurd hlost h⟩
    · rw [healthFailed_loses hp (by omega) hlost]
      obtain ⟨⟨x, hplate⟩, -, hevent, -⟩ := hasLost_losePlate hp
      exact ⟨_, hplate, ⟨rfl, rfl, rfl⟩, fun h => absurd h hrun, fun _ _ => ⟨rfl, rfl, rfl, hevent⟩⟩

/-! ### TRANSACTION_END of a poll -/

theorem transactionEnded_sound {tr : Transaction} {reply : List Octet} {r : Readings} (hop : tr.op = .poll) (h : readPoll reply = some r) (s : State) :
    transactionEnded tr reply s = nextPoll tr (takeReadings tr.position r s) := by
  unfold transactionEnded
  simp [hop, h]

theorem transactionEnded_bad {tr : Transaction} {reply : List Octet} (hop : tr.op = .poll) (h : readPoll reply = none) (s : State) :
    transactionEnded tr reply s = nextPoll tr (healthFailed tr.position s) := by
  unfold transactionEnded transactionFailed
  simp [hop, h]

theorem joinReport_nil (e : CabinEntry) : joinReport e [] = [e] := rfl

section
variable {tr : Transaction} {p q : Plate} {r : Readings} {taken : PressTaken} {s u : State}

/-- What the readings write, and what follows of it for the end of the step. -/
theorem report_settle (hpolled : Polled s u tr.position p q r taken)
    (hwrites : Writes (Part.refreshed ++ [.pendingReports, .builderWaits, .flags, .counters]) s u) (htold : s.tells p q r) :
    (participates s = false ∨ s.muster.reportOutstanding = true →
        reportFor tr.position { q with health := p.health.toldAs } ∈ (settle (nextPoll tr u)).muster.pendingReports)
      ∧ (participates s = true → s.muster.reportOutstanding = false → s.muster.pendingReports = [] → s.queueSound →
          hasRoom .cabinReport s.bus.queue = true →
          (settle (nextPoll tr u)).stands
              ⟨.cabinReport, 128, s.bus.nextSeq, cabinPayload [reportFor tr.position { q with health := p.health.toldAs }], [], false⟩
            ∧ (settle (nextPoll tr u)).muster.pendingReports = [] ∧ (settle (nextPoll tr u)).muster.reportOutstanding = true) := by
  obtain ⟨hpending, hwaits⟩ := hpolled.reports.1 htold
  have hnext : Writes (Part.refreshed ++ [.pendingReports, .builderWaits, .flags, .counters]) s (nextPoll tr u) := writes_nextPoll tr hwrites (by simp)
  have hpending' : (nextPoll tr u).muster.pendingReports = joinReport _ s.muster.pendingReports := hpending
  have hwaits' : (nextPoll tr u).muster.builderWaits = false := hwaits
  have houtstanding : (nextPoll tr u).muster.reportOutstanding = s.muster.reportOutstanding := hnext.same .outstanding rfl
  have hqueue : (nextPoll tr u).bus.queue = s.bus.queue := hnext.same .queue rfl
  have hseq : (nextPoll tr u).bus.nextSeq = s.bus.nextSeq := hnext.same .nextSeq rfl
  have hpart := hnext.participates
  generalize nextPoll tr u = w at *
  constructor
  · intro h
    rw [pendingReports_settle (by rw [hpart, houtstanding]; exact h), hpending']
    exact mem_joinReport _ _
  · intro hs hidle hempty hsound hroom
    rw [hempty, joinReport_nil] at hpending'
    have hbuilds : w.builds := ⟨hpart.trans hs, by rw [hpending']; simp, houtstanding.trans hidle, hwaits'⟩
    have hsends := settle_sends hbuilds ((queueSound_congr hqueue).2 hsound) (by rw [hqueue]; exact hroom)
    rw [hpending', hseq] at hsends
    exact hsends

end

theorem ignoredPresses_settle (tr : Transaction) (u : State) :
    (settle (nextPoll tr u)).counters.ignoredPresses = u.counters.ignoredPresses :=
  (congrArg Counters.ignoredPresses ((writes_settle (.refl _ (nextPoll tr u)) (List.Subset.refl _)).counters_eq rfl) :)

/-- The refresh of the plate after a poll that finds it driving. -/
theorem refresh_driving {o : Option Refresh} {x : Refresh} {short : Bool} {y : Option Refresh} (hx : inDrive o = some x) (hy : y = o.map (·.pressed short)) :
    ∃ noted, (noted = true ↔ x.pressNoted = true ∨ short = true) ∧ y = some { x with pressNoted := noted } := by
  obtain ⟨rfl, -⟩ := inDrive_eq_some.1 hx
  cases short with
  | true => exact ⟨true, by simp, hy⟩
  | false => exact ⟨x.pressNoted, by simp, hy⟩

/-- Settles O45. -/
theorem pollEndsWithItsReadings : Obligations.PollEndsWithItsReadings := by
  unfold Obligations.PollEndsWithItsReadings
  intro tr p reply s hengine hphase hop hp
  have houtside := outsideStands_transactionEnd tr reply s
  have hexec := exec_transactionEnd (reply := reply) hengine hphase
  have hoff : s.offChain.sched.plates[tr.position]? = some p := hp
  cases hreply : readPoll reply with
  | none =>
    rw [transactionEnded_bad hop hreply] at hexec houtside
    obtain ⟨⟨htime, hstore, hmon, hroute, hnode, hport⟩, hrecord⟩ := houtside
    obtain ⟨a, hunheard⟩ := unheard_healthFailed hoff
    have hwrites := writes_healthFailed tr.position (.refl _ s.offChain) (List.Subset.refl _)
    have hnow : (healthFailed tr.position s.offChain).time.now = s.time.now := hwrites.now
    have hbusy : (healthFailed tr.position s.offChain).pins.busy = false := congrArg (·.busy) hwrites.pins
    have hignored := ignoredPresses_settle tr (healthFailed tr.position s.offChain)
    rw [hwrites.counters_same rfl] at hignored
    obtain ⟨hdnd, hmur, hswept⟩ := hunheard.same
    have hevent : eventSet .plate (healthFailed tr.position s.offChain) = true → eventSet .plate (settle (nextPoll tr (healthFailed tr.position s.offChain))) = true :=
      fun h => (writes_settle (.refl _ (nextPoll tr (healthFailed tr.position s.offChain))) (List.Subset.refl _)).eventSet h
    obtain ⟨q, hq, ⟨x, due, rfl⟩, -, hdue⟩ := settle_nextPoll hunheard.plate hbusy
    rw [hnow, pollPeriod_eq] at hdue
    refine ⟨_, _, hexec, hq, nofun, nofun, hdue, fun _ => ⟨hignored, hdnd, hmur, hswept⟩, fun _ hrun => ?_, fun _ hrun hpresent => ?_,
      htime, hstore, hmon, hroute, hnode, hport, hrecord⟩
    · obtain rfl := hunheard.run hrun
      exact ⟨rfl, rfl, rfl, rfl, rfl, rfl⟩
    · obtain ⟨hhealth, hzero, hpress, hset⟩ := hunheard.loses hrun hpresent
      exact ⟨hhealth, hzero, hpress, hevent hset⟩
  | some r =>
    rw [transactionEnded_sound hop hreply] at hexec houtside
    obtain ⟨⟨htime, hstore, hmon, hroute, hnode, hport⟩, hrecord⟩ := houtside
    obtain ⟨a, hpolled⟩ := polled_takeReadings r hoff
    have hwrites := writes_takeReadings tr.position r (.refl _ s.offChain) (List.Subset.refl _)
    generalize takeReadings tr.position r s.offChain = u at *
    have hnow : u.time.now = s.time.now := hwrites.now
    have hbusy : u.pins.busy = false := congrArg (·.busy) hwrites.pins
    have hignored := (ignoredPresses_settle tr u).trans hpolled.ignored
    have hreport := report_settle hpolled hwrites
    have houtstanding : (nextPoll tr u).muster.reportOutstanding = s.muster.reportOutstanding := hwrites.same .outstanding rfl
    have hpart : participates (nextPoll tr u) = participates s := hwrites.participates
    have hevent {e : Event} (h : eventSet e u = true) : eventSet e (settle (nextPoll tr u)) = true :=
      (writes_settle (.refl _ (nextPoll tr u)) (List.Subset.refl _)).eventSet h
    obtain ⟨q, hq, ⟨x, due, rfl⟩, hrefresh, hdue⟩ := settle_nextPoll hpolled.plate hbusy
    rw [hnow, pollPeriod_eq] at hdue
    have hshort : s.offChain.shortBelow (pressStep r.button p.press).2 = true ↔ (pressStep r.button p.press).2 = .short ∧ level s ≠ .muster :=
      decide_eq_true_iff
    refine ⟨_, _, hexec, hq, fun r' h => ?reading, fun r' h => ?effects, hdue, nofun, nofun, nofun, htime, hstore, hmon, hroute, hnode, hport, hrecord⟩
    case reading =>
      cases h
      obtain ⟨hhealth, hzero⟩ := hpolled.heard
      obtain ⟨hdnd, hmur⟩ := hpolled.switches
      exact ⟨hhealth, hzero, hdnd, hmur, hpolled.drive, hpolled.press, fun hlost => hevent (hpolled.returns hlost)⟩
    case effects =>
      cases h
      refine ⟨hpolled.stays, hpolled.differs, ?swept, fun h => ?sweeps, hignored, fun h => ?short, fun h => ?shown, ?count, fun y hy h => ?drives,
        fun y z hy h hz => ?ends, fun h => (hreport h).1, fun h => (hreport h).2, fun h hidle => ?untold⟩
      case swept =>
        refine hpolled.swept.trans ?_
        unfold State.sweptAfter
        cases (pressStep r.button p.press).2 <;> rfl
      case sweeps =>
        obtain ⟨hset, htarget⟩ := hpolled.sweeps h
        exact ⟨hevent hset, htarget⟩
      case short =>
        obtain ⟨habsent, hbusy⟩ := hpolled.short (hshort.2 h)
        exact ⟨habsent, fun hrefreshing => hrefresh (hbusy hrefreshing)⟩
      case shown =>
        refine (hpolled.shown (Bool.eq_false_iff.2 fun hyes => h (hshort.1 hyes))).trans ?_
        unfold shownAfter inDrive
        rfl
      case count =>
        refine hpolled.count.trans ?_
        unfold partialAfter inDrive
        rfl
      case drives =>
        obtain ⟨noted, hnoted, hrefresh⟩ := refresh_driving hy (hpolled.drives h)
        exact ⟨noted, by rw [hnoted, hshort], refreshOf_settle_some (s := nextPoll tr u) hrefresh⟩
      case ends =>
        have hnone : refreshOf tr.position (nextPoll tr u) = none := hpolled.ends y hy h
        obtain ⟨p', -, -, rfl⟩ := (refreshOf_settle hz).resolve_left (by rw [hnone]; simp)
        exact ⟨rfl, rfl⟩
      case untold =>
        rw [pendingReports_settle (by rw [hpart, houtstanding]; exact hidle)]
        exact (hpolled.reports.2 h).1

end Sys2Proof.Machine
end

