-- ==== Sys2Proof/Proofs/CabinReports.lean ====
section
/-! PROOFS. Cabin reports received, swept and sent (R122 to R124): O42. -/

namespace Sys2Proof.Machine

/-! ### The sweep roll (R124) -/

section
variable {e : RollEntry} {s : State}

theorem insertRoll_eq {l : List RollEntry} (h : ∀ q ∈ l, q.cabin ≠ e.cabin) : ∃ a b, l = a ++ b ∧ insertRoll e l = a ++ e :: b
    ∧ (∀ q ∈ a, q.cabin < e.cabin) ∧ ∀ q, b.head? = some q → e.cabin < q.cabin := by
  induction l with
  | nil => exact ⟨[], [], rfl, rfl, nofun, nofun⟩
  | cons x l ih =>
    by_cases hbefore : e.cabin < x.cabin
    · refine ⟨[], x :: l, rfl, if_pos hbefore, nofun, fun q hq => ?_⟩
      cases hq
      exact hbefore
    · obtain ⟨a, b, rfl, hinsert, hless, hhead⟩ := ih fun q hq => h q (List.mem_cons_of_mem _ hq)
      refine ⟨x :: a, b, rfl, ?_, fun q hq => ?_, hhead⟩
      · rw [insertRoll, if_neg hbefore, hinsert]
        rfl
      · rcases List.mem_cons.1 hq with rfl | hq
        · have hne := h q List.mem_cons_self
          omega
        · exact hless q hq

theorem putRoll_known {q : RollEntry} (h : s.muster.roll.find? (·.cabin = e.cabin) = some q) : putRoll e s = updateRoll e q s := by
  unfold putRoll
  rw [h]

theorem find_roll_none (h : ∀ q ∈ s.muster.roll, q.cabin ≠ e.cabin) : s.muster.roll.find? (·.cabin = e.cabin) = none :=
  List.find?_eq_none.2 fun q hq => by simpa using h q hq

theorem putRoll_new (h : ∀ q ∈ s.muster.roll, q.cabin ≠ e.cabin) (hroom : s.muster.roll.length < 256) :
    putRoll e s = setEvent .roll (s.modMuster fun m => { m with roll := insertRoll e m.roll }) := by
  unfold putRoll
  rw [find_roll_none h]
  exact if_pos hroom

theorem putRoll_full (h : ∀ q ∈ s.muster.roll, q.cabin ≠ e.cabin) (hfull : 256 ≤ s.muster.roll.length) :
    putRoll e s = setEvent .rollFull (s.modCounters fun c => { c with rollRefusals := raised c.rollRefusals }) := by
  unfold putRoll
  rw [find_roll_none h]
  exact if_neg (Nat.not_lt.2 hfull)

theorem roll_updateRoll (e q : RollEntry) (s : State) :
    (updateRoll e q s).muster.roll = s.muster.roll.map fun r => if r.cabin = e.cabin then e else r := by
  unfold updateRoll setEventIf
  dsimp only
  split <;> rfl

/-- The entry is in the roll after it is put there, known or with room. -/
theorem mem_putRoll (h : (∃ q ∈ s.muster.roll, q.cabin = e.cabin) ∨ s.muster.roll.length < 256) : e ∈ (putRoll e s).muster.roll := by
  cases hfind : s.muster.roll.find? (·.cabin = e.cabin) with
  | some q =>
    rw [putRoll_known hfind, roll_updateRoll]
    have hcabin : q.cabin = e.cabin := by simpa using List.find?_some hfind
    exact List.mem_map.2 ⟨q, List.mem_of_find?_eq_some hfind, if_pos hcabin⟩
  | none =>
    have hnew : ∀ q ∈ s.muster.roll, q.cabin ≠ e.cabin := fun q hq => by simpa using List.find?_eq_none.1 hfind q hq
    rw [putRoll_new hnew (h.resolve_left fun ⟨q, hq, hcabin⟩ => hnew q hq hcabin)]
    obtain ⟨a, b, -, hinsert, -⟩ := insertRoll_eq hnew
    show e ∈ insertRoll e s.muster.roll
    rw [hinsert]
    simp

/-- ROLL is set by a change of the sweep state, the occupancy or the health alone. -/
theorem flags_updateRoll (e q : RollEntry) (s : State) : (updateRoll e q s).events.flags =
    if e.swept ≠ q.swept ∨ e.dnd ≠ q.dnd ∨ e.mur ≠ q.mur ∨ e.health ≠ q.health then s.events.flags ||| Event.roll.mask else s.events.flags := by
  unfold updateRoll setEventIf
  by_cases h : e.swept ≠ q.swept ∨ e.dnd ≠ q.dnd ∨ e.mur ≠ q.mur ∨ e.health ≠ q.health
  · rw [if_pos (decide_eq_true h), if_pos h]
    rfl
  · rw [if_neg (by simpa using h), if_neg h]
    rfl

end

/-! ### CABIN_REPORT -/

/-- The roll entry of a cabin of a report. -/
def CabinRecord.entryAt (c : CabinRecord) (h : CabinHealth) (station : Nat) (s : State) : RollEntry :=
  ⟨c.cabin, c.swept, c.dnd, c.mur, h, station, secondNow s⟩

theorem takeCabins_one {station : Nat} {payload : List Octet} {c : CabinRecord} {h : CabinHealth} {s : State} (hconsole : (roles s).console = true)
    (hread : readCabins payload = some [c]) (hhealth : c.health = some h) (hfrom : 1 ≤ c.cabin) (hto : c.cabin ≤ 9999) :
    takeCabins station payload s = putRoll (c.entryAt h station s) s := by
  unfold takeCabins
  rw [if_pos hconsole, hread]
  show takeCabin station s c = _
  unfold takeCabin
  rw [hhealth]
  exact if_neg (by omega)

theorem takeCabins_none {station : Nat} {payload : List Octet} {s : State} (h : (roles s).console = false ∨ readCabins payload = none) :
    takeCabins station payload s = s := by
  unfold takeCabins
  rcases h with h | h <;> simp [h]

theorem exec_cabinReport {f : RxFrame} {rest : List RxFrame} {s : State} (hq : s.bus.musterQ = f :: rest) (hkind : f.kind = .cabinReport)
    (hpart : participates s = true) : exec .cabinReport s = .next (settle (freeMuster (takeCabins f.source f.payload s))) := by
  show execCabinReport s = _
  unfold execCabinReport
  rw [hq]
  exact if_pos ⟨hpart, hkind⟩

/-! ### The reports of every plate (R122) -/

theorem mem_reportAll {i : Nat} {p : Plate} {s : State} (hp : s.sched.plates[i]? = some p) : reportFor i p ∈ (reportAll s).muster.pendingReports := by
  have hmem : i ∈ List.range s.sched.plates.length := List.mem_range.2 (List.getElem?_eq_some_iff.1 hp).1
  refine (foldl_reaches (P := fun u => u.sched = s.sched) (Q := fun u => u.sched = s.sched ∧ reportFor i p ∈ u.muster.pendingReports) hmem
    (fun j _ u hu => (sched_reportPlate j u).trans hu) (fun u hu => ?_) (fun j _ u hu => ?_) rfl).2
  · rw [sched_reportPlate, reportPlate_eq (hu ▸ hp)]
    exact ⟨hu, mem_joinReport _ _⟩
  · obtain ⟨hsched, hreported⟩ := hu
    refine ⟨(sched_reportPlate j u).trans hsched, ?_⟩
    unfold reportPlate
    cases hj : u.sched.plates[j]? with
    | none => exact hreported
    | some q =>
      by_cases hij : j = i
      · subst hij
        rw [hsched, hp] at hj
        cases hj
        exact mem_joinReport _ _
      · exact mem_joinReport_of_ne (Ne.symm hij) hreported

/-- The reports of the plates, in their order. -/
def State.reports (s : State) : List CabinEntry := s.sched.plates.zipIdx.map fun p => reportFor p.2 p.1

theorem reports_getElem (s : State) (i : Nat) : s.reports[i]? = (s.sched.plates[i]?).map (reportFor i) := by
  unfold State.reports
  cases h : s.sched.plates[i]? <;> simp [h]

theorem joinReport_new {e : CabinEntry} {l : List CabinEntry} (h : ∀ q ∈ l, q.position ≠ e.position) : joinReport e l = l ++ [e] := by
  unfold joinReport
  exact if_neg (by simpa using h)

/-- On an empty list the reports of the first plates, each in its place. -/
theorem pendingReports_foldl {s u : State} (hsched : u.sched = s.sched) (hempty : u.muster.pendingReports = []) {k : Nat} (hk : k ≤ s.sched.plates.length) :
    ((List.range k).foldl (fun s i => reportPlate i s) u).sched = s.sched
      ∧ ((List.range k).foldl (fun s i => reportPlate i s) u).muster.pendingReports = s.reports.take k
      ∧ (k ≠ 0 → ((List.range k).foldl (fun s i => reportPlate i s) u).muster.builderWaits = false) := by
  induction k with
  | zero => exact ⟨hsched, hempty, fun h => absurd rfl h⟩
  | succ k ih =>
    obtain ⟨ihsched, ihpending, -⟩ := ih (Nat.le_of_succ_le hk)
    rw [List.range_succ, List.foldl_append]
    generalize (List.range k).foldl (fun s i => reportPlate i s) u = v at *
    have hp : s.sched.plates[k]? = some s.sched.plates[k] := List.getElem?_eq_getElem hk
    have hv : v.sched.plates[k]? = some s.sched.plates[k] := by rw [ihsched, hp]
    have hreport : s.reports[k]? = some (reportFor k s.sched.plates[k]) := by rw [reports_getElem, hp]; rfl
    refine ⟨(sched_reportPlate k v).trans ihsched, ?_, fun _ => ?_⟩
    · show (reportPlate k v).muster.pendingReports = _
      rw [reportPlate_eq hv, List.take_add_one, hreport]
      show joinReport _ v.muster.pendingReports = _
      rw [ihpending, joinReport_new]
      · rfl
      · intro q hq
        obtain ⟨j, hj⟩ := List.mem_iff_getElem?.1 hq
        rw [List.getElem?_take] at hj
        split at hj
        · rename_i hjk
          rw [reports_getElem] at hj
          obtain ⟨p, -, rfl⟩ := Option.map_eq_some_iff.1 hj
          exact Nat.ne_of_lt hjk
        · cases hj
    · show (reportPlate k v).muster.builderWaits = false
      rw [reportPlate_eq hv]
      rfl

/-- The state whose sweep refresh timer is restarted. -/
def State.resweeping (s : State) : State := s.modMuster fun m => { m with sweepRefresh := startTimer s Config.sweepRefreshTime }

theorem exec_sweepRefreshTimer {s : State} (h : timerDue s.muster.sweepRefresh s = true) :
    exec .sweepRefreshTimer s = .next (settle (reportAll s.resweeping)) := congrArg Host.Outcome.next (if_pos h)

theorem writes_reportAll' (s : State) : Writes [.pendingReports, .builderWaits] s (reportAll s) := writes_reportAll (.refl _ s) (List.Subset.refl _)

theorem reportAll_empty {s : State} (hempty : s.muster.pendingReports = []) :
    (reportAll s).muster.pendingReports = s.reports ∧ (s.sched.plates ≠ [] → (reportAll s).muster.builderWaits = false) := by
  obtain ⟨-, hpending, hwaits⟩ := pendingReports_foldl (s := s) rfl hempty le_rfl
  refine ⟨hpending.trans (List.take_of_length_le ?_), fun h => hwaits fun hzero => h (List.length_eq_zero_iff.1 hzero)⟩
  simp [State.reports]

theorem reports_ne_nil {s : State} (h : s.sched.plates ≠ []) : s.reports ≠ [] := by
  simpa [State.reports] using h

/-- Settles O42. -/
theorem cabinsAreReportedAndKept : Obligations.CabinsAreReportedAndKept := by
  unfold Obligations.CabinsAreReportedAndKept
  refine ⟨fun f rest s hq hkind hpart => ?received, fun s hdue => ?sweeps, fun s => ⟨?sends, ?waits, settleReports_stays⟩,
    fun s hdue hpart hempty hidle hplates hsound hroom => ?sweepsEmpty⟩
  case received =>
    have hwrites : Writes [.roll, .flags, .counters] s (takeCabins f.source f.payload s) := writes_takeCabins f.source f.payload (.refl _ s) (List.Subset.refl _)
    have hexec := exec_cabinReport hq hkind hpart
    have hone (c : CabinRecord) (h : CabinHealth) := takeCabins_one (station := f.source) (payload := f.payload) (c := c) (h := h) (s := s)
    have hnone := takeCabins_none (station := f.source) (payload := f.payload) (s := s)
    have hend := writes_settle (.refl _ (freeMuster (takeCabins f.source f.payload s))) (List.Subset.refl _)
    have hsteady := steady_settle (freeMuster (takeCabins f.source f.payload s))
    generalize takeCabins f.source f.payload s = u at *
    generalize settle (freeMuster u) = t at *
    have hmusterQ : t.bus.musterQ = rest := by
      rw [hend.musterQ]
      show u.bus.musterQ.drop 1 = rest
      rw [hwrites.musterQ, hq]
      rfl
    have hroll : t.muster.roll = u.muster.roll := congrArg Steady.roll hsteady
    have hflags : t.events.flags ||| Event.transmitLoss.mask = u.events.flags ||| Event.transmitLoss.mask := congrArg Steady.flags hsteady
    have hcounters : t.counters.rollRefusals = u.counters.rollRefusals := congrArg (fun x : Steady => x.counters.rollRefusals) hsteady
    have hevent {e : Event} (h : eventSet e u = true) : eventSet e t = true := hend.eventSet h
    refine ⟨_, hexec, hmusterQ, hend.timeQ.trans hwrites.timeQ, hend.programmeQ.trans hwrites.programmeQ,
      hend.routeQ.trans hwrites.routeQ, hend.record.trans hwrites.record, (hend.time rfl).trans (hwrites.time rfl), (hend.store rfl).trans (hwrites.store rfl),
      hend.node.trans hwrites.node, fun h => hroll.trans (by rw [hnone h]), fun c h hconsole hread hhealth hfrom hto => ?entry⟩
    obtain rfl := hone c h hconsole hread hhealth hfrom hto
    refine ⟨fun e he hroom => ?mem, ⟨fun q hfind => ?known, fun hnew hroom => ?new⟩, fun hnew hfull => ?full⟩
    case mem =>
      subst he
      rw [hroll]
      exact mem_putRoll hroom
    case known =>
      rw [putRoll_known (e := c.entryAt h f.source s) hfind] at hroll hflags hevent
      have hset := flags_updateRoll (c.entryAt h f.source s) q s
      refine ⟨hroll.trans (roll_updateRoll ..), fun hchanged => ?_, fun hswept hdnd hmur hsame => ?_⟩
      · have hroll' := hset.trans (if_pos hchanged)
        exact ⟨hevent (eventSet_of_flags (s := setEvent .roll s) (m := 0) (by rw [hroll']; simp; rfl) (eventSet_setEvent .roll s)), by rw [hflags, hroll']⟩
      · rw [hset, if_neg (by simp [CabinRecord.entryAt, hswept, hdnd, hmur, hsame])] at hflags
        exact hflags
    case new =>
      rw [putRoll_new (e := c.entryAt h f.source s) hnew hroom] at hroll hflags hevent
      obtain ⟨a, b, hsplit, hinsert, hless, hhead⟩ := insertRoll_eq (e := c.entryAt h f.source s) hnew
      exact ⟨hevent (eventSet_setEvent .roll _), hflags, a, b, hsplit, hroll.trans hinsert, hless, hhead⟩
    case full =>
      rw [putRoll_full (e := c.entryAt h f.source s) hnew hfull] at hroll hcounters hevent
      exact ⟨hroll, hevent (eventSet_setEvent .rollFull _), hcounters⟩
  case sweeps =>
    have hwrites := writes_reportAll' s.resweeping
    refine ⟨_, exec_sweepRefreshTimer hdue, ?_, fun h i p hp => ?_⟩
    · rw [steady_settle, steady_reportAll]
      rfl
    · rw [pendingReports_settle (h.imp hwrites.participates.trans (hwrites.same .outstanding rfl).trans)]
      exact mem_reportAll (s := s.resweeping) hp
  case sends =>
    intro hready hsound hroom
    obtain ⟨hstands, hmuster⟩ := settleReports_sends hready hsound hroom
    refine ⟨hstands, hmuster.trans ?_⟩
    rw [← hready.2.2.2]
  case waits =>
    intro hready hroom
    refine (settleReports_waits hready hroom).trans ?_
    rw [← hready.2.2.1]
  case sweepsEmpty =>
    have hwrites := writes_reportAll' s.resweeping
    obtain ⟨hpending, hwaits⟩ := reportAll_empty (s := s.resweeping) hempty
    have hqueue : (reportAll s.resweeping).bus.queue = s.bus.queue := hwrites.same .queue rfl
    have hseq : (reportAll s.resweeping).bus.nextSeq = s.bus.nextSeq := hwrites.same .nextSeq rfl
    have hbuilds : (reportAll s.resweeping).builds :=
      ⟨hwrites.participates.trans hpart, by rw [hpending]; exact reports_ne_nil (s := s.resweeping) hplates, (hwrites.same .outstanding rfl).trans hidle, hwaits hplates⟩
    have hsends := settle_sends hbuilds ((queueSound_congr hqueue).2 hsound) (by rw [hqueue]; exact hroom)
    rw [hpending, hseq] at hsends
    exact ⟨_, exec_sweepRefreshTimer hdue, hsends⟩

end Sys2Proof.Machine
end

