-- ==== Sys2Proof/Proofs/OtherOrders.lean ====
section
/-! PROOFS. Muster orders that leave the record (R110 to R112, R116): O38. -/

namespace Sys2Proof.Machine

/-- The join-prompt echo after an order is read: cancelled by one of the current serial (R116). -/
def State.echoAfter (s : State) (payload : List Octet) : Option Timer :=
  if 3 ≤ payload.length ∧ rd16At payload 1 = s.muster.record.serial then none else s.muster.joinEcho

/-- The state in which an order has been read. -/
def State.orderRead (s : State) (payload : List Octet) : State := s.modMuster fun m => { m with joinEcho := s.echoAfter payload }

theorem cancelPrompted_eq (payload : List Octet) (s : State) : cancelPrompted payload s = s.orderRead payload := by
  unfold cancelPrompted State.orderRead State.echoAfter
  split <;> rfl

/-- The state in which an order that has passed R110 has raised highest-seen (R111). -/
def State.orderSeen (s : State) (payload : List Octet) (o : Order) : State :=
  (s.orderRead payload).modMuster fun m => { m with highestSeen := max m.highestSeen o.serial }

section
variable {payload : List Octet} {o : Order} {s : State}

theorem takeOrder_refused (h : readOrder payload = none ∨ ∃ o, readOrder payload = some o ∧ orderOk s o = false) :
    takeOrder payload s = refuseOrder (s.orderRead payload) := by
  unfold takeOrder
  rw [cancelPrompted_eq]
  obtain hnone | ⟨o, hread, hbad⟩ := h
  · rw [hnone]
  · have hbad' : orderOk (s.orderRead payload) o = false := hbad
    rw [hread]
    exact if_neg (by rw [hbad']; decide)

theorem takeOrder_other_zone (hread : readOrder payload = some o) (hok : orderOk s o = true) (hzone : inZone o.zones s = false) :
    takeOrder payload s = s.orderSeen payload o := by
  have hok' : orderOk (s.orderRead payload) o = true := hok
  have hzone' : inZone o.zones (s.orderSeen payload o) = false := hzone
  unfold takeOrder
  rw [cancelPrompted_eq, hread]
  exact (if_pos hok').trans (if_neg (hzone' ▸ Bool.false_ne_true))

theorem takeOrder_own_zone (hread : readOrder payload = some o) (hok : orderOk s o = true) (hzone : inZone o.zones s = true) :
    takeOrder payload s = compareOrder o (s.orderSeen payload o) := by
  have hok' : orderOk (s.orderRead payload) o = true := hok
  have hzone' : inZone o.zones (s.orderSeen payload o) = true := hzone
  unfold takeOrder
  rw [cancelPrompted_eq, hread]
  exact (if_pos hok').trans (if_pos hzone')

theorem compareOrder_greater (h : s.muster.record.serial < o.serial) : compareOrder o s = adoptOrder o s := if_pos h

theorem compareOrder_stale (h : o.serial < s.muster.record.serial) :
    compareOrder o s = s.modCounters fun c => { c with ordersStale := raised c.ordersStale } :=
  (if_neg (by omega)).trans (if_pos h)

theorem compareOrder_identical (h : o.serial = s.muster.record.serial) (hsame : identicalTo o s.muster.record = true) : compareOrder o s = s :=
  (if_neg (by omega)).trans ((if_neg (by omega)).trans (if_pos hsame))

theorem compareOrder_outranks (h : o.serial = s.muster.record.serial) (hother : identicalTo o s.muster.record = false)
    (hrank : s.muster.record.level.rank < o.level.rank) : compareOrder o s = adoptOrder o (countConflict s) :=
  (if_neg (by omega)).trans ((if_neg (by omega)).trans ((if_neg (by rw [hother]; decide)).trans (if_pos hrank)))

theorem compareOrder_conflict (h : o.serial = s.muster.record.serial) (hother : identicalTo o s.muster.record = false)
    (hrank : o.level.rank ≤ s.muster.record.level.rank) : compareOrder o s = countConflict s :=
  (if_neg (by omega)).trans ((if_neg (by omega)).trans ((if_neg (by rw [hother]; decide)).trans (if_neg (Nat.not_lt.2 hrank))))

/-- Every order that has passed R110 raises highest-seen. -/
theorem highestSeen_takeOrder (hread : readOrder payload = some o) (hok : orderOk s o = true) :
    (takeOrder payload s).muster.highestSeen = max s.muster.highestSeen o.serial := by
  cases hzone : inZone o.zones s with
  | false =>
    rw [takeOrder_other_zone hread hok hzone]
    rfl
  | true =>
    rw [takeOrder_own_zone hread hok hzone]
    obtain h | ⟨-, h⟩ := compareOrder_cases o (s.orderSeen payload o)
    · exact h.2
    · exact h

end

/-- Ship time and the programme table are the same. -/
def State.aside (s t : State) : Prop := t.time = s.time ∧ t.store = s.store

theorem Writes.aside {ps : List Part} {s t : State} (h : Writes ps s t) (htime : Part.apart [.isSet, .ship, .sources, .shift, .markTimer] ps = true)
    (hstore : ps.contains .store = false) : s.aside t := ⟨h.time htime, h.store hstore⟩

theorem State.aside.trans {r s t : State} (h : r.aside s) (k : s.aside t) : r.aside t := ⟨k.1.trans h.1, k.2.trans h.2⟩

theorem writes_adoptOrder (o : Order) (s : State) :
    Writes (Part.offered ++ Part.advertised ++ Part.refreshed ++ [.records, .summaryTimer, .early, .answers, .neighbours, .echoTimer, .pendingReports,
      .sweepRefresh, .roll, .flags]) (putRecord (recordFor s o) s) (adoptOrder o s) :=
  writes_recordEffects _ _ (.refl _ _) (List.Subset.refl _)

theorem aside_adoptOrder (o : Order) (s : State) : s.aside (adoptOrder o s) := (writes_adoptOrder o s).aside rfl rfl

theorem aside_compareOrder (o : Order) (s : State) : s.aside (compareOrder o s) := by
  unfold compareOrder
  dsimp only
  split
  · exact aside_adoptOrder o s
  · split
    · exact ⟨rfl, rfl⟩
    · split
      · exact ⟨rfl, rfl⟩
      · split
        · exact State.aside.trans ⟨rfl, rfl⟩ (aside_adoptOrder o (countConflict s))
        · exact ⟨rfl, rfl⟩

theorem aside_takeOrder (payload : List Octet) (s : State) : s.aside (takeOrder payload s) := by
  by_cases hbad : readOrder payload = none ∨ ∃ o, readOrder payload = some o ∧ orderOk s o = false
  · rw [takeOrder_refused hbad]
    exact ⟨rfl, rfl⟩
  · obtain ⟨o, hread⟩ := Option.ne_none_iff_exists'.1 fun hnone => hbad (.inl hnone)
    have hok : orderOk s o = true := by
      by_contra hno
      exact hbad (.inr ⟨o, hread, by simpa using hno⟩)
    cases hzone : inZone o.zones s with
    | false =>
      rw [takeOrder_other_zone hread hok hzone]
      exact ⟨rfl, rfl⟩
    | true =>
      rw [takeOrder_own_zone hread hok hzone]
      exact State.aside.trans ⟨rfl, rfl⟩ (aside_compareOrder o (s.orderSeen payload o))

theorem eventSet_countConflict (s : State) : eventSet .orderFault (freeMuster (countConflict s)) = true :=
  eventSet_setEvent .orderFault (s.modCounters fun c => { c with orderConflicts := raised c.orderConflicts })

theorem steady_countConflict (s : State) : (countConflict s).steady = { s.steady with
    flags := s.events.flags ||| Event.orderFault.mask ||| Event.transmitLoss.mask,
    counters := { s.counters with orderConflicts := raised s.counters.orderConflicts, queueRefusals := 0 } } := rfl

theorem steady_orderSeen (payload : List Octet) (o : Order) (s : State) : (s.orderSeen payload o).steady =
    { s.steady with joinEcho := s.echoAfter payload, highestSeen := max s.muster.highestSeen o.serial } := rfl

theorem exec_musterOrder {f : RxFrame} {rest : List RxFrame} {s : State} (hq : s.bus.musterQ = f :: rest) (hkind : f.kind = .musterOrder)
    (hpart : participates s = true) : exec .musterOrder s = .next (settle (freeMuster (takeOrder f.payload s))) := by
  show execMusterOrder s = _
  unfold execMusterOrder
  rw [hq]
  exact if_pos ⟨hpart, hkind⟩

/-- What stands over MUSTER_ORDER, whatever the order. -/
theorem orderTaken_stands {f : RxFrame} {rest : List RxFrame} {s : State} (hq : s.bus.musterQ = f :: rest) :
    let t := settle (freeMuster (takeOrder f.payload s))
    t.bus.musterQ = rest ∧ t.time = s.time ∧ t.store = s.store ∧ t.node = s.node := by
  have hend := writes_settle (.refl _ (freeMuster (takeOrder f.payload s))) (List.Subset.refl _)
  obtain ⟨htime, hstore⟩ := aside_takeOrder f.payload s
  obtain ⟨r, n, hkept⟩ := kept_takeOrder f.payload s
  have hmusterQ : (takeOrder f.payload s).bus.musterQ = s.bus.musterQ := congrArg Kept.musterQ hkept
  refine ⟨?_, (hend.time rfl).trans htime, (hend.store rfl).trans hstore, hend.node.trans (congrArg Kept.node hkept)⟩
  rw [hend.musterQ]
  show (takeOrder f.payload s).bus.musterQ.drop 1 = rest
  rw [hmusterQ, hq]
  rfl

theorem steady_orderTaken {f : RxFrame} {rest : List RxFrame} {s : State} (hq : s.bus.musterQ = f :: rest) :
    (settle (freeMuster (takeOrder f.payload s))).steady = { (takeOrder f.payload s).steady with musterQ := rest } := by
  obtain ⟨r, n, hkept⟩ := kept_takeOrder f.payload s
  have hmusterQ : (takeOrder f.payload s).bus.musterQ = s.bus.musterQ := congrArg Kept.musterQ hkept
  rw [steady_settle]
  show { (takeOrder f.payload s).steady with musterQ := (takeOrder f.payload s).bus.musterQ.drop 1 } = _
  rw [hmusterQ, hq]
  rfl

/-- Settles O38. -/
theorem otherOrdersLeaveTheRecord : Obligations.OtherOrdersLeaveTheRecord := by
  unfold Obligations.OtherOrdersLeaveTheRecord
  intro f rest s hq hkind hpart echo faulted
  obtain ⟨hmusterQ, htime, hstore, hnode⟩ := orderTaken_stands hq
  have hexec := exec_musterOrder hq hkind hpart
  have hsteady := steady_orderTaken hq
  have hevent := (writes_settle (.refl _ (freeMuster (takeOrder f.payload s))) (List.Subset.refl _)).eventSet (e := .orderFault)
  have hseen {o : Order} := highestSeen_takeOrder (payload := f.payload) (o := o) (s := s)
  have hrefused := takeOrder_refused (payload := f.payload) (s := s)
  have hother {o : Order} := takeOrder_other_zone (payload := f.payload) (o := o) (s := s)
  have hown {o : Order} := takeOrder_own_zone (payload := f.payload) (o := o) (s := s)
  generalize settle (freeMuster (takeOrder f.payload s)) = t at *
  generalize takeOrder f.payload s = u at *
  refine ⟨_, hexec, hmusterQ, htime, hstore, hnode, fun hbad => ?refused, fun o hread hok => ?sound⟩
  case refused =>
    rw [hrefused hbad] at hsteady hevent
    exact ⟨congrArg Steady.record hsteady, congrArg Steady.highestSeen hsteady, congrArg (fun x : Steady => x.counters.ordersRefused) hsteady,
      hevent (eventSet_setEvent .orderFault _), hsteady⟩
  case sound =>
    refine ⟨(congrArg Steady.highestSeen hsteady).trans (hseen hread hok), fun hzone => ?zone, fun hzone hless => ?stale,
      fun hzone hequal hsame => ?identical, fun hzone hequal hdiffers hrank => ?conflict⟩
    case zone =>
      rw [hother hread hok hzone] at hsteady
      exact ⟨congrArg Steady.record hsteady, congrArg (fun x : Steady => x.counters.ordersStale) hsteady,
        congrArg (fun x : Steady => x.counters.orderConflicts) hsteady, hsteady⟩
    case stale =>
      rw [hown hread hok hzone, compareOrder_stale (s := s.orderSeen f.payload o) hless] at hsteady
      exact ⟨congrArg Steady.record hsteady, congrArg (fun x : Steady => x.counters.ordersStale) hsteady, hsteady⟩
    case identical =>
      rw [hown hread hok hzone, compareOrder_identical (s := s.orderSeen f.payload o) hequal hsame] at hsteady
      exact ⟨congrArg Steady.record hsteady, congrArg (fun x : Steady => x.counters.orderConflicts) hsteady, hsteady⟩
    case conflict =>
      rw [hown hread hok hzone, compareOrder_conflict (s := s.orderSeen f.payload o) hequal hdiffers hrank] at hsteady hevent
      rw [steady_countConflict, steady_orderSeen] at hsteady
      exact ⟨congrArg Steady.record hsteady, congrArg (fun x : Steady => x.counters.orderConflicts) hsteady, hevent (eventSet_countConflict _), hsteady⟩

end Sys2Proof.Machine
end

