-- ==== Sys2Proof/Proofs/FrameOutcomes.lean ====
section
/-! PROOFS. The end of a frame in the buffer (R27, R30 to R32, R123): what may be in the buffer after it, and the outcome of a CABIN REPORT. -/

namespace Sys2Proof.Machine

/-! ### The buffer over offers (R27) -/

/-- A frame in the buffer is one not yet begun. -/
def State.freshBuffer (s : State) : Prop := ∀ v, s.bus.buffer = some v → v.attempts = 0 ∧ v.capture = none

theorem freshBuffer_of_none {s : State} (h : s.bus.buffer = none) : s.freshBuffer := by
  intro v hv
  rw [h] at hv
  cases hv

/-- The buffer is as it was, or it was EMPTY, outside CRITICAL, and holds at most a frame not yet begun. The supply is the same. -/
structure BufferMoves (s t : State) : Prop where
  supply : t.supply = s.supply
  buffer : t.bus.buffer = s.bus.buffer ∨ (s.bus.buffer = none ∧ supplyState s ≠ .critical ∧ t.freshBuffer)

theorem BufferMoves.of_eq {s t : State} (hsupply : t.supply = s.supply) (h : t.bus.buffer = s.bus.buffer) : BufferMoves s t := ⟨hsupply, .inl h⟩

theorem freshBuffer_congr {s t : State} (h : t.bus.buffer = s.bus.buffer) (hs : s.freshBuffer) : t.freshBuffer := by
  unfold State.freshBuffer
  rw [h]
  exact hs

theorem BufferMoves.fresh {s t : State} (h : BufferMoves s t) (hs : s.freshBuffer) : t.freshBuffer := by
  obtain h | ⟨-, -, h⟩ := h.buffer
  · exact freshBuffer_congr h hs
  · exact h

theorem BufferMoves.held {s t : State} {u : TxBuffer} (h : BufferMoves s t) (hs : s.bus.buffer = some u) : t.bus.buffer = some u := by
  obtain h | ⟨hnone, -⟩ := h.buffer
  · exact h.trans hs
  · rw [hs] at hnone
    cases hnone

theorem BufferMoves.critical {s t : State} (h : BufferMoves s t) (hs : supplyState s = .critical) : t.bus.buffer = s.bus.buffer :=
  h.buffer.resolve_right fun hmoved => hmoved.2.1 hs

theorem supplyState_congr {s t : State} (h : t.supply = s.supply) : supplyState t = supplyState s := by
  unfold supplyState
  rw [h]

theorem BufferMoves.trans {r s t : State} (h : BufferMoves r s) (k : BufferMoves s t) : BufferMoves r t := by
  refine ⟨k.supply.trans h.supply, ?_⟩
  obtain k | ⟨hnone, hsupply, k⟩ := k.buffer
  · obtain h | ⟨hnone, hsupply, h⟩ := h.buffer
    · exact .inl (k.trans h)
    · exact .inr ⟨hnone, hsupply, freshBuffer_congr k h⟩
  · rw [supplyState_congr h.supply] at hsupply
    obtain h | ⟨hr, -⟩ := h.buffer
    · exact .inr ⟨h.symm.trans hnone, hsupply, k⟩
    · exact .inr ⟨hr, hsupply, k⟩

theorem BufferMoves.since {r s t : State} (h : BufferMoves s t) (hsupply : s.supply = r.supply) (hbuffer : s.bus.buffer = r.bus.buffer) : BufferMoves r t :=
  .trans (.of_eq hsupply hbuffer) h

/-- What writes neither the buffer nor, as ever, the supply. -/
theorem Writes.bufferMoves {ps : List Part} {s t : State} (h : Writes ps s t) (hp : ps.contains .buffer = false) : BufferMoves s t :=
  ⟨h.supply, .inl (h.same .buffer hp)⟩

theorem bufferMoves_fillBuffer (s : State) : BufferMoves s (fillBuffer s) := by
  by_cases hcritical : supplyState s = .critical
  · rw [fillBuffer_idle (.inr (.inr (.inr hcritical)))]
    exact .of_eq rfl rfl
  · obtain h | ⟨f, q, hbuffer, -, h⟩ := fillBuffer_cases s <;> rw [h]
    · exact .of_eq rfl rfl
    · refine ⟨rfl, .inr ⟨hbuffer, hcritical, fun v hv => ?_⟩⟩
      cases hv
      exact ⟨rfl, rfl⟩

theorem bufferMoves_acceptOffer (queue : List TxFrame) (s : State) : BufferMoves s (acceptOffer queue s) :=
  (bufferMoves_fillBuffer (s.modBus fun b => { b with queue := queue, nextSeq := b.nextSeq + 1 })).since rfl rfl

theorem bufferMoves_offerBase (o : Offer) (s : State) : BufferMoves s (offerBase o s).1 := by
  obtain h | h | ⟨-, -, h⟩ | ⟨-, -, h⟩ | ⟨g, -, -, -, -, h⟩ := offerBase_cases o s <;> rw [h]
  · exact .of_eq rfl rfl
  · exact .of_eq rfl rfl
  · exact bufferMoves_acceptOffer _ _
  · exact bufferMoves_acceptOffer _ _
  · exact (bufferMoves_acceptOffer _ (countRefusal s)).since rfl rfl

theorem bufferMoves_answerOffer (a : ActiveAnswer) (s : State) : BufferMoves s (answerOffer a s) := by
  have hoffer (p : List Octet) : BufferMoves s (offerBase ⟨.programmeItem, 255, p, [], true⟩ s).1 := bufferMoves_offerBase _ s
  unfold answerOffer
  extract_lets reply
  split
  · rename_i b _
    have ho := hoffer (itemPayload (some b) (some (reply false 0)))
    split <;> (rename_i heq; rw [heq] at ho; exact ho.trans (.of_eq rfl rfl))
  · have ho := hoffer (itemPayload none (some (reply true (highWaterOf a.entry.publisher s))))
    split <;> (rename_i heq; rw [heq] at ho; exact ho.trans (.of_eq rfl rfl))

theorem bufferMoves_answerReported (f : TxFrame) (s : State) : BufferMoves s (answerReported f s) := by
  unfold answerReported
  (repeat' split)
  · exact .of_eq rfl rfl
  · exact bufferMoves_answerOffer _ s
  · exact .of_eq rfl rfl
  · exact .of_eq rfl rfl

theorem bufferMoves_offer (o : Offer) (s : State) : BufferMoves s (offer o s).1 := by
  have hbase := bufferMoves_offerBase o s
  unfold offer
  split
  · rename_i heq
    rw [heq] at hbase
    exact hbase.trans (bufferMoves_answerReported _ _)
  · exact hbase

theorem bufferMoves_settleReports (s : State) : BufferMoves s (settleReports s) := by
  unfold settleReports
  split
  · have hoffer := (bufferMoves_offer (reportOffer (s.muster.pendingReports.take 6)) s.reportsTaken).since (r := s) rfl rfl
    unfold buildReport
    dsimp only
    split <;> (rename_i heq; rw [reportOffer, State.reportsTaken, heq] at hoffer; exact hoffer.trans (.of_eq rfl rfl))
  · exact .of_eq rfl rfl

theorem writes_taken' (s : State) : Writes [.answers, .active, .free, .line] s (settleAttention (settleAnswers s)) :=
  writes_settleAttention (writes_settleAnswers (.refl _ s) (by simp)) (by simp)

theorem bufferMoves_settleSend (s : State) : BufferMoves s (settleSend s) :=
  (bufferMoves_settleReports s).trans ((writes_taken' (settleReports s)).bufferMoves rfl)

theorem bufferMoves_settle (s : State) : BufferMoves s (settle s) := by
  have hrefresh : Writes Part.refreshed s (settleRefreshes s) := writes_settleRefreshes (.refl _ s) (List.Subset.refl _)
  have hafter : Writes [.answers, .active, .free, .engine, .plates, .lights, .line] (settleReports (settleRefreshes s)) (settle s) :=
    writes_settleAttention (writes_settleLights (writes_arbitrate (writes_settleAnswers (.refl _ _) (by simp)) (by simp)) (by simp)) (by simp)
  exact ((hrefresh.bufferMoves rfl).trans (bufferMoves_settleReports _)).trans (hafter.bufferMoves rfl)

/-- The buffer made EMPTY holds at most a frame not yet begun. -/
theorem freshBuffer_emptyBuffer (s : State) : (emptyBuffer s).freshBuffer := (bufferMoves_fillBuffer _).fresh (freshBuffer_of_none rfl)

/-- What may be in the buffer after the end of a frame. -/
theorem freshBuffer_settleSend (s : State) : (settleSend (emptyBuffer s)).freshBuffer := (bufferMoves_settleSend _).fresh (freshBuffer_emptyBuffer s)

/-! ### The outcome of a CABIN REPORT (R123) -/

/-- With fewer than 8 frames queued the builder's report stands to be sent. -/
theorem settleReports_sends_short {s : State} (h : s.builds) (hroom : s.bus.queue.length < 8) :
    (settleReports s).stands ⟨.cabinReport, 128, s.bus.nextSeq, cabinPayload (s.muster.pendingReports.take 6), [], false⟩
      ∧ (settleReports s).muster = { s.muster with pendingReports := s.muster.pendingReports.drop 6, reportOutstanding := true } := by
  have hpass : ¬ refusedByState (reportOffer (s.muster.pendingReports.take 6)) s.reportsTaken := not_refused h.1 rfl
  have haccepted := congrArg Prod.snd (offer_accepted (s := s.reportsTaken) hpass hroom)
  have hoffered := stands_offer_self (o := reportOffer (s.muster.pendingReports.take 6)) (s := s.reportsTaken) rfl hpass hroom
  have hmuster := muster_reportOffered s
  rw [settleReports_builds h, buildReport_accepted haccepted]
  generalize (offer (reportOffer (s.muster.pendingReports.take 6)) s.reportsTaken).1 = u at *
  exact ⟨hoffered, congrArg (fun m : MusterControl => { m with reportOutstanding := true }) hmuster⟩

/-- The queue after the buffer is made EMPTY: a full one has given its head, unless the node is CRITICAL. -/
theorem queue_emptyBuffer {s : State} (hpart : participates s = true)
    (h : s.bus.queue.length < 8 ∨ (s.bus.queue.length = 8 ∧ supplyState s ≠ .critical)) : (emptyBuffer s).bus.queue.length < 8 := by
  rcases h with h | ⟨h, hsupply⟩
  · exact (fillBuffer_queue_length _).trans_lt h
  · obtain ⟨f, q, hq⟩ : ∃ f q, s.bus.queue = f :: q := List.exists_cons_of_ne_nil (by rintro hnil; rw [hnil] at h; cases h)
    have hfill := fillBuffer_fills (s := s.modBus fun b => { b with buffer := none }) rfl hq hpart hsupply
    rw [emptyBuffer, hfill]
    show q.length < 8
    rw [hq, List.length_cons] at h
    omega

/-- In CRITICAL the queue is left. -/
theorem emptyBuffer_critical {s : State} (h : supplyState s = .critical) : emptyBuffer s = s.modBus fun b => { b with buffer := none } :=
  fillBuffer_idle (s := s.modBus fun b => { b with buffer := none }) (.inr (.inr (.inr h)))

/-- The end of a CABIN REPORT in a state that has its reports, its queue, its node and its supply in common with the one before. -/
theorem reportEnds_settleSend {s w : State} (hmuster : w.muster = s.muster) (hbus : w.bus = s.bus) (hnode : w.node = s.node) (hsupply : w.supply = s.supply) :
    ReportEnds s (settleSend (emptyBuffer (reportDone w))) := by
  have hempty : Writes [.queue, .buffer, .free] (reportDone w) (emptyBuffer (reportDone w)) := writes_emptyBuffer (.refl _ _) (List.Subset.refl _)
  have hdone : (emptyBuffer (reportDone w)).muster = { s.muster with reportOutstanding := false } := by
    rw [hempty.muster rfl, ← hmuster]
    rfl
  have hpart : participates (emptyBuffer (reportDone w)) = participates s := by
    rw [hempty.participates, Machine.participates, Machine.participates, ← hnode]
    rfl
  have hseq : (emptyBuffer (reportDone w)).bus.nextSeq = s.bus.nextSeq := (hempty.same .nextSeq rfl).trans (congrArg (·.nextSeq) hbus)
  have hpartdone : participates (reportDone w) = participates s := by
    rw [← hempty.participates, hpart]
  have hsupplydone : supplyState (reportDone w) = supplyState s := by
    show supplyOf w.supply.band w.supply.accepted = _
    rw [hsupply]
    rfl
  have hqueue : (reportDone w).bus.queue = s.bus.queue := congrArg (·.queue) hbus
  have hroom := queue_emptyBuffer (s := reportDone w)
  have hcritical := emptyBuffer_critical (s := reportDone w)
  rw [hpartdone, hsupplydone, hqueue] at hroom
  rw [hsupplydone] at hcritical
  have hafter := writes_taken' (settleReports (emptyBuffer (reportDone w)))
  have hqueuecritical (h : supplyState s = .critical) : (emptyBuffer (reportDone w)).bus.queue = s.bus.queue := by
    rw [hcritical h]
    exact hqueue
  unfold settleSend
  generalize emptyBuffer (reportDone w) = v at *
  constructor
  · intro h
    have hidle : ¬ v.builds := by
      rintro ⟨h1, h2, -, h3⟩
      rw [hdone] at h2 h3
      rcases h with h | h | h
      · rw [hpart, h] at h1
        cases h1
      · exact h2 h
      · rw [h] at h3
        cases h3
    rw [hafter.muster rfl, settleReports_stays hidle, hdone]
  · intro hs hpending hwaits hlen
    have hbuilds : v.builds := ⟨hpart.trans hs, by rw [hdone]; exact hpending, by rw [hdone], by rw [hdone]; exact hwaits⟩
    obtain ⟨hstands, hsent⟩ := settleReports_sends_short hbuilds (hroom hs hlen)
    rw [hafter.muster rfl, hsent, hdone]
    rw [hdone, hseq] at hstands
    exact ⟨rfl, hafter.stands rfl hstands⟩
  · intro hs hpending hwaits hsupplys hfull
    have hbuilds : v.builds := ⟨hpart.trans hs, by rw [hdone]; exact hpending, by rw [hdone], by rw [hdone]; exact hwaits⟩
    have hlost := settleReports_waits hbuilds (by rw [hqueuecritical hsupplys]; exact hfull)
    rw [hafter.muster rfl, hlost, hdone]

end Sys2Proof.Machine
end

