-- ==== Sys2Proof/Proofs/JamEnds.lean ====
section
/-! PROOFS. The end of a jam and of a backoff (R30, R33, R34): O17. -/

namespace Sys2Proof.Machine

section
variable {u : TxBuffer} {s : State}

theorem exec_jamEnd (hbuffer : s.bus.buffer = some u) (hphase : u.phase = .jamming) : exec .jamEnd s = .next (settleSend (jamEnded u s)) := by
  show execJamEnd s = _
  simp [execJamEnd, hbuffer, hphase]

/-- The state in which a discard has been counted. -/
def State.discarding (s : State) : State := setEvent .transmitLoss (s.modCounters fun c => { c with discards := raised c.discards })

theorem jamEnded_discards (h : 8 ≤ u.attempts) : jamEnded u s = emptyBuffer (tellNotSent u.frame s.discarding) := if_pos h

theorem jamEnded_purged (h : u.attempts < 8) (hcondemned : u.condemned = true) : jamEnded u s = emptyBuffer s :=
  (if_neg (by omega)).trans (if_pos hcondemned)

theorem jamEnded_backoff (h : u.attempts < 8) (hkept : u.condemned = false) : jamEnded u s = enterBackoff u s :=
  (if_neg (by omega)).trans (if_neg (by rw [hkept]; decide))

/-- What a discard and what follows it write. -/
theorem writes_jamDiscard (f : TxFrame) (s : State) :
    Writes (Part.offered ++ [.outstanding, .answers, .pendingReports, .builderWaits, .line]) s.discarding
      (settleSend (emptyBuffer (tellNotSent f s.discarding))) :=
  writes_settleSend (writes_emptyBuffer (writes_tellNotSent f (.refl _ s.discarding) (by simp)) (by simp)) (by simp)

theorem steady_emptyBuffer (s : State) : (emptyBuffer s).steady = s.steady := by
  rw [emptyBuffer, steady_fillBuffer]
  rfl

theorem steady_enterBackoff (u : TxBuffer) (s : State) : (enterBackoff u s).steady = s.steady := by
  unfold enterBackoff
  dsimp only
  (repeat' split) <;> rfl

/-- A phase after the backoff is drawn. -/
def State.backsOff (s : State) (u : TxBuffer) (p : TxPhase) : Prop :=
  if supplyState s = .critical then ∃ b, p = .held b
  else (∃ n, 1 ≤ n ∧ n ≤ 2 ^ min u.attempts 5 - 1 ∧ p = .backoff n) ∨ ∃ n, n ≤ 7 ∧ p = .waiting n

theorem buffer_setPhase (hbuffer : s.bus.buffer = some u) (p : TxPhase) : (setPhase p s).bus.buffer = some { u with phase := p } := by
  show s.bus.buffer.map _ = _
  rw [hbuffer]
  rfl

theorem drawValue_le (top : Nat) (s : State) : drawValue 0 top s ≤ top := (drawValue_range 0 top s (Nat.zero_le _)).2

theorem enterBackoff_spec (hbuffer : s.bus.buffer = some u) :
    ∃ p, (enterBackoff u s).bus.buffer = some { u with phase := p } ∧ s.backsOff u p := by
  have hdrawn : (drawn s).bus.buffer = some u := hbuffer
  have hsupply : supplyState (drawn s) = supplyState s := rfl
  unfold enterBackoff State.backsOff
  dsimp only
  rw [hsupply]
  by_cases hcritical : supplyState s = .critical
  · rw [if_pos hcritical]
    exact ⟨_, buffer_setPhase hdrawn _, by rw [if_pos hcritical]; exact ⟨_, rfl⟩⟩
  · rw [if_neg hcritical]
    by_cases hnone : drawValue 0 (backoffTop u.attempts) s = 0
    · rw [if_pos hnone]
      exact ⟨.waiting (drawValue 0 7 (drawn s)), buffer_setPhase hdrawn _, by rw [if_neg hcritical]; exact .inr ⟨_, drawValue_le _ _, rfl⟩⟩
    · rw [if_neg hnone]
      exact ⟨_, buffer_setPhase hdrawn _, by rw [if_neg hcritical]; exact .inl ⟨_, Nat.pos_of_ne_zero hnone, drawValue_le _ _, rfl⟩⟩

end

/-- Settles O17. -/
theorem jamsAndBackoffsEnd : Obligations.JamsAndBackoffsEnd := by
  unfold Obligations.JamsAndBackoffsEnd
  refine ⟨fun u s hbuffer hphase => ⟨fun hlast => ?discards, fun hless hkept => ?backoff, fun hless hcondemned => ?purged⟩,
    fun u n s hbuffer => ⟨fun hphase => ?ends, fun hphase => ?held⟩⟩
  case discards =>
    have hexec := exec_jamEnd hbuffer hphase
    rw [jamEnded_discards hlast] at hexec
    have hend := writes_jamDiscard u.frame s
    have hfresh := freshBuffer_settleSend (tellNotSent u.frame s.discarding)
    have hreport (hkind : u.frame.kind = .cabinReport) : ReportEnds s (settleSend (emptyBuffer (tellNotSent u.frame s.discarding))) := by
      have htell : tellNotSent u.frame s.discarding = reportDone s.discarding := by simp [tellNotSent, hkind]
      rw [htell]
      exact reportEnds_settleSend rfl rfl rfl rfl
    have hloss : eventSet .transmitLoss s.discarding = true := eventSet_setEvent .transmitLoss _
    generalize settleSend (emptyBuffer (tellNotSent u.frame s.discarding)) = t at *
    exact ⟨t, hexec, (congrArg Counters.discards (hend.counters_eq rfl) :), hend.eventSet hloss, hfresh, hreport, hend.time rfl, hend.mon rfl,
      hend.node, hend.record⟩
  case backoff =>
    have hexec := exec_jamEnd hbuffer hphase
    rw [jamEnded_backoff hless hkept] at hexec
    obtain ⟨p, hdrawn, hbacks⟩ := enterBackoff_spec hbuffer
    refine ⟨_, p, hexec, (bufferMoves_settleSend _).held hdrawn, hbacks, ?_⟩
    rw [steady_settleSend, steady_enterBackoff]
  case purged =>
    have hexec := exec_jamEnd hbuffer hphase
    rw [jamEnded_purged hless hcondemned] at hexec
    refine ⟨_, hexec, freshBuffer_settleSend s, ?_⟩
    rw [steady_settleSend, steady_emptyBuffer]
  case ends =>
    refine ⟨drawValue 0 7 s, drawValue_le 7 s, ?_⟩
    show execBackoffEnd s = _
    simp [execBackoffEnd, hbuffer, hphase, enterWaiting, setPhase, waitingPhase, drawn, State.modBus, State.modFree]
  case held =>
    show execBackoffEnd s = _
    simp [execBackoffEnd, hbuffer, hphase, setPhase, State.modBus]

end Sys2Proof.Machine
end

