-- ==== Sys2Proof/Proofs/TransmitNotes.lean ====
section
/-! PROOFS. The end of a frame on the line (R12, R31, R32, R66 to R69, R84): O18. -/

namespace Sys2Proof.Machine

/-! ### The notes of a segment (R84) -/

/-- No frame keeps a note of the segment. -/
def State.unnoted (s : State) (segment : Nat) : Prop := ∀ f, s.stands f → ∀ n ∈ f.notes, n.segment ≠ segment

theorem unnoted_of_eq {s t : State} {segment : Nat} (hqueue : t.bus.queue = s.bus.queue) (hbuffer : t.bus.buffer = s.bus.buffer) (h : s.unnoted segment) :
    t.unnoted segment := fun f hf => h f (stands_of_eq hqueue.symm hbuffer.symm hf)

theorem notes_loadShift (shift : Int) (f : TxFrame) : (loadShift shift f).notes = f.notes := by
  unfold loadShift
  split <;> rfl

theorem unnoted_fillBuffer {s : State} {segment : Nat} (h : s.unnoted segment) : (fillBuffer s).unnoted segment := by
  obtain hs | ⟨g, q, hbuffer, hqueue, hs⟩ := fillBuffer_cases s <;> rw [hs]
  · exact h
  · rintro f (hf | ⟨u, hu, rfl⟩)
    · exact h f (.inl (by rw [hqueue]; exact List.mem_cons_of_mem _ hf))
    · cases hu
      rw [notes_loadShift]
      exact h g (.inl (by rw [hqueue]; exact List.mem_cons_self))

theorem unnoted_emptyBuffer {s : State} {segment : Nat} (h : s.unnoted segment) : (emptyBuffer s).unnoted segment :=
  unnoted_fillBuffer (s := s.modBus fun b => { b with buffer := none }) fun f hf => hf.elim (fun hq => h f (.inl hq)) nofun

theorem unnoted_acceptOffer {s : State} {segment : Nat} {queue : List TxFrame} (hqueue : ∀ f ∈ queue, ∀ n ∈ f.notes, n.segment ≠ segment)
    (h : s.unnoted segment) : (acceptOffer queue s).unnoted segment :=
  unnoted_fillBuffer (s := s.modBus fun b => { b with queue := queue, nextSeq := b.nextSeq + 1 })
    fun f hf => hf.elim (hqueue f) fun hu => h f (.inr hu)

theorem mem_replaceFrame {f g : TxFrame} {q : List TxFrame} (h : g ∈ replaceFrame f q) : g = f ∨ g ∈ q := by
  induction q with
  | nil => cases h
  | cons x q ih =>
    unfold replaceFrame at h
    split at h
    · rcases List.mem_cons.1 h with h | h
      · exact .inl h
      · exact .inr (List.mem_cons_of_mem _ h)
    · rcases List.mem_cons.1 h with rfl | h
      · exact .inr List.mem_cons_self
      · exact (ih h).imp_right (List.mem_cons_of_mem _)

/-- An offer without notes brings none. -/
theorem unnoted_offerBase {o : Offer} {s : State} {segment : Nat} (hnotes : o.notes = []) (h : s.unnoted segment) : (offerBase o s).1.unnoted segment := by
  have hframe {f : TxFrame} (hf : f = o.frame s ∨ f ∈ s.bus.queue) : ∀ n ∈ f.notes, n.segment ≠ segment := by
    rcases hf with rfl | hf
    · intro n hn
      have hnone : n ∈ o.notes := hn
      rw [hnotes] at hnone
      cases hnone
    · exact h f (.inl hf)
  obtain hs | hs | ⟨-, -, hs⟩ | ⟨-, -, hs⟩ | ⟨g, -, -, -, -, hs⟩ := offerBase_cases o s <;> rw [hs]
  · exact h
  · exact h
  · exact unnoted_acceptOffer (fun f hf => hframe (mem_replaceFrame hf)) h
  · exact unnoted_acceptOffer (fun f hf => hframe (mem_placeFrame.1 hf)) h
  · refine unnoted_acceptOffer (s := countRefusal s) (fun f hf => hframe ?_) h
    exact (mem_placeFrame.1 hf).imp_right List.mem_of_mem_dropLast

theorem unnoted_answerOffer (a : ActiveAnswer) {s : State} {segment : Nat} (h : s.unnoted segment) : (answerOffer a s).unnoted segment := by
  have hoffer (p : List Octet) : (offerBase ⟨.programmeItem, 255, p, [], true⟩ s).1.unnoted segment := unnoted_offerBase rfl h
  unfold answerOffer
  extract_lets reply
  split
  · rename_i b _
    have ho := hoffer (itemPayload (some b) (some (reply false 0)))
    split <;> (rename_i heq; rw [heq] at ho; exact ho)
  · have ho := hoffer (itemPayload none (some (reply true (highWaterOf a.entry.publisher s))))
    split <;> (rename_i heq; rw [heq] at ho; exact ho)

theorem unnoted_answerReported (f : TxFrame) {s : State} {segment : Nat} (h : s.unnoted segment) : (answerReported f s).unnoted segment := by
  unfold answerReported
  (repeat' split)
  · exact h
  · exact unnoted_answerOffer _ h
  · exact h
  · exact h

theorem unnoted_offer {o : Offer} {s : State} {segment : Nat} (hnotes : o.notes = []) (h : s.unnoted segment) : (offer o s).1.unnoted segment := by
  have hbase := unnoted_offerBase hnotes h
  unfold offer
  split
  · rename_i heq
    rw [heq] at hbase
    exact unnoted_answerReported _ hbase
  · exact hbase

theorem unnoted_settleSend {s : State} {segment : Nat} (h : s.unnoted segment) : (settleSend s).unnoted segment := by
  have hreports : (settleReports s).unnoted segment := by
    unfold settleReports
    split
    · have hoffer := unnoted_offer (o := reportOffer (s.muster.pendingReports.take 6)) (s := s.reportsTaken) rfl h
      unfold buildReport
      dsimp only
      split <;> (rename_i heq; rw [reportOffer, State.reportsTaken, heq] at hoffer; exact hoffer)
    · exact h
  have hafter := writes_taken' (settleReports s)
  exact unnoted_of_eq (hafter.same .queue rfl) (hafter.same .buffer rfl) hreports

/-! ### A completed SEGMENT STATE (R84) -/

theorem unnoted_voidNotes_self (segment : Nat) (s : State) : (voidNotes segment s).unnoted segment := by
  rintro f (hf | ⟨u, hu, rfl⟩) n hn
  · obtain ⟨g, -, rfl⟩ := List.mem_map.1 hf
    simpa using (List.mem_filter.1 hn).2
  · obtain ⟨v, -, rfl⟩ := Option.map_eq_some_iff.1 hu
    simpa using (List.mem_filter.1 hn).2

theorem unnoted_voidNotes {segment other : Nat} {s : State} (h : s.unnoted other) : (voidNotes segment s).unnoted other := by
  rintro f (hf | ⟨u, hu, rfl⟩) n hn
  · obtain ⟨g, hg, rfl⟩ := List.mem_map.1 hf
    exact h g (.inl hg) n (List.mem_of_mem_filter hn)
  · obtain ⟨v, hv, rfl⟩ := Option.map_eq_some_iff.1 hu
    exact h v.frame (.inr ⟨v, hv, rfl⟩) n (List.mem_of_mem_filter hn)

/-- The declared list after one note. -/
theorem mon_clearCompleted (s : State) (n : ClearNote) : (clearCompleted s n).mon = { s.mon with declared := clearedBy [n] s.mon.declared } := by
  unfold clearCompleted clearedBy
  rw [List.foldl_cons, List.foldl_nil]
  split <;> rfl

theorem mon_clearNotes (notes : List ClearNote) (s : State) :
    (notes.foldl clearCompleted s).mon = { s.mon with declared := clearedBy notes s.mon.declared } := by
  induction notes generalizing s with
  | nil => rfl
  | cons n notes ih =>
    rw [List.foldl_cons, ih, mon_clearCompleted]
    rfl

theorem clearCompleted_removes {s : State} {n : ClearNote} {d : Declared} (hd : d ∈ s.mon.declared) (hnot : d ∉ (clearCompleted s n).mon.declared) :
    (clearCompleted s n).unnoted d.segment := by
  unfold clearCompleted at hnot ⊢
  split at hnot
  · rename_i hmatch
    rw [if_pos hmatch]
    have hsegment : d.segment = n.segment := by
      by_contra hne
      exact hnot (List.mem_filter.2 ⟨hd, by simpa using hne⟩)
    rw [hsegment]
    exact unnoted_voidNotes_self _ _
  · exact absurd hd hnot

theorem unnoted_clearCompleted {s : State} {n : ClearNote} {segment : Nat} (h : s.unnoted segment) : (clearCompleted s n).unnoted segment := by
  unfold clearCompleted
  split
  · exact unnoted_voidNotes h
  · exact h

/-- Of each declaration that the notes remove, no frame keeps a note. -/
theorem clearNotes_removes (notes : List ClearNote) (s : State) :
    ∀ d ∈ s.mon.declared, d ∉ (notes.foldl clearCompleted s).mon.declared → (notes.foldl clearCompleted s).unnoted d.segment := by
  refine foldl_keeps (P := fun u => ∀ d ∈ s.mon.declared, d ∉ u.mon.declared → u.unnoted d.segment) (fun n _ u hu d hd hnot => ?_)
    fun d hd hnot => absurd hd hnot
  by_cases hin : d ∈ u.mon.declared
  · exact clearCompleted_removes hin hnot
  · exact unnoted_clearCompleted (hu d hd hin)

/-! ### The owner is told (R12, R84) -/

/-- The pending shift after a completed frame: a mark clears the one it carried (R12). -/
def State.shiftAfter (s : State) (f : TxFrame) : Int :=
  if f.kind = .timeMark ∧ (octetAt f.payload 6).toInt ≠ 0 ∧ s.time.pendingShift = (octetAt f.payload 6).toInt then 0 else s.time.pendingShift

/-- The declared list after a completed frame (R84). -/
def State.declaredAfter (s : State) (f : TxFrame) : List Declared :=
  if f.kind = .segmentState then clearedBy f.notes s.mon.declared else s.mon.declared

theorem writes_clearNotes (notes : List ClearNote) (s : State) : Writes [.declared, .queue, .buffer] s (notes.foldl clearCompleted s) :=
  writes_foldl (fun u n => clearCompleted u n) (fun n hu => writes_clearCompleted n hu (List.Subset.refl _)) notes (.refl _ s)

/-- What a completed frame does to the time and the declared list. -/
theorem tellComplete_spec (f : TxFrame) (s : State) : (tellComplete f s).time = { s.time with pendingShift := s.shiftAfter f }
    ∧ (tellComplete f s).mon = { s.mon with declared := s.declaredAfter f }
    ∧ ∀ d ∈ s.mon.declared, d ∉ (tellComplete f s).mon.declared → (tellComplete f s).unnoted d.segment := by
  have hother (hmark : f.kind ≠ .timeMark) (hsegment : f.kind ≠ .segmentState) {u : State} (htime : u.time = s.time) (hmon : u.mon = s.mon) :
      u.time = { s.time with pendingShift := s.shiftAfter f } ∧ u.mon = { s.mon with declared := s.declaredAfter f }
        ∧ ∀ d ∈ s.mon.declared, d ∉ u.mon.declared → u.unnoted d.segment := by
    rw [State.shiftAfter, if_neg (fun h => hmark h.1), State.declaredAfter, if_neg hsegment]
    exact ⟨htime, hmon, fun d hd hnot => absurd (hmon ▸ hd) hnot⟩
  have hreported : Writes Part.offered s (answerReported f s) := writes_answerReported f (.refl _ s) (List.Subset.refl _)
  unfold tellComplete
  cases hkind : f.kind with
  | programmeItem => exact hother (by rw [hkind]; nofun) (by rw [hkind]; nofun) (hreported.time rfl) (hreported.mon rfl)
  | cabinReport => exact hother (by rw [hkind]; nofun) (by rw [hkind]; nofun) rfl rfl
  | programmeSummary => exact hother (by rw [hkind]; nofun) (by rw [hkind]; nofun) rfl rfl
  | itemRequest => exact hother (by rw [hkind]; nofun) (by rw [hkind]; nofun) rfl rfl
  | routeAdvert => exact hother (by rw [hkind]; nofun) (by rw [hkind]; nofun) rfl rfl
  | musterOrder => exact hother (by rw [hkind]; nofun) (by rw [hkind]; nofun) rfl rfl
  | segmentState =>
    refine ⟨?_, ?_, clearNotes_removes f.notes s⟩
    · rw [State.shiftAfter, if_neg (by rw [hkind]; nofun)]
      exact (writes_clearNotes f.notes s).time rfl
    · rw [State.declaredAfter, if_pos hkind]
      exact mon_clearNotes f.notes s
  | timeMark =>
    rw [State.declaredAfter, if_neg (by rw [hkind]; nofun), State.shiftAfter]
    show (markCompleted f s).time = _ ∧ (markCompleted f s).mon = _ ∧ ∀ d ∈ s.mon.declared, d ∉ (markCompleted f s).mon.declared → _
    unfold markCompleted
    dsimp only
    split
    · rename_i h
      rw [if_pos ⟨hkind, h⟩]
      exact ⟨rfl, rfl, fun d hd hnot => absurd hd hnot⟩
    · rename_i h
      rw [if_neg (fun h' => h h'.2)]
      exact ⟨rfl, rfl, fun d hd hnot => absurd hd hnot⟩

end Sys2Proof.Machine
end

