-- ==== Sys2Proof/Proofs/AnswerEnds.lean ====
section
/-! PROOFS. The end of a frame on the line, continued: the active answer (R66 to R69), and O18. -/

namespace Sys2Proof.Machine

/-! ### The counted ends -/

/-- The state in which the end of the frame has been counted: sent, or aborted. -/
def State.endCounted (s : State) (aborted : Bool) : State :=
  if aborted then s.modCounters fun c => { c with aborted := raised c.aborted } else s.modCounters fun c => { c with framesSent := raised c.framesSent }

section
variable {u : TxBuffer} {wire : List Octet} {s : State}

theorem exec_transmitComplete (hbuffer : s.bus.buffer = some u) (hphase : u.phase = .sending wire false) :
    exec .transmitComplete s = .next (settleSend (emptyBuffer (tellComplete u.frame (s.endCounted false)))) := by
  show execTransmitComplete s = _
  simp [execTransmitComplete, hbuffer, hphase, State.endCounted]

theorem exec_abortedTailEnd (hbuffer : s.bus.buffer = some u) (hphase : u.phase = .sending wire true) :
    exec .abortedTailEnd s = .next (settleSend (emptyBuffer (tellNotSent u.frame (s.endCounted true)))) := by
  show execAbortedTailEnd s = _
  simp [execAbortedTailEnd, hbuffer, hphase, State.endCounted]

/-- The end of a programme frame: its owner is told, whether the frame was sent or aborted. -/
theorem exec_answerEnd {aborted : Bool} (hbuffer : s.bus.buffer = some u) (hphase : u.phase = .sending wire aborted) (hkind : u.frame.kind = .programmeItem) :
    exec (if aborted then .abortedTailEnd else .transmitComplete) s = .next (settleSend (emptyBuffer (answerReported u.frame (s.endCounted aborted)))) := by
  cases aborted with
  | true =>
    have htell : tellNotSent u.frame (s.endCounted true) = answerReported u.frame (s.endCounted true) := by simp [tellNotSent, hkind]
    rw [← htell]
    exact exec_abortedTailEnd hbuffer hphase
  | false =>
    have htell : tellComplete u.frame (s.endCounted false) = answerReported u.frame (s.endCounted false) := by simp [tellComplete, hkind]
    rw [← htell]
    exact exec_transmitComplete hbuffer hphase

end

/-! ### The answer over the end of the step -/

section
variable {s : State}

theorem answerReported_idle (f : TxFrame) (h : s.exch.active = none) : answerReported f s = s := by
  unfold answerReported
  rw [h]

theorem active_offerBase (o : Offer) (s : State) : (offerBase o s).1.exch.active = s.exch.active :=
  (writes_offerBase o (.refl _ s) (List.Subset.refl _)).same .active rfl

/-- No offer starts an answer. -/
theorem active_offer_none (o : Offer) (h : s.exch.active = none) : (offer o s).1.exch.active = none := by
  have hbase := (active_offerBase o s).trans h
  unfold offer
  split
  · rename_i heq
    rw [heq] at hbase
    rw [answerReported_idle _ hbase]
    exact hbase
  · exact hbase

theorem active_offer_short (o : Offer) (hroom : s.bus.queue.length < 8) : (offer o s).1.exch.active = s.exch.active := by
  rw [offer_of_room o hroom]
  exact active_offerBase o s

/-- The builder leaves the answer that its offer leaves. -/
theorem active_settleReports (P : Option ActiveAnswer → Prop) (h : P s.exch.active)
    (hoffer : P (offer (reportOffer (s.muster.pendingReports.take 6)) s.reportsTaken).1.exch.active) : P (settleReports s).exch.active := by
  unfold settleReports
  split
  · unfold buildReport
    dsimp only
    split <;> (rename_i heq; rw [reportOffer, State.reportsTaken, heq] at hoffer; exact hoffer)
  · exact h

theorem writes_settleReports' (s : State) : Writes (Part.offered ++ [.pendingReports, .outstanding, .builderWaits]) s (settleReports s) :=
  writes_settleReports (.refl _ s) (List.Subset.refl _)

/-- With no answer active the next request is taken, in RUN at NORMAL or STANDBY. -/
def State.nextAnswer (s : State) (x : Exchange) : Prop :=
  match s.exch.answers with
  | e :: rest =>
    if s.node.state = .run ∧ (level s).calm = true then
      ∃ n, n ≤ 400 ∧ x.answers = rest
        ∧ x.active = some { entry := e, phase := .hold ⟨s.time.now, n⟩, lastSent := e.after, outstanding := false, closing := false }
    else x.active = none ∧ x.answers = e :: rest
  | [] => x.active = none ∧ x.answers = []

theorem settleAnswers_held {e : AnswerEntry} {rest : List AnswerEntry} (hactive : s.exch.active = none) (hanswers : s.exch.answers = e :: rest)
    (h : ¬ (s.node.state = .run ∧ (level s).calm = true)) : settleAnswers s = s := by
  unfold settleAnswers
  rw [hactive, hanswers]
  exact if_neg h

theorem nextAnswer_settleAnswers (hactive : s.exch.active = none) : s.nextAnswer (settleAnswers s).exch := by
  unfold State.nextAnswer
  cases hanswers : s.exch.answers with
  | nil =>
    rw [settleAnswers_empty hanswers]
    exact ⟨hactive, hanswers⟩
  | cons e rest =>
    dsimp only
    split
    · rename_i h
      rw [settleAnswers_first hactive hanswers h]
      exact ⟨_, drawValue_le 400 s, rfl, rfl⟩
    · rename_i h
      rw [settleAnswers_held hactive hanswers h]
      exact ⟨hactive, hanswers⟩

theorem State.nextAnswer.congr {t : State} {x : Exchange} (h : t.nextAnswer x) (hanswers : t.exch.answers = s.exch.answers) (hnode : t.node = s.node)
    (hlevel : level t = level s) (hnow : t.time.now = s.time.now) : s.nextAnswer x := by
  unfold State.nextAnswer at h ⊢
  rw [hanswers, hnode, hlevel, hnow] at h
  exact h

/-- The end of the step after an answer has ended. -/
theorem nextAnswer_settleSend (hactive : s.exch.active = none) : s.nextAnswer (settleSend s).exch := by
  have hreports := writes_settleReports' s
  have hnone : (settleReports s).exch.active = none :=
    active_settleReports (· = none) hactive (active_offer_none (s := s.reportsTaken) _ hactive)
  unfold settleSend
  rw [exch_settleAttention]
  exact (nextAnswer_settleAnswers hnone).congr (hreports.same .answers rfl) hreports.node hreports.level hreports.now

/-- With fewer than 8 frames queued the end of the step leaves an answer that is active. -/
theorem active_settleSend {a : ActiveAnswer} (hroom : s.bus.queue.length < 8) (hactive : s.exch.active = some a) : (settleSend s).exch.active = some a := by
  have hstill : (settleReports s).exch.active = some a :=
    active_settleReports (· = some a) hactive ((active_offer_short (s := s.reportsTaken) _ hroom).trans hactive)
  unfold settleSend
  rw [exch_settleAttention, settleAnswers_active hstill]
  exact hstill

/-! ### The next frame of the answer (R68) -/

theorem answerReported_closes {f : TxFrame} {a : ActiveAnswer} (hanswer : f.answer = true) (hactive : s.exch.active = some a)
    (houtstanding : a.outstanding = true) (hclosing : a.closing = true) : answerReported f s = endAnswer s := by
  unfold answerReported
  rw [hactive]
  simp [hanswer, houtstanding, hclosing]

theorem answerReported_walks {f : TxFrame} {a : ActiveAnswer} (hanswer : f.answer = true) (hactive : s.exch.active = some a)
    (houtstanding : a.outstanding = true) (hopen : a.closing = false) : answerReported f s = answerOffer { a with outstanding := false } s := by
  unfold answerReported
  rw [hactive]
  simp [hanswer, houtstanding, hopen]

/-- Behind an occupied buffer the answer's frame is queued. -/
theorem queue_answerOffer {a : ActiveAnswer} {u : TxBuffer} (hbuffer : s.bus.buffer = some u) (hpart : participates s = true) (hlevel : level s ≠ .muster)
    (hroom : s.bus.queue.length < 8) : (answerOffer a s).bus.queue = placeFrame ((frameOffer a s).frame s) s.bus.queue := by
  have hpass : ¬ refusedByState (frameOffer a s) s := not_refused_below hpart hlevel
  have hbuffer' : (s.modBus fun b => { b with queue := placeFrame ((frameOffer a s).frame s) s.bus.queue, nextSeq := b.nextSeq + 1 }).bus.buffer ≠ none := by
    show s.bus.buffer ≠ none
    rw [hbuffer]
    nofun
  have hidle := fillBuffer_idle (.inl hbuffer')
  rw [answerOffer_accepted hpass hroom, offerBase_places hpass rfl hroom]
  exact congrArg (·.bus.queue) hidle

theorem queue_length_emptyBuffer (s : State) : (emptyBuffer s).bus.queue.length ≤ s.bus.queue.length := fillBuffer_queue_length _

/-- A queued frame that is no mark stands after the buffer is made EMPTY. -/
theorem stands_emptyBuffer {f : TxFrame} (hkind : f.kind ≠ .timeMark) (h : f ∈ s.bus.queue) : (emptyBuffer s).stands f :=
  stands_fillBuffer (s := s.modBus fun b => { b with buffer := none }) (loadShift_of_ne hkind) (.inl h)

/-- The answer that goes on: its next frame is outstanding, and stands to be sent. -/
theorem answer_walks {a : ActiveAnswer} {u : TxBuffer} (hbuffer : s.bus.buffer = some u) (hpart : participates s = true) (hlevel : level s ≠ .muster)
    (hroom : s.bus.queue.length ≤ 6) :
    (settleSend (emptyBuffer (answerOffer a s))).exch.active = some (a.sending s.store.table)
      ∧ (settleSend (emptyBuffer (answerOffer a s))).stands ((frameOffer a s).frame s) := by
  have hpass : ¬ refusedByState (frameOffer a s) s := not_refused_below hpart hlevel
  have hqueue := queue_answerOffer (a := a) hbuffer hpart hlevel (by omega)
  have hactive : (answerOffer a s).exch.active = some (a.sending s.store.table) := by
    rw [answerOffer_accepted hpass (by omega)]
    rfl
  have hempty : Writes [.queue, .buffer, .free] (answerOffer a s) (emptyBuffer (answerOffer a s)) := writes_emptyBuffer (.refl _ _) (List.Subset.refl _)
  have hlength : (emptyBuffer (answerOffer a s)).bus.queue.length < 8 := by
    refine (queue_length_emptyBuffer _).trans_lt ?_
    rw [hqueue, placeFrame_length]
    omega
  have hstands : (emptyBuffer (answerOffer a s)).stands ((frameOffer a s).frame s) :=
    stands_emptyBuffer (f := (frameOffer a s).frame s) (by nofun) (by rw [hqueue]; exact mem_placeFrame.2 (.inl rfl))
  exact ⟨active_settleSend hlength ((hempty.same .active rfl).trans hactive), stands_settleSend (loadShift_of_ne nofun) (.inl hlength) hstands⟩

end

end Sys2Proof.Machine
end

