-- ==== Sys2Proof/Proofs/FrameEnds.lean ====
section
/-! PROOFS. TRANSMIT_COMPLETE and ABORTED_TAIL_END (R12, R31, R32, R68, R84, R123): O18. -/

namespace Sys2Proof.Machine

section
variable {u : TxBuffer} {s : State}

/-- What follows the owner's news of the end of a frame. -/
theorem writes_frameEnd (s : State) : Writes (Part.offered ++ [.outstanding, .answers, .pendingReports, .builderWaits, .line]) s (settleSend (emptyBuffer s)) :=
  writes_settleSend (writes_emptyBuffer (.refl _ s) (by simp)) (by simp)

theorem reportEnds_complete (hkind : u.frame.kind = .cabinReport) : ReportEnds s (settleSend (emptyBuffer (tellComplete u.frame (s.endCounted false)))) := by
  have htell : tellComplete u.frame (s.endCounted false) = reportDone (s.endCounted false) := by simp [tellComplete, hkind]
  rw [htell]
  exact reportEnds_settleSend rfl rfl rfl rfl

theorem reportEnds_aborted (hkind : u.frame.kind = .cabinReport) : ReportEnds s (settleSend (emptyBuffer (tellNotSent u.frame (s.endCounted true)))) := by
  have htell : tellNotSent u.frame (s.endCounted true) = reportDone (s.endCounted true) := by simp [tellNotSent, hkind]
  rw [htell]
  exact reportEnds_settleSend rfl rfl rfl rfl

end

/-- Settles O18. -/
theorem frameEndsAreCounted : Obligations.FrameEndsAreCounted := by
  unfold Obligations.FrameEndsAreCounted
  refine ⟨fun u wire s hbuffer => ⟨fun hphase => ?complete, fun hphase => ?aborted⟩,
    fun aborted u wire a s hbuffer hphase hkind hanswer hactive houtstanding => ?answer⟩
  case complete =>
    have hexec := exec_transmitComplete hbuffer hphase
    have htell := writes_tellComplete u.frame (.refl _ (s.endCounted false)) (List.Subset.refl _)
    obtain ⟨htime, hmon, hnotes⟩ := tellComplete_spec u.frame (s.endCounted false)
    have hend := writes_frameEnd (tellComplete u.frame (s.endCounted false))
    have hreport := reportEnds_complete (u := u) (s := s)
    have hfresh := freshBuffer_settleSend (tellComplete u.frame (s.endCounted false))
    have hunnoted {segment : Nat} (h : (tellComplete u.frame (s.endCounted false)).unnoted segment) :
        (settleSend (emptyBuffer (tellComplete u.frame (s.endCounted false)))).unnoted segment := unnoted_settleSend (unnoted_emptyBuffer h)
    generalize settleSend (emptyBuffer (tellComplete u.frame (s.endCounted false))) = t at *
    generalize tellComplete u.frame (s.endCounted false) = w at *
    have hmon' : t.mon = w.mon := hend.mon rfl
    refine ⟨t, hexec, ?_, ?_, hfresh, (hend.time rfl).trans htime, hmon'.trans hmon, fun d hd hnot => hunnoted (hnotes d hd (hmon' ▸ hnot)), hreport,
      hend.node.trans htell.node, hend.port.trans htell.port, hend.receiver.trans htell.receiver, hend.record.trans htell.record⟩
    · exact ((congrArg Counters.framesSent (hend.counters_eq rfl) :).trans (congrArg Counters.framesSent (htell.counters_eq rfl) :))
    · exact ((congrArg Counters.aborted (hend.counters_eq rfl) :).trans (congrArg Counters.aborted (htell.counters_eq rfl) :))
  case aborted =>
    have hexec := exec_abortedTailEnd hbuffer hphase
    have htell := writes_tellNotSent u.frame (.refl _ (s.endCounted true)) (List.Subset.refl _)
    have hend := writes_frameEnd (tellNotSent u.frame (s.endCounted true))
    have hreport := reportEnds_aborted (u := u) (s := s)
    have hfresh := freshBuffer_settleSend (tellNotSent u.frame (s.endCounted true))
    generalize settleSend (emptyBuffer (tellNotSent u.frame (s.endCounted true))) = t at *
    generalize tellNotSent u.frame (s.endCounted true) = w at *
    refine ⟨t, hexec, ?_, ?_, hreport, hfresh, (hend.time rfl).trans (htell.time rfl), (hend.mon rfl).trans (htell.mon rfl),
      hend.node.trans htell.node, hend.port.trans htell.port, hend.receiver.trans htell.receiver, hend.record.trans htell.record⟩
    · exact ((congrArg Counters.aborted (hend.counters_eq rfl) :).trans (congrArg Counters.aborted (htell.counters_eq rfl) :))
    · exact ((congrArg Counters.framesSent (hend.counters_eq rfl) :).trans (congrArg Counters.framesSent (htell.counters_eq rfl) :))
  case answer =>
    have hactive' : (s.endCounted aborted).exch.active = some a := by cases aborted <;> exact hactive
    have hbuffer' : (s.endCounted aborted).bus.buffer = some u := by cases aborted <;> exact hbuffer
    have hsame : (s.endCounted aborted).exch.answers = s.exch.answers ∧ (s.endCounted aborted).node = s.node ∧ level (s.endCounted aborted) = level s
        ∧ (s.endCounted aborted).time.now = s.time.now ∧ (s.endCounted aborted).bus = s.bus ∧ (s.endCounted aborted).store = s.store
        ∧ (s.endCounted aborted).exch = s.exch := by
      cases aborted <;> exact ⟨rfl, rfl, rfl, rfl, rfl, rfl, rfl⟩
    obtain ⟨hanswers, hnode, hlevel, hnow, hbus, hstore, hexch⟩ := hsame
    have hexec := exec_answerEnd hbuffer hphase hkind
    generalize s.endCounted aborted = v at *
    refine ⟨_, hexec, fun hclosing => ?closes, fun hopen hpart hbelow hroom => ?walks⟩
    case closes =>
      rw [answerReported_closes hanswer hactive' houtstanding hclosing]
      have hempty : Writes [.queue, .buffer, .free] (endAnswer v) (emptyBuffer (endAnswer v)) := writes_emptyBuffer (.refl _ _) (List.Subset.refl _)
      have hnone : (emptyBuffer (endAnswer v)).exch.active = none := hempty.same .active rfl
      have hnext := (nextAnswer_settleSend hnone).congr (s := s) ((hempty.same .answers rfl : (emptyBuffer (endAnswer v)).exch.answers = v.exch.answers).trans hanswers)
        (hempty.node.trans hnode) (hempty.level.trans hlevel) (hempty.now.trans hnow)
      unfold State.nextAnswer at hnext
      cases h : s.exch.answers with
      | nil =>
        rw [h] at hnext
        exact hnext
      | cons e rest =>
        rw [h] at hnext
        exact hnext
    case walks =>
      rw [answerReported_walks hanswer hactive' houtstanding hopen]
      have hwalks := answer_walks (a := { a with outstanding := false }) hbuffer' (by rw [Machine.participates, hnode]; exact hpart) (by rw [hlevel]; exact hbelow)
        (by rw [hbus]; exact hroom)
      have hhigh (p : Nat) : highWaterOf p v = highWaterOf p s := by rw [highWaterOf, hexch, highWaterOf]
      unfold ActiveAnswer.sending frameOffer answerPayload at hwalks
      rw [hstore] at hwalks
      dsimp only at hwalks
      cases h : nextToSend a.entry.publisher a.lastSent s.store.table with
      | some b =>
        rw [h] at hwalks
        obtain ⟨hnext, hstands⟩ := hwalks
        refine ⟨hnext, ?_⟩
        rw [← hbus]
        exact hstands
      | none =>
        rw [h] at hwalks
        obtain ⟨hnext, hstands⟩ := hwalks
        refine ⟨hnext, ?_⟩
        rw [← hbus, ← hhigh]
        exact hstands

end Sys2Proof.Machine
end

