-- ==== Sys2Proof/Proofs/PlatesCompared.lean ====
section
/-! PROOFS. Every plate compared, and every plate given its target (R145, R146, R155). -/

namespace Sys2Proof.Machine

/-- Every plate left IDLE shows its target. -/
def State.compared (s : State) : Prop := ∀ p ∈ s.sched.plates, p.refresh = .idle → p.stale = false

/-- Every plate has the target of the node state and the order. -/
def State.aimed (s : State) (node : NodeState) (r : OrderRecord) : Prop := ∀ p ∈ s.sched.plates, p.target = targetFor node r p

/-! ### The walk over the plates -/

section
variable {f : State → Nat → State} {s : State}

theorem length_of_seen {t : State} (h : t.sched.plates.map Plate.cabin = s.sched.plates.map Plate.cabin) : t.sched.plates.length = s.sched.plates.length := by
  simpa using congrArg List.length h

/-- A step for each plate that leaves the others, and brings its own plate to `P`, brings every plate to `P`. -/
theorem plates_foldl {P : Plate → Prop} {K : State → Prop} (hs : K s) (hkeeps : ∀ i u, K u → K (f u i))
    (hlength : ∀ i u, (f u i).sched.plates.length = u.sched.plates.length)
    (hother : ∀ i j u, i ≠ j → (f u i).sched.plates[j]? = u.sched.plates[j]?)
    (hreaches : ∀ i u, K u → ∀ p, (f u i).sched.plates[i]? = some p → P p) :
    ∀ p ∈ ((List.range s.sched.plates.length).foldl f s).sched.plates, P p := by
  have hlen : ((List.range s.sched.plates.length).foldl f s).sched.plates.length = s.sched.plates.length :=
    foldl_keeps (P := fun u => u.sched.plates.length = s.sched.plates.length) (fun i _ u hu => (hlength i u).trans hu) rfl
  intro p hp
  obtain ⟨i, hi⟩ := List.mem_iff_getElem?.1 hp
  have hmem : i ∈ List.range s.sched.plates.length := List.mem_range.2 (hlen ▸ (List.getElem?_eq_some_iff.1 hi).1)
  refine (foldl_reaches (P := K) (Q := fun u => K u ∧ ∀ p, u.sched.plates[i]? = some p → P p) hmem (fun j _ u hu => hkeeps j u hu)
    (fun u hu => ⟨hkeeps i u hu, hreaches i u hu⟩) (fun j _ u hu => ⟨hkeeps j u hu.1, ?_⟩) hs).2 p hi
  by_cases hij : j = i
  · subst hij
    exact hreaches j u hu.1
  · rw [hother j i u hij]
    exact hu.2

end

/-! ### The comparison of every plate (R146, R155) -/

theorem comparePlate_compares {i : Nat} {p : Plate} {s : State} (hrefreshing : refreshing s = true) (hp : (comparePlate i s).sched.plates[i]? = some p)
    (hidle : p.refresh = .idle) : p.stale = false := by
  cases hq : s.sched.plates[i]? with
  | none =>
    rw [comparePlate_none hq, hq] at hp
    cases hp
  | some q =>
    obtain ⟨x, hx⟩ := plate_comparePlate hq
    cases hp.symm.trans hx
    obtain rfl : x = .idle := hidle
    show q.stale = false
    by_contra hstale
    obtain ⟨y, hy, hplate⟩ := comparePlate_stale hq (by simpa using hstale) hrefreshing
    rw [hplate] at hx
    exact hy (congrArg Plate.refresh (Option.some.inj hx))

theorem length_comparePlate (i : Nat) (s : State) : (comparePlate i s).sched.plates.length = s.sched.plates.length :=
  length_of_seen (seen_comparePlate (fun _ _ => rfl) i s)

theorem compared_compareAll {s : State} (hrefreshing : refreshing s = true) : (compareAll s).compared :=
  plates_foldl (P := fun p => p.refresh = .idle → p.stale = false) (K := fun u => refreshing u = true) hrefreshing
    (fun i u hu => (refreshing_comparePlate i u).trans hu) length_comparePlate (fun _ _ u hij => plate_comparePlate_of_ne hij u)
    (fun _ _ hu _ => comparePlate_compares hu)

theorem seen_compareAll {β : Type} {g : Plate → β} (hg : Plate.blindToRefresh g) (s : State) :
    (compareAll s).sched.plates.map g = s.sched.plates.map g :=
  foldl_keeps (P := fun u => u.sched.plates.map g = s.sched.plates.map g) (fun i _ u hu => (seen_comparePlate hg i u).trans hu) rfl

theorem flight_compareAll (s : State) : (compareAll s).sched.flight = s.sched.flight :=
  foldl_keeps (P := fun u => u.sched.flight = s.sched.flight) (fun i _ u hu => (flight_comparePlate i u).trans hu) rfl

/-! ### The targets of every plate (R145) -/

theorem length_retarget (i : Nat) (s : State) : (retarget i s).sched.plates.length = s.sched.plates.length := by
  rw [retarget, length_comparePlate]
  exact length_of_seen (map_modAt (fun p => by obtain ⟨stamp, h⟩ := retargeted_eq s.node.state s.muster.record p; rw [h]) i s.sched.plates)

theorem plate_retarget_of_ne {i j : Nat} (hij : i ≠ j) (s : State) : (retarget i s).sched.plates[j]? = s.sched.plates[j]? := by
  rw [retarget, plate_comparePlate_of_ne hij]
  exact plate_modPlate_of_ne hij _ s

theorem retarget_aims {i : Nat} {p : Plate} {s : State} (hp : (retarget i s).sched.plates[i]? = some p) :
    p.target = targetFor s.node.state s.muster.record p := by
  cases hq : s.sched.plates[i]? with
  | none =>
    have hnone : (modPlate i (Plate.retargeted s.node.state s.muster.record) s).sched.plates[i]? = none := by
      rw [plate_modPlate, if_pos rfl, hq]
      rfl
    rw [retarget, comparePlate_none hnone, hnone] at hp
    cases hp
  | some q =>
    obtain ⟨stamp, x, hx⟩ := plate_retarget hq
    cases hp.symm.trans hx
    rfl

theorem aimed_retargetAll (s : State) : (retargetAll s).aimed s.node.state s.muster.record :=
  plates_foldl (P := fun p => p.target = targetFor s.node.state s.muster.record p)
    (K := fun u => u.node.state = s.node.state ∧ u.muster.record = s.muster.record) ⟨rfl, rfl⟩
    (fun i u hu => ⟨(congrArg (·.state) (writes_retarget' i u).node).trans hu.1, (writes_retarget' i u).record.trans hu.2⟩)
    length_retarget (fun _ _ u hij => plate_retarget_of_ne hij u)
    (fun i u hu p hp => by rw [← hu.1, ← hu.2]; exact retarget_aims hp)

theorem flight_retargetAll (s : State) : (retargetAll s).sched.flight = s.sched.flight :=
  foldl_keeps (P := fun u => u.sched.flight = s.sched.flight) (fun i _ u hu => (flight_retarget i u).trans hu) rfl

/-! ### Over the end of the step -/

theorem startOne_compared {s : State} (h : s.compared) : (startOne s).compared := by
  obtain ⟨hs, -⟩ | ⟨i, q, -, -, hi, hq, -, hs⟩ := startOne_cases s <;> rw [hs]
  · exact h
  · intro p hp hidle
    obtain ⟨j, hj⟩ := List.mem_iff_getElem?.1 hp
    by_cases hij : i = j
    · subst hij
      cases hj.symm.trans (plate_modPlate_self _ hq)
      cases hidle
    · have hsame := hj.symm.trans (plate_modPlate_of_ne hij _ _)
      exact h p (List.mem_of_getElem? hsame.symm) hidle

/-- What holds of each plate whatever its poll holds over the end of the step when it holds over the starts. -/
theorem forall_plates_of_seen {g : Plate → Bool} {s t : State} (h : t.sched.plates.map g = s.sched.plates.map g) (hs : ∀ p ∈ s.sched.plates, g p = true) :
    ∀ p ∈ t.sched.plates, g p = true := by
  intro p hp
  have hmem : g p ∈ s.sched.plates.map g := h ▸ List.mem_map_of_mem hp
  obtain ⟨q, hq, hsame⟩ := List.mem_map.1 hmem
  rw [← hsame]
  exact hs q hq

/-- The plate shows its target, if it is IDLE. -/
def Plate.showsIfIdle (p : Plate) : Bool := decide (p.refresh = .idle → p.stale = false)

theorem compared_iff (s : State) : s.compared ↔ ∀ p ∈ s.sched.plates, p.showsIfIdle = true := by
  simp only [State.compared, Plate.showsIfIdle, decide_eq_true_eq]

theorem compared_settle {s : State} (h : s.compared) : (settle s).compared := by
  have hstarts : (settleRefreshes s).compared := startOne_compared (startOne_compared h)
  rw [compared_iff] at hstarts ⊢
  exact forall_plates_of_seen (seen_settle (fun _ _ => rfl) s) hstarts

/-- The plate has the target of the node state and the order. -/
def Plate.aimedAt (node : NodeState) (r : OrderRecord) (p : Plate) : Bool := decide (p.target = targetFor node r p)

theorem aimed_iff {s : State} {node : NodeState} {r : OrderRecord} : s.aimed node r ↔ ∀ p ∈ s.sched.plates, p.aimedAt node r = true := by
  simp only [State.aimed, Plate.aimedAt, decide_eq_true_eq]

theorem aimed_compareAll {s : State} {node : NodeState} {r : OrderRecord} (h : s.aimed node r) : (compareAll s).aimed node r :=
  aimed_iff.2 (forall_plates_of_seen (seen_compareAll (fun _ _ => rfl) s) (aimed_iff.1 h))

theorem aimed_settle {s : State} {node : NodeState} {r : OrderRecord} (h : s.aimed node r) : (settle s).aimed node r :=
  aimed_iff.2 (forall_plates_of_seen (seen_settle_both (fun _ _ => rfl) (fun _ _ => rfl) s) (aimed_iff.1 h))

theorem flight_startOne (s : State) : s.sched.flight <+: (startOne s).sched.flight := by
  obtain ⟨hs, -⟩ | ⟨i, q, -, -, -, -, -, hs⟩ := startOne_cases s <;> rw [hs]
  exact List.prefix_append _ _

theorem flight_settle_prefix (s : State) : s.sched.flight <+: (settle s).sched.flight := by
  rw [flight_settle]
  exact (flight_startOne s).trans (flight_startOne (startOne s))

end Sys2Proof.Machine
end

