-- ==== Sys2Proof/Proofs/EntersFaults.lean ====
section
/-! PROOFS. Entry to FAULT (R164), and FRAME_RECEIVED (R21, R22): O15. -/

namespace Sys2Proof.Machine

/-- Outside RUN no request is taken. -/
theorem settleAnswers_outside {s : State} (h : s.node.state ≠ .run) : settleAnswers s = s := by
  unfold settleAnswers
  split
  · exact if_neg fun hrun => h hrun.1
  · rfl

/-- The end of a step outside JOINING and RUN does no more than start refreshes and a poll, and follow the lights and the line. -/
theorem writes_settle_quiet {s : State} (hpart : participates s = false) :
    Writes (Part.refreshed ++ [.engine, .lights, .line]) s (settle s) := by
  have hrefresh : Writes (Part.refreshed ++ [.engine, .lights, .line]) s (settleRefreshes s) := writes_settleRefreshes (.refl _ s) (by simp)
  have hreports : settleReports (settleRefreshes s) = settleRefreshes s := settleReports_idle (.inr (.inr (.inr (hrefresh.participates.trans hpart))))
  have hidle : settleAnswers (settleRefreshes s) = settleRefreshes s := by
    refine settleAnswers_outside fun hrun => ?_
    rw [hrefresh.node] at hrun
    rw [Machine.participates, hrun] at hpart
    cases hpart
  unfold settle
  rw [hreports, hidle]
  exact writes_settleAttention (writes_settleLights (writes_arbitrate hrefresh (by simp)) (by simp)) (by simp)

/-- The state whose send path, engine and timers have stopped at entry to FAULT, before the plates are retargeted. -/
def State.faulted (s : State) : State :=
  (stopTimers (stopExchange (silenceBus (s.modNode fun n => { n with state := .fault, joinTimer := none })))).modTime fun b => { b with markTimer := none }

theorem enterFault_eq (s : State) : enterFault s = compareAll (retargetAll s.faulted) := by
  have hstops : ¬ (stopTimers (stopExchange (silenceBus (s.modNode fun n => { n with state := .fault, joinTimer := none })))).sendsMarks :=
    fun h => absurd h.2.2.1 Bool.false_ne_true
  rw [enterFault, settleMarks_stops hstops]
  rfl

theorem writes_enterFault (s : State) : Writes [.plates, .waiting] s.faulted (enterFault s) := by
  rw [enterFault_eq]
  exact writes_compareAll (writes_retargetAll (.refl _ _) (List.Subset.refl _)) (List.Subset.refl _)

/-- Every block has entered FAULT. -/
theorem entersFault {s u : State} (htime : u.time = s.time) (hexch : u.exch = s.exch) (hmon : u.mon = s.mon) (hroute : u.route = s.route)
    (hmuster : u.muster = s.muster) (hsched : u.sched = s.sched) (hevents : u.events = s.events) (hcounters : u.counters = s.counters) :
    EntersFault s (settle (enterFault u)) := by
  have henter := writes_enterFault u
  have hend := writes_settle_quiet (henter.participates.trans rfl)
  have hrefreshing : refreshing (retargetAll u.faulted) = true := by
    rw [refreshing, (writes_retargetAll (.refl [.plates, .waiting] u.faulted) (List.Subset.refl _)).node]
    rfl
  have haimed : (settle (enterFault u)).aimed .fault s.muster.record := by
    rw [enterFault_eq, ← hmuster]
    exact aimed_settle (aimed_compareAll (aimed_retargetAll u.faulted))
  have hcompared : (settle (enterFault u)).compared := by
    rw [enterFault_eq]
    exact compared_settle (compared_compareAll hrefreshing)
  have hflight : s.sched.flight <+: (settle (enterFault u)).sched.flight := by
    have hsame : (enterFault u).sched.flight = s.sched.flight := by
      rw [enterFault_eq, flight_compareAll, flight_retargetAll, ← hsched]
      rfl
    rw [← hsame]
    exact flight_settle_prefix _
  generalize settle (enterFault u) = t at *
  generalize enterFault u = z at *
  have hnode : t.node = { u.node with state := .fault, joinTimer := none } := hend.node.trans henter.node
  have hexch' : t.exch = u.faulted.exch := (hend.exch rfl).trans (henter.exch rfl)
  exact {
    state := ⟨congrArg (·.state) hnode, congrArg (·.joinTimer) hnode, ((hend.flags_eq rfl).trans (henter.flags_eq rfl)).trans (congrArg (·.flags) hevents),
      ((hend.counters_same rfl).trans (henter.counters_same rfl)).trans hcounters⟩
    silent := ⟨hend.receiver.trans henter.receiver, (hend.same .queue rfl).trans (henter.same .queue rfl), (hend.same .buffer rfl).trans (henter.same .buffer rfl)⟩
    marks := by
      rw [hend.time rfl, henter.time rfl, ← htime]
      rfl
    exchange := by
      rw [hexch', ← hexch]
      exact ⟨rfl, rfl, rfl, rfl, rfl⟩
    presence := by
      rw [hend.mon rfl, henter.mon rfl, ← hmon]
      rfl
    adverts := by
      rw [hend.route rfl, henter.route rfl, ← hroute]
      rfl
    muster := by
      rw [hend.muster rfl, henter.muster rfl, ← hmuster]
      rfl
    targets := fun p hp => ⟨haimed p hp, by rw [haimed p hp]; rfl⟩
    compared := fun p hp hidle => (stale_eq_false_iff p).1 (hcompared p hp hidle)
    inFlight := hflight }

theorem node_enterFault (u : State) : (settle (enterFault u)).node = { u.node with state := .fault, joinTimer := none } :=
  (writes_settle (.refl _ _) (List.Subset.refl _)).node.trans (writes_enterFault u).node

/-! ### FRAME_RECEIVED (R21, R22) -/

theorem steady_counted (s : State) : (s.modCounters fun c => { c with framesReceived := raised c.framesReceived }).steady =
    { s.steady with counters := { s.counters with framesReceived := raised s.counters.framesReceived, queueRefusals := 0 } } := rfl

theorem steady_placeReceived (f : RxFrame) (s : State) : (s.modBus (placeReceived f)).steady = { s.steady with
    timeQ := s.bus.timeQ ++ (if f.kind = .timeMark then [f] else []),
    programmeQ := s.bus.programmeQ ++ (if f.kind = .programmeItem ∨ f.kind = .programmeSummary ∨ f.kind = .itemRequest then [f] else []),
    routeQ := s.bus.routeQ ++ (if f.kind = .routeAdvert ∨ f.kind = .segmentState then [f] else []),
    musterQ := s.bus.musterQ ++ (if f.kind = .musterOrder ∨ f.kind = .cabinReport then [f] else []) } := by
  cases hkind : f.kind <;> simp [placeReceived, hkind, State.modBus, State.steady]

theorem exec_frameReceived {payload : List Octet} {high low : Octet} {capture : Tick} {h : FrameHead} {s : State} (hpart : participates s = true)
    (hreceiver : s.bus.receiver = .frame capture (some h)) (hlength : payload.length = h.len) :
    exec (.frameReceived payload high low) s = .next (settle (takeFrame capture h payload high low s)) := by
  show execFrameReceived payload high low s = _
  unfold execFrameReceived
  rw [hreceiver]
  exact congrArg Host.Outcome.next (if_pos ⟨hpart, hlength⟩)

section
variable {capture : Tick} {h : FrameHead} {payload : List Octet} {high low : Octet} {s : State}

theorem takeFrame_error (hcheck : checkAgrees h payload high low = false) : takeFrame capture h payload high low s =
    (setReceiver .hunt s).modCounters fun c => { c with checkErrors := raised c.checkErrors } := if_pos hcheck

theorem takeFrame_clash (hcheck : checkAgrees h payload high low = true) (hown : ownStation s = some h.source) :
    takeFrame capture h payload high low s = stationClash (setReceiver .hunt s) :=
  (if_neg (by rw [hcheck]; decide)).trans (if_pos hown)

/-- The frame as it is placed on its owner queue. -/
def FrameHead.received (h : FrameHead) (payload : List Octet) (capture : Tick) : RxFrame :=
  { kind := h.kind, source := h.source, dest := h.dest, seq := h.seq, payload := payload, capture := capture }

theorem takeFrame_placed (hcheck : checkAgrees h payload high low = true) (hother : ownStation s ≠ some h.source) :
    takeFrame capture h payload high low s =
      ((setReceiver .hunt s).modBus (placeReceived (h.received payload capture))).modCounters fun c => { c with framesReceived := raised c.framesReceived } :=
  (if_neg (by rw [hcheck]; decide)).trans (if_neg hother)

end

/-- Settles O15. -/
theorem frameReceivedIsPlaced : Obligations.FrameReceivedIsPlaced := by
  unfold Obligations.FrameReceivedIsPlaced
  intro payload high low capture h s hpart hreceiver hlength
  have hexec := exec_frameReceived (high := high) (low := low) hpart hreceiver hlength
  cases hcheck : checkAgrees h payload high low with
  | false =>
    have hsteady := steady_settle (takeFrame capture h payload high low s)
    rw [takeFrame_error hcheck] at hexec hsteady
    exact ⟨_, hexec, congrArg Steady.receiver hsteady, hsteady⟩
  | true =>
    by_cases hown : ownStation s = some h.source
    · rw [takeFrame_clash hcheck hown] at hexec
      by_cases hjoining : s.node.state = .joining
      · have hclash : stationClash (setReceiver .hunt s) = enterFault (setReceiver .hunt s) := if_pos hjoining
        have hfault : EntersFault s (settle (enterFault (setReceiver .hunt s))) := entersFault rfl rfl rfl rfl rfl rfl rfl rfl
        rw [hclash] at hexec
        obtain ⟨hhunt, hqueue, hbuffer⟩ := hfault.silent
        refine ⟨_, hexec, hhunt, ?_⟩
        rw [if_neg (by decide), if_pos hown]
        exact ⟨fun _ => ⟨node_enterFault _, hqueue, hbuffer, hfault⟩, fun hrun => by rw [hrun] at hjoining; cases hjoining⟩
      · have hclash : stationClash (setReceiver .hunt s) = setEvent .stationClash (setReceiver .hunt s) := if_neg hjoining
        have hsteady := steady_settle (setEvent .stationClash (setReceiver .hunt s))
        rw [hclash] at hexec
        refine ⟨_, hexec, congrArg Steady.receiver hsteady, ?_⟩
        rw [if_neg (by decide), if_pos hown]
        exact ⟨fun h => absurd h hjoining, fun _ => hsteady⟩
    · have hsteady := steady_settle (takeFrame capture h payload high low s)
      rw [takeFrame_placed hcheck hown] at hexec hsteady
      rw [steady_counted, steady_placeReceived] at hsteady
      refine ⟨_, hexec, congrArg Steady.receiver hsteady, ?_⟩
      rw [if_neg (by decide), if_neg hown]
      exact hsteady

end Sys2Proof.Machine
end

