-- ==== Sys2Proof/Proofs/AbortedTail.lean ====
section
/-! PROOFS. The aborted tail (R32). -/

namespace Sys2Proof.Machine

theorem getElem?_fillFrom (begun i k : Nat) (l : List Octet) : (fillFrom begun i l)[k]? = (l[k]?).map fun o => if i + k < begun then o else 0xFF := by
  induction l generalizing i k with
  | nil => rfl
  | cons o l ih =>
    cases k with
    | zero => rfl
    | succ k =>
      rw [fillFrom, List.getElem?_cons_succ, List.getElem?_cons_succ, ih, show i + 1 + k = i + (k + 1) by omega]

theorem length_fillFrom (begun i : Nat) (l : List Octet) : (fillFrom begun i l).length = l.length := by
  induction l generalizing i with
  | nil => rfl
  | cons o l ih => rw [fillFrom, List.length_cons, ih, List.length_cons]

section
variable (begun : Nat) (wire : List Octet)

/-- The header octets on the line. -/
def wireHeader : List Octet := (wire.drop 1).take 5

/-- The payload octets on the line, with filler for those not begun. -/
def filledPayload : List Octet := fillFrom begun 6 ((wire.drop 6).take (wire.length - 8))

/-- The check over header and payload as sent. -/
def tailCheck : Half := check16 (wireHeader wire ++ filledPayload begun wire)

/-- The two check octets of an aborted tail. -/
def tailOctets : List Octet :=
  [if wire.length - 2 < begun then octetAt wire (wire.length - 2) else ~~~ checkHigh (tailCheck begun wire),
   if wire.length - 1 < begun then octetAt wire (wire.length - 1) else ~~~ checkLow (tailCheck begun wire)]

theorem abortedOctets_eq : abortedOctets begun wire = wire.take 1 ++ wireHeader wire ++ filledPayload begun wire ++ tailOctets begun wire := rfl

variable {begun wire} (h : 8 ≤ wire.length)
include h

theorem length_wireHeader : (wireHeader wire).length = 5 := by
  simp only [wireHeader, List.length_take, List.length_drop]
  omega

theorem length_filledPayload : (filledPayload begun wire).length = wire.length - 8 := by
  simp only [filledPayload, length_fillFrom, List.length_take, List.length_drop]
  omega

theorem length_wireTake : (wire.take 1).length = 1 := by
  simp only [List.length_take]
  omega

theorem length_abortedOctets : (abortedOctets begun wire).length = wire.length := by
  simp only [abortedOctets_eq, List.length_append, length_wireTake h, length_wireHeader h, length_filledPayload h, tailOctets, List.length_cons, List.length_nil]
  omega

/-- What the check octets cover. -/
theorem covered_abortedOctets : ((abortedOctets begun wire).drop 1).take (wire.length - 3) = wireHeader wire ++ filledPayload begun wire := by
  rw [abortedOctets_eq, List.append_assoc, List.append_assoc, List.drop_append_of_le_length (by rw [length_wireTake h]),
    List.drop_eq_nil_of_le (by rw [length_wireTake h]), List.nil_append, ← List.append_assoc]
  refine List.take_left' ?_
  rw [List.length_append, length_wireHeader h, length_filledPayload h]
  omega

/-- The start octet and the header stand. -/
theorem abortedOctets_header {i : Nat} (hi : i < 6) : (abortedOctets begun wire)[i]? = wire[i]? := by
  have hsplit : wire.take 1 ++ wireHeader wire = wire.take 6 := (List.take_add (i := 1) (j := 5)).symm
  rw [abortedOctets_eq, List.append_assoc, List.getElem?_append_left (by rw [hsplit, List.length_take]; omega), hsplit, List.getElem?_take_of_lt hi]

/-- The payload octets: as they stand, or filler. -/
theorem abortedOctets_payload {i : Nat} (hfrom : 6 ≤ i) (hto : i < wire.length - 2) :
    (abortedOctets begun wire)[i]? = if i < begun then wire[i]? else some 0xFF := by
  have hlength : (wire.take 1 ++ wireHeader wire).length = 6 := by rw [List.length_append, length_wireTake h, length_wireHeader h]
  have hoctet : wire[i]? = some wire[i] := List.getElem?_eq_getElem (by omega)
  rw [abortedOctets_eq, List.getElem?_append_left (by rw [List.length_append, hlength, length_filledPayload h]; omega),
    List.getElem?_append_right (by omega), hlength, filledPayload, getElem?_fillFrom, List.getElem?_take_of_lt (by omega), List.getElem?_drop,
    show 6 + (i - 6) = i by omega, hoctet]
  split <;> rfl

theorem abortedOctets_tail {k : Nat} (hk : k < 2) : (abortedOctets begun wire)[wire.length - 2 + k]? = (tailOctets begun wire)[k]? := by
  have hlength : (wire.take 1 ++ wireHeader wire ++ filledPayload begun wire).length = wire.length - 2 := by
    rw [List.length_append, List.length_append, length_wireTake h, length_wireHeader h, length_filledPayload h]
    omega
  rw [abortedOctets_eq, List.getElem?_append_right (by omega), hlength, Nat.add_sub_cancel_left]

theorem abortedOctets_high : (abortedOctets begun wire)[wire.length - 2]? =
    some (if wire.length - 2 < begun then octetAt wire (wire.length - 2) else ~~~ checkHigh (tailCheck begun wire)) :=
  abortedOctets_tail h (k := 0) (by decide)

theorem abortedOctets_low : (abortedOctets begun wire)[wire.length - 1]? =
    some (if wire.length - 1 < begun then octetAt wire (wire.length - 1) else ~~~ checkLow (tailCheck begun wire)) := by
  rw [show wire.length - 1 = wire.length - 2 + 1 by omega]
  refine (abortedOctets_tail h (k := 1) (by decide)).trans ?_
  rw [← show wire.length - 1 = wire.length - 2 + 1 by omega]
  rfl

end

theorem octetAt_eq {l : List Octet} {i : Nat} (h : i < l.length) : l[i]? = some (octetAt l i) := by
  rw [octetAt, List.getD_eq_getElem?_getD, List.getElem?_eq_getElem h]
  rfl

/-- Every octet of the header, and every octet begun, stands. -/
theorem abortedOctets_begun {begun : Nat} {wire : List Octet} (h : 8 ≤ wire.length) {i : Nat} (hbegun : i < 6 ∨ i < begun) (hi : i < wire.length) :
    (abortedOctets begun wire)[i]? = wire[i]? := by
  by_cases hheader : i < 6
  · exact abortedOctets_header h hheader
  · have hlt : i < begun := hbegun.resolve_left hheader
    by_cases hpayload : i < wire.length - 2
    · rw [abortedOctets_payload h (by omega) hpayload, if_pos hlt]
    · rw [octetAt_eq hi]
      obtain rfl | rfl : i = wire.length - 2 ∨ i = wire.length - 1 := by omega
      · rw [abortedOctets_high h, if_pos hlt]
      · rw [abortedOctets_low h, if_pos hlt]

end Sys2Proof.Machine
end

