-- ==== Sys2Proof/Proofs/Supply.lean ====
section
/-! PROOFS. The supply (R32, R33, R152, R157, R158): O8. -/

namespace Sys2Proof.Machine

section
variable {before : SupplyState} {begun : Nat} {s : State}

theorem supplyReformed_enters (hchanged : supplyState s ≠ before) (hcritical : supplyState s = .critical) :
    supplyReformed before begun s = cancelLoads (holdTransmit begun (setEvent .supply s)) := (if_neg hchanged).trans (if_pos hcritical)

theorem supplyReformed_leaves (hchanged : supplyState s ≠ before) (hcritical : before = .critical) :
    supplyReformed before begun s = releaseTransmit (setEvent .supply s) :=
  (if_neg hchanged).trans ((if_neg fun h => hchanged (h.trans hcritical.symm)).trans (if_pos hcritical))

/-- What the change of the supply writes. -/
theorem writes_supplyReformed' (before : SupplyState) (begun : Nat) (s : State) :
    Writes (Part.refreshed ++ [.queue, .buffer, .flags, .free]) s (supplyReformed before begun s) :=
  writes_supplyReformed before begun (.refl _ s) (List.Subset.refl _)

/-- A changed supply state sets SUPPLY. -/
theorem eventSet_supplyReformed (h : supplyState s ≠ before) : eventSet .supply (supplyReformed before begun s) = true := by
  have hset := eventSet_setEvent .supply s
  unfold supplyReformed
  rw [if_neg h]
  dsimp only
  split
  · exact (writes_cancelLoads' (holdTransmit begun (setEvent .supply s))).eventSet hset
  · split
    · exact (writes_releaseTransmit (.refl [.queue, .buffer, .free] (setEvent .supply s)) (List.Subset.refl _)).eventSet hset
    · exact hset

/-- What stands over the end of a step in which the supply has been formed again. -/
theorem supplyReformed_stands (before : SupplyState) (begun : Nat) (s : State) :
    let t := settle (supplyReformed before begun s)
    t.supply = s.supply ∧ (supplyState t ≠ before → eventSet .supply t = true)
      ∧ t.time = s.time ∧ t.node = s.node ∧ t.port = s.port ∧ t.mon = s.mon ∧ t.route = s.route ∧ t.store = s.store ∧ t.muster.record = s.muster.record := by
  have hreformed := writes_supplyReformed' before begun s
  have hend := writes_settle (.refl _ (supplyReformed before begun s)) (List.Subset.refl _)
  have hevent (h : supplyState s ≠ before) : eventSet .supply (supplyReformed before begun s) = true := eventSet_supplyReformed h
  exact ⟨hend.supply.trans hreformed.supply, fun h => hend.eventSet (hevent fun hs => h ((hend.supplyState.trans hreformed.supplyState).trans hs)),
    (hend.time rfl).trans (hreformed.time rfl), hend.node.trans hreformed.node, hend.port.trans hreformed.port, (hend.mon rfl).trans (hreformed.mon rfl),
    (hend.route rfl).trans (hreformed.route rfl), (hend.store rfl).trans (hreformed.store rfl), hend.record.trans hreformed.record⟩

end

/-! ### Entry to CRITICAL and exit (R32, R33, R152) -/

section
variable {s : State}

/-- In CRITICAL no refresh starts. -/
theorem settleRefreshes_critical (h : supplyState s = .critical) : settleRefreshes s = s := by
  have hforbidden : startAllowed s = false := by
    rw [← Bool.not_eq_true, startAllowed_iff, allowance_eq, h]
    exact fun hallowed => absurd hallowed.2.1 (Nat.not_lt_zero _)
  have hstays : startOne s = s := startOne_forbidden hforbidden
  rw [settleRefreshes, hstays, hstays]

/-- The refreshes in LOAD that wait for the chain still do at the end of the step. -/
theorem loads_settle_critical (h : supplyState s = .critical)
    (hloads : ∀ r ∈ s.sched.flight, r.driveTimer = none → r.cancelled = true ∧ onChain r.position s = true) :
    ∀ r ∈ (settle s).sched.flight, r.driveTimer = none → r.cancelled = true ∧ onChain r.position (settle s) = true := by
  intro r hr hload
  rw [flight_settle, settleRefreshes_critical h] at hr
  obtain ⟨hcancelled, hchain⟩ := hloads r hr hload
  have hbusy : chainFree s = false := by
    unfold onChain at hchain
    unfold chainFree
    cases hengine : s.chain.engine with
    | idle => rw [hengine] at hchain; cases hchain
    | transaction tr => rfl
    | test x => rfl
  exact ⟨hcancelled, (onChain_congr (congrArg (·.engine) (chain_settle_busy hbusy)) r.position).trans hchain⟩

/-- The transmitter at entry to CRITICAL: the buffer held, and so it stays to the end of the step. -/
theorem buffer_critical {begun : Nat} (h : supplyState s = .critical) :
    (settle (cancelLoads (holdTransmit begun (setEvent .supply s)))).bus.buffer = s.bus.buffer.map fun u => { u with phase := holdPhase begun u.phase } := by
  have hcancel := writes_cancelLoads' (holdTransmit begun (setEvent .supply s))
  exact ((bufferMoves_settle _).critical (hcancel.supplyState.trans h)).trans (hcancel.same .buffer rfl)

/-- Exit from CRITICAL with a frame in the buffer. -/
theorem releaseTransmit_held {u : TxBuffer} (hbuffer : s.bus.buffer = some u) :
    (u.phase = .held none → ∃ m, m ≤ 7 ∧ (releaseTransmit s).bus.buffer = some { u with phase := .waiting m })
      ∧ (∀ n, u.phase = .held (some n) → (releaseTransmit s).bus.buffer = some { u with phase := .backoff n })
      ∧ ((∀ b, u.phase ≠ .held b) → (releaseTransmit s).bus.buffer = some u) := by
  unfold releaseTransmit
  rw [hbuffer]
  dsimp only
  refine ⟨fun h => ?_, fun n h => ?_, fun h => ?_⟩
  · rw [h]
    exact ⟨_, drawValue_le 7 s, buffer_setPhase hbuffer _⟩
  · rw [h]
    exact buffer_setPhase hbuffer _
  · cases hphase : u.phase with
    | held b => exact absurd hphase (h b)
    | waiting n => exact hbuffer
    | sending w b => exact hbuffer
    | jamming => exact hbuffer
    | backoff n => exact hbuffer

end

theorem exec_voltageCrossing {s : State} (h : s.node.state ≠ .reset) (c : Crossing) (begun : Nat) : exec (.voltageCrossing c begun) s =
    .next (settle (supplyReformed (supplyState s) begun (s.modSupply fun p => { p with band := bandAfter c p.band }))) :=
  congrArg Host.Outcome.next (if_neg h)

/-- Settles O8. -/
theorem supplyFollowsItsLines : Obligations.SupplyFollowsItsLines := by
  unfold Obligations.SupplyFollowsItsLines
  refine ⟨⟨by decide, fun c begun s hnode => ?crossing⟩, ⟨fun l s hnode hother => ?sample, fun s hnode hrun hother => ?accept⟩,
    fun c begun s hnode hbefore hcritical => ?enters, fun c begun u s hnode hbefore hleaves hbuffer => ?leaves, fun begun wire hlength => ?tail⟩
  case crossing =>
    exact ⟨_, exec_voltageCrossing hnode c begun, supplyReformed_stands (supplyState s) begun (s.modSupply fun p => { p with band := bandAfter c p.band })⟩
  case sample =>
    show Host.Outcome.next _ = _
    refine congrArg Host.Outcome.next ?_
    exact if_neg (not_or.2 ⟨hnode, hother⟩)
  case accept =>
    have hexec : exec .sourceLineAccept s = .next (settle (supplyReformed (supplyState s) 0 (s.modSupply fun p => { p with accepted := p.candidate }))) :=
      congrArg Host.Outcome.next (if_pos ⟨hnode, hrun, hother⟩)
    obtain ⟨h1, h2, h3, h4, h5, h6, h7, h8, -⟩ := supplyReformed_stands (supplyState s) 0 (s.modSupply fun p => { p with accepted := p.candidate })
    exact ⟨_, hexec, h1, h2, h3, h4, h5, h6, h7, h8⟩
  case enters =>
    have hexec := exec_voltageCrossing hnode c begun
    have hnow : supplyState (s.modSupply fun p => { p with band := bandAfter c p.band }) = .critical := hcritical
    rw [supplyReformed_enters (by rw [hnow]; exact Ne.symm hbefore) hnow] at hexec
    refine ⟨_, hexec, (buffer_critical hnow).trans ?_, loads_settle_critical ?_ ?_⟩
    · refine congrArg (fun f : TxBuffer → TxBuffer => s.bus.buffer.map f) (funext fun u => ?_)
      cases hphase : u.phase with
      | sending wire aborted => cases aborted <;> simp [holdPhase]
      | waiting n => rfl
      | backoff n => rfl
      | jamming => rfl
      | held b => rfl
    · exact (writes_cancelLoads' _).supplyState.trans hnow
    · intro r hr hload
      rw [(writes_cancelLoads' _).onChain rfl]
      exact loads_cancelLoads _ r hr hload
  case leaves =>
    have hexec := exec_voltageCrossing hnode c begun
    have hnow : supplyState (s.modSupply fun p => { p with band := bandAfter c p.band }) ≠ .critical := hleaves
    rw [supplyReformed_leaves (by rw [hbefore]; exact hnow) hbefore] at hexec
    have hmoves := bufferMoves_settle (releaseTransmit (setEvent .supply (s.modSupply fun p => { p with band := bandAfter c p.band })))
    obtain ⟨hheld, hbackoff, hother⟩ := releaseTransmit_held (s := setEvent .supply (s.modSupply fun p => { p with band := bandAfter c p.band })) hbuffer
    refine ⟨_, hexec, fun hphase => ?_, fun n hphase => hmoves.held (hbackoff n hphase), fun hphase => hmoves.held (hother hphase)⟩
    obtain ⟨m, hm, hwaits⟩ := hheld hphase
    exact ⟨m, hm, hmoves.held hwaits⟩
  case tail =>
    have hcovered := covered_abortedOctets (begun := begun) hlength
    refine ⟨length_abortedOctets hlength, fun i hbegun hi => abortedOctets_begun hlength hbegun hi, fun i hfrom hbegun hto => ?_, fun hbegun => ?_, fun hbegun => ?_⟩
    · rw [abortedOctets_payload hlength hfrom hto, if_neg (by omega)]
    · rw [abortedOctets_high hlength, if_neg (by omega), hcovered]
      rfl
    · rw [abortedOctets_low hlength, if_neg (by omega), hcovered]
      rfl

end Sys2Proof.Machine
end

