-- ==== Sys2Proof/Proofs/PlatesQueued.lean ====
section
/-! PROOFS. Plates that wait for a FULL refresh after every plate is compared (R146 to R149, R155). -/

namespace Sys2Proof.Machine

/-! ### A plate with its shown content absent -/

/-- The plate shows nothing, and is queued, or a FULL refresh with its target has started. -/
def State.awaitsFull (s : State) (i : Nat) : Prop := ∃ p, s.sched.plates[i]? = some p ∧ p.shown = none
  ∧ ((p.refresh = .queued ∧ i ∈ s.sched.queue) ∨ (p.refresh = .load ∧ ∃ r ∈ s.sched.flight, r.position = i ∧ r.full = true ∧ r.content = p.target))

theorem needsFull_of_absent {p : Plate} (h : p.shown = none) : p.needsFull = true := by
  rw [Plate.needsFull, h]
  rfl

theorem awaitsFull_startOne {i : Nat} {s : State} (h : s.awaitsFull i) : (startOne s).awaitsFull i := by
  obtain ⟨p, hp, habsent, hstate⟩ := h
  obtain ⟨hs, -⟩ | ⟨j, q, -, -, hj, hq, -, hs⟩ := startOne_cases s <;> rw [hs]
  · exact ⟨p, hp, habsent, hstate⟩
  · by_cases hij : j = i
    · subst hij
      cases hp.symm.trans hq
      exact ⟨_, plate_modPlate_self _ hp, habsent, .inr ⟨rfl, p.newRefresh j, List.mem_append_right _ (List.mem_singleton_self _), rfl,
        needsFull_of_absent habsent, rfl⟩⟩
    · refine ⟨p, (plate_modPlate_of_ne hij _ _).trans hp, habsent, hstate.imp (fun ⟨hqueued, hmem⟩ => ⟨hqueued, ?_⟩) fun ⟨hload, r, hr, hrest⟩ => ⟨hload, r, ?_, hrest⟩⟩
      · exact List.mem_filter.2 ⟨hmem, by simpa using Ne.symm hij⟩
      · exact List.mem_append_left _ hr

theorem awaitsFull_settle {i : Nat} {s : State} (h : s.awaitsFull i) : (settle s).awaitsFull i := by
  obtain ⟨p, hp, habsent, hstate⟩ := awaitsFull_startOne (awaitsFull_startOne h)
  have hseen : (settle s).sched.plates.map (fun p => (p.refresh, p.shown, p.target)) = (settleRefreshes s).sched.plates.map (fun p => (p.refresh, p.shown, p.target)) :=
    seen_settle (fun _ _ => rfl) s
  obtain ⟨q, hq, hsame⟩ := plate_of_map hseen hp
  obtain ⟨hrefresh, hshown, htarget⟩ : q.refresh = p.refresh ∧ q.shown = p.shown ∧ q.target = p.target := by simpa using hsame
  refine ⟨q, hq, hshown.trans habsent, ?_⟩
  rw [hrefresh, htarget, queue_settle, flight_settle]
  exact hstate

/-- The plate `p` has been queued at its position. -/
def State.queuedAt (s : State) (i : Nat) (p : Plate) : Prop := s.sched.plates[i]? = some { p with refresh := .queued } ∧ i ∈ s.sched.queue

theorem queuedAt_comparePlate_self {i : Nat} {p : Plate} {s : State} (hrefreshing : refreshing s = true) (hp : s.sched.plates[i]? = some p)
    (hidle : p.refresh = .idle) (habsent : p.shown = none) : (comparePlate i s).queuedAt i p := by
  rw [comparePlate_queues hp hrefreshing hidle (stale_of_absent habsent)]
  exact ⟨plate_placed hp .., List.mem_append_right _ (List.mem_singleton_self i)⟩

theorem queuedAt_comparePlate {i j : Nat} {p : Plate} {s : State} (habsent : p.shown = none) (h : s.queuedAt i p) : (comparePlate j s).queuedAt i p := by
  obtain ⟨hp, hmem⟩ := h
  by_cases hij : j = i
  · subst hij
    rw [comparePlate_stands hp (.inr (.inr (.inr (.inl ⟨rfl, stale_of_absent habsent⟩))))]
    exact ⟨hp, hmem⟩
  · exact ⟨(plate_comparePlate_of_ne hij s).trans hp, (mem_queue_comparePlate_of_ne hij s).2 hmem⟩

/-- A plate IDLE with nothing shown is queued when every plate is compared. -/
theorem queuedAt_compareAll {i : Nat} {p : Plate} {s : State} (hrefreshing : refreshing s = true) (hp : s.sched.plates[i]? = some p) (hidle : p.refresh = .idle)
    (habsent : p.shown = none) : (compareAll s).queuedAt i p := by
  have hmem : i ∈ List.range s.sched.plates.length := List.mem_range.2 (List.getElem?_eq_some_iff.1 hp).1
  have hreaches (u : State) (hu : refreshing u = true ∧ (u.sched.plates[i]? = some p ∨ u.queuedAt i p)) : (comparePlate i u).queuedAt i p :=
    hu.2.elim (fun h => queuedAt_comparePlate_self hu.1 h hidle habsent) (queuedAt_comparePlate habsent)
  refine foldl_reaches (f := fun s i => comparePlate i s) (P := fun u => refreshing u = true ∧ (u.sched.plates[i]? = some p ∨ u.queuedAt i p))
    (Q := fun u => u.queuedAt i p) hmem (fun j _ u hu => ⟨(refreshing_comparePlate j u).trans hu.1, ?_⟩) hreaches
    (fun j _ u hu => queuedAt_comparePlate habsent hu) ⟨hrefreshing, .inl hp⟩
  by_cases hij : j = i
  · subst hij
    exact .inr (hreaches u hu)
  · exact hu.2.imp (plate_comparePlate_of_ne hij u).trans (queuedAt_comparePlate habsent)

theorem State.queuedAt.awaitsFull {i : Nat} {p : Plate} {s : State} (habsent : p.shown = none) (h : s.queuedAt i p) : s.awaitsFull i :=
  ⟨_, h.1, habsent, .inl ⟨rfl, h.2⟩⟩

/-! ### An empty queue, filled in ascending chain position (R147, R155) -/

/-- The refreshes in flight are those of the first positions, and the others wait in their order. -/
def State.inOrder (s : State) (n : Nat) : Prop := ∃ k, k ≤ n ∧ s.sched.flight.map (·.position) = List.range k ∧ s.sched.queue = List.range' k (n - k)

theorem State.inOrder.all {s : State} {n : Nat} (h : s.inOrder n) : s.sched.flight.map (·.position) ++ s.sched.queue = List.range n := by
  obtain ⟨k, hk, hflight, hqueue⟩ := h
  have hsplit := List.range'_append_1 (s := 0) (m := k) (n := n - k)
  rw [Nat.zero_add, Nat.add_sub_cancel' hk] at hsplit
  rw [hflight, hqueue, List.range_eq_range', List.range_eq_range', hsplit]

/-- Every plate has nothing shown, and is not NOT RESPONDING. -/
def State.allAbsent (s : State) : Prop := ∀ p ∈ s.sched.plates, p.shown = none ∧ p.health ≠ .notResponding

/-- Plates with nothing shown are of one priority, and wait in the order in which they joined. -/
theorem queueOrder_absent {s : State} (habsent : s.allAbsent) (hqueue : ∀ i ∈ s.sched.queue, i < s.sched.plates.length) : queueOrder s = s.sched.queue := by
  have hpriority : ∀ i ∈ s.sched.queue, entryPriority s i = decide (level s = .muster) := by
    intro i hi
    have hlt := hqueue i hi
    have hp : s.sched.plates[i]? = some s.sched.plates[i] := List.getElem?_eq_getElem hlt
    obtain ⟨hnone, -⟩ := habsent _ (List.mem_of_getElem? hp)
    unfold entryPriority
    rw [hp]
    show musterPriority (level s) _ = _
    rw [musterPriority, hnone, Bool.and_true]
  unfold queueOrder
  by_cases hmuster : level s = .muster
  · rw [List.filter_eq_self.2 fun i hi => by rw [hpriority i hi]; simpa using hmuster,
      List.filter_eq_nil_iff.2 fun i hi => by rw [hpriority i hi]; simpa using hmuster, List.append_nil]
  · rw [List.filter_eq_nil_iff.2 fun i hi => by rw [hpriority i hi]; simpa using hmuster,
      List.filter_eq_self.2 fun i hi => by rw [hpriority i hi]; simpa using hmuster, List.nil_append]

theorem allAbsent_of_seen {s t : State} (h : t.sched.plates.map (fun p => (p.shown, p.health)) = s.sched.plates.map fun p => (p.shown, p.health))
    (hs : s.allAbsent) : t.allAbsent := by
  intro p hp
  have hmem : (p.shown, p.health) ∈ s.sched.plates.map fun p => (p.shown, p.health) := h ▸ List.mem_map_of_mem hp
  obtain ⟨q, hq, hsame⟩ := List.mem_map.1 hmem
  obtain ⟨hshown, hhealth⟩ := Prod.ext_iff.1 hsame
  obtain ⟨hnone, hheard⟩ := hs q hq
  exact ⟨hshown.symm.trans hnone, fun hlost => hheard (hhealth.trans hlost)⟩

/-- The first in the queue is the next that starts. -/
theorem startable_absent {s : State} (habsent : s.allAbsent) {i : Nat} (hi : i < s.sched.plates.length) : startable s i = true := by
  have hp : s.sched.plates[i]? = some s.sched.plates[i] := List.getElem?_eq_getElem hi
  exact (startable_iff s i).2 ⟨_, hp, (habsent _ (List.mem_of_getElem? hp)).2⟩

theorem inOrder_startOne {s : State} (habsent : s.allAbsent) (h : s.inOrder s.sched.plates.length) : (startOne s).inOrder s.sched.plates.length := by
  obtain ⟨k, hk, hflight, hqueue⟩ := h
  by_cases hallowed : startAllowed s = true
  · by_cases hmore : k < s.sched.plates.length
    · have hhead : s.sched.queue = k :: List.range' (k + 1) (s.sched.plates.length - (k + 1)) := by
        rw [hqueue, show s.sched.plates.length - k = s.sched.plates.length - (k + 1) + 1 by omega, List.range'_succ]
      have hwithin : ∀ i ∈ s.sched.queue, i < s.sched.plates.length := by
        intro i hi
        rw [hqueue, List.mem_range'_1] at hi
        omega
      have hfirst : (queueOrder s).find? (startable s) = some k := by
        rw [queueOrder_absent habsent hwithin, hhead]
        exact List.find?_cons_of_pos (startable_absent habsent hmore)
      rw [startOne_starts hallowed hfirst (List.getElem?_eq_getElem hmore)]
      refine ⟨k + 1, hmore, ?_, ?_⟩
      · show List.map (fun r : Refresh => r.position) (s.sched.flight ++ [_]) = _
        rw [List.map_append, hflight, List.range_succ]
        rfl
      · show s.sched.queue.filter (· ≠ k) = _
        rw [hhead, List.filter_cons_of_neg (by simp)]
        refine List.filter_eq_self.2 fun i hi => ?_
        rw [List.mem_range'_1] at hi
        simpa using (by omega : i ≠ k)
    · have hempty : s.sched.queue = [] := by rw [hqueue, Nat.sub_eq_zero_of_le (Nat.le_of_not_lt hmore)]; rfl
      rw [startOne_none (by rw [queueOrder, hempty]; rfl)]
      exact ⟨k, hk, hflight, hqueue⟩
  · rw [startOne_forbidden (by simpa using hallowed)]
    exact ⟨k, hk, hflight, hqueue⟩

theorem inOrder_settle {s : State} (habsent : s.allAbsent) (h : s.inOrder s.sched.plates.length) : (settle s).inOrder s.sched.plates.length := by
  have hfirst := inOrder_startOne habsent h
  have hlength : (startOne s).sched.plates.length = s.sched.plates.length := length_of_seen (seen_startOne (fun _ _ => rfl) s)
  have hsecond := inOrder_startOne (s := startOne s) (allAbsent_of_seen (seen_startOne (fun _ _ => rfl) s) habsent) (by rw [hlength]; exact hfirst)
  rw [hlength] at hsecond
  unfold State.inOrder
  rw [flight_settle, queue_settle]
  exact hsecond

/-- Plates all IDLE with nothing shown join an empty queue in ascending chain position. -/
theorem queue_compareAll {s : State} (hrefreshing : refreshing s = true) (hempty : s.sched.queue = [])
    (hall : ∀ p ∈ s.sched.plates, p.refresh = .idle ∧ p.shown = none) : (compareAll s).sched.queue = List.range s.sched.plates.length := by
  have hfold (k : Nat) (hk : k ≤ s.sched.plates.length) : refreshing ((List.range k).foldl (fun s i => comparePlate i s) s) = true
      ∧ ((List.range k).foldl (fun s i => comparePlate i s) s).sched.queue = List.range k
      ∧ ∀ j, k ≤ j → ((List.range k).foldl (fun s i => comparePlate i s) s).sched.plates[j]? = s.sched.plates[j]? := by
    induction k with
    | zero => exact ⟨hrefreshing, hempty, fun _ _ => rfl⟩
    | succ k ih =>
      obtain ⟨ihrefreshing, ihqueue, ihplates⟩ := ih (Nat.le_of_succ_le hk)
      rw [List.range_succ, List.foldl_append]
      generalize (List.range k).foldl (fun s i => comparePlate i s) s = u at *
      have hp : s.sched.plates[k]? = some s.sched.plates[k] := List.getElem?_eq_getElem hk
      obtain ⟨hidle, habsent⟩ := hall _ (List.mem_of_getElem? hp)
      refine ⟨(refreshing_comparePlate k u).trans ihrefreshing, ?_, fun j hj => ?_⟩
      · show (comparePlate k u).sched.queue = _
        rw [comparePlate_queues ((ihplates k le_rfl).trans hp) ihrefreshing hidle (stale_of_absent habsent), ← ihqueue]
        rfl
      · exact (plate_comparePlate_of_ne (Nat.ne_of_lt hj) u).trans (ihplates j (Nat.le_of_succ_le hj))
  exact (hfold _ le_rfl).2.1

end Sys2Proof.Machine
end

