-- ==== Sys2Proof/Proofs/EntersRun.lean ====
section
/-! PROOFS. Entry to RUN (R11, R58, R81, R115, R155, R162): O7. -/

namespace Sys2Proof.Machine

/-- The state that has entered RUN, with its timers started, before it offers and compares. -/
def State.running (s : State) : State :=
  restartEcho (if (level s).calm then startSummaryTimer (s.modNode fun n => { n with state := .run, joinTimer := none })
    else s.modNode fun n => { n with state := .run, joinTimer := none })

theorem enterRun_eq (s : State) : enterRun s = settleMarks (compareAll (offerSensed s.running)) := rfl

section
variable (s : State)

theorem writes_running : Writes [.summaryTimer, .free, .echoTimer] (s.modNode fun n => { n with state := .run, joinTimer := none }) s.running := by
  unfold State.running
  split
  · exact writes_restartEcho (writes_startSummaryTimer (.refl _ _) (by simp)) (by simp)
  · exact writes_restartEcho (.refl _ _) (by simp)

theorem node_running : s.running.node = { s.node with state := .run, joinTimer := none } := (writes_running s).node

/-- The summary timer of a node that enters RUN at NORMAL or STANDBY. -/
theorem summaryTimer_running (hcalm : (level s).calm = true) :
    ∃ n, 22500 ≤ n ∧ n ≤ 37500 ∧ s.running.exch.summaryTimer = some { start := s.time.now, len := n } := by
  have hrange := drawValue_range 22500 37500 (s.modNode fun n => { n with state := .run, joinTimer := none }) (by omega)
  refine ⟨_, hrange.1, hrange.2, ?_⟩
  unfold State.running
  rw [if_pos hcalm]
  exact (writes_restartEcho (.refl [.echoTimer] _) (List.Subset.refl _)).same .summaryTimer rfl

theorem echoTime_eq (l : Level) : echoTime l = if l = .normal then 60000 else 5000 := by
  cases l <;> rfl

/-- In RUN with an order the echo timer runs anew at the level's period. -/
theorem echoTimer_restartEcho {u : State} (hrun : u.node.state = .run) (hserial : u.muster.record.serial ≠ 0) :
    (restartEcho u).muster.echoTimer = some { start := u.time.now, len := if level u = .normal then 60000 else 5000 } := by
  rw [← echoTime_eq]
  unfold restartEcho
  rw [if_pos ⟨hrun, hserial⟩]
  rfl

/-- The echo timer of a node that enters RUN with an order. -/
theorem echoTimer_running (hserial : s.muster.record.serial ≠ 0) :
    s.running.muster.echoTimer = some { start := s.time.now, len := if level s = .normal then 60000 else 5000 } := by
  unfold State.running
  split <;> exact echoTimer_restartEcho rfl hserial

/-- What follows the timers' start writes. -/
theorem writes_enterRun : Writes (Part.offered ++ [.plates, .waiting, .markTimer]) s.running (enterRun s) := by
  rw [enterRun_eq]
  exact writes_settleMarks (writes_compareAll (writes_offerSensed (.refl _ _) (by simp)) (by simp)) (by simp)

theorem refreshing_offered : refreshing (offerSensed s.running) = true := by
  rw [refreshing, (writes_offerSensed (.refl Part.offered s.running) (List.Subset.refl _)).node, node_running]
  rfl

theorem sched_running : s.running.sched = s.sched := (writes_running s).sched rfl

theorem sched_offered : (offerSensed s.running).sched = s.sched :=
  ((writes_offerSensed (.refl Part.offered s.running) (List.Subset.refl _)).sched rfl).trans (sched_running s)

theorem sched_enterRun : (enterRun s).sched = (compareAll (offerSensed s.running)).sched :=
  (writes_settleMarks (.refl (Part.offered ++ [.markTimer]) _) (List.Subset.refl _)).sched rfl

end

theorem exec_joinTimer {s : State} (hjoining : s.node.state = .joining) (hdue : timerDue s.node.joinTimer s = true) :
    exec .joinTimer s = .next (settle (enterRun s)) := congrArg Host.Outcome.next (if_pos ⟨hjoining, hdue⟩)

/-- A mark evicts no urgent frame. -/
theorem stands_settleMarks_urgent {f : TxFrame} {s : State} (hload : loadShift s.time.pendingShift f = f) (hkind : f.kind ≠ .timeMark) (hurgent : 2 ≤ f.kind.rank)
    (h : s.stands f) : (settleMarks s).stands f := by
  unfold settleMarks
  (repeat' split)
  · exact stands_offer (o := markOffer s) (s := s.marking) hload (.inr (Ne.symm hkind)) (.inr (by
      show FrameKind.timeMark.rank ≤ f.kind.rank
      exact Nat.le_of_lt hurgent)) h
  · exact h
  · exact h

/-- The offer of the sensed segment states. -/
def sensedOffer (s : State) : Offer := ⟨.segmentState, 255, sensedPayload s.mon.neighbours, [], false⟩

theorem offerSensed_stands_room {s : State} (hpart : participates s = true) (hsome : sensedPayload s.mon.neighbours ≠ []) (hsound : s.queueSound)
    (hroom : hasRoom .segmentState s.bus.queue = true) :
    (offerSensed s).stands ⟨.segmentState, 255, s.bus.nextSeq, sensedPayload s.mon.neighbours, [], false⟩ := by
  have hoffer : offerSensed s = offer' (sensedOffer s) s := if_neg (by simpa using hsome)
  rw [hoffer]
  exact stands_offer_room (o := sensedOffer s) rfl (not_refused hpart rfl) hsound hroom

/-- Settles O7. -/
theorem joinTimerEntersRun : Obligations.JoinTimerEntersRun := by
  unfold Obligations.JoinTimerEntersRun
  intro s hjoining hdue
  have henter := writes_enterRun s
  have hrunning := writes_running s
  have hend := writes_settle' (enterRun s)
  have hcompared : (settle (enterRun s)).compared := by
    refine compared_settle ?_
    unfold State.compared
    rw [sched_enterRun]
    exact compared_compareAll (refreshing_offered s)
  refine ⟨_, exec_joinTimer hjoining hdue, (hend.node.trans henter.node).trans (node_running s), fun hcalm => ?summary, fun hserial => ?echo,
    fun p hp hidle => (stale_eq_false_iff p).1 (hcompared p hp hidle), fun i p hp hidle habsent => ?waits, fun hqueue hflight hall => ?order, ?marks,
    fun hsome hsound hroom => ?sensed, ?record, ?store, ?supply, ?port⟩
  case summary =>
    obtain ⟨n, hfrom, hto, htimer⟩ := summaryTimer_running s hcalm
    exact ⟨n, hfrom, hto, ((hend.same .summaryTimer rfl).trans (henter.same .summaryTimer rfl)).trans htimer⟩
  case echo =>
    exact ((hend.same .echoTimer rfl).trans (henter.same .echoTimer rfl)).trans (echoTimer_running s hserial)
  case waits =>
    have hp' : (offerSensed s.running).sched.plates[i]? = some p := by rw [sched_offered, hp]
    have hqueued := queuedAt_compareAll (refreshing_offered s) hp' hidle habsent
    have hqueued' : (enterRun s).queuedAt i p := by
      unfold State.queuedAt
      rw [sched_enterRun]
      exact hqueued
    obtain ⟨q, hq, hshown, hstate⟩ := awaitsFull_settle (hqueued'.awaitsFull habsent)
    exact ⟨q, hq, hshown, hstate⟩
  case order =>
    have hsched := sched_offered s
    have hseen : (enterRun s).sched.plates.map (fun p => (p.shown, p.health)) = s.sched.plates.map fun p => (p.shown, p.health) := by
      rw [sched_enterRun, seen_compareAll (fun _ _ => rfl), hsched]
    have habsent : (enterRun s).allAbsent := allAbsent_of_seen hseen fun p hp => (hall p hp).2
    have hlength : (enterRun s).sched.plates.length = s.sched.plates.length := by simpa using congrArg List.length hseen
    have horder : (enterRun s).inOrder s.sched.plates.length := by
      refine ⟨0, Nat.zero_le _, ?_, ?_⟩
      · rw [sched_enterRun, flight_compareAll, hsched, hflight]
        rfl
      · rw [sched_enterRun, queue_compareAll (refreshing_offered s) (by rw [hsched, hqueue]) (by rw [hsched]; exact fun p hp => ⟨(hall p hp).1, (hall p hp).2.1⟩),
          hsched, List.range_eq_range', Nat.sub_zero]
    rw [← hlength] at horder ⊢
    exact (inOrder_settle habsent horder).all
  case marks =>
    have hoffered := writes_offerSensed (.refl Part.offered s.running) (List.Subset.refl _)
    have hcompare := writes_compareAll (.refl [.plates, .waiting] (offerSensed s.running)) (List.Subset.refl _)
    have hqueue : s.running.bus.queue = s.bus.queue := hrunning.same .queue rfl
    refine marksFollow_settle (u := compareAll (offerSensed s.running)) (((hcompare.time rfl).trans (hoffered.time rfl)).trans (hrunning.time rfl)) fun hroom => ?_
    rw [show (compareAll (offerSensed s.running)).bus.queue = (offerSensed s.running).bus.queue from hcompare.same .queue rfl]
    refine (queue_length_offerSensed (by rw [hqueue]; omega)).trans ?_
    rw [hqueue]
    omega
  case sensed =>
    have hpart : participates s.running = true := by
      rw [Machine.participates, node_running]
      rfl
    have hqueue : s.running.bus.queue = s.bus.queue := hrunning.same .queue rfl
    have hmon : s.running.mon = s.mon := hrunning.mon rfl
    have hoffered := offerSensed_stands_room hpart (by rw [hmon]; exact hsome) ((queueSound_congr hqueue).2 hsound) (by rw [hqueue]; exact hroom)
    have hcompare := writes_compareAll (.refl [.plates, .waiting] (offerSensed s.running)) (List.Subset.refl _)
    rw [hmon] at hoffered
    exact ⟨_, stands_settle (loadShift_of_ne nofun) (.inr le_rfl) (stands_settleMarks_urgent (loadShift_of_ne nofun) nofun le_rfl (hcompare.stands rfl hoffered))⟩
  case record => exact (hend.record.trans henter.record).trans hrunning.record
  case store => exact ((hend.store rfl).trans (henter.store rfl)).trans (hrunning.store rfl)
  case supply => exact (hend.supply.trans henter.supply).trans hrunning.supply
  case port => exact (hend.port.trans henter.port).trans hrunning.port

end Sys2Proof.Machine
end

