-- ==== Sys2Proof/Proofs/TablesLoaded.lean ====
section
/-! PROOFS. The tables a valid image gives (R75, R78, R79, R90, R156). -/

namespace Sys2Proof.Machine

/-! ### The route table (R90) -/

/-- The route entry of a destination as loaded. -/
def Destination.loadedEntry (d : Destination) : RouteEntry :=
  { code := d.code, cls := d.cls, state := if d.isLocal then .isLocal else .unreachable, distance := if d.isLocal then 0 else 63, nextHop := none, changed := false }

theorem routeTableOf_seen {d : Destination} {ds : List Destination} {seen : List Nat} (h : seen.contains d.code = true) :
    routeTableOf (d :: ds) seen = routeTableOf ds seen := if_pos h

theorem routeTableOf_new {d : Destination} {ds : List Destination} {seen : List Nat} (h : seen.contains d.code = false) :
    routeTableOf (d :: ds) seen = d.loadedEntry :: routeTableOf ds (d.code :: seen) := if_neg (by rw [h]; decide)

theorem codes_routeTableOf (ds : List Destination) (seen : List Nat) :
    (routeTableOf ds seen).map (·.code) = ((ds.map (·.code)).filter fun c => !seen.contains c).eraseDups := by
  induction ds generalizing seen with
  | nil => rfl
  | cons d ds ih =>
    cases hseen : seen.contains d.code with
    | true => rw [routeTableOf_seen hseen, ih, List.map_cons, List.filter_cons_of_neg (by simpa using hseen)]
    | false =>
      rw [routeTableOf_new hseen, List.map_cons, ih, List.map_cons, List.filter_cons_of_pos (by simpa using hseen), List.eraseDups_cons, List.filter_filter]
      refine congrArg (fun l => d.code :: List.eraseDups l) (List.filter_congr fun c _ => ?_)
      rw [List.contains_cons, Bool.not_or]

theorem routeTableOf_entries (ds : List Destination) (seen : List Nat) :
    ∀ e ∈ routeTableOf ds seen, seen.contains e.code = false ∧ ∃ d, ds.find? (·.code = e.code) = some d ∧ e = d.loadedEntry := by
  induction ds generalizing seen with
  | nil => exact nofun
  | cons d ds ih =>
    cases hseen : seen.contains d.code with
    | true =>
      rw [routeTableOf_seen hseen]
      intro e he
      obtain ⟨hnew, d', hfind, heq⟩ := ih seen e he
      refine ⟨hnew, d', ?_, heq⟩
      have hne : d.code ≠ e.code := by
        rintro h
        rw [h, hnew] at hseen
        cases hseen
      rw [List.find?_cons_of_neg (by simpa using hne), hfind]
    | false =>
      rw [routeTableOf_new hseen]
      intro e he
      rcases List.mem_cons.1 he with rfl | he
      · exact ⟨hseen, d, List.find?_cons_of_pos (by simp [Destination.loadedEntry]), rfl⟩
      · obtain ⟨hnew, d', hfind, heq⟩ := ih (d.code :: seen) e he
        rw [List.contains_cons, Bool.or_eq_false_iff] at hnew
        obtain ⟨hne, hnew⟩ := hnew
        refine ⟨hnew, d', ?_, heq⟩
        have hcode : e.code ≠ d.code := by simpa using hne
        rw [List.find?_cons_of_neg (by simpa using hcode.symm), hfind]

theorem unchanged_routeTableOf (ds : List Destination) (seen : List Nat) : ∀ e ∈ routeTableOf ds seen, e.changed = false := by
  intro e he
  obtain ⟨-, d, -, rfl⟩ := routeTableOf_entries ds seen e he
  rfl

/-! ### Neighbours and filters (R78, R79, R89) -/

theorem passable_loaded (k : SegKind) : passableAt .normal k (if k.closure then .unknown else .opened) false = decide (k ≠ .watertightClosure) := by
  cases k <;> rfl

theorem closure_eq (k : SegKind) : k.closure = decide (k = .fireClosure ∨ k = .watertightClosure) := by
  cases k <;> rfl

theorem onLine_loaded (n : NeighbourConfig) (l : Fin 8) :
    (loadedNeighbour n).onLine l = true ↔ (n.kind = .fireClosure ∨ n.kind = .watertightClosure) ∧ n.sense.map (·.1) = some l := by
  rw [Neighbour.onLine, Bool.and_eq_true, closure_eq, decide_eq_true_eq]
  refine and_congr_right fun _ => ?_
  show (match n.sense with | some (k, _) => decide (k = l) | none => false) = true ↔ _
  cases n.sense <;> simp

end Sys2Proof.Machine
end

