-- ==== Sys2Proof/Proofs/ImageJudged.lean ====
section
/-! PROOFS. IMAGE_LOAD_DONE (R90, R127, R139, R156, R160, R162, R164): O6. -/

namespace Sys2Proof.Machine

/-! ### What stands at the end of a step -/

/-- No plate has a poll due. -/
def State.unpolled (s : State) : Prop := ∀ p ∈ s.sched.plates, p.pollDue = none

theorem duePoll_unpolled {s : State} (h : s.unpolled) : duePoll s = none := by
  rw [duePoll_eq]
  obtain ⟨hnone, -⟩ | ⟨i, late, -, hdue, -⟩ := longestDue_spec (s.sched.plates.map (·.overdue s.time.now))
  · rw [hnone]
    exact ite_self _
  · obtain ⟨x, ⟨hbind, -⟩, -⟩ := (late_iff s i late).1 hdue
    obtain ⟨p, hp, hpoll⟩ := Option.bind_eq_some_iff.1 hbind
    rw [h p (List.mem_of_getElem? hp)] at hpoll
    cases hpoll

/-- With no refresh to start and no poll due, the end of a step leaves the plates. -/
theorem sched_settle_still {s : State} (hrefresh : refreshing s = false) (hpoll : duePoll s = none) : (settle s).sched = s.sched := by
  rw [sched_settle, sched_arbitrate (by rw [duePoll_beforeArbiter, hpoll]), sched_beforeArbiter, settleRefreshes_idle hrefresh]

theorem Writes.bus {ps : List Part} {r s : State} (h : Writes ps r s) (hp : Part.apart [.queue, .buffer, .nextSeq] ps = true) : s.bus = r.bus := by
  have hqueue : s.bus.queue = r.bus.queue := h.sameOf hp (p := .queue) (by simp)
  have hbuffer : s.bus.buffer = r.bus.buffer := h.sameOf hp (p := .buffer) (by simp)
  have hseq : s.bus.nextSeq = r.bus.nextSeq := h.sameOf hp (p := .nextSeq) (by simp)
  exact (ZoneBus.mk.injEq ..).mpr ⟨h.receiver, h.timeQ, h.programmeQ, h.routeQ, h.musterQ, hqueue, hbuffer, hseq⟩

/-- An advert of routes with no changed flag leaves them. -/
theorem table_offerAdvert_still {s : State} (h : ∀ e ∈ s.route.table, e.changed = false) : (offerAdvert s).route.table = s.route.table := by
  have hw := writes_offer (advertOffer s) (.refl Part.offered s) (List.Subset.refl _)
  have hanswered (l : Level) (a : OfferAnswer) (u : State) (hu : ∀ e ∈ u.route.table, e.changed = false) :
      (offerSegments (startAdvertTimer l (advertAnswered a u))).route.table = u.route.table := by
    rw [route_offerSegments]
    cases a with
    | accepted =>
      refine (List.map_congr_left fun e he => ?_).trans (List.map_id _)
      show { e with changed := false } = e
      rw [← hu e he]
    | refusedFull => rfl
    | refusedState => rfl
  unfold offerAdvert
  rw [show (⟨.routeAdvert, 255, advertPayload s, [], false⟩ : Offer) = advertOffer s from rfl]
  generalize offer (advertOffer s) s = p at *
  have htable : p.1.route = s.route := hw.route rfl
  rw [← htable]
  exact hanswered (level p.1) p.2 p.1 (by rwa [htable])

/-! ### An image that is not valid -/

/-- The state with the result of a load that left no configuration. -/
def State.loadRefused (r : LoadResult) (check : Nat) (s : State) : State :=
  s.modNode fun n => { n with loadResult := r, firstFailed := check, config := none }

theorem node_loadInvalid (r : LoadResult) (check : Nat) (s : State) : (settle (loadInvalid r check s)).node =
    { (s.loadRefused r check).node with state := .fault, joinTimer := none } := node_enterFault (s.loadRefused r check)

theorem loadInvalid_fault (r : LoadResult) (check : Nat) (s : State) : let n := (settle (loadInvalid r check s)).node
    n.state = .fault ∧ n.loadResult = r ∧ n.firstFailed = check ∧ n.config = none := by
  dsimp only
  rw [node_loadInvalid]
  exact ⟨rfl, rfl, rfl, rfl⟩

theorem loadInvalid_enters (r : LoadResult) (check : Nat) (s : State) : EntersFault s (settle (loadInvalid r check s)) :=
  entersFault (u := s.loadRefused r check) rfl rfl rfl rfl rfl rfl rfl rfl

/-! ### A valid image -/

theorem filters_loaded (c : Configuration) (s : State) (l : Fin 8) : (Vector.ofFn (loadedFilter (c.neighbours.map loadedNeighbour) s.pins.sense))[l] =
    if ∃ n ∈ c.neighbours, (n.kind = .fireClosure ∨ n.kind = .watertightClosure) ∧ n.sense.map (·.1) = some l
    then { accepted := none, candidate := some s.pins.sense[l], run := 1, sampled := true }
    else { accepted := none, candidate := none, run := 0, sampled := false } := by
  have hany : (c.neighbours.map loadedNeighbour).any (·.onLine l) = true ↔
      ∃ n ∈ c.neighbours, (n.kind = .fireClosure ∨ n.kind = .watertightClosure) ∧ n.sense.map (·.1) = some l := by
    simp only [List.any_map, List.any_eq_true, Function.comp_apply, onLine_loaded]
  rw [Fin.getElem_fin, Vector.getElem_ofFn]
  unfold loadedFilter
  by_cases h : ∃ n ∈ c.neighbours, (n.kind = .fireClosure ∨ n.kind = .watertightClosure) ∧ n.sense.map (·.1) = some l
  · rw [if_pos h, if_pos (hany.2 h)]
  · rw [if_neg h, if_neg (mt hany.1 h)]

/-- A neighbour as loaded, with the given presence timer. -/
theorem loadedNeighbour_eq (n : NeighbourConfig) (x : Option Timer) : { loadedNeighbour n with presenceTimer := x } =
    (let closes : Bool := n.kind = .fireClosure ∨ n.kind = .watertightClosure
    { fixed := n, presence := .unknown, presenceTimer := x, closure := if closes then .unknown else .opened, remote := closes && n.sense.isNone,
      blocked := false, passable := decide (n.kind ≠ .watertightClosure) } : Neighbour) := by
  dsimp only
  rw [← closure_eq, ← passable_loaded]
  rfl

/-- A configuration and the tables it gives stand, the presence timers as given. -/
structure Installed (c : Configuration) (x : Option Timer) (s t : State) : Prop where
  loadResult : t.node.loadResult = .valid
  config : t.node.config = some c
  seed : t.node.seed = some c.station
  authorities : t.muster.authorities = c.authorities
  neighbours : t.mon.neighbours = c.neighbours.map fun n => { loadedNeighbour n with presenceTimer := x }
  filters : t.mon.filters = Vector.ofFn (loadedFilter (c.neighbours.map loadedNeighbour) s.pins.sense)
  declared : t.mon.declared = []
  table : t.route.table = routeTableOf c.destinations []
  sched : t.sched = { plates := c.plates.map loadedPlate, queue := [], flight := [] }

theorem installed_installConfig (c : Configuration) (s : State) : Installed c none s (installConfig c s) := by
  unfold installConfig
  exact ⟨rfl, rfl, rfl, rfl, rfl, rfl, rfl, rfl, rfl⟩

theorem kept_installConfig (c : Configuration) (s : State) : (installConfig c s).time = s.time ∧ (installConfig c s).bus = s.bus
    ∧ (installConfig c s).chain = s.chain ∧ level (installConfig c s) = level s ∧ (installConfig c s).node.joinTimer = s.node.joinTimer := by
  simp [installConfig, level]

theorem Installed.unpolled {c : Configuration} {x : Option Timer} {s t : State} (h : Installed c x s t) : t.unpolled := by
  intro p hp
  rw [h.sched] at hp
  obtain ⟨q, -, rfl⟩ := List.mem_map.1 hp
  rfl

theorem Installed.joining {c : Configuration} {s u : State} (h : Installed c none s u) : (settle (enterJoining u)).node.state = .joining
    ∧ Installed c (some { start := u.time.now, len := if (level u).alert then 12000 else 32000 }) s (settle (enterJoining u)) := by
  have hadvert := writes_offerAdvert' u.joined
  have htable : (offerAdvert u.joined).route.table = u.route.table :=
    table_offerAdvert_still (s := u.joined) fun e he => unchanged_routeTableOf c.destinations [] e (h.table ▸ he)
  have hsource : u.joined.node = { u.node with state := .joining, joinTimer := some { start := u.time.now, len := 8000 } } ∧ u.joined.sched = u.sched
      ∧ u.joined.muster = u.muster ∧ u.joined.mon = { u.mon with neighbours := u.mon.neighbours.map fun n =>
        { n with presence := .unknown, presenceTimer := some { start := u.time.now, len := if (level u).alert then 12000 else 32000 } } } :=
    ⟨rfl, rfl, rfl, rfl⟩
  obtain ⟨hnode, hsched, hmuster, hmon⟩ := hsource
  rw [enterJoining_eq]
  generalize u.joined = v at *
  have hnode := hadvert.node.trans hnode
  have hsched := (hadvert.sched rfl).trans hsched
  have hmon := (hadvert.mon rfl).trans hmon
  have hauthorities : (offerAdvert v).muster.authorities = u.muster.authorities := by rw [hadvert.authorities, hmuster]
  generalize offerAdvert v = w at *
  have hmarks := writes_settleMarks' w
  have hnode := hmarks.node.trans hnode
  have hsched := (hmarks.sched rfl).trans hsched
  have hmon := (hmarks.mon rfl).trans hmon
  have hauthorities := hmarks.authorities.trans hauthorities
  have htable : (settleMarks w).route.table = u.route.table := by rw [hmarks.route rfl, htable]
  generalize settleMarks w = w at *
  have hend := writes_settle' w
  have hstill : (settle w).sched = w.sched := by
    refine sched_settle_still (by rw [refreshing, hnode]; rfl) (duePoll_unpolled ?_)
    rw [State.unpolled, hsched]
    exact h.unpolled
  have hnode := hend.node.trans hnode
  have hsched := hstill.trans hsched
  have hmon := (hend.mon rfl).trans hmon
  have hauthorities := hend.authorities.trans hauthorities
  have htable : (settle w).route.table = u.route.table := by rw [hend.route rfl, htable]
  generalize settle w = t at *
  rw [hnode]
  refine ⟨rfl, ⟨by rw [hnode]; exact h.loadResult, by rw [hnode]; exact h.config, by rw [hnode]; exact h.seed, hauthorities.trans h.authorities, ?_,
    by rw [hmon]; exact h.filters, by rw [hmon]; exact h.declared, htable.trans h.table, hsched.trans h.sched⟩⟩
  rw [hmon, h.neighbours, List.map_map]
  rfl

/-- The state in which CHAIN TEST is entered and a line test is pending. -/
def State.testingChain (s : State) : State := (s.modNode fun n => { n with state := .chainTest }).modChain fun b => { b with testPending := true }

theorem Installed.testing {c : Configuration} {s u : State} (h : Installed c none s u) : let t := settle u.testingChain
    t.node = { u.node with state := .chainTest } ∧ Installed c none s t ∧ t.chain = { u.chain with testPending := true } ∧ t.time = u.time ∧ t.bus = u.bus := by
  have hend : Writes _ u.testingChain (settle u.testingChain) := writes_settle_quiet rfl
  have hsched : (settle u.testingChain).sched = u.sched := sched_settle_pending rfl
  have hchain : (settle u.testingChain).chain = u.testingChain.chain := chain_settle_busy (by simp [chainFree, State.testingChain])
  have hnode : (settle u.testingChain).node = { u.node with state := .chainTest } := hend.node
  have hmon : (settle u.testingChain).mon = u.mon := hend.mon rfl
  have hroute : (settle u.testingChain).route = u.route := hend.route rfl
  have hauthorities : (settle u.testingChain).muster.authorities = u.muster.authorities := hend.authorities
  dsimp only
  refine ⟨hnode, ⟨by rw [hnode]; exact h.loadResult, by rw [hnode]; exact h.config, by rw [hnode]; exact h.seed, hauthorities.trans h.authorities,
    by rw [hmon]; exact h.neighbours, by rw [hmon]; exact h.filters, by rw [hmon]; exact h.declared, by rw [hroute]; exact h.table, hsched.trans h.sched⟩, hchain,
    hend.time rfl, hend.bus rfl⟩

/-- LINE_TEST_START at the IDLE engine, with no refresh in flight. -/
theorem lineTestStart_idle {t : State} (hpending : t.chain.testPending = true) (hidle : t.chain.engine = .idle) (hflight : t.sched.flight = []) :
    ∃ u, exec .lineTestStart t = .next u ∧ u.chain = { t.chain with
      engine := .test none, testPending := false, chainReset := true, pulse := some { start := t.time.now, len := 1 } } := by
  have hmay : testMayStart t = true := by simp [testMayStart, loading, hpending, hidle, hflight]
  exact ⟨settle (startTest t), congrArg Host.Outcome.next (if_pos hmay), chain_settle_busy rfl⟩

/-! ### The row -/

theorem exec_imageLoadDone {image : List Octet} {s : State} (h : s.node.state = .loading) :
    exec (.imageLoadDone image) s = .next (settle (judgeImage image s)) := congrArg Host.Outcome.next (if_pos h)

/-- A valid image with PLATES leaves a line test to start. -/
theorem loadValid_plates {c : Configuration} (h : c.roles.plates = true) (s : State) : loadValid c s = (installConfig c s).testingChain := by
  rw [loadValid, if_pos h]
  simp [requestTest, cancelLoads, loading, installConfig, State.testingChain]

/-- What a valid image leaves: the tables, and the node's next state. -/
theorem loadValid_spec (c : Configuration) (s : State) : let t := settle (loadValid c s)
    t.node.state = (if c.roles.plates then .chainTest else .joining)
    ∧ Installed c (if c.roles.plates then none else some { start := s.time.now, len := if (level s).alert then 12000 else 32000 }) s t
    ∧ (c.roles.plates = false → EntersJoining s t)
    ∧ (c.roles.plates = true → t.chain = { s.chain with testPending := true } ∧ t.node.joinTimer = s.node.joinTimer ∧ t.time = s.time ∧ t.bus = s.bus) := by
  obtain ⟨htime, hbus, hchain, hlevel, htimer⟩ := kept_installConfig c s
  have hinstalled := installed_installConfig c s
  cases hplates : c.roles.plates with
  | false =>
    rw [loadValid, if_neg (by rw [hplates]; decide)]
    generalize installConfig c s = u at *
    obtain ⟨hstate, hjoining⟩ := hinstalled.joining
    rw [htime, hlevel] at hjoining
    exact ⟨hstate, hjoining, fun _ => entersJoining htime (congrArg ZoneBus.queue hbus) (congrArg ZoneBus.nextSeq hbus) hlevel, fun h => nomatch h⟩
  | true =>
    rw [loadValid_plates hplates]
    generalize installConfig c s = u at *
    obtain ⟨hnode, htesting, hchain', htime', hbus'⟩ := hinstalled.testing
    rw [hchain] at hchain'
    refine ⟨congrArg Sequencer.state hnode, htesting, (fun h => nomatch h), fun _ => ⟨hchain', ?_, htime'.trans htime, hbus'.trans hbus⟩⟩
    exact (congrArg Sequencer.joinTimer hnode).trans htimer

/-- Settles O6. -/
theorem imageIsJudged : Obligations.ImageIsJudged := by
  unfold Obligations.ImageIsJudged
  intro image s hloading
  refine ⟨settle (judgeImage image s), exec_imageLoadDone hloading, ?_⟩
  have hinvalid (r : LoadResult) (check : Nat) := loadInvalid_fault r check s
  have henters (r : LoadResult) (check : Nat) := loadInvalid_enters r check s
  generalize hjudged : settle (judgeImage image s) = t
  unfold judgeImage at hjudged
  cases hread : readImage (imageOctets image) with
  | none =>
    rw [hread] at hjudged
    dsimp only at hjudged
    subst hjudged
    obtain ⟨hstate, hresult, -, hconfig⟩ := hinvalid .badCheck 0
    exact ⟨hstate, hresult, hconfig, henters _ _⟩
  | some r =>
    rw [hread] at hjudged
    dsimp only at hjudged ⊢
    split at hjudged
    next hagrees =>
      rw [if_pos hagrees]
      subst hjudged
      obtain ⟨hstate, hresult, -, hconfig⟩ := hinvalid .badCheck 0
      exact ⟨hstate, hresult, hconfig, henters _ _⟩
    next hagrees =>
      rw [if_neg hagrees]
      split at hjudged
      next hversion =>
        rw [if_pos hversion]
        subst hjudged
        obtain ⟨hstate, hresult, -, hconfig⟩ := hinvalid .badVersion 0
        exact ⟨hstate, hresult, hconfig, henters _ _⟩
      next hversion =>
        rw [if_neg hversion]
        cases hjudge : judgeContents r with
        | error n =>
          rw [hjudge] at hjudged
          dsimp only at hjudged
          subst hjudged
          obtain ⟨hstate, hresult, hfirst, hconfig⟩ := hinvalid .badContent n
          exact ⟨hstate, hresult, hfirst, hconfig, henters _ _⟩
        | ok c =>
          rw [hjudge] at hjudged
          dsimp only at hjudged
          obtain ⟨hstate, hinstalled, hjoining, htesting⟩ := loadValid_spec c s
          rw [hjudged] at hstate hinstalled hjoining htesting
          refine ⟨hinstalled.loadResult, hinstalled.config, hinstalled.seed, hinstalled.authorities, hstate, ?_, fun l => ?_, hinstalled.declared, ?_, ?_, ?_, ?_, ?_,
            hjoining, fun hplates => ?_⟩
          · rw [hinstalled.neighbours]
            exact List.map_congr_left fun n _ => loadedNeighbour_eq n _
          · rw [hinstalled.filters]
            exact filters_loaded c s l
          · rw [hinstalled.table, codes_routeTableOf]
            exact congrArg List.eraseDups (List.filter_eq_self.2 fun _ _ => rfl)
          · intro e he
            rw [hinstalled.table] at he
            exact (routeTableOf_entries c.destinations [] e he).2
          · rw [hinstalled.sched]
            rfl
          · rw [hinstalled.sched]
          · rw [hinstalled.sched]
          · obtain ⟨hchain, htimer, htime, hbus⟩ := htesting hplates
            refine ⟨hchain, htimer, htime, hbus, fun hidle => ?_⟩
            have hflight : t.sched.flight = [] := by rw [hinstalled.sched]
            obtain ⟨u, hexec, hafter⟩ := lineTestStart_idle (t := t) (by rw [hchain]) (by rw [hchain]; exact hidle) hflight
            rw [hchain, htime] at hafter
            exact ⟨u, hexec, hafter⟩

end Sys2Proof.Machine
end

