-- ==== Sys2Proof/Proofs/ZoneTold.lean ====
section
/-! PROOFS. What a step tells the zone: a bounded number of offers, none of a programme frame. It keeps the room in the queue, the frames that stand and, at
MUSTER, the purge (R25, R26, R34). -/

namespace Sys2Proof.Machine

/-- The same but for the MUSTER receive queue and the port. -/
def State.beside (s t : State) : Prop := ∃ q p, t = { s with bus := { s.bus with musterQ := q }, port := p }

/-- From `s` to `t` at most so many frames are offered, none a programme frame, and the send path and ship time are otherwise left. -/
inductive Tells (s : State) : Nat → State → Prop
  | same : Tells s 0 s
  | write {n : Nat} {u t : State} {ps : List Part} : Tells s n u → Writes ps u t → Part.apart [.active, .queue, .buffer, .shift] ps = true → Tells s n t
  | offer {n : Nat} {u : State} (o : Offer) : Tells s n u → o.kind.programme = false → Tells s (n + 1) (offer o u).1
  | beside {n : Nat} {u t : State} : Tells s n u → u.beside t → Tells s n t
  | fewer {n m : Nat} {t : State} : Tells s n t → n ≤ m → Tells s m t

theorem Tells.trans {r s t : State} {n m : Nat} (h : Tells r n s) (k : Tells s m t) : Tells r (n + m) t := by
  induction k with
  | same => exact h
  | write _ hw hp ih => exact ih.write hw hp
  | offer o _ ho ih => exact ih.offer o ho
  | beside _ hu ih => exact ih.beside hu
  | fewer _ hle ih => exact ih.fewer (Nat.add_le_add_left hle n)

theorem Writes.tells {ps : List Part} {s t : State} (h : Writes ps s t) (hp : Part.apart [.active, .queue, .buffer, .shift] ps = true) : Tells s 0 t :=
  Tells.same.write h hp

theorem tells_offer (o : Offer) (s : State) (ho : o.kind.programme = false) : Tells s 1 (offer o s).1 := Tells.same.offer o ho

theorem Tells.level {s t : State} {n : Nat} (h : Tells s n t) : level t = level s := by
  induction h with
  | same => rfl
  | write _ hw _ ih => exact hw.level.trans ih
  | offer o _ _ ih => exact (writes_offer o (.refl Part.offered _) (List.Subset.refl _)).level.trans ih
  | beside _ hu ih =>
    obtain ⟨q, p, rfl⟩ := hu
    exact ih
  | fewer _ _ ih => exact ih

theorem Tells.pendingShift {s t : State} {n : Nat} (h : Tells s n t) : t.time.pendingShift = s.time.pendingShift := by
  induction h with
  | same => rfl
  | write _ hw hp ih =>
    have hshift : _ = _ := hw.sameOf hp (p := .shift) (by simp)
    exact hshift.trans ih
  | offer o _ _ ih => exact ((writes_offer o (.refl Part.offered _) (List.Subset.refl _)).same .shift rfl).trans ih
  | beside _ hu ih =>
    obtain ⟨q, p, rfl⟩ := hu
    exact ih
  | fewer _ _ ih => exact ih

theorem Tells.queue_length {s t : State} {n : Nat} (h : Tells s n t) : s.bus.queue.length + n ≤ 8 → t.bus.queue.length ≤ s.bus.queue.length + n := by
  induction h with
  | same => exact fun _ => Nat.le_refl _
  | write _ hw hp ih =>
    have hqueue : _ = _ := hw.sameOf hp (p := .queue) (by simp)
    rw [hqueue]
    exact ih
  | offer o _ _ ih =>
    intro hroom
    have hbefore := ih (by omega)
    exact (queue_length_offer o (by omega)).trans (by omega)
  | beside _ hu ih =>
    obtain ⟨q, p, rfl⟩ := hu
    exact ih
  | fewer _ hle ih => exact fun hroom => (ih (by omega)).trans (by omega)

/-- With room for the offers a programme frame that stands is left. -/
theorem Tells.stands {s t : State} {n : Nat} {f : TxFrame} (h : Tells s n t) (hload : loadShift s.time.pendingShift f = f) (hkind : f.kind.programme = true)
    (hroom : s.bus.queue.length + n ≤ 8) (hs : s.stands f) : t.stands f := by
  induction h with
  | same => exact hs
  | write _ hw hp ih =>
    exact stands_of_eq (hw.sameOf hp (p := .queue) (by simp)) (hw.sameOf hp (p := .buffer) (by simp)) (ih hroom)
  | offer o hu ho ih =>
    have hlength := hu.queue_length (by omega)
    have hne : o.kind ≠ f.kind := by
      intro heq
      rw [heq, hkind] at ho
      cases ho
    exact stands_offer (by rw [hu.pendingShift]; exact hload) (.inr hne) (.inl (by omega)) (ih (by omega))
  | beside _ hu ih =>
    obtain ⟨q, p, rfl⟩ := hu
    exact ih hroom
  | fewer _ hle ih => exact ih (by omega)

/-! ### The purge (R34) -/

/-- A frame on the line, or jamming. -/
def TxPhase.onLine : TxPhase → Prop
  | .sending .. | .jamming => True
  | .waiting _ | .backoff _ | .held _ => False

/-- No programme frame is queued, and one in the buffer is on the line, to be left to finish. -/
def State.purged (s : State) : Prop := (∀ f ∈ s.bus.queue, f.kind.programme = false)
  ∧ ∀ u, s.bus.buffer = some u → u.frame.kind.programme = true → u.condemned = true ∧ u.phase.onLine

theorem purged_of_eq {s t : State} (hqueue : t.bus.queue = s.bus.queue) (hbuffer : t.bus.buffer = s.bus.buffer) (h : s.purged) : t.purged := by
  rw [State.purged, hqueue, hbuffer]
  exact h

theorem kind_loadShift (shift : Int) (f : TxFrame) : (loadShift shift f).kind = f.kind := by
  unfold loadShift
  split <;> rfl

theorem purged_fillBuffer {s : State} (h : s.purged) : (fillBuffer s).purged := by
  obtain hs | ⟨f, q, -, hqueue, hs⟩ := fillBuffer_cases s <;> rw [hs]
  · exact h
  · obtain ⟨hframes, -⟩ := h
    rw [hqueue] at hframes
    refine ⟨fun g hg => hframes g (List.mem_cons_of_mem _ hg), fun u hu hprogramme => ?_⟩
    cases hu
    rw [kind_loadShift, hframes f List.mem_cons_self] at hprogramme
    cases hprogramme

/-- The purge leaves nothing more to remove, whatever was queued. -/
theorem purged_purgeProgramme (s : State) : (purgeProgramme s).purged := by
  refine purged_fillBuffer ⟨fun f hf => by simpa using (List.mem_filter.1 hf).2, fun u hu hprogramme => ?_⟩
  obtain ⟨v, -, hv⟩ := Option.bind_eq_some_iff.1 hu
  unfold purgeBuffer at hv
  split at hv
  · split at hv
    all_goals cases hv
    next hphase => exact ⟨rfl, by rw [hphase]; trivial⟩
    next hphase => exact ⟨rfl, by rw [hphase]; trivial⟩
  · cases hv
    contradiction

theorem purged_acceptOffer {queue : List TxFrame} {s : State} (h : s.purged) (hqueue : ∀ f ∈ queue, f.kind.programme = false) : (acceptOffer queue s).purged :=
  purged_fillBuffer ⟨hqueue, h.2⟩

theorem purged_offerBase {o : Offer} {s : State} (ho : o.kind.programme = false) (h : s.purged) : (offerBase o s).1.purged := by
  have hframe : (o.frame s).kind.programme = false := ho
  obtain hs | hs | ⟨-, -, hs⟩ | ⟨-, -, hs⟩ | ⟨g, -, -, -, -, hs⟩ := offerBase_cases o s <;> rw [hs]
  · exact h
  · exact h
  · refine purged_acceptOffer h fun f hf => ?_
    rcases mem_replaceFrame hf with rfl | hf
    · exact hframe
    · exact h.1 f hf
  · refine purged_acceptOffer h fun f hf => ?_
    rcases mem_placeFrame.1 hf with rfl | hf
    · exact hframe
    · exact h.1 f hf
  · refine purged_acceptOffer (s := countRefusal s) h fun f hf => ?_
    rcases mem_placeFrame.1 hf with rfl | hf
    · exact hframe
    · exact h.1 f (List.mem_of_mem_dropLast hf)

/-- An answer's frame, a programme frame, is refused at MUSTER. -/
theorem purged_answerOffer (a : ActiveAnswer) {s : State} (hlevel : level s = .muster) (h : s.purged) : (answerOffer a s).purged := by
  have hoffer (p : List Octet) : (offerBase ⟨.programmeItem, 255, p, [], true⟩ s).1.purged := by
    rw [offerBase_refusedState (.inr ⟨hlevel, rfl⟩)]
    exact h
  unfold answerOffer
  extract_lets reply
  split
  · rename_i b _
    have ho := hoffer (itemPayload (some b) (some (reply false 0)))
    split <;> (rename_i heq; rw [heq] at ho; exact ho)
  · have ho := hoffer (itemPayload none (some (reply true (highWaterOf a.entry.publisher s))))
    split <;> (rename_i heq; rw [heq] at ho; exact ho)

theorem purged_answerReported (f : TxFrame) {s : State} (hlevel : level s = .muster) (h : s.purged) : (answerReported f s).purged := by
  unfold answerReported
  (repeat' split)
  · exact h
  · exact purged_answerOffer _ hlevel h
  · exact h
  · exact h

theorem purged_offer {o : Offer} {s : State} (ho : o.kind.programme = false) (hlevel : level s = .muster) (h : s.purged) : (offer o s).1.purged := by
  have hbase := purged_offerBase ho h
  have hsame : level (offerBase o s).1 = level s := congrArg (fun t : Steady => t.record.level) (steady_offerBase o s)
  unfold offer
  split
  · rename_i heq
    rw [heq] at hbase hsame
    exact purged_answerReported _ (hsame.trans hlevel) hbase
  · exact hbase

theorem Tells.purged {s t : State} {n : Nat} (h : Tells s n t) (hlevel : Machine.level s = .muster) (hs : s.purged) : t.purged := by
  induction h with
  | same => exact hs
  | write _ hw hp ih => exact purged_of_eq (hw.sameOf hp (p := .queue) (by simp)) (hw.sameOf hp (p := .buffer) (by simp)) ih
  | offer o hu ho ih => exact purged_offer ho (hu.level.trans hlevel) ih
  | beside _ hu ih =>
    obtain ⟨q, p, rfl⟩ := hu
    exact purged_of_eq rfl rfl ih
  | fewer _ _ ih => exact ih

/-! ### What is told -/

theorem tells_offerSensed (s : State) : Tells s 1 (offerSensed s) := by
  unfold offerSensed
  dsimp only
  split
  · exact Tells.same.fewer (Nat.zero_le _)
  · exact tells_offer _ s rfl

theorem tells_offerDeclared (l : List Declared) (s : State) : Tells s 1 (offerDeclared l s) := by
  unfold offerDeclared
  split
  · exact Tells.same.fewer (Nat.zero_le _)
  · exact tells_offer _ s rfl

theorem tells_offerSegments (s : State) : Tells s 3 (offerSegments s) := by
  unfold offerSegments
  dsimp only
  split
  · split
    · exact ((tells_offerSensed s).trans (tells_offerDeclared _ _)).trans (tells_offerDeclared _ _)
    · exact (tells_offerSensed s).fewer (by decide)
  · exact Tells.same.fewer (Nat.zero_le _)

theorem tells_offerAdvert (s : State) : Tells s 4 (offerAdvert s) := by
  have htold := tells_offer (advertOffer s) s rfl
  unfold offerAdvert
  rw [show (⟨.routeAdvert, 255, advertPayload s, [], false⟩ : Offer) = advertOffer s from rfl]
  generalize offer (advertOffer s) s = p at *
  have hanswered : Writes Part.advertised p.1 (advertAnswered p.2 p.1) := writes_advertAnswered p.2 (.refl _ p.1) (by simp)
  have htimer : Writes [.advertTimer, .free] (advertAnswered p.2 p.1) (startAdvertTimer (level p.1) (advertAnswered p.2 p.1)) :=
    writes_startAdvertTimer _ (.refl _ _) (List.Subset.refl _)
  exact ((htold.write hanswered rfl).write htimer rfl).trans (tells_offerSegments _)

theorem tells_makeTriggerDue (s : State) : Tells s 4 (makeTriggerDue s) := by
  unfold makeTriggerDue
  split
  · split
    · exact tells_offerAdvert s
    · split
      · exact tells_offerAdvert s
      · exact (Tells.same.write (writes_modRoute (ps := [.trigger]) _ (.refl _ s) (.inl rfl) (.inl rfl) (.inr (by simp)) (.inl rfl)) rfl).fewer (by decide)
  · exact Tells.same.fewer (Nat.zero_le _)

theorem tells_setEventIf (c : Bool) (e : Event) (s : State) : Tells s 0 (setEventIf c e s) :=
  (writes_setEventIf c e (.refl [.flags, .loss] s) (by simp) (.inr (by simp))).tells rfl

theorem tells_endOfChange (w : RouteWork) (s : State) : Tells s 4 (endOfChange w s) := by
  unfold endOfChange
  dsimp only
  refine Tells.trans ?_ (tells_setEventIf _ _ _)
  split
  · exact tells_makeTriggerDue s
  · exact Tells.same.fewer (Nat.zero_le _)

theorem tells_invalidate (lost : List Nat) (s : State) : Tells s 4 (invalidate lost s) :=
  ((writes_putTable _ (.refl [.routes] s) (List.Subset.refl _)).tells rfl).trans (m := 4) (tells_endOfChange _ _) |>.fewer (by decide)

theorem tells_evaluate (choose : Neighbour → Nat → Bool) (s : State) : Tells s 4 (evaluate choose s) := by
  have hstored : Tells s 0 (s.modMon fun m => { m with neighbours := restore (level s) choose s.mon.neighbours }) :=
    (writes_modMon (ps := [.neighbours]) _ (.refl _ s) (.inr (by simp)) (.inl rfl) (.inl rfl)).tells rfl
  unfold evaluate
  dsimp only
  have hset := hstored.trans (tells_setEventIf (passabilityMoves (level s) choose s.mon.neighbours) .segment _)
  split
  · exact hset.fewer (Nat.zero_le _)
  · exact (hset.trans (tells_invalidate _ _)).fewer (by decide)

/-- A write of the report builder's fields alone. -/
theorem tells_builder (f : MusterControl → MusterControl) (s : State) (h : f s.muster = { s.muster with
      pendingReports := (f s.muster).pendingReports, reportOutstanding := (f s.muster).reportOutstanding, builderWaits := (f s.muster).builderWaits }) :
    Tells s 0 (s.modMuster f) := by
  refine (writes_modMuster (ps := [.pendingReports, .outstanding, .builderWaits]) f (.refl _ s) ?_ ?_ ?_ ?_ ?_ ?_ ?_ ?_ ?_).tells rfl
  all_goals rw [h]
  all_goals simp

theorem tells_settleReports (s : State) : Tells s 1 (settleReports s) := by
  unfold settleReports
  split
  · have htold := (tells_builder (fun m => { m with pendingReports := m.pendingReports.drop 6 }) s rfl).offer
      ⟨.cabinReport, 128, cabinPayload (s.muster.pendingReports.take 6), [], false⟩ rfl
    unfold buildReport
    dsimp only
    split
    next heq =>
      rw [heq] at htold
      exact htold.trans (tells_builder (fun m => { m with reportOutstanding := true }) _ rfl)
    next heq =>
      rw [heq] at htold
      exact htold.trans (tells_builder (fun m => { m with builderWaits := true }) _ rfl)
  · exact Tells.same.fewer (Nat.zero_le _)

/-- The end of a step leaves the purge. -/
theorem purged_settle {s : State} (hlevel : level s = .muster) (h : s.purged) : (settle s).purged := by
  have hrefresh : Writes Part.refreshed s (settleRefreshes s) := writes_settleRefreshes (.refl _ s) (List.Subset.refl _)
  have hafter : Writes [.answers, .active, .free, .engine, .plates, .lights, .line] (settleReports (settleRefreshes s)) (settle s) :=
    writes_settleAttention (writes_settleLights (writes_arbitrate (writes_settleAnswers (.refl _ _) (by simp)) (by simp)) (by simp)) (by simp)
  exact purged_of_eq (hafter.same .queue rfl) (hafter.same .buffer rfl) (((hrefresh.tells rfl).trans (tells_settleReports _)).purged hlevel h)

/-! ### No answer -/

theorem Tells.active {s t : State} {n : Nat} (h : Tells s n t) (hs : s.exch.active = none) : t.exch.active = none := by
  induction h with
  | same => exact hs
  | write _ hw hp ih =>
    have hactive : _ = _ := hw.sameOf hp (p := .active) (by simp)
    exact hactive.trans ih
  | offer o _ _ ih => exact active_offer_none o ih
  | beside _ hu ih =>
    obtain ⟨q, p, rfl⟩ := hu
    exact ih
  | fewer _ _ ih => exact ih

/-- With no answer active or waiting the end of a step leaves the exchange. -/
theorem exch_settle_idle {s : State} (hactive : s.exch.active = none) (hanswers : s.exch.answers = []) : (settle s).exch = s.exch := by
  have hrefresh : Writes Part.refreshed s (settleRefreshes s) := writes_settleRefreshes (.refl _ s) (List.Subset.refl _)
  have hbefore : Writes (Part.refreshed ++ Part.offered ++ [.pendingReports, .outstanding, .builderWaits]) s (settleReports (settleRefreshes s)) :=
    writes_settleReports (writes_settleRefreshes (.refl _ s) (by simp)) (by simp)
  have hactive' := ((hrefresh.tells rfl).trans (tells_settleReports (settleRefreshes s))).active hactive
  have hanswers' : (settleReports (settleRefreshes s)).exch.answers = [] := (hbefore.same .answers rfl).trans hanswers
  have hidle : settleAnswers (settleReports (settleRefreshes s)) = settleReports (settleRefreshes s) := by
    unfold settleAnswers
    rw [hactive', hanswers']
  have hafter : Writes [.engine, .plates, .lights, .line] (settleReports (settleRefreshes s)) (settle s) := by
    unfold settle
    rw [hidle]
    exact writes_settleAttention (writes_settleLights (writes_arbitrate (.refl _ _) (by simp)) (by simp)) (by simp)
  rw [hafter.exch rfl]
  exact (Exchange.mk.injEq ..).mpr ⟨hbefore.same .records rfl, hbefore.same .summaryTimer rfl, hbefore.same .early rfl, hanswers'.trans hanswers.symm, hactive'.trans hactive.symm⟩

end Sys2Proof.Machine
end

