-- ==== Sys2Proof/Proofs/LevelStages.lean ====
section
/-! PROOFS. What each block does at a change of level (Table 7-3): one reasoning rule per block. -/

namespace Sys2Proof.Machine

/-! ### The exchange (R58, R72, R73) -/

theorem exchangeLevel_muster (old : Level) (s : State) : exchangeLevel old .muster s = stopExchange s := if_pos rfl

theorem exchangeLevel_starts {old new : Level} {s : State} (hnew : new.calm = true) (hold : old.calm = false) (hrun : s.node.state = .run) :
    exchangeLevel old new s = startSummaryTimer (offerSummary s) := by
  unfold exchangeLevel
  rw [if_neg (by rintro rfl; cases hnew), if_neg (by rintro rfl; cases hnew), if_pos ⟨hold, hrun⟩]

/-- Every WAITING request made IDLE. -/
def PubRecord.stopped (r : PubRecord) : PubRecord := if r.waiting then r.idled else r

theorem exch_stopExchange (s : State) : (stopExchange s).exch.answers = [] ∧ (stopExchange s).exch.active = none ∧ (stopExchange s).exch.summaryTimer = none
    ∧ (stopExchange s).exch.early = none ∧ (stopExchange s).exch.records = s.exch.records.map PubRecord.stopped := ⟨rfl, rfl, rfl, rfl, rfl⟩

theorem purged_stopExchange {s : State} (h : s.purged) : (stopExchange s).purged := by
  obtain ⟨hqueue, hbuffer⟩ := h
  refine ⟨fun f hf => ?_, fun u hu hprogramme => ?_⟩
  · obtain ⟨g, hg, rfl⟩ := List.mem_map.1 hf
    exact hqueue g hg
  · obtain ⟨v, hv, rfl⟩ := Option.map_eq_some_iff.1 hu
    exact hbuffer v hv hprogramme

/-- The summaries begun: the timer runs, and with room the first is offered at once. -/
theorem summaries_start {old new : Level} {s : State} (hnew : new.calm = true) (hlevel : level s = new) (hold : old.calm = false) (hrun : s.node.state = .run) :
    (∃ n, 22500 ≤ n ∧ n ≤ 37500 ∧ (exchangeLevel old new s).exch.summaryTimer = some { start := s.time.now, len := n })
    ∧ (s.bus.queue.length ≤ 1 → (exchangeLevel old new s).stands ⟨.programmeSummary, 255, s.bus.nextSeq, summaryPayload s.exch.records, [], false⟩
      ∧ (exchangeLevel old new s).bus.queue.length ≤ 2) := by
  rw [exchangeLevel_starts hnew hold hrun]
  have hnow : (offerSummary s).time.now = s.time.now := (writes_offerSummary (.refl Part.offered s) (List.Subset.refl _)).now
  have hrange := drawValue_range 22500 37500 (offerSummary s) (by omega)
  refine ⟨⟨_, hrange.1, hrange.2, by rw [← hnow]; rfl⟩, fun hroom => ⟨?_, ?_⟩⟩
  · have hpart : participates s = true := by simp [participates, hrun]
    have hbelow : level s ≠ .muster := by
      rw [hlevel]
      rintro rfl
      cases hnew
    exact offerSummary_stands hpart hbelow (by simp [hasRoom]; omega)
  · have hafter := queue_length_offer (summaryOffer s) (s := s) (by omega)
    exact hafter.trans (by omega)

/-! ### The Monitor (R77, R86, R95) -/

/-- The presence timer of a neighbour after the level has crossed between the two lengths. -/
def Neighbour.timerAt (old new : Level) (now : Tick) (n : Neighbour) : Option Timer :=
  if old.alert ≠ new.alert ∧ n.presenceTimer.isSome = true then some { start := now, len := if new.alert then 12000 else 32000 } else n.presenceTimer

/-- The neighbours after the presence timers have followed the level. -/
def State.timed (s : State) (old new : Level) : State :=
  s.modMon fun m => { m with neighbours := m.neighbours.map fun n => { n with presenceTimer := n.timerAt old new s.time.now } }

theorem monitorLevel_eq (old new : Level) (s : State) : monitorLevel old new s =
    if (old = .muster) ≠ (new = .muster) then evaluate (fun n _ => n.fixed.kind = .lift) (s.timed old new) else s.timed old new := by
  have htimed : (if old.alert ≠ new.alert then s.modMon fun m => { m with neighbours := m.neighbours.map fun n =>
      if n.presenceTimer.isSome then { n with presenceTimer := startTimer s (presenceTime new) } else n } else s) = s.timed old new := by
    by_cases hcross : old.alert ≠ new.alert
    · rw [if_pos hcross]
      refine congrArg (fun l => s.modMon fun m => { m with neighbours := l }) (List.map_congr_left fun n _ => ?_)
      unfold Neighbour.timerAt
      cases n.presenceTimer.isSome <;> simp [hcross, startTimer, presenceTime]
    · rw [if_neg hcross]
      have hsame : s.mon.neighbours.map (fun n => { n with presenceTimer := n.timerAt old new s.time.now }) = s.mon.neighbours := by
        refine (List.map_congr_left fun n _ => ?_).trans (List.map_id _)
        rw [Neighbour.timerAt, if_neg fun h => hcross h.1]
        rfl
      exact congrArg (fun l => s.modMon fun m => { m with neighbours := l }) hsame.symm
  unfold monitorLevel
  dsimp only
  rw [htimed]

theorem presenceTimers_monitorLevel (old new : Level) (s : State) :
    (monitorLevel old new s).mon.neighbours.map (·.presenceTimer) = s.mon.neighbours.map (·.timerAt old new s.time.now) := by
  have htimed : (s.timed old new).mon.neighbours.map (·.presenceTimer) = s.mon.neighbours.map (·.timerAt old new s.time.now) := by
    show (s.mon.neighbours.map _).map _ = _
    rw [List.map_map]
    rfl
  rw [monitorLevel_eq]
  split
  · exact (map_neighbours_evaluate _ (fun _ _ => rfl) _ _).trans htimed
  · exact htimed

/-- Every lift at a level entered or left. -/
theorem lifts_monitorLevel {old new : Level} {s : State} (hne : new ≠ old) (hlevel : level s = new) (h : old = .muster ∨ new = .muster) :
    ∀ n ∈ (monitorLevel old new s).mon.neighbours, n.fixed.kind = .lift → n.passable = (!n.blocked && decide (new ≠ .muster)) := by
  have hmoves : (old = .muster) ≠ (new = .muster) := by
    rintro heq
    rcases h with h | h
    · exact hne ((heq ▸ h : new = .muster).trans h.symm)
    · exact hne (h.trans (heq ▸ h : old = .muster).symm)
  rw [monitorLevel_eq, if_pos hmoves, neighbours_evaluate]
  intro n hn hlift
  obtain ⟨i, hi⟩ := List.mem_iff_getElem?.1 hn
  rw [getElem?_restore] at hi
  obtain ⟨m, -, rfl⟩ := Option.map_eq_some_iff.1 hi
  have hkind : m.fixed.kind = .lift := by
    split at hlift <;> exact hlift
  have hnow : level (s.timed old new) = new := hlevel
  rw [if_pos (by simpa using hkind), hnow]
  simp [Neighbour.passableNow, passableAt, hkind]

/-- The routes over a segment that an evaluation finds impassable are withdrawn. -/
theorem evaluate_withdraws {choose : Neighbour → Nat → Bool} {s : State} {i : Nat} {n m : Neighbour} (hn : s.mon.neighbours[i]? = some n)
    (hm : (evaluate choose s).mon.neighbours[i]? = some m) (hpass : n.passable = true) (hfall : m.passable = false) : (evaluate choose s).avoids i := by
  rw [neighbours_evaluate, getElem?_restore, hn, Option.map_some, Option.some_inj] at hm
  refine avoids_evaluate (.inr ((mem_fallen _ _ _ _).2 ⟨n, hn, ?_⟩))
  cases hchosen : choose n i with
  | true =>
    rw [if_pos hchosen] at hm
    subst hm
    exact ⟨rfl, hpass, hfall⟩
  | false =>
    rw [if_neg (by rw [hchosen]; decide)] at hm
    subst hm
    rw [hpass] at hfall
    cases hfall

theorem withdrawn_monitorLevel {old new : Level} {s : State} {i : Nat} {n m : Neighbour} (hn : s.mon.neighbours[i]? = some n)
    (hm : (monitorLevel old new s).mon.neighbours[i]? = some m) (hpass : n.passable = true) (hfall : m.passable = false) : (monitorLevel old new s).avoids i := by
  have htimed : (s.timed old new).mon.neighbours[i]? = some { n with presenceTimer := n.timerAt old new s.time.now } := by
    show (s.mon.neighbours.map _)[i]? = _
    rw [List.getElem?_map, hn]
    rfl
  rw [monitorLevel_eq] at hm ⊢
  split at hm
  next hmoves =>
    rw [if_pos hmoves]
    exact evaluate_withdraws htimed hm hpass hfall
  next =>
    cases htimed.symm.trans hm
    rw [show n.passable = false from hfall] at hpass
    cases hpass

theorem tells_monitorLevel (old new : Level) (s : State) : Tells s 4 (monitorLevel old new s) := by
  have htimed : Tells s 0 (s.timed old new) := (writes_modMon (ps := [.neighbours]) _ (.refl _ s) (.inr (by simp)) (.inl rfl) (.inl rfl)).tells rfl
  rw [monitorLevel_eq]
  split
  · exact (htimed.trans (tells_evaluate _ _)).fewer (by decide)
  · exact htimed.fewer (by decide)

/-- A running advert timer is not stopped by what the Monitor tells. -/
theorem advertTimer_isSome_offerAdvert (s : State) : (offerAdvert s).route.advertTimer.isSome = true := by
  obtain ⟨n, -, htimer⟩ := advertTimer_offerAdvert s
  rw [htimer]
  rfl

theorem advertTimer_isSome_makeTriggerDue {s : State} (h : s.route.advertTimer.isSome = true) : (makeTriggerDue s).route.advertTimer.isSome = true := by
  unfold makeTriggerDue
  split
  · split
    · exact advertTimer_isSome_offerAdvert s
    · split
      · exact advertTimer_isSome_offerAdvert s
      · exact h
  · exact h

theorem advertTimer_isSome_monitorLevel {s : State} (old new : Level) (h : s.route.advertTimer.isSome = true) :
    (monitorLevel old new s).route.advertTimer.isSome = true := by
  have hset {c : Bool} {e : Event} {u : State} (hu : u.route.advertTimer.isSome = true) : (setEventIf c e u).route.advertTimer.isSome = true := by
    have hroute : (setEventIf c e u).route = u.route := (writes_setEventIf c e (.refl [.flags, .loss] u) (by simp) (.inr (by simp))).route rfl
    rwa [hroute]
  have hchange {w : RouteWork} {u : State} (hu : u.route.advertTimer.isSome = true) : (endOfChange w u).route.advertTimer.isSome = true := by
    refine hset ?_
    split
    · exact advertTimer_isSome_makeTriggerDue hu
    · exact hu
  rw [monitorLevel_eq]
  split
  · unfold evaluate
    dsimp only
    split
    · exact hset h
    · refine hchange (u := putTable _ _) ?_
      exact hset (u := State.modMon _ _) h
  · exact h

/-! ### The Route Engine (R97) -/

theorem advertTimer_routeLevel {old new : Level} {s : State} (hcross : old.alert ≠ new.alert) (hruns : s.route.advertTimer.isSome = true) :
    ∃ n, (if new.alert = true then 1500 ≤ n ∧ n ≤ 2500 else 7500 ≤ n ∧ n ≤ 12500)
      ∧ (routeLevel old new s).route.advertTimer = some { start := s.time.now, len := n } := by
  obtain ⟨n, hn, hrange⟩ := advertLength_range new s
  refine ⟨n, hrange, ?_⟩
  rw [routeLevel, if_pos ⟨hcross, hruns⟩, ← hn]
  rfl

/-! ### The Muster Controller's own work (R118, R122) -/

theorem swept_resetSweeps (s : State) : (resetSweeps s).sched.plates.map (·.swept) = s.sched.plates.map fun _ => false := by
  show (s.sched.plates.map _).map _ = _
  rw [List.map_map]
  rfl

theorem swept_ownLevelWork (old new : Level) (s : State) :
    (ownLevelWork old new s).sched.plates.map (·.swept) = s.sched.plates.map fun p => decide (new = .standDown) && p.swept := by
  have hstopped : (if old = .muster then s.modMuster fun m => { m with sweepRefresh := none } else s).sched = s.sched := by split <;> rfl
  unfold ownLevelWork
  dsimp only
  generalize (if old = .muster then s.modMuster fun m => { m with sweepRefresh := none } else s) = u at *
  rw [← hstopped]
  cases new with
  | normal => exact swept_resetSweeps u
  | standby => exact swept_resetSweeps u
  | standDown => exact List.map_congr_left fun p _ => (Bool.true_and _).symm
  | muster =>
    have hroll (v : State) : (startSweepRefresh (clearRoll v)).sched = v.sched :=
      (writes_startSweepRefresh (writes_clearRoll (.refl [.roll, .flags, .sweepRefresh] v) (by simp)) (by simp)).sched rfl
    rw [hroll]
    exact swept_resetSweeps u

/-- The state at MUSTER in which nothing is swept and no report is pending. -/
def State.unreported (s : State) (old : Level) : State :=
  (resetSweeps (if old = .muster then s.modMuster fun m => { m with sweepRefresh := none } else s)).modMuster fun m => { m with pendingReports := [] }

theorem ownLevelWork_muster (old : Level) (s : State) : ownLevelWork old .muster s = startSweepRefresh (clearRoll (s.unreported old)) := rfl

theorem unreported_spec (old : Level) (s : State) : let u := s.unreported old
    u.node = s.node ∧ u.time = s.time ∧ u.muster.roll = s.muster.roll ∧ u.muster.pendingReports = [] := by
  unfold State.unreported
  split <;> exact ⟨rfl, rfl, rfl, rfl⟩

theorem clearRoll_spec {s : State} (h : (roles s).console = true) :
    (clearRoll s).muster.roll = [] ∧ (s.muster.roll ≠ [] → eventSet .roll (clearRoll s) = true) := by
  have hset : Writes [.flags] (s.modMuster fun m => { m with roll := [] }) (clearRoll s) := by
    unfold clearRoll
    rw [if_pos h]
    exact writes_setEventIf _ _ (.refl _ _) (List.Subset.refl _) (.inl nofun)
  refine ⟨hset.same .roll rfl, fun hsome => ?_⟩
  unfold clearRoll
  rw [if_pos h]
  exact eventSet_setEventIf (by simpa using hsome) .roll _

theorem sweepRefresh_startSweepRefresh {s : State} (hrole : (roles s).plates = true) (hpart : participates s = true) :
    (startSweepRefresh s).muster.sweepRefresh = some { start := s.time.now, len := 30000 } := by
  unfold startSweepRefresh
  rw [if_pos (by rw [hrole, hpart]; rfl)]
  rfl

/-- At MUSTER the reports, the roll and the sweep refresh begin anew. -/
theorem reports_ownLevelWork (old : Level) {new : Level} (hnew : new = .muster) (s : State) : let t := ownLevelWork old new s
    t.muster.pendingReports = []
    ∧ ((roles s).console = true → t.muster.roll = [] ∧ (s.muster.roll ≠ [] → eventSet .roll t = true))
    ∧ ((roles s).plates = true → participates s = true → t.muster.sweepRefresh = some { start := s.time.now, len := 30000 }) := by
  subst hnew
  dsimp only
  rw [ownLevelWork_muster]
  obtain ⟨hnode, htime, hroll, hpending⟩ := unreported_spec old s
  have hroles : roles (s.unreported old) = roles s := by rw [roles, hnode, roles]
  have hpart : participates (s.unreported old) = participates s := by rw [participates, hnode, participates]
  generalize s.unreported old = u at *
  have hclear : Writes [.roll, .flags] u (clearRoll u) := writes_clearRoll (.refl _ u) (List.Subset.refl _)
  have hcleared := clearRoll_spec (s := u)
  rw [hroles, hroll] at hcleared
  have hstarted := sweepRefresh_startSweepRefresh (s := clearRoll u)
  rw [hclear.roles, hclear.participates, hclear.now, hroles, hpart, htime] at hstarted
  have hstart : Writes [.sweepRefresh] (clearRoll u) (startSweepRefresh (clearRoll u)) := writes_startSweepRefresh (.refl _ _) (List.Subset.refl _)
  refine ⟨(hstart.same .pendingReports rfl).trans ((hclear.same .pendingReports rfl).trans hpending), fun hconsole => ?_, hstarted⟩
  obtain ⟨hempty, hevent⟩ := hcleared hconsole
  exact ⟨(hstart.same .roll rfl).trans hempty, fun hsome => hstart.eventSet (hevent hsome)⟩

theorem sweepRefresh_ownLevelWork {new : Level} (hne : new ≠ .muster) (s : State) : (ownLevelWork .muster new s).muster.sweepRefresh = none := by
  cases new with
  | normal => rfl
  | standby => rfl
  | standDown => rfl
  | muster => exact absurd rfl hne

/-! ### The plates (R145, R152) -/

theorem swept_retargetAll (s : State) : (retargetAll s).sched.plates.map (·.swept) = s.sched.plates.map (·.swept) := by
  refine foldl_keeps (P := fun u => u.sched.plates.map (·.swept) = s.sched.plates.map (·.swept)) (fun i _ u hu => ?_) rfl
  rw [retarget, seen_comparePlate fun _ _ => rfl, ← hu]
  refine map_modAt (fun p => ?_) i _
  obtain ⟨stamp, h⟩ := retargeted_eq u.node.state u.muster.record p
  rw [h]

theorem seen_cancelOne {β : Type} {g : Plate → β} (hg : Plate.blindToRefresh g) (s : State) (i : Nat) :
    (cancelOne s i).sched.plates.map g = s.sched.plates.map g := by
  cases hon : onChain i s with
  | true => rw [cancelOne_marks hon]; rfl
  | false =>
    rw [cancelOne_requeues hon, requeueFront, seen_comparePlate hg]
    exact map_modAt (fun p => hg p .queued) i _

theorem seen_cancelLoads {β : Type} {g : Plate → β} (hg : Plate.blindToRefresh g) (s : State) :
    (cancelLoads s).sched.plates.map g = s.sched.plates.map g :=
  foldl_keeps (P := fun u => u.sched.plates.map g = s.sched.plates.map g) (fun i _ u hu => (seen_cancelOne hg u i).trans hu) rfl

theorem aimed_cancelLoads {s : State} {node : NodeState} {r : OrderRecord} (h : s.aimed node r) : (cancelLoads s).aimed node r :=
  aimed_iff.2 (forall_plates_of_seen (seen_cancelLoads (fun _ _ => rfl) s) (aimed_iff.1 h))

/-- A refresh in flight after the end of a step was in flight before it, or has started at its end. -/
theorem mem_flight_settle {s : State} {x : Refresh} (h : x ∈ (settle s).sched.flight) : x ∈ s.sched.flight ∨ s.fresh x.position x := by
  have hstart {u : State} (hx : x ∈ (startOne u).sched.flight) : x ∈ u.sched.flight ∨ u.fresh x.position x := by
    obtain ⟨hs, -⟩ | ⟨i, p, -, -, -, hp, hhealth, hs⟩ := startOne_cases u <;> rw [hs] at hx
    · exact .inl hx
    · rcases List.mem_append.1 hx with hx | hx
      · exact .inl hx
      · cases List.mem_singleton.1 hx
        exact .inr ⟨p, hp, hhealth, rfl⟩
  rw [flight_settle] at h
  rcases hstart h with h | h
  · exact hstart h
  · exact .inr (fresh_of_seen (seen_startOne blind_still s) h)

end Sys2Proof.Machine
end

