-- ==== Sys2Proof/Proofs/LevelChanges.lean ====
section
/-! PROOFS. A change of level, followed by every block (Table 7-3): the blocks' rules put together. -/

namespace Sys2Proof.Machine

/-! ### The stages of the change (log entry 14) -/

/-- The state in which the exchange has followed the level. -/
def State.exchanged (u : State) (old new : Level) : State :=
  exchangeLevel old new (if new = .muster then purgeProgramme (setEvent .level u) else setEvent .level u)

/-- The state in which the Monitor, the Route Engine and the Muster Controller have followed the level. -/
def State.worked (u : State) (old new : Level) : State := ownLevelWork old new (routeLevel old new (monitorLevel old new u))

theorem changeLevel_eq (old new : Level) (u : State) : changeLevel old new u =
    if new = .muster then cancelLoads (retargetAll ((u.exchanged old new).worked old new)) else retargetAll ((u.exchanged old new).worked old new) := rfl

/-- What the loads of a state at MUSTER are: cancelled, waiting for their transaction. -/
def State.loadsCancelled (s : State) : Prop := ∀ r ∈ s.sched.flight, r.driveTimer = none → r.cancelled = true

theorem writes_purge (new : Level) (u : State) : Writes [.queue, .buffer, .free, .flags] u (if new = .muster then purgeProgramme (setEvent .level u) else setEvent .level u) := by
  have hset : Writes [.queue, .buffer, .free, .flags] u (setEvent .level u) := writes_setEvent .level (.refl _ u) (by simp) (.inl nofun)
  split
  · exact writes_purgeProgramme hset (by simp)
  · exact hset

theorem writes_exchanged (old new : Level) (u : State) :
    Writes (Part.offered ++ [.records, .summaryTimer, .early, .answers, .flags]) u (u.exchanged old new) :=
  writes_exchangeLevel old new ((writes_purge new u).mono (by simp)) (by simp)

theorem event_exchanged (old new : Level) (u : State) : eventSet .level (u.exchanged old new) = true := by
  have hset := eventSet_setEvent .level u
  have hafter (v : State) : Writes (Part.offered ++ [.records, .summaryTimer, .early, .answers]) v (exchangeLevel old new v) :=
    writes_exchangeLevel old new (.refl _ v) (List.Subset.refl _)
  refine (hafter _).eventSet ?_
  split
  · exact (writes_purgeProgramme (.refl [.queue, .buffer, .free] _) (List.Subset.refl _)).eventSet hset
  · exact hset

/-- At MUSTER the send path is purged and the exchange stopped. -/
theorem exchanged_muster (old : Level) {new : Level} (hnew : new = .muster) (u : State) : let t := u.exchanged old new
    t.purged ∧ t.exch.answers = [] ∧ t.exch.active = none ∧ t.exch.summaryTimer = none ∧ t.exch.early = none
    ∧ t.exch.records = u.exch.records.map PubRecord.stopped := by
  subst hnew
  have hpurge : Writes [.queue, .buffer, .free, .flags] u (purgeProgramme (setEvent .level u)) := writes_purge .muster u
  have hpurged := purged_purgeProgramme (setEvent .level u)
  dsimp only
  rw [show u.exchanged old .muster = stopExchange (purgeProgramme (setEvent .level u)) from exchangeLevel_muster old _]
  rw [← hpurge.exch rfl]
  generalize purgeProgramme (setEvent .level u) = v at *
  exact ⟨purged_stopExchange hpurged, exch_stopExchange v⟩

theorem exchanged_starts {old new : Level} {u : State} (hlevel : level u = new) (hnew : new.calm = true) (hold : old.calm = false) (hrun : u.node.state = .run) :
    (∃ n, 22500 ≤ n ∧ n ≤ 37500 ∧ (u.exchanged old new).exch.summaryTimer = some { start := u.time.now, len := n })
    ∧ (u.bus.queue.length ≤ 1 → (u.exchanged old new).stands ⟨.programmeSummary, 255, u.bus.nextSeq, summaryPayload u.exch.records, [], false⟩
      ∧ (u.exchanged old new).bus.queue.length ≤ 2) := by
  have hbelow : new ≠ .muster := by
    rintro rfl
    cases hnew
  unfold State.exchanged
  rw [if_neg hbelow]
  exact summaries_start (s := setEvent .level u) hnew hlevel hold hrun

theorem queue_length_purgeProgramme (s : State) : (purgeProgramme s).bus.queue.length ≤ s.bus.queue.length :=
  (fillBuffer_queue_length _).trans (List.length_filter_le _ _)

theorem queue_length_stopExchange (s : State) : (stopExchange s).bus.queue.length = s.bus.queue.length := List.length_map _

/-- The exchange offers one frame at most, and the purge offers none. -/
theorem queue_length_exchanged (old new : Level) {u : State} (hroom : u.bus.queue.length < 8) : (u.exchanged old new).bus.queue.length ≤ u.bus.queue.length + 1 := by
  unfold State.exchanged exchangeLevel
  by_cases hmuster : new = .muster
  · rw [if_pos hmuster, if_pos hmuster, queue_length_stopExchange]
    exact (queue_length_purgeProgramme _).trans (Nat.le_succ _)
  · rw [if_neg hmuster, if_neg hmuster]
    (repeat' split)
    · exact Nat.le_succ _
    · exact queue_length_offer (summaryOffer (setEvent .level u)) (s := setEvent .level u) hroom
    · exact Nat.le_succ _

/-! ### What the change has done -/

/-- What every block has done at the end of the change, the plates compared and the loads cancelled. -/
structure LevelDone (old new : Level) (u w : State) : Prop where
  time : w.time = u.time
  node : w.node = u.node
  record : w.muster.record = u.muster.record
  event : eventSet .level w = true
  room : u.bus.queue.length ≤ 3 → w.bus.queue.length ≤ u.bus.queue.length + 5
  purged : new = .muster → w.purged
  exchangeStopped : new = .muster → w.exch.answers = [] ∧ w.exch.active = none ∧ w.exch.summaryTimer = none ∧ w.exch.early = none
    ∧ w.exch.records = u.exch.records.map PubRecord.stopped
  summariesStopped : new = .standDown → w.exch.summaryTimer = none ∧ w.exch.early = none
  summariesStarted : u.node.state = .run → old.calm = false → new.calm = true →
    (∃ n, 22500 ≤ n ∧ n ≤ 37500 ∧ w.exch.summaryTimer = some { start := u.time.now, len := n })
    ∧ (u.bus.queue.length ≤ 1 → w.stands ⟨.programmeSummary, 255, u.bus.nextSeq, summaryPayload u.exch.records, [], false⟩ ∧ w.bus.queue.length ≤ 6)
  presenceTimers : w.mon.neighbours.map (·.presenceTimer) = u.mon.neighbours.map (·.timerAt old new u.time.now)
  lifts : old = .muster ∨ new = .muster → ∀ n ∈ w.mon.neighbours, n.fixed.kind = .lift → n.passable = (!n.blocked && decide (new ≠ .muster))
  withdrawn : ∀ (i : Nat) (n m : Neighbour), u.mon.neighbours[i]? = some n → w.mon.neighbours[i]? = some m → n.passable = true → m.passable = false → w.avoids i
  advertTimer : old.alert ≠ new.alert → u.route.advertTimer.isSome = true →
    ∃ n, (if new.alert = true then 1500 ≤ n ∧ n ≤ 2500 else 7500 ≤ n ∧ n ≤ 12500) ∧ w.route.advertTimer = some { start := u.time.now, len := n }
  sweeps : w.sched.plates.map (·.swept) = u.sched.plates.map fun p => decide (new = .standDown) && p.swept
  reports : new = .muster → w.muster.pendingReports = []
    ∧ ((roles u).console = true → w.muster.roll = [] ∧ (u.muster.roll ≠ [] → eventSet .roll w = true))
    ∧ ((roles u).plates = true → participates u = true → w.muster.sweepRefresh = some { start := u.time.now, len := 30000 })
  sweepRefreshStopped : old = .muster → w.muster.sweepRefresh = none
  aimed : w.aimed u.node.state u.muster.record
  loads : new = .muster → w.loadsCancelled

/-- The plates and the loads at the end of the change. -/
theorem plates_changed (new : Level) (v : State) : let w := if new = .muster then cancelLoads (retargetAll v) else retargetAll v
    Writes Part.refreshed v w ∧ w.sched.plates.map (·.swept) = v.sched.plates.map (·.swept) ∧ w.aimed v.node.state v.muster.record
    ∧ (new = .muster → w.loadsCancelled) := by
  have hretarget : Writes Part.refreshed v (retargetAll v) := writes_retargetAll (.refl _ v) (by simp)
  have hswept := swept_retargetAll v
  have haimed := aimed_retargetAll v
  dsimp only
  generalize retargetAll v = x at *
  by_cases hmuster : new = .muster
  · rw [if_pos hmuster]
    exact ⟨hretarget.trans (writes_cancelLoads' x), (seen_cancelLoads (fun _ _ => rfl) x).trans hswept, aimed_cancelLoads haimed,
      fun _ r hr hload => (loads_cancelLoads x r hr hload).1⟩
  · rw [if_neg hmuster]
    exact ⟨hretarget, hswept, haimed, fun h => absurd h hmuster⟩

theorem writes_monitorLevel' (old new : Level) (s : State) : Writes (Part.offered ++ Part.advertised ++ [.neighbours, .flags]) s (monitorLevel old new s) :=
  writes_monitorLevel old new (.refl _ s) (List.Subset.refl _)

theorem changeLevel_done {old new : Level} {u : State} (hlevel : level u = new) (hne : new ≠ old) : LevelDone old new u (changeLevel old new u) := by
  have hexchanged := writes_exchanged old new u
  have hevent := event_exchanged old new u
  have hmuster (h : new = .muster) := exchanged_muster old h u
  have hstandDown : new = .standDown → (u.exchanged old new).exch.summaryTimer = none ∧ (u.exchanged old new).exch.early = none := by
    rintro rfl
    exact ⟨rfl, rfl⟩
  have hstarts := exchanged_starts (old := old) hlevel
  have hlength := @queue_length_exchanged old new u
  rw [changeLevel_eq]
  unfold State.worked
  generalize u.exchanged old new = e at *
  have hmonitor := writes_monitorLevel' old new e
  have htells := tells_monitorLevel old new e
  have htimers := presenceTimers_monitorLevel old new e
  have hlifts := lifts_monitorLevel hne (hexchanged.level.trans hlevel)
  have hwithdrawn {i : Nat} {n p : Neighbour} := withdrawn_monitorLevel (old := old) (new := new) (s := e) (i := i) (n := n) (m := p)
  have hruns := advertTimer_isSome_monitorLevel (s := e) old new
  generalize monitorLevel old new e = m at *
  have hroute : Writes [.advertTimer, .free] m (routeLevel old new m) := writes_routeLevel old new (.refl _ m) (List.Subset.refl _)
  have hadvert (hcross : old.alert ≠ new.alert) := advertTimer_routeLevel (s := m) hcross
  generalize routeLevel old new m = r at *
  have hown : Writes [.pendingReports, .sweepRefresh, .roll, .plates, .flags] r (ownLevelWork old new r) := writes_ownLevelWork old new (.refl _ r) (List.Subset.refl _)
  have hswept := swept_ownLevelWork old new r
  have hreports (h : new = .muster) := reports_ownLevelWork old h r
  have hstopped : old = .muster → (ownLevelWork old new r).muster.sweepRefresh = none := by
    rintro rfl
    exact sweepRefresh_ownLevelWork hne r
  generalize ownLevelWork old new r = o at *
  obtain ⟨hplates, hsweeps, haimed, hloads⟩ := plates_changed new o
  generalize (if new = .muster then cancelLoads (retargetAll o) else retargetAll o) = w at *
  have htail : Tells e 4 w := ((htells.write hroute rfl).write hown rfl).write hplates rfl
  have hafter : Writes (Part.offered ++ Part.advertised ++ [.neighbours, .flags, .pendingReports, .sweepRefresh, .roll] ++ Part.refreshed) e w :=
    (((hmonitor.mono (by simp)).trans (hroute.mono (by simp))).trans (hown.mono (by simp))).trans (hplates.mono (by simp))
  have hquiet : Writes ([.advertTimer, .free, .pendingReports, .sweepRefresh, .roll, .flags] ++ Part.refreshed) m w :=
    ((hroute.mono (by simp)).trans (hown.mono (by simp))).trans (hplates.mono (by simp))
  have hnow : e.time = u.time := hexchanged.time rfl
  have hmon : e.mon = u.mon := hexchanged.mon rfl
  have hroutes : e.route = u.route := hexchanged.route rfl
  have hneighbours : w.mon.neighbours = m.mon.neighbours := hquiet.same .neighbours rfl
  have hsource : Writes (Part.offered ++ Part.advertised ++ [.records, .summaryTimer, .early, .answers, .neighbours, .flags]) u r :=
    ((hexchanged.mono (by simp)).trans (hmonitor.mono (by simp))).trans (hroute.mono (by simp))
  have hbefore : Writes (Part.offered ++ Part.advertised ++ [.records, .summaryTimer, .early, .answers, .neighbours, .flags, .pendingReports, .sweepRefresh, .roll, .plates]) u o :=
    (hsource.mono (by simp)).trans (hown.mono (by simp))
  exact {
    time := (hafter.time rfl).trans hnow
    node := hafter.node.trans hexchanged.node
    record := hafter.record.trans hexchanged.record
    event := hafter.eventSet hevent
    room := fun hroom => by
      have hshort := hlength (by omega)
      exact (htail.queue_length (by omega)).trans (by omega)
    purged := fun h => htail.purged (hexchanged.level.trans (hlevel.trans h)) (hmuster h).1
    exchangeStopped := fun h => by
      obtain ⟨-, hanswers, hactive, htimer, hearly, hrecords⟩ := hmuster h
      exact ⟨(hafter.same .answers rfl).trans hanswers, htail.active hactive, (hafter.same .summaryTimer rfl).trans htimer,
        (hafter.same .early rfl).trans hearly, (hafter.same .records rfl).trans hrecords⟩
    summariesStopped := fun h => by
      obtain ⟨htimer, hearly⟩ := hstandDown h
      exact ⟨(hafter.same .summaryTimer rfl).trans htimer, (hafter.same .early rfl).trans hearly⟩
    summariesStarted := fun hrun hold hnew => by
      obtain ⟨⟨n, hlow, hhigh, htimer⟩, hfirst⟩ := hstarts hnew hold hrun
      refine ⟨⟨n, hlow, hhigh, (hafter.same .summaryTimer rfl).trans htimer⟩, fun hroom => ?_⟩
      obtain ⟨hstands, hshort⟩ := hfirst hroom
      exact ⟨htail.stands rfl rfl (by omega) hstands, (htail.queue_length (by omega)).trans (by omega)⟩
    presenceTimers := by rw [hneighbours, htimers, hmon, hnow]
    lifts := fun h => by
      rw [hneighbours]
      exact hlifts h
    withdrawn := fun i n p hn hp hpass hfall => by
      rw [← hmon] at hn
      rw [hneighbours] at hp
      exact hquiet.avoids rfl (hwithdrawn hn hp hpass hfall)
    advertTimer := fun hcross hrunning => by
      rw [← hroutes] at hrunning
      obtain ⟨n, hrange, htimer⟩ := hadvert hcross (hruns hrunning)
      rw [hmonitor.now, hnow] at htimer
      have hkept : w.route = r.route := (hplates.route rfl).trans (hown.route rfl)
      exact ⟨n, hrange, by rw [hkept, htimer]⟩
    sweeps := by rw [hsweeps, hswept, hsource.sched rfl]
    reports := fun h => by
      obtain ⟨hpending, hroll, hrefresh⟩ := hreports h
      rw [hsource.roles, show r.muster.roll = u.muster.roll from hsource.same .roll rfl] at hroll
      rw [hsource.roles, hsource.participates, hsource.now] at hrefresh
      refine ⟨(hplates.same .pendingReports rfl).trans hpending, fun hconsole => ?_, fun hrole hpart => (hplates.same .sweepRefresh rfl).trans (hrefresh hrole hpart)⟩
      obtain ⟨hempty, hset⟩ := hroll hconsole
      exact ⟨(hplates.same .roll rfl).trans hempty, fun hsome => hplates.eventSet (hset hsome)⟩
    sweepRefreshStopped := fun h => (hplates.same .sweepRefresh rfl).trans (hstopped h)
    aimed := by
      rw [hbefore.node, hbefore.record] at haimed
      exact haimed
    loads := hloads }

end Sys2Proof.Machine
end

