-- ==== Sys2Proof/Proofs/LevelFollowed.lean ====
section
/-! PROOFS. A change of level over the rest of its step: what every block has done at the end of it (Table 7-3). -/

namespace Sys2Proof.Machine

/-- The blocks that a change of level reaches are those of another state, whatever the order there. -/
structure State.sameBlocks (s u : State) : Prop where
  time : u.time = s.time
  node : u.node = s.node
  mon : u.mon = s.mon
  exch : u.exch = s.exch
  route : u.route = s.route
  sched : u.sched = s.sched
  queue : u.bus.queue = s.bus.queue
  roll : u.muster.roll = s.muster.roll

/-- What follows the change of level in its step, before the end of the step: the echo timer, and at most so many frames, none a programme frame. -/
structure Finishes (n : Nat) (w z : State) : Prop where
  told : Tells w n z
  time : z.time = w.time
  node : z.node = w.node
  record : z.muster.record = w.muster.record
  mon : z.mon = w.mon
  route : z.route = w.route
  sched : z.sched = w.sched
  exch : z.exch.answers = w.exch.answers ∧ z.exch.summaryTimer = w.exch.summaryTimer ∧ z.exch.early = w.exch.early ∧ z.exch.records = w.exch.records
  reports : z.muster.pendingReports = w.muster.pendingReports ∧ z.muster.roll = w.muster.roll ∧ z.muster.sweepRefresh = w.muster.sweepRefresh
  event : ∀ e, eventSet e w = true → eventSet e z = true

theorem Writes.finishes {n : Nat} {w z : State} (h : Writes (Part.offered ++ [.echoTimer]) w z) (ht : Tells w n z) : Finishes n w z where
  told := ht
  time := h.time rfl
  node := h.node
  record := h.record
  mon := h.mon rfl
  route := h.route rfl
  sched := h.sched rfl
  exch := ⟨h.same .answers rfl, h.same .summaryTimer rfl, h.same .early rfl, h.same .records rfl⟩
  reports := ⟨h.same .pendingReports rfl, h.same .roll rfl, h.same .sweepRefresh rfl⟩
  event := fun _ => h.eventSet

theorem Finishes.beside {n : Nat} {w v z : State} (h : Finishes n w v) (hz : v.beside z) : Finishes n w z := by
  obtain ⟨htold, htime, hnode, hrecord, hmon, hroute, hsched, hexch, hreports, hevent⟩ := h
  have htold' := htold.beside hz
  obtain ⟨q, p, rfl⟩ := hz
  exact ⟨htold', htime, hnode, hrecord, hmon, hroute, hsched, hexch, hreports, hevent⟩

theorem Finishes.trans {n m : Nat} {w v z : State} (h : Finishes n w v) (k : Finishes m v z) : Finishes (n + m) w z where
  told := h.told.trans k.told
  time := k.time.trans h.time
  node := k.node.trans h.node
  record := k.record.trans h.record
  mon := k.mon.trans h.mon
  route := k.route.trans h.route
  sched := k.sched.trans h.sched
  exch := by
    obtain ⟨hanswers, htimer, hearly, hrecords⟩ := h.exch
    obtain ⟨kanswers, ktimer, kearly, krecords⟩ := k.exch
    exact ⟨kanswers.trans hanswers, ktimer.trans htimer, kearly.trans hearly, krecords.trans hrecords⟩
  reports := by
    obtain ⟨hpending, hroll, hsweep⟩ := h.reports
    obtain ⟨kpending, kroll, ksweep⟩ := k.reports
    exact ⟨kpending.trans hpending, kroll.trans hroll, ksweep.trans hsweep⟩
  event := fun e he => k.event e (h.event e he)

/-- The end of a step leaves the loads cancelled, but for those that start. -/
theorem loads_settle {z : State} (h : z.loadsCancelled) : ∀ r ∈ (settle z).sched.flight, r.driveTimer = none →
    r.cancelled = true ∨ (r.next = .ident ∧ ∀ p, (settle z).sched.plates[r.position]? = some p → r.content = p.target) := by
  intro r hr hload
  obtain hr | ⟨p, hp, -, hr⟩ := mem_flight_settle hr
  · exact .inl (h r hr hload)
  · refine .inr ⟨by rw [hr]; rfl, fun q hq => ?_⟩
    obtain ⟨p', hp', htarget⟩ := plate_of_map (seen_settle_both (g := Plate.target) (fun _ _ => rfl) (fun _ _ => rfl) z).symm hq
    cases hp.symm.trans hp'
    rw [hr]
    exact htarget

theorem pendingReports_settle_nil {s : State} (h : s.muster.pendingReports = []) : (settle s).muster.pendingReports = [] := by
  have hrefresh : Writes Part.refreshed s (settleRefreshes s) := writes_settleRefreshes (.refl _ s) (List.Subset.refl _)
  have hnone : (settleRefreshes s).muster.pendingReports = [] := (hrefresh.same .pendingReports rfl).trans h
  have hidle : settleReports (settleRefreshes s) = settleRefreshes s := settleReports_idle (.inl hnone)
  have hafter : Writes [.answers, .active, .free, .engine, .plates, .lights, .line] (settleReports (settleRefreshes s)) (settle s) :=
    writes_settleAttention (writes_settleLights (writes_arbitrate (writes_settleAnswers (.refl _ _) (by simp)) (by simp)) (by simp)) (by simp)
  rw [hidle] at hafter
  exact (hafter.same .pendingReports rfl).trans hnone

/-- At the end of the step every block has followed the level. -/
theorem followsLevel {old new : Level} {s u w z : State} (hold : level s = old) (hlevel : level u = new) (hsame : s.sameBlocks u) (hdone : LevelDone old new u w)
    {n : Nat} (hn : n ≤ 1) (hfinish : Finishes n w z)
    (hecho : s.node.state = .run → u.muster.record.serial ≠ 0 →
      z.muster.echoTimer = some { start := s.time.now, len := if new = .normal then 60000 else 5000 }) :
    FollowsLevel s (settle z) := by
  have hend := writes_settle' z
  have hlights : (settle z).lights = lampsNow (settle z) := lightsSound_settled _
  have hloads := loads_settle (z := z)
  have haimed := aimed_settle (s := z) (node := u.node.state) (r := u.muster.record)
  have hsweeps : (settle z).sched.plates.map (·.swept) = z.sched.plates.map (·.swept) := seen_settle_both (fun _ _ => rfl) (fun _ _ => rfl) z
  have hpurged := purged_settle (s := z)
  have hidle := exch_settle_idle (s := z)
  have hstands {f : TxFrame} := stands_settle (s := z) (f := f)
  have hpending := pendingReports_settle_nil (s := z)
  generalize settle z = t at *
  obtain ⟨htold, htime, hnode, hrecord, hmon, hroute, hsched, ⟨hanswers, htimer, hearly, hrecords⟩, ⟨hreports, hroll, hsweep⟩, hevent⟩ := hfinish
  have hlevelw : level w = new := (congrArg (·.level) hdone.record).trans hlevel
  have hlevelz : level z = new := (congrArg (·.level) hrecord).trans hlevelw
  have hlevelt : level t = new := hend.level.trans hlevelz
  have hmont : t.mon = w.mon := (hend.mon rfl).trans hmon
  have hroutet : t.route = w.route := (hend.route rfl).trans hroute
  have hrecordt : t.muster.record = u.muster.record := hend.record.trans (hrecord.trans hdone.record)
  have hstarted (hrun : s.node.state = .run) (hs : (level s).calm = false) (ht : (level t).calm = true) :=
    hdone.summariesStarted (hsame.node ▸ hrun) (hold ▸ hs) (hlevelt ▸ ht)
  exact {
    purged := fun h => hpurged (hlevelz.trans (hlevelt ▸ h)) (htold.purged (hlevelw.trans (hlevelt ▸ h)) (hdone.purged (hlevelt ▸ h)))
    exchangeStopped := fun h => by
      obtain ⟨hnone, hactive, hstopped, hnever, hidled⟩ := hdone.exchangeStopped (hlevelt ▸ h)
      rw [hidle (htold.active hactive) (hanswers.trans hnone)]
      refine ⟨hanswers.trans hnone, htold.active hactive, htimer.trans hstopped, hearly.trans hnever, ?_⟩
      rw [hrecords, hidled, hsame.exch]
      rfl
    summariesStopped := fun h => by
      obtain ⟨hstopped, hnever⟩ := hdone.summariesStopped (hlevelt ▸ h)
      exact ⟨(hend.same .summaryTimer rfl).trans (htimer.trans hstopped), (hend.same .early rfl).trans (hearly.trans hnever)⟩
    summariesStarted := fun hrun hs ht => by
      obtain ⟨⟨n, hlow, hhigh, hruns⟩, hfirst⟩ := hstarted hrun hs ht
      rw [hsame.time] at hruns
      rw [hsame.queue, hsame.exch] at hfirst
      refine ⟨⟨n, hlow, hhigh, (hend.same .summaryTimer rfl).trans (htimer.trans hruns)⟩, fun hroom => ⟨u.bus.nextSeq, ?_⟩⟩
      obtain ⟨hstand, hlength⟩ := hfirst hroom
      have hafter := htold.queue_length (by omega)
      exact hstands rfl (.inl (by omega)) (htold.stands rfl rfl (by omega) hstand)
    presenceTimers := by
      rw [hmont, hdone.presenceTimers, hsame.mon, hsame.time, hlevelt, hold]
      rfl
    lifts := fun h => by
      rw [hmont, hlevelt]
      rw [hold, hlevelt] at h
      exact hdone.lifts h
    withdrawn := fun i n m hn hm hpass hfall => by
      rw [hmont] at hm
      rw [← hsame.mon] at hn
      rw [hroutet]
      exact hdone.withdrawn i n m hn hm hpass hfall
    advertTimer := fun hcross hruns => by
      rw [hold, hlevelt] at hcross
      rw [hroutet, hlevelt, ← hsame.time]
      exact hdone.advertTimer hcross (by rw [hsame.route]; exact hruns)
    sweeps := by
      rw [hsweeps, hsched, hdone.sweeps, hsame.sched, hlevelt]
    reports := fun h => by
      obtain ⟨hnone, hconsole, hplates⟩ := hdone.reports (hlevelt ▸ h)
      have hroles : roles u = roles s := by rw [roles, hsame.node, roles]
      have hpart : participates u = participates s := by rw [participates, hsame.node, participates]
      rw [hroles, hsame.roll] at hconsole
      rw [hroles, hpart, hsame.time] at hplates
      refine ⟨hpending (hreports.trans hnone), fun hrole => ?_, fun hrole hp => (hend.same .sweepRefresh rfl).trans (hsweep.trans (hplates hrole hp))⟩
      obtain ⟨hempty, hset⟩ := hconsole hrole
      exact ⟨(hend.same .roll rfl).trans (hroll.trans hempty), fun hsome => hend.eventSet (hevent _ (hset hsome))⟩
    sweepRefreshStopped := fun h => (hend.same .sweepRefresh rfl).trans (hsweep.trans (hdone.sweepRefreshStopped (hold ▸ h)))
    targets := by
      have haim := hdone.aimed
      rw [State.aimed, ← hsched] at haim
      rw [hrecordt, ← hsame.node]
      exact haimed haim
    loads := fun h => by
      have hcancelled := hdone.loads (hlevelt ▸ h)
      rw [State.loadsCancelled, ← hsched] at hcancelled
      exact hloads hcancelled
    echo := fun hrun hserial => by
      rw [hrecordt] at hserial
      rw [hlevelt]
      exact (hend.same .echoTimer rfl).trans (hecho hrun hserial)
    lights := hlights }

end Sys2Proof.Machine
end

