-- ==== Sys2Proof/Proofs/OrderTimers.lean ====
section
/-! PROOFS. The timers of the muster order (R114 to R116): O39. -/

namespace Sys2Proof.Machine

/-! ### The echo timer after a change of level (R115) -/

theorem writes_restartEcho' (s : State) : Writes [.echoTimer] s (restartEcho s) := writes_restartEcho (.refl _ s) (List.Subset.refl _)

theorem finishes_restartEcho (w : State) : Finishes 0 w (restartEcho w) :=
  ((writes_restartEcho' w).mono (by simp)).finishes ((writes_restartEcho' w).tells rfl)

/-- The echo timer after a change of level. -/
theorem LevelDone.echo {old new : Level} {u w : State} (h : LevelDone old new u w) (hlevel : level u = new) (hrun : u.node.state = .run)
    (hserial : u.muster.record.serial ≠ 0) :
    (restartEcho w).muster.echoTimer = some { start := u.time.now, len := if new = .normal then 60000 else 5000 } := by
  have hlevelw : level w = new := (congrArg (·.level) h.record).trans hlevel
  rw [echoTimer_restartEcho (by rw [h.node, hrun]) (by rw [h.record]; exact hserial), h.time, hlevelw]

/-! ### The stand-down timer (R114) -/

/-- The state in which the stand-down period has run out. -/
def State.stoodDown (s : State) : State :=
  s.modMuster fun m => { m with record := { m.record with level := .normal, lapsed := true }, standDown := none }

theorem lapse_eq (s : State) : lapse s = restartEcho (changeLevel .standDown .normal s.stoodDown) := rfl

theorem exec_standDownTimer {s : State} (hdue : timerDue s.muster.standDown s = true) (hlevel : s.muster.record.level = .standDown) :
    exec .standDownTimer s = .next (settle (lapse s)) := by
  have hcond : (timerDue s.muster.standDown s && decide (level s = .standDown)) = true := by
    rw [hdue, Bool.true_and, decide_eq_true_eq]
    exact hlevel
  exact congrArg Host.Outcome.next (if_pos hcond)

abbrev Part.levelled : List Part := Part.offered ++ Part.advertised ++ Part.refreshed ++ [.records, .summaryTimer, .early, .answers, .neighbours, .echoTimer,
  .pendingReports, .sweepRefresh, .roll, .flags]

theorem writes_lapse (s : State) : Writes Part.levelled s.stoodDown (lapse s) := by
  rw [lapse_eq]
  exact writes_restartEcho (writes_changeLevel _ _ (.refl _ _) (by simp)) (by simp)

/-! ### The echo timer and the join-prompt echo (R115, R116) -/

/-- The offer of the current order as an echo. -/
def echoOffer (s : State) : Offer := ⟨.musterOrder, 255, orderPayload s.muster.record.order true, [], false⟩

theorem offerEcho_stands {s : State} (hpart : participates s = true) (hsound : s.queueSound) (hroom : hasRoom .musterOrder s.bus.queue = true) :
    (offerEcho s).stands ⟨.musterOrder, 255, s.bus.nextSeq, orderPayload s.muster.record.order true, [], false⟩ :=
  stands_offer_room (o := echoOffer s) rfl (not_refused hpart rfl) hsound hroom

/-- An order that stands is urgent: the end of the step leaves it. -/
theorem order_settle {s : State} {payload : List Octet} {seq : Octet} (h : s.stands ⟨.musterOrder, 255, seq, payload, [], false⟩) :
    (settle s).stands ⟨.musterOrder, 255, seq, payload, [], false⟩ := stands_settle rfl (.inr (Nat.le_refl 2)) h

theorem steady_offerEcho (s : State) : (offerEcho s).steady = s.steady := steady_offer (echoOffer s) s

theorem steady_restartEcho {s : State} (hrun : s.node.state = .run) (hserial : s.muster.record.serial ≠ 0) :
    (restartEcho s).steady = { s.steady with echoTimer := some ⟨s.time.now, if level s = .normal then 60000 else 5000⟩ } := by
  unfold restartEcho
  rw [if_pos ⟨hrun, hserial⟩, ← echoTime_eq]
  rfl

theorem exec_echoTimer {s : State} (hdue : timerDue s.muster.echoTimer s = true) : exec .echoTimer s = .next (settle (restartEcho (offerEcho s))) :=
  congrArg Host.Outcome.next (if_pos hdue)

theorem exec_joinPromptEcho {s : State} (hdue : timerDue s.muster.joinEcho s = true) :
    exec .joinPromptEcho s = .next (settle (offerEcho (s.modMuster fun m => { m with joinEcho := none }))) := congrArg Host.Outcome.next (if_pos hdue)

/-- Settles O39. -/
theorem standDownAndEchoTimers : Obligations.StandDownAndEchoTimers := by
  unfold Obligations.StandDownAndEchoTimers
  refine ⟨fun s hdue hlevel => ?standDown, fun s hdue hrun hserial => ?echo, fun s hdue => ?prompted⟩
  case standDown =>
    have hexec := exec_standDownTimer hdue hlevel
    have hdone := changeLevel_done (old := .standDown) (new := .normal) (u := s.stoodDown) rfl (by decide)
    have hfollows := followsLevel (s := s) (u := s.stoodDown) hlevel rfl ⟨rfl, rfl, rfl, rfl, rfl, rfl, rfl, rfl⟩ hdone (Nat.zero_le 1) (finishes_restartEcho _) (hdone.echo rfl)
    rw [← lapse_eq] at hfollows
    have hlapse := writes_lapse s
    have hend := writes_settle' (lapse s)
    have hevent := (writes_restartEcho' (changeLevel .standDown .normal s.stoodDown)).eventSet hdone.event
    rw [← lapse_eq] at hevent
    generalize settle (lapse s) = t at *
    generalize lapse s = w at *
    exact ⟨t, hexec, hend.record.trans hlapse.record, (hend.same .standDown rfl).trans (hlapse.same .standDown rfl), hend.eventSet hevent, hfollows,
      hend.highestSeen.trans hlapse.highestSeen, (hend.time rfl).trans (hlapse.time rfl), (hend.store rfl).trans (hlapse.store rfl),
      hend.node.trans hlapse.node, hend.port.trans hlapse.port, hend.supply.trans hlapse.supply⟩
  case echo =>
    have hpart : participates s = true := by simp [participates, hrun]
    have hsteady := steady_offerEcho s
    have hnode : (offerEcho s).node = s.node := congrArg Steady.node hsteady
    have hrecord : (offerEcho s).muster.record = s.muster.record := congrArg Steady.record hsteady
    have htime : (offerEcho s).time = s.time := congrArg Steady.time hsteady
    have hstands := offerEcho_stands (s := s) hpart
    refine ⟨_, exec_echoTimer hdue, fun hsound hroom => ?_, ?_⟩
    · exact order_settle ((writes_restartEcho' (offerEcho s)).stands rfl (hstands hsound hroom))
    · rw [steady_settle, steady_restartEcho (by rw [hnode, hrun]) (by rw [hrecord]; exact hserial), hsteady, htime, level, hrecord]
  case prompted =>
    refine ⟨_, exec_joinPromptEcho hdue, fun hpart hsound hroom => ?_, ?_⟩
    · exact order_settle (offerEcho_stands (s := s.modMuster fun m => { m with joinEcho := none }) hpart hsound hroom)
    · rw [steady_settle, steady_offerEcho]
      rfl

end Sys2Proof.Machine
end

