-- ==== Sys2Proof/Proofs/OrderAdopted.lean ====
section
/-! PROOFS. An order adopted (R101, R108, R111 to R113): O37. -/

namespace Sys2Proof.Machine

/-! ### What the record is told to the other blocks -/

/-- The state in which the record of an adopted order stands, the ROUTE event set when the redirects turn a route. -/
def State.adopting (s : State) (o : Order) : State :=
  setEventIf (redirectsTurn (putRecord (recordFor s o) s).route.table s.muster.record.redirects (recordFor s o).redirects) .route (putRecord (recordFor s o) s)

section
variable (o : Order) (s : State)

theorem adoptOrder_eq : adoptOrder o s =
    (let u := s.adopting o
    let v := if (recordFor s o).level ≠ s.muster.record.level then changeLevel s.muster.record.level (recordFor s o).level u
      else if (recordFor s o).drill ≠ s.muster.record.drill ∨ (recordFor s o).redirects ≠ s.muster.record.redirects then retargetAll u else u
    if (recordFor s o).level ≠ s.muster.record.level ∨ (recordFor s o).serial ≠ s.muster.record.serial then restartEcho v else v) := rfl

theorem writes_adopting : Writes [.flags] (putRecord (recordFor s o) s) (s.adopting o) := writes_setEventIf _ _ (.refl _ _) (List.Subset.refl _) (.inl nofun)

theorem record_adopting : (s.adopting o).muster.record = recordFor s o := (writes_adopting o s).record

theorem record_adoptOrder : (adoptOrder o s).muster.record = recordFor s o := (writes_adoptOrder o s).record

theorem highestSeen_adoptOrder : (adoptOrder o s).muster.highestSeen = s.muster.highestSeen := (writes_adoptOrder o s).highestSeen

theorem standDown_adoptOrder : (adoptOrder o s).muster.standDown =
    if (recordFor s o).level = .standDown then some { start := s.time.now, len := 120000 } else none := (writes_adoptOrder o s).same .standDown rfl

theorem sameBlocks_adopting : s.sameBlocks (s.adopting o) := by
  have hput : s.sameBlocks (putRecord (recordFor s o) s) := ⟨rfl, rfl, rfl, rfl, rfl, rfl, rfl, rfl⟩
  have hevent := writes_adopting o s
  generalize putRecord (recordFor s o) s = u at *
  generalize s.adopting o = v at *
  exact {
    time := (hevent.time rfl).trans hput.time
    node := hevent.node.trans hput.node
    mon := (hevent.mon rfl).trans hput.mon
    exch := (hevent.exch rfl).trans hput.exch
    route := (hevent.route rfl).trans hput.route
    sched := (hevent.sched rfl).trans hput.sched
    queue := (hevent.same .queue rfl).trans hput.queue
    roll := (hevent.same .roll rfl).trans hput.roll }

end

theorem State.sameBlocks.trans {r s t : State} (h : r.sameBlocks s) (k : s.sameBlocks t) : r.sameBlocks t where
  time := k.time.trans h.time
  node := k.node.trans h.node
  mon := k.mon.trans h.mon
  exch := k.exch.trans h.exch
  route := k.route.trans h.route
  sched := k.sched.trans h.sched
  queue := k.queue.trans h.queue
  roll := k.roll.trans h.roll

section
variable {o : Order} {s : State}

/-- An order that changes the level gives every block the change, and restarts the echo timer. -/
theorem adoptOrder_changes (h : (recordFor s o).level ≠ s.muster.record.level) :
    adoptOrder o s = restartEcho (changeLevel s.muster.record.level (recordFor s o).level (s.adopting o)) := by
  rw [adoptOrder_eq]
  dsimp only
  rw [if_pos h, if_pos (.inl h)]

/-- At a changed level every block has followed it at the end of the step that adopts the order. -/
theorem adoptOrder_follows {r z : State} {n : Nat} (hblocks : r.sameBlocks s) (hrecord : r.muster.record = s.muster.record)
    (h : (recordFor s o).level ≠ s.muster.record.level) (hn : n ≤ 1) (hfinish : Finishes n (adoptOrder o s) z)
    (hecho : z.muster.echoTimer = (adoptOrder o s).muster.echoTimer) :
    eventSet .level z = true ∧ FollowsLevel r (settle z) := by
  have hlevel : level (s.adopting o) = (recordFor s o).level := congrArg (·.level) (record_adopting o s)
  have hsame := hblocks.trans (sameBlocks_adopting o s)
  have hold : level r = s.muster.record.level := congrArg (·.level) hrecord
  rw [adoptOrder_changes h] at hfinish hecho
  generalize s.adopting o = u at *
  have hdone := changeLevel_done hlevel h
  have htimer := hdone.echo hlevel
  have hrestart := finishes_restartEcho (changeLevel s.muster.record.level (recordFor s o).level u)
  generalize changeLevel s.muster.record.level (recordFor s o).level u = w at *
  refine ⟨hfinish.event _ (hrestart.event _ hdone.event), followsLevel hold hlevel hsame hdone (by omega) (hrestart.trans hfinish) fun hrun hserial => ?_⟩
  rw [hecho, htimer (by rw [hsame.node, hrun]) hserial, hsame.time]

/-- A changed drill flag, redirects or level gives every plate its new target (R113, R145). -/
theorem aimed_adoptOrder (h : (recordFor s o).drill ≠ s.muster.record.drill ∨ (recordFor s o).redirects ≠ s.muster.record.redirects) :
    (adoptOrder o s).aimed s.node.state (recordFor s o) := by
  have hrestart (v : State) (hv : v.aimed s.node.state (recordFor s o)) : (restartEcho v).aimed s.node.state (recordFor s o) := by
    rw [State.aimed, (writes_restartEcho' v).sched rfl]
    exact hv
  have hnode := (sameBlocks_adopting o s).node
  have hrecord := record_adopting o s
  by_cases hlevel : (recordFor s o).level ≠ s.muster.record.level
  · rw [adoptOrder_changes hlevel]
    have hdone := changeLevel_done (congrArg (·.level) hrecord) hlevel
    have haimed := hdone.aimed
    rw [hnode, hrecord] at haimed
    exact hrestart _ haimed
  · have haimed := aimed_retargetAll (s.adopting o)
    rw [hnode, hrecord] at haimed
    rw [adoptOrder_eq]
    dsimp only
    rw [if_neg hlevel, if_pos h]
    split
    · exact hrestart _ haimed
    · exact haimed

end

/-! ### MUSTER_ORDER -/

theorem freeMuster_muster (w : State) : (freeMuster w).muster = w.muster := rfl

theorem freeMuster_sched (w : State) : (freeMuster w).sched = w.sched := rfl

theorem finishes_freeMuster (w : State) : Finishes 0 w (freeMuster w) :=
  ((Writes.refl (Part.offered ++ [.echoTimer]) w).finishes .same).beside ⟨_, _, rfl⟩

/-- The state in which a greater order, or one of equal serial that outranks the record, is adopted: in the second case the conflict is counted. -/
theorem takeOrder_adopts {payload : List Octet} {o : Order} {s : State} (hread : readOrder payload = some o) (hok : orderOk s o = true)
    (hzone : inZone o.zones s = true) :
    (s.muster.record.serial < o.serial → takeOrder payload s = adoptOrder o (s.orderSeen payload o))
    ∧ (o.serial = s.muster.record.serial → identicalTo o s.muster.record = false → s.muster.record.level.rank < o.level.rank →
      takeOrder payload s = adoptOrder o (countConflict (s.orderSeen payload o))) := by
  rw [takeOrder_own_zone hread hok hzone]
  exact ⟨fun h => compareOrder_greater (s := s.orderSeen payload o) h, fun h hother hrank => compareOrder_outranks (s := s.orderSeen payload o) h hother hrank⟩

/-- The state from which an order is adopted: the order read and seen, a conflict counted. -/
structure State.readyFor (s x : State) (o : Order) : Prop where
  blocks : s.sameBlocks x
  record : x.muster.record = s.muster.record
  made : recordFor x o = recordFor s o
  highestSeen : x.muster.highestSeen = max s.muster.highestSeen o.serial

theorem readyFor_orderSeen (payload : List Octet) (o : Order) (s : State) : s.readyFor (s.orderSeen payload o) o :=
  ⟨⟨rfl, rfl, rfl, rfl, rfl, rfl, rfl, rfl⟩, rfl, rfl, rfl⟩

theorem readyFor_countConflict (payload : List Octet) (o : Order) (s : State) : s.readyFor (countConflict (s.orderSeen payload o)) o := by
  have hseen := readyFor_orderSeen payload o s
  generalize s.orderSeen payload o = x at *
  obtain ⟨⟨htime, hnode, hmon, hexch, hroute, hsched, hqueue, hroll⟩, hrecord, hmade, hseen⟩ := hseen
  exact ⟨⟨htime, hnode, hmon, hexch, hroute, hsched, hqueue, hroll⟩, hrecord, hmade, hseen⟩

/-- What the adoption of an order leaves at the end of the step, however it came to be adopted. -/
theorem orderAdopted {s x : State} {o : Order} (h : s.readyFor x o) : let t := settle (freeMuster (adoptOrder o x))
    t.muster.record = recordFor s o ∧ t.muster.highestSeen = max s.muster.highestSeen o.serial
    ∧ t.muster.standDown = (if t.muster.record.level = .standDown then some { start := s.time.now, len := 120000 } else none)
    ∧ (t.muster.record.level ≠ s.muster.record.level → eventSet .level t = true ∧ FollowsLevel s t)
    ∧ (t.muster.record.drill ≠ s.muster.record.drill ∨ t.muster.record.redirects ≠ s.muster.record.redirects →
        ∀ p ∈ t.sched.plates, p.target = targetFor s.node.state t.muster.record p) := by
  have hrecord := record_adoptOrder o x
  have hseen := highestSeen_adoptOrder o x
  have hstandDown := standDown_adoptOrder o x
  have hfollows {z : State} (hchanged) := adoptOrder_follows (o := o) (z := z) h.blocks h.record.symm hchanged (Nat.zero_le 1)
  have haimed := aimed_adoptOrder (s := x) (o := o)
  rw [h.made, h.record] at hfollows haimed
  rw [h.made] at hrecord hstandDown
  rw [h.blocks.time] at hstandDown
  rw [h.blocks.node] at haimed
  rw [h.highestSeen] at hseen
  dsimp only
  generalize adoptOrder o x = w at *
  have hfollowed (hchanged) := hfollows hchanged (finishes_freeMuster w) rfl
  rw [← freeMuster_muster w] at hrecord hseen hstandDown
  rw [State.aimed, ← freeMuster_sched w] at haimed
  generalize freeMuster w = z at *
  have hend := writes_settle' z
  have hsettled := aimed_settle (s := z) (node := s.node.state) (r := recordFor s o)
  generalize settle z = t at *
  have hrecordt := hend.record.trans hrecord
  rw [hrecordt]
  refine ⟨rfl, hend.highestSeen.trans hseen, (hend.same .standDown rfl).trans hstandDown, fun hchanged => ?_, fun hchanged => hsettled (haimed hchanged)⟩
  obtain ⟨hevent, hall⟩ := hfollowed hchanged
  exact ⟨hend.eventSet hevent, hall⟩

/-- What stands over MUSTER_ORDER besides: the other queues, the port and the supply. -/
theorem orderTaken_besides (f : RxFrame) (s : State) : let t := settle (freeMuster (takeOrder f.payload s))
    t.bus.timeQ = s.bus.timeQ ∧ t.bus.programmeQ = s.bus.programmeQ ∧ t.bus.routeQ = s.bus.routeQ ∧ t.port = s.port ∧ t.supply = s.supply := by
  obtain ⟨r, n, hkept⟩ := kept_takeOrder f.payload s
  have hend := writes_settle' (freeMuster (takeOrder f.payload s))
  exact ⟨hend.timeQ.trans (congrArg Kept.timeQ hkept), hend.programmeQ.trans (congrArg Kept.programmeQ hkept), hend.routeQ.trans (congrArg Kept.routeQ hkept),
    hend.port.trans (congrArg Kept.port hkept), hend.supply.trans (congrArg Kept.supply hkept)⟩

/-- The conflicts counted, and ORDER FAULT, at the end of the step that adopts an order. -/
theorem conflicts_orderAdopted (o : Order) (x : State) : let t := settle (freeMuster (adoptOrder o x))
    t.counters.orderConflicts = x.counters.orderConflicts ∧ (eventSet .orderFault x = true → eventSet .orderFault t = true) := by
  have hadopt := writes_adoptOrder o x
  have hput : (putRecord (recordFor x o) x).counters = x.counters ∧ (putRecord (recordFor x o) x).events = x.events := ⟨rfl, rfl⟩
  have hfree : (freeMuster (adoptOrder o x)).counters = (adoptOrder o x).counters ∧ (freeMuster (adoptOrder o x)).events = (adoptOrder o x).events := ⟨rfl, rfl⟩
  have hend := writes_settle' (freeMuster (adoptOrder o x))
  dsimp only
  generalize settle (freeMuster (adoptOrder o x)) = t at *
  generalize freeMuster (adoptOrder o x) = z at *
  generalize adoptOrder o x = w at *
  generalize putRecord (recordFor x o) x = u at *
  have hconflicts : w.counters.orderConflicts = u.counters.orderConflicts := (congrArg Counters.orderConflicts (hadopt.counters_eq rfl) :)
  have hconflicts' : t.counters.orderConflicts = z.counters.orderConflicts := (congrArg Counters.orderConflicts (hend.counters_eq rfl) :)
  refine ⟨by rw [hconflicts', hfree.1, hconflicts, hput.1], fun h => hend.eventSet ?_⟩
  rw [eventSet, hfree.2, ← eventSet]
  refine hadopt.eventSet ?_
  rw [eventSet, hput.2, ← eventSet]
  exact h

/-- Settles O37. -/
theorem greaterOrderIsAdopted : Obligations.GreaterOrderIsAdopted := by
  unfold Obligations.GreaterOrderIsAdopted
  intro f rest o s hq hkind hpart hread hok hzone hgreater
  have hexec := exec_musterOrder hq hkind hpart
  obtain ⟨hless, houtranks⟩ := takeOrder_adopts hread hok hzone
  obtain ⟨hmusterQ, htime, hstore, hnode⟩ := orderTaken_stands hq
  obtain ⟨htimeQ, hprogrammeQ, hrouteQ, hport, hsupply⟩ := orderTaken_besides f s
  refine ⟨_, hexec, ?_⟩
  rcases hgreater with hgreater | ⟨hequal, hother, hrank⟩
  · obtain ⟨hrecord, hseen, hstandDown, hlevel, htargets⟩ := orderAdopted (readyFor_orderSeen f.payload o s)
    obtain ⟨hconflicts, -⟩ := conflicts_orderAdopted o (s.orderSeen f.payload o)
    rw [hless hgreater] at hmusterQ htime hstore hnode htimeQ hprogrammeQ hrouteQ hport hsupply ⊢
    exact ⟨hrecord, hseen, hstandDown, hlevel, htargets, fun _ => hconflicts, fun hequal => absurd hgreater (by omega),
      hmusterQ, htimeQ, hprogrammeQ, hrouteQ, htime, hstore, hnode, hport, hsupply⟩
  · obtain ⟨hrecord, hseen, hstandDown, hlevel, htargets⟩ := orderAdopted (readyFor_countConflict f.payload o s)
    obtain ⟨hconflicts, hfault⟩ := conflicts_orderAdopted o (countConflict (s.orderSeen f.payload o))
    rw [houtranks hequal hother hrank] at hmusterQ htime hstore hnode htimeQ hprogrammeQ hrouteQ hport hsupply ⊢
    exact ⟨hrecord, hseen, hstandDown, hlevel, htargets, fun hless => absurd hless (by omega), fun _ => ⟨hconflicts, hfault (eventSet_setEvent .orderFault _)⟩,
      hmusterQ, htimeQ, hprogrammeQ, hrouteQ, htime, hstore, hnode, hport, hsupply⟩

end Sys2Proof.Machine
end

