-- ==== Sys2Proof/Proofs/OrdersIssued.lean ====
section
/-! PROOFS. ISSUE ORDER (R117, Table 7-5): O40. -/

namespace Sys2Proof.Machine

/-! ### The checks (Table 7-5) -/

theorem tooShort_issueOrder {args : List Octet} (h : issueArgsShort args = false) : tooShort 0x0E args = false := by
  have hfour : ¬ args.length < 4 := by
    intro hless
    simp [issueArgsShort, hless] at h
  simp [tooShort, argsNeeded, h, Nat.not_lt.1 hfour]

theorem exec_issueOrder {args : List Octet} {s u : State} {r : List Octet} (hpart : participates s = true) (hport : s.port.state = .idle)
    (hlong : issueArgsShort args = false) (hdo : doIssueOrder args s = (u, r)) : exec (.issueOrder args) s = .next (settle (u.answered (0x0E :: args) r)) := by
  have hrun := portRun_owner (code := 0x0E) (args := args) (doIssueOrder args) (not_reset_of_participates hpart) hport (stateAllows_of_participates _ hpart)
    (tooShort_issueOrder hlong)
  rw [hdo, answer_eq] at hrun
  exact congrArg (fun v => Host.Outcome.next (settle v)) hrun

section
variable {own : Nat} {args : List Octet} {o : Order} {s : State}

theorem issuingStation_none (hown : ownStation s = some own) (h : (roles s).authority = false ∨ own ∉ s.muster.authorities) : issuingStation s = none := by
  unfold issuingStation
  rw [hown]
  refine if_neg fun hyes => ?_
  simp only [Bool.and_eq_true, List.contains_iff_mem] at hyes
  rcases h with h | h
  · rw [h] at hyes
    exact Bool.false_ne_true hyes.1
  · exact h hyes.2

theorem issuingStation_some (hown : ownStation s = some own) (hrole : (roles s).authority = true) (hlisted : own ∈ s.muster.authorities) :
    issuingStation s = some own := by
  unfold issuingStation
  rw [hown]
  exact if_pos (by simp [hrole, hlisted])

theorem doIssueOrder_notPermitted (h : issuingStation s = none) : doIssueOrder args s = (s, [0x02]) := by
  unfold doIssueOrder
  rw [h]
  rfl

theorem doIssueOrder_notReady (h : issuingStation s = some own) (hjoining : s.node.state = .joining) : doIssueOrder args s = (s, [0x01]) := by
  unfold doIssueOrder
  rw [h]
  exact if_pos hjoining

/-- In RUN the order is read. -/
theorem doIssueOrder_run (h : issuingStation s = some own) (hrun : s.node.state = .run) : doIssueOrder args s =
    match issuedOrder own args s with
    | none => (s, respond .invalid [])
    | some o =>
      if o.zones = 0 ∨ 4 < (octetAt args 1).toNat ∨ redirectsOk s.route.table o.redirects = false then (s, respond .invalid [])
      else if s.muster.highestSeen = 65535 then (s, respond .exhausted [])
      else issueTaken o s := by
  unfold doIssueOrder
  rw [h]
  exact if_neg (by rw [hrun]; decide)

theorem doIssueOrder_unread (h : issuingStation s = some own) (hrun : s.node.state = .run) (hnone : issuedOrder own args s = none) :
    doIssueOrder args s = (s, [0x03]) := by
  rw [doIssueOrder_run h hrun, hnone]
  rfl

theorem doIssueOrder_invalid (h : issuingStation s = some own) (hrun : s.node.state = .run) (hsome : issuedOrder own args s = some o)
    (hbad : o.zones = 0 ∨ 4 < (octetAt args 1).toNat ∨ redirectsOk s.route.table o.redirects = false) : doIssueOrder args s = (s, [0x03]) := by
  rw [doIssueOrder_run h hrun, hsome]
  exact if_pos hbad

theorem doIssueOrder_exhausted (h : issuingStation s = some own) (hrun : s.node.state = .run) (hsome : issuedOrder own args s = some o)
    (hgood : ¬ (o.zones = 0 ∨ 4 < (octetAt args 1).toNat ∨ redirectsOk s.route.table o.redirects = false)) (hfull : s.muster.highestSeen = 65535) :
    doIssueOrder args s = (s, [0x05]) := by
  rw [doIssueOrder_run h hrun, hsome]
  exact (if_neg hgood).trans (if_pos hfull)

theorem doIssueOrder_taken (h : issuingStation s = some own) (hrun : s.node.state = .run) (hsome : issuedOrder own args s = some o)
    (hgood : ¬ (o.zones = 0 ∨ 4 < (octetAt args 1).toNat ∨ redirectsOk s.route.table o.redirects = false)) (hroom : s.muster.highestSeen ≠ 65535) :
    doIssueOrder args s = issueTaken o s := by
  rw [doIssueOrder_run h hrun, hsome]
  exact (if_neg hgood).trans (if_neg hroom)

theorem issuedOrder_none (h : levelOf ((octetAt args 0).toNat % 8) = none) : issuedOrder own args s = none := by
  rw [issuedOrder, h]
  rfl

/-- The fields of an order issued. -/
theorem issuedOrder_some (h : issuedOrder own args s = some o) : o =
    { authority := own, serial := s.muster.highestSeen + 1, level := o.level,
      drill := (octetAt args 0).getLsbD 3, zones := rdHalf (octetAt args 2) (octetAt args 3),
      issue := if s.time.isSet then some ⟨s.time.ship.day, s.time.ship.minute, s.time.ship.second⟩ else none, redirects := o.redirects } := by
  obtain ⟨l, -, rfl⟩ := Option.map_eq_some_iff.1 h
  rfl

/-! ### The order carried out -/

/-- The state in which an order issued has raised highest-seen. -/
def State.issuing (s : State) (o : Order) : State := s.modMuster fun m => { m with highestSeen := max m.highestSeen o.serial }

theorem readyFor_issuing (o : Order) (s : State) : s.readyFor (s.issuing o) o := ⟨⟨rfl, rfl, rfl, rfl, rfl, rfl, rfl, rfl⟩, rfl, rfl, rfl⟩

theorem acceptOrder_elsewhere (h : inZone o.zones s = false) : acceptOrder o s = s.issuing o := by
  have hzone : inZone o.zones (s.issuing o) = false := h
  exact if_neg (hzone ▸ Bool.false_ne_true)

theorem acceptOrder_adopts (h : inZone o.zones s = true) (hless : s.muster.record.serial < o.serial) : acceptOrder o s = adoptOrder o (s.issuing o) := by
  have hzone : inZone o.zones (s.issuing o) = true := h
  exact (if_pos hzone).trans (compareOrder_greater (s := s.issuing o) hless)

/-- What an order's adoption offers: a summary, an advert and the segment states. -/
theorem queue_length_adoptOrder (hroom : s.bus.queue.length ≤ 3) : (adoptOrder o s).bus.queue.length ≤ s.bus.queue.length + 5 := by
  have hqueue := (sameBlocks_adopting o s).queue
  have hrecord := record_adopting o s
  have hecho (v : State) : (restartEcho v).bus.queue = v.bus.queue := (writes_restartEcho' v).same .queue rfl
  by_cases hlevel : (recordFor s o).level ≠ s.muster.record.level
  · rw [adoptOrder_changes hlevel, hecho, ← hqueue]
    exact (changeLevel_done (congrArg (·.level) hrecord) hlevel).room (by rw [hqueue]; exact hroom)
  · have haimed (v : State) : (retargetAll v).bus.queue = v.bus.queue := (writes_retargetAll (.refl [.plates, .waiting] v) (List.Subset.refl _)).same .queue rfl
    rw [adoptOrder_eq]
    dsimp only
    rw [if_neg hlevel]
    (repeat' split) <;> simp only [hecho, haimed, hqueue] <;> omega

theorem queue_length_acceptOrder (hroom : s.bus.queue.length ≤ 3) (hless : s.muster.record.serial < o.serial) :
    (acceptOrder o s).bus.queue.length ≤ s.bus.queue.length + 5 := by
  cases hzone : inZone o.zones s with
  | true =>
    rw [acceptOrder_adopts hzone hless]
    exact queue_length_adoptOrder (s := s.issuing o) hroom
  | false =>
    rw [acceptOrder_elsewhere hzone]
    exact Nat.le_add_right _ _

/-- The offer of an order issued. -/
def orderOffer (o : Order) : Offer := ⟨.musterOrder, 255, orderPayload o false, [], false⟩

/-- The response to an order issued: its serial, and whether the node adopted it. -/
def issuedResponse (o : Order) (s : State) : List Octet := 0x00 :: le16 o.serial ++ [if inZone o.zones s then 1 else 0]

theorem issueTaken_eq (hless : s.muster.record.serial < o.serial) :
    issueTaken o s = ((offer (orderOffer o) (acceptOrder o s)).1, issuedResponse o s) := by
  unfold issueTaken issuedResponse
  dsimp only
  rw [decide_eq_true hless, Bool.and_true]
  cases inZone o.zones s <;> rfl

/-- The state at the end of an order issued, before the end of the step. -/
def State.issued (s : State) (o : Order) (args : List Octet) : State :=
  ((offer (orderOffer o) (acceptOrder o s)).1).answered (0x0E :: args) (issuedResponse o s)

theorem finishes_issued (w : State) (o : Order) (block response : List Octet) :
    Finishes 1 w ((offer (orderOffer o) w).1.answered block response) ∧
    ((offer (orderOffer o) w).1.answered block response).muster.echoTimer = w.muster.echoTimer := by
  have hw : Writes Part.offered w (offer (orderOffer o) w).1 := writes_offer _ (.refl _ w) (List.Subset.refl _)
  exact ⟨((hw.mono (by simp)).finishes (tells_offer _ w rfl)).beside ⟨_, _, rfl⟩, hw.same .echoTimer rfl⟩

end

section
variable {o : Order} {s : State}

theorem acceptOrder_kept (hless : s.muster.record.serial < o.serial) : (acceptOrder o s).muster.highestSeen = max s.muster.highestSeen o.serial
    ∧ (acceptOrder o s).port = s.port ∧ (acceptOrder o s).node = s.node := by
  cases hzone : inZone o.zones s with
  | true =>
    rw [acceptOrder_adopts hzone hless]
    have hadopt := writes_adoptOrder o (s.issuing o)
    exact ⟨hadopt.highestSeen, hadopt.port, hadopt.node⟩
  | false =>
    rw [acceptOrder_elsewhere hzone]
    exact ⟨rfl, rfl, rfl⟩

/-- The node after an order issued, at the end of the step. -/
theorem issued_kept (args : List Octet) (hless : s.muster.record.serial < o.serial) : let t := settle (s.issued o args)
    t.muster.highestSeen = max s.muster.highestSeen o.serial
    ∧ t.port = { s.port with state := .ready, command := 0x0E :: args, response := issuedResponse o s } := by
  obtain ⟨hseen, hport, -⟩ := acceptOrder_kept hless
  unfold State.issued
  generalize acceptOrder o s = w at *
  have hoffer : Writes Part.offered w (offer (orderOffer o) w).1 := writes_offer _ (.refl _ w) (List.Subset.refl _)
  generalize (offer (orderOffer o) w).1 = v at *
  have hend := writes_settle' (v.answered (0x0E :: args) (issuedResponse o s))
  refine ⟨hend.highestSeen.trans (hoffer.highestSeen.trans hseen), hend.port.trans ?_⟩
  show { v.port with state := .ready, command := 0x0E :: args, response := issuedResponse o s } = _
  rw [hoffer.port, hport]

/-- The order issued stands, with room for what a change of level offers. -/
theorem issued_stands (args : List Octet) (hpart : participates s = true) (hless : s.muster.record.serial < o.serial)
    (hroom : s.bus.queue.length ≤ 2) : ∃ q, (settle (s.issued o args)).stands ⟨.musterOrder, 255, q, orderPayload o false, [], false⟩ := by
  obtain ⟨-, -, hnode⟩ := acceptOrder_kept hless
  have hlength := queue_length_acceptOrder (o := o) (s := s) (by omega) hless
  unfold State.issued
  generalize acceptOrder o s = w at *
  have hpartw : participates w = true := by rw [participates, hnode, ← participates, hpart]
  have hstands := stands_offer_self (o := orderOffer o) (s := w) rfl (not_refused hpartw rfl) (by omega)
  generalize (offer (orderOffer o) w).1 = v at *
  exact ⟨_, order_settle (s := v.answered _ _) (stands_of_eq rfl rfl hstands)⟩

/-- An order for the node's zone is adopted, and a changed level followed. -/
theorem issued_adopts (args : List Octet) (hzone : inZone o.zones s = true) (hless : s.muster.record.serial < o.serial) :
    let t := settle (s.issued o args)
    t.muster.record = recordFor s o ∧ (t.muster.record.level ≠ s.muster.record.level → eventSet .level t = true ∧ FollowsLevel s t) := by
  have hready := readyFor_issuing o s
  unfold State.issued
  rw [acceptOrder_adopts hzone hless]
  generalize s.issuing o = x at *
  have hrecord := record_adoptOrder o x
  have hfollows {z : State} (hchanged) := adoptOrder_follows (o := o) (z := z) hready.blocks hready.record.symm hchanged (Nat.le_refl 1)
  rw [hready.made, hready.record] at hfollows
  rw [hready.made] at hrecord
  generalize adoptOrder o x = w at *
  obtain ⟨hfinish, hecho⟩ := finishes_issued w o (0x0E :: args) (issuedResponse o s)
  generalize (offer (orderOffer o) w).1.answered (0x0E :: args) (issuedResponse o s) = z at *
  have hend := writes_settle' z
  have hrecordt := hend.record.trans (hfinish.record.trans hrecord)
  dsimp only
  rw [hrecordt]
  refine ⟨rfl, fun hchanged => ?_⟩
  obtain ⟨hevent, hall⟩ := hfollows hchanged hfinish hecho
  exact ⟨hend.eventSet hevent, hall⟩

/-- An order for another zone leaves the record. -/
theorem issued_elsewhere (args : List Octet) (hzone : inZone o.zones s = false) : (settle (s.issued o args)).muster.record = s.muster.record := by
  unfold State.issued
  rw [acceptOrder_elsewhere hzone]
  have hrecord : (s.issuing o).muster.record = s.muster.record := rfl
  generalize s.issuing o = w at *
  obtain ⟨hfinish, -⟩ := finishes_issued w o (0x0E :: args) (issuedResponse o s)
  exact (writes_settle' _).record.trans (hfinish.record.trans hrecord)

end

/-- Settles O40. -/
theorem issueOrderTakesNextSerial : Obligations.IssueOrderTakesNextSerial := by
  unfold Obligations.IssueOrderTakesNextSerial
  intro own args s hpart hport hlong hown
  dsimp only
  have hrefuse {r : Octet} (hdo : doIssueOrder args s = (s, [r])) : ∃ t, exec (.issueOrder args) s = .next t
      ∧ t.steady = { s.steady with port := { s.port with state := .ready, command := 0x0E :: args, response := [r] } } :=
    ⟨_, exec_issueOrder hpart hport hlong hdo, steady_refused keepsSteady_settle _ _ s⟩
  refine ⟨fun h => hrefuse (doIssueOrder_notPermitted (issuingStation_none hown h)), fun hrole hlisted => ?_⟩
  have hmay := issuingStation_some hown hrole hlisted
  refine ⟨fun hjoining => hrefuse (doIssueOrder_notReady hmay hjoining), fun hrun => ⟨fun hnone => hrefuse (doIssueOrder_unread hmay hrun (issuedOrder_none hnone)),
    fun o hsome => ⟨fun hbad => hrefuse (doIssueOrder_invalid hmay hrun hsome hbad), fun hzones hcount hredirects => ?_⟩⟩⟩
  have hgood : ¬ (o.zones = 0 ∨ 4 < (octetAt args 1).toNat ∨ redirectsOk s.route.table o.redirects = false) := by
    rintro (h | h | h)
    · exact hzones h
    · omega
    · rw [hredirects] at h
      cases h
  refine ⟨fun hfull => hrefuse (doIssueOrder_exhausted hmay hrun hsome hgood hfull), fun hroom hserial => ?_⟩
  have hfields := issuedOrder_some hsome
  have hnext : o.serial = s.muster.highestSeen + 1 := congrArg Order.serial hfields
  have hauthority : o.authority = own := congrArg Order.authority hfields
  have hless : s.muster.record.serial < o.serial := by omega
  have hdo := (doIssueOrder_taken hmay hrun hsome hgood (by omega)).trans (issueTaken_eq hless)
  obtain ⟨hseen, hanswer⟩ := issued_kept (o := o) (s := s) args hless
  have hstands := issued_stands (o := o) (s := s) args hpart hless
  have hadopts (hzone) := issued_adopts (o := o) (s := s) args hzone hless
  have helsewhere := issued_elsewhere (o := o) (s := s) args
  refine ⟨settle (s.issued o args), exec_issueOrder hpart hport hlong hdo, ?_, ?_, hfields, fun hzone => ?_, fun hlevel => ?_, helsewhere, hstands⟩
  · rw [hseen]
    omega
  · rw [hanswer, issuedResponse, hnext]
  · rw [(hadopts hzone).1, recordFor, hauthority, hnext]
  · cases hzone : inZone o.zones s with
    | true => exact (hadopts hzone).2 hlevel
    | false =>
      rw [helsewhere hzone] at hlevel
      exact absurd rfl hlevel

end Sys2Proof.Machine
end
